-- ==== Sys2Proof/Word.lean ====
section
/-! DEFINITION. Bytes, words and channel numbers of the 8C40, and a row of eight like things, one per channel. -/

namespace Sys2Proof

/-- One byte on the ring or on a lane (0-6-1: bit 7 is the most significant). -/
abbrev Byte := BitVec 8

/-- One 16-bit word, high byte first where it travels (0-6-1). -/
abbrev Word := BitVec 16

/-- A channel number, 0..7. -/
abbrev Chan := Fin 8

/-- High byte of a word. -/
def Word.hi (w : Word) : Byte := w.extractLsb' 8 8

/-- Low byte of a word. -/
def Word.lo (w : Word) : Byte := w.extractLsb' 0 8

/-- The word whose high byte is `h` and low byte `l`. -/
def Word.of (h l : Byte) : Word := h ++ l

/-- Eight like things, one for each channel. -/
structure PerChan (α : Type) where
  c0 : α
  c1 : α
  c2 : α
  c3 : α
  c4 : α
  c5 : α
  c6 : α
  c7 : α
deriving DecidableEq, Repr

namespace PerChan

variable {α β : Type}

/-- The thing of channel `c`. -/
def get (v : PerChan α) (c : Chan) : α :=
  match c with
  | 0 => v.c0
  | 1 => v.c1
  | 2 => v.c2
  | 3 => v.c3
  | 4 => v.c4
  | 5 => v.c5
  | 6 => v.c6
  | 7 => v.c7

/-- One thing for each channel, by its number. -/
def ofFn (f : Chan → α) : PerChan α :=
  ⟨f 0, f 1, f 2, f 3, f 4, f 5, f 6, f 7⟩

/-- The same thing for every channel. -/
def const (x : α) : PerChan α := ⟨x, x, x, x, x, x, x, x⟩

/-- `v` with the thing of channel `c` replaced. -/
def set (v : PerChan α) (c : Chan) (x : α) : PerChan α :=
  ofFn fun d => if d = c then x else v.get d

/-- `v` with the thing of channel `c` changed by `f`. -/
def modify (v : PerChan α) (c : Chan) (f : α → α) : PerChan α :=
  ofFn fun d => if d = c then f (v.get d) else v.get d

@[simp] theorem get_ofFn (f : Chan → α) (c : Chan) : (ofFn f).get c = f c := by
  fin_cases c <;> rfl

@[simp] theorem get_const (x : α) (c : Chan) : (const x).get c = x := by
  fin_cases c <;> rfl

@[simp] theorem get_set (v : PerChan α) (c d : Chan) (x : α) :
    (v.set c x).get d = if d = c then x else v.get d := by
  simp [set]

@[simp] theorem get_modify (v : PerChan α) (c d : Chan) (f : α → α) :
    (v.modify c f).get d = if d = c then f (v.get d) else v.get d := by
  simp [modify]

/-- Two rows are equal when they agree on every channel. -/
@[ext] theorem ext_get {v w : PerChan α} (h : ∀ c, v.get c = w.get c) : v = w := by
  cases v; cases w
  simp only [PerChan.mk.injEq]
  exact ⟨h 0, h 1, h 2, h 3, h 4, h 5, h 6, h 7⟩

end PerChan

end Sys2Proof
end

