-- ==== Sys2Proof/Syntax.lean ====
section
/-! DEFINITION. The commands of the 8C40: one constructor of `Instr` for each row of the table of operations and events, with
the operands it carries. -/

namespace Sys2Proof

/-- A cell of 16 bytes (R178, R204): header byte 0, station byte 1, payload bytes 2 to 13 as six words, high byte first,
and the CRC of bytes 14 and 15. -/
structure Cell where
  header : Byte
  station : Byte
  p0 : Word
  p1 : Word
  p2 : Word
  p3 : Word
  p4 : Word
  p5 : Word
  crc : Word
deriving DecidableEq, Repr

/-- A management request as the ring port hands it to the decoder (R186, R204): the channel field of its header, which the
reply keeps, then tag, target, index and four data words. The kind is the command itself. -/
structure Request where
  chanField : BitVec 3 := 0
  tag : Byte := 0
  target : Byte := 0
  index : Byte := 0
  w0 : Word := 0
  w1 : Word := 0
  w2 : Word := 0
  w3 : Word := 0
deriving DecidableEq, Repr

/-- The payload fields of a SET cell as they stand in it (R34, R204). -/
structure SetPayload where
  cycle : Word
  iq : Word
  id : Word
  mode : Byte
  limit : Word
deriving DecidableEq, Repr

/-- The symbol that ends a frame on a burst line (R206). -/
inductive FrameEnd where
  | endSymbol
  | startSymbol
  | idleSymbol
deriving DecidableEq, Repr

/-- A frame on a burst line (R62, R206): the bytes after its start symbol, what ended it, and whether a byte of it had a
line-code error. -/
structure Frame where
  bytes : List Byte
  ending : FrameEnd := .endSymbol
  lineError : Bool := false
deriving DecidableEq, Repr

/-- A control symbol on the ring (R178, R203). -/
inductive RingSymbol where
  | startSymbol
  | endSymbol
  | idleSymbol
deriving DecidableEq, Repr

/-- The three lines of an encoder. -/
inductive EncLine where
  | a
  | b
  | z
deriving DecidableEq, Repr

/-- An input that is sampled at the tick and filtered (R95, R107). -/
inductive Pin where
  | enc (c : Chan) (l : EncLine)
  | inhN
deriving DecidableEq, Repr

/-- The three phases of a bridge. -/
inductive PhaseId where
  | a
  | b
  | c
deriving DecidableEq, Repr

/-- Which order a SYNC arrival takes where the rules allow either: the cycle number recorded before the raises of the
arrival or after them (R187), and a pending swap before the other actions or after them (R175). -/
structure SyncOrder where
  cycleFirst : Bool := true
  swapFirst : Bool := false
deriving DecidableEq, Repr

/-- The commands, one for each row of opcode_table.json, in its order. -/
inductive Instr where
  /-- POWER_ON: release of RST_N with the five strap levels (R139, R179). -/
  | powerOn (straps : BitVec 5)
  /-- RESTART request (R200). -/
  | restart (r : Request)
  /-- MASTER_VALLEY (R77); `lossFirst` says whether a RING_LOSS condition of this valley is taken before its channel
  valleys. -/
  | masterValley (lossFirst : Bool)
  /-- MASTER_CREST (R77). -/
  | masterCrest
  /-- RING_CYCLE_START (R77). -/
  | ringCycleStart
  /-- CORRECTION_END (R78). -/
  | correctionEnd
  /-- PENDING_SETTINGS_EFFECT (R82). -/
  | pendingSettingsEffect
  /-- RING_LOSS (R102). -/
  | ringLoss
  /-- SYNC_ARRIVAL (R187) of a cell with this cycle number, `elapsed` ticks after the command before it. -/
  | syncArrival (cycle : Word) (elapsed : Nat) (order : SyncOrder)
  /-- SET_ARRIVAL (R184): an undamaged SET for this station with T clear, naming channel `ch`. -/
  | setArrival (ch : Chan) (p : SetPayload)
  /-- DAMAGED_CELL (R181): a cell; bit k of `errors` says that byte k came with a line-code error and is of unknown value
  (R178, R203). -/
  | damagedCell (cell : Cell) (errors : BitVec 16)
  /-- CUT_CELL (R178): a control symbol after `got` bytes of a cell. -/
  | cutCell (got : Nat) (symbol : RingSymbol)
  /-- FORWARDED_CELL (R182). -/
  | forwardedCell (cell : Cell)
  /-- READ_ENTRY request (R163). -/
  | readEntry (r : Request)
  /-- WRITE_ENTRY request (R164). -/
  | writeEntry (r : Request)
  /-- COPY_BANK request (R166). -/
  | copyBank (r : Request)
  /-- SWAP_BANKS request (R169). -/
  | swapBanks (r : Request)
  /-- CONFIGURE request (R82). -/
  | configure (r : Request)
  /-- READ_STATUS request (R192). -/
  | readStatus (r : Request)
  /-- ENABLE request (R125). -/
  | enable (r : Request)
  /-- DISABLE request (R128). -/
  | disable (r : Request)
  /-- ACK request (R154). -/
  | ack (r : Request)
  /-- SET_COUNT request (R114). -/
  | setCount (r : Request)
  /-- ARM_INDEX request (R119). -/
  | armIndex (r : Request)
  /-- BAD_KIND: a request of the unknown kind `kind` (R189). -/
  | badKind (kind : Byte) (r : Request)
  /-- COPY_COMPLETION (R166). -/
  | copyCompletion
  /-- SWAP_EFFECT (R175). -/
  | swapEffect
  /-- BURST (R63): a frame ends on the lane of channel `lane`. -/
  | burst (lane : Chan) (f : Frame)
  /-- RUN_START (R1). -/
  | runStart
  /-- RUN_COMPLETION (R30). -/
  | runCompletion
  /-- CHARGING_BEGIN (R127). -/
  | chargingBegin (ch : Chan)
  /-- END_OF_CHARGING (R127). -/
  | endOfCharging (ch : Chan)
  /-- STOPPING_END (R129). -/
  | stoppingEnd (ch : Chan)
  /-- COMPARE_LOAD (R91). -/
  | compareLoad (ch : Chan)
  /-- COMPARES_STALE (R93). -/
  | comparesStale (ch : Chan)
  /-- SETPOINT_STALE (R134). -/
  | setpointStale (ch : Chan)
  /-- VOLT_SAT (R25). -/
  | voltSat (ch : Chan)
  /-- LOCK_REACHED (R101). -/
  | lockReached
  /-- FILTERED_CHANGE (R107): the new filtered levels of the inputs of one encoder that change at one tick; `stepFirst`
  says whether a decoder step of this tick is taken before an index edge of it (R116). -/
  | filteredChange (ch : Chan) (a b z : Option Bool) (stepFirst : Bool)
  /-- STARTING_LEVEL (R107). -/
  | startingLevel (pin : Pin) (level : Bool)
  /-- INH_N_LOW (R95). -/
  | inhNLow
  /-- INH_N_HIGH (R96). -/
  | inhNHigh
  /-- COUNTER_PASSES_COMPARE (R85). -/
  | counterPassesCompare (ch : Chan) (ph : PhaseId)
  /-- DEAD_TIME_ELAPSED (R86). -/
  | deadTimeElapsed (ch : Chan) (ph : PhaseId)
  /-- RAW_SAMPLE_CHANGE (R107): the pin has this level from the next tick on. -/
  | rawSampleChange (pin : Pin) (level : Bool)
  /-- BYTE_OUTSIDE_CELL (R178); none stands for a line-code error, ten bits that are no symbol (R203). -/
  | byteOutsideCell (b : Option Byte)
deriving DecidableEq, Repr

end Sys2Proof
end

