-- ==== Sys2Proof/Decode.lean ====
section
/-! DEFINITION. The command a word of the table spells. No row of opcode_table.json gives bits (its 46 rows carry no fixed
bits and no fields), so no word spells a command. The cells of the ring, which do have a layout, are read in
Machine/Ring.lean by R182 and R204. -/

namespace Sys2Proof

/-- The command a word of `nbits` bits spells by the table's bits: none, since no row gives any (log 26). -/
def decodeTableWord (_nbits _w : Nat) : Option Instr := none

end Sys2Proof
end

