-- ==== Sys2Proof/Config.lean ====
section
/-! DEFINITION. The free values: constants with no body, applied to the running number `State.free`, or to the one
that a run took at its start (`Run.free`). Nothing in Lean can say what they are, so whatever is proved of the model holds
for every value of them. -/

namespace Sys2Proof

/-- FREE VALUE (log 13). Whether a run whose channel was given zero integrators while it executed reads the integrators
of its start (true) or the zeros (false) in stage 6: R19 names the start of stage 6 and no rule gives its moment. -/
opaque Config.stageSixIsEarly : Nat → Bool

/-- FREE VALUE (log 14). How many further groups a copy had moved when a RESTART abandons it (R166, R168). -/
opaque Config.copyProgress : Nat → Nat

/-- FREE VALUE (log 15). The fine count of a follower for a leader's run whose strobe record holds none. -/
opaque Config.followerFine : Nat → Nat

/-- FREE VALUE (log 15). The revolution count of a follower for a leader's run whose strobe record holds none. -/
opaque Config.followerRev : Nat → BitVec 16

/-- FREE VALUE (log 3, 7, 24). The order of two things that fall on one tick of the idle block, where the rules give the
outcome of either order and no command says which is taken (R116; R102 against R92). -/
opaque Config.tickOrder : Nat → Bool

end Sys2Proof
end

