-- ==== Sys2Proof/Machine/Arith.lean ====
section
/-! DEFINITION. The arithmetic words of 0-6-3 and R6: rounding, saturation, clamping, wrapping, the integer square root. -/

namespace Sys2Proof.Machine

/-- `x` rounded at 2^k: 2^(k-1) is added and the floor of the quotient by 2^k taken (0-6-3, R6). -/
def roundAt (k : Nat) (x : Int) : Int := (x + 2 ^ (k - 1)) / 2 ^ k

/-- `x` limited to lo..hi. -/
def clampIn (lo hi x : Int) : Int := max lo (min hi x)

/-- `x` clamped to -L..L (0-6-3). -/
def clampTo (L x : Int) : Int := clampIn (-L) L x

/-- `x` saturated to -32768..32767 (0-6-3). -/
def sat16 (x : Int) : Int := clampIn (-32768) 32767 x

/-- `x` saturated to the signed 32-bit range (R19). -/
def sat32 (x : Int) : Int := clampIn (-2147483648) 2147483647 x

/-- `x` as a signed 16-bit difference, wrapped into -32768..32767 (R14, R55). -/
def wrap16 (x : Int) : Int := (x + 32768) % 65536 - 32768

/-- The quotient of `x` by `y` truncated toward zero (0-6-3). -/
def truncDiv (x y : Int) : Int := x.tdiv y

/-- Bit `k` downward of the integer square root of `x`, given the bits above it in `r`. -/
def isqrtFrom : Nat → Nat → Nat → Nat
  | 0, _, r => r
  | k + 1, x, r => isqrtFrom k x (if (r + 2 ^ k) * (r + 2 ^ k) ≤ x then r + 2 ^ k else r)

/-- The largest integer whose square does not exceed `x` (0-6-3), for `x` below 2^32. -/
def isqrt (x : Nat) : Nat := isqrtFrom 16 x 0

/-- `n + 1`, staying at `top` once there (0-6-3, saturating count). -/
def satSucc (top n : Nat) : Nat := min top (n + 1)

/-- `x` as a word: the low 16 bits, two's complement. -/
def wordOfInt (x : Int) : Word := BitVec.ofInt 16 x

/-- `n` as a word: the low 16 bits. -/
def wordOfNat (n : Nat) : Word := BitVec.ofNat 16 n

/-- A word built of fields, each a bit position and a value (R204, R208). -/
def wordOfFields (l : List (Nat × Nat)) : Word :=
  wordOfNat ((l.map fun f => f.2 * 2 ^ f.1).sum)

/-- A mark as a bit value: 1 for set (R202). -/
def markBit (b : Bool) : Nat := if b then 1 else 0

/-- The two words of an unsigned 32-bit quantity, read high word first (R202). -/
def twoWords (h l : Word) : Nat := h.toNat * 65536 + l.toNat

/-- The two words of a signed 32-bit quantity, read high word first (R202). -/
def twoWordsSigned (h l : Word) : Int := (h ++ l).toInt

end Sys2Proof.Machine
end

