-- ==== Sys2Proof/Machine/State.lean ====
section
/-! DEFINITION. Everything the 8C40 holds, block by block, as plain data, and the part right after power-on. Field comments
name the rule of the spec that gives the piece of state. -/

namespace Sys2Proof.Machine

/-! ### Channel supervisor (R123) -/

/-- The six channel states (R123). -/
inductive ChanState where
  | off
  | charge
  | run
  | hold
  | stopping
  | trip
deriving DecidableEq, Repr

/-- The hold cause set (R123): each cause is present at most once. -/
structure Causes where
  stale : Bool := false
  ring : Bool := false
  routed : Bool := false
deriving DecidableEq, Repr

/-- What the channel supervisor holds for a channel (R123). -/
structure Supervisor where
  st : ChanState := .off
  causes : Causes := {}
  chargeCount : Nat := 0
  missed : Nat := 0
  setSeen : Bool := false
deriving DecidableEq, Repr

/-! ### Position counters (R106) and the input filter (R107) -/

/-- A fine count and a revolution count, read together (R106). -/
structure Counts where
  fine : Nat := 0
  rev : Word := 0
deriving DecidableEq, Repr

/-- The filter of one input (R107): last raw sample, number of equal samples in a row up to 3, filtered level. `pin` is the
level that the outside holds at the pin; the spec gives it none at power-on (log 34). -/
structure Filter where
  pin : Bool := false
  raw : Option Bool := none
  count : Nat := 0
  level : Option Bool := none
deriving DecidableEq, Repr

/-- One position counter (R106). `dec` holds the decoder levels of A and B, which become known together (R108). -/
structure Position where
  fa : Filter := {}
  fb : Filter := {}
  fz : Filter := {}
  dec : Option (Bool × Bool) := none
  fine : Nat := 0
  rev : Word := 0
  latched : Option Counts := none
  captured : Option Counts := none
  captures : Nat := 0
  armed : Bool := false
deriving DecidableEq, Repr

/-! ### Sense intake (R59) and run queue (R65) -/

/-- The record of a strobe (R60, R61). -/
structure StrobeRec where
  st : ChanState := .off
  own : Counts := {}
  follower : Option Counts := none
  countMark : Bool := false
deriving DecidableEq, Repr

/-- One sense lane (R59); `strobeOut` is the word of the last strobe frame it sent (R206). -/
structure Lane where
  seq : BitVec 4 := 0
  expected : Bool := false
  arrived : Bool := false
  strobe : Option StrobeRec := none
  strobeOut : Option Word := none
deriving DecidableEq, Repr

/-- Words 1 to 8 of an accepted burst (R65, R206). -/
structure BurstWords where
  a1 : Word := 0
  a2 : Word := 0
  a3 : Word := 0
  b1 : Word := 0
  b2 : Word := 0
  b3 : Word := 0
  dc : Word := 0
  temp : Word := 0
deriving DecidableEq, Repr

/-- A run entry (1-1-1, R65): the burst and the lane's strobe record with it. `current` is the model's own mark (log 17):
the entry came from the lane's latest strobe. -/
structure Entry where
  chan : Chan
  words : BurstWords := {}
  strobe : StrobeRec := {}
  late : Bool := false
  current : Bool := true
deriving DecidableEq, Repr

/-! ### Reference stage (R34, R39) and pair runtime (R53) -/

/-- The flux-current modes (2-1-1). -/
inductive IdMode where
  | zero
  | given
  | auto
deriving DecidableEq, Repr

/-- A SET payload as the mailbox keeps it (R34). -/
structure Payload where
  cycle : Word := 0
  iq : Int := 0
  id : Int := 0
  mode : IdMode := .zero
  limit : Nat := 0
deriving DecidableEq, Repr

/-- The reference state of a channel (R39). -/
structure RefState where
  raw : Int := 0
  base : Int := 0
  target : Int := 0
  step : Nat := 0
  mode : IdMode := .zero
  idHeld : Int := 0
  limit : Nat := 0
  takenCycle : Option Word := none
deriving DecidableEq, Repr

/-- Mailbox and reference state of a channel (R34, R39). -/
structure Reference where
  mailbox : Option Payload := none
  ref : RefState := {}
deriving DecidableEq, Repr

/-- The pair runtime of a slot (R53). -/
structure PairRuntime where
  shareL : Int := 0
  shareF : Int := 0
  mode : IdMode := .zero
  idValue : Int := 0
  limit : Nat := 0
  written : Bool := false
deriving DecidableEq, Repr

/-! ### Loop engine (R5) -/

/-- The speed history of a channel, when its present mark is set (R5, R15). -/
structure History where
  theta : Nat := 0
  counts : Counts := {}
deriving DecidableEq, Repr

/-- The last-run record (R5). -/
structure LastRun where
  completed : Bool := false
  control : Bool := false
  iA : Int := 0
  iB : Int := 0
  id : Int := 0
  iq : Int := 0
  theta : Nat := 0
  dc : Nat := 0
  temp : Nat := 0
  fine : Nat := 0
  delta : Int := 0
  currentLimited : Bool := false
  voltageLimited : Bool := false
deriving DecidableEq, Repr

/-- What the loop engine holds for a channel (R5). -/
structure LoopChan where
  accD : Int := 0
  accQ : Int := 0
  history : Option History := none
  vsat : Nat := 0
  last : LastRun := {}
deriving DecidableEq, Repr

/-! ### Parameter store (R159) -/

/-- A group of four words (8-2). -/
structure Group where
  w0 : Word := 0
  w1 : Word := 0
  w2 : Word := 0
  w3 : Word := 0
deriving DecidableEq, Repr

/-- One bank: tables 0 to 4 (8-2). Entry k of `routes` is the group of kind code k + 1. -/
structure Bank where
  records : Vector Group 64 := Vector.replicate 64 {}
  derate : Vector Group 32 := Vector.replicate 32 {}
  fw : Vector Group 64 := Vector.replicate 64 {}
  pairs : Vector Group 8 := Vector.replicate 8 {}
  routes : Vector Group 22 := Vector.replicate 22 {}
deriving DecidableEq, Repr

/-- The states of a bank (R159, R160). -/
inductive BankState where
  | empty
  | edited
  | valid
deriving DecidableEq, Repr

/-- The two banks. -/
inductive BankName where
  | a
  | b
deriving DecidableEq, Repr

/-- The parameter store (R159). `copy` is the copy-in-progress mark with the number of groups already copied. -/
structure Store where
  a : Bank := {}
  b : Bank := {}
  stA : BankState := .empty
  stB : BankState := .empty
  active : BankName := .a
  swapPending : Bool := false
  copy : Option Nat := none
deriving DecidableEq, Repr

/-! ### The run executing (R1) -/

/-- The run executing: its entry and what its start fixed (R1, R14, R37, R57). The other fields are the model's own:
`restarted` and `chargeEntered` mark a RESTART (R33) or an entry of the channel into CHARGE (R58) after the start, `voltSatDone`
a VOLT_SAT of this run already delivered (log 17); `free` is the number of its free values (log 12). -/
structure Run where
  entry : Entry
  bank : Bank := {}
  st : ChanState := .off
  control : Bool := false
  tracking : Bool := false
  p : Nat := 12500
  n : Nat := 4
  taken : Option Payload := none
  ref : RefState := {}
  history : Option History := none
  countMark : Bool := false
  pair : PairRuntime := {}
  accD : Int := 0
  accQ : Int := 0
  vsat : Nat := 0
  restarted : Bool := false
  chargeEntered : Bool := false
  voltSatDone : Bool := false
  free : Nat := 0
deriving DecidableEq, Repr

/-- Run queue, oldest entry first, and the run executing (R65, R68). -/
structure Engine where
  queue : List Entry := []
  running : Option Run := none
deriving DecidableEq, Repr

/-! ### Modulators (R84) -/

/-- Three compares (R84). -/
structure Compares where
  a : Nat := 0
  b : Nat := 0
  c : Nat := 0
deriving DecidableEq, Repr

/-- The two gate lines of a phase (R84), each with the ticks it has been off, which the dead time needs (R86). -/
structure Phase where
  hi : Bool := false
  lo : Bool := false
  hiOff : Nat := 0
  loOff : Nat := 0
deriving DecidableEq, Repr

/-- One modulator (R84). `pending` is present only with the fresh mark; `drive` is the gate state, true for DRIVE. -/
structure Modulator where
  pending : Option Compares := none
  active : Compares := {}
  stale : Nat := 0
  drive : Bool := false
  deadTime : Nat := 0
  pa : Phase := {}
  pb : Phase := {}
  pc : Phase := {}
deriving DecidableEq, Repr

/-! ### Carrier timebase (R76 to R104) -/

/-- The seven device settings (R81). -/
structure Settings where
  d : Nat := 0
  p : Nat := 12500
  n : Nat := 4
  qt : Nat := 0
  lockWindow : Nat := 50
  slewMax : Nat := 8
  lossLimit : Nat := 12
deriving DecidableEq, Repr

/-- Pending D, P and N (R82). -/
structure PendingSettings where
  d : Nat
  p : Nat
  n : Nat
deriving DecidableEq, Repr

/-- The lock states (R97). -/
inductive Lock where
  | free
  | acquire
  | locked
deriving DecidableEq, Repr

/-- The carrier timebase. A counter that stands at a turning point with its direction not yet turned is at a valley or
crest that has come and has not been taken. -/
structure Timebase where
  set : Settings := {}
  pend : Option PendingSettings := none
  counter : Nat := 0
  up : Bool := true
  crest : Nat := 12500
  index : Nat := 0
  pos : Nat := 0
  corr : Int := 0
  corrLeft : Nat := 0
  lock : Lock := .free
  acquire : Nat := 0
  lossCount : Nat := 0
  lossMark : Bool := false
  inh : Filter := { pin := true }
  shifted : PerChan Bool := PerChan.const false
deriving DecidableEq, Repr

/-! ### Event router (R141) -/

/-- The channel kinds, codes 1 to 17 (R142). -/
inductive ChanKind where
  | overcurrent
  | bridgeFault
  | comparesStale
  | sampleDisagree
  | sampleMissing
  | sampleOverrun
  | loopLate
  | voltSat
  | currentLimit
  | undervolt
  | overvolt
  | overtemp
  | encoderFault
  | indexMismatch
  | setpointStale
  | setpointOverrun
  | pairSkew
deriving DecidableEq, Repr

/-- The device kinds, codes 18 to 22 (R142). -/
inductive DevKind where
  | ringLoss
  | cellCrc
  | carrierUnlock
  | extInhibit
  | bankSwapDone
deriving DecidableEq, Repr

/-- The channel kinds that are level kinds (R142). -/
inductive ChanLevel where
  | bridgeFault
  | undervolt
  | overvolt
  | overtemp
  | pairSkew
deriving DecidableEq, Repr

/-- The device kinds that are level kinds (R142). -/
inductive DevLevel where
  | ringLoss
  | extInhibit
deriving DecidableEq, Repr

/-- A flag with its occurrence count (R141). -/
structure Flag where
  isSet : Bool := false
  count : Nat := 0
deriving DecidableEq, Repr

/-- The kept conditions of a channel (R141). -/
structure Kept where
  bridgeFault : Bool := false
  undervolt : Bool := false
  overvolt : Bool := false
  overtemp : Bool := false
  pairSkew : Bool := false
deriving DecidableEq, Repr

/-- The kept conditions of the device (R141). -/
structure DevKept where
  ringLoss : Bool := false
  extInhibit : Bool := false
deriving DecidableEq, Repr

/-- How a trip reached a channel (R136, R146). -/
inductive Via where
  | self
  | partner (c : Chan)
  | all
deriving DecidableEq, Repr

/-- The snapshot of a trip record (R151). -/
structure Snapshot where
  iA : Int := 0
  iB : Int := 0
  id : Int := 0
  iq : Int := 0
  theta : Nat := 0
  dc : Nat := 0
  temp : Nat := 0
deriving DecidableEq, Repr

/-- An entry of a secondary list (R152): kind code and cycle number. -/
structure Secondary where
  code : Nat
  cycle : Word
deriving DecidableEq, Repr

/-- A trip record (7-5, R150). -/
structure TripRecord where
  cause : Nat
  via : Via
  cycle : Word
  before : ChanState
  snapshot : Snapshot := {}
  secondary : List Secondary := []
  overflow : Nat := 0
deriving DecidableEq, Repr

/-- The event router (R141). Entry k of a channel's flags is kind code k + 1, entry k of the device's is code k + 18;
bit k of `lines` is FLk asserted. -/
structure Router where
  flags : PerChan (Vector Flag 17) := PerChan.const (Vector.replicate 17 {})
  dev : Vector Flag 5 := Vector.replicate 5 {}
  kept : PerChan Kept := PerChan.const {}
  devKept : DevKept := {}
  trips : PerChan (Option TripRecord) := PerChan.const none
  lines : BitVec 4 := 0
deriving DecidableEq, Repr

/-! ### Ring port (R179) -/

/-- A cell in progress (R178, R179): the bytes received so far, one with a line-code error as 00h, and whether there was such
a byte (R203). -/
structure PartialCell where
  bytes : List Byte := []
  bad : Bool := false
deriving DecidableEq, Repr

/-- What leaves the transmit port in the slot of the last cell, cut cell or stray byte: idle symbols (R178), the bytes
received (R182), or a cell of the part's own making (R181, R183). -/
inductive RingOut where
  | idle
  | unchanged
  | cell (c : Cell)
deriving DecidableEq, Repr

/-- The ring port (R179). `waitStart` holds from power-on to the first start symbol: until then nothing is forwarded. -/
structure RingPort where
  address : BitVec 5 := 1
  lastCycle : Word := 0
  cell : Option PartialCell := none
  waitStart : Bool := true
  out : RingOut := .idle
deriving DecidableEq, Repr

/-! ### The whole part -/

/-- The state of the 8C40, block by block, with the queue of waiting commands and the running number of the free values.
Power-on values stand as the defaults; the station address after reset is the model's choice (log 8). -/
structure State where
  pending : List Instr := []
  free : Nat := 0
  ring : RingPort := {}
  tb : Timebase := {}
  lanes : PerChan Lane := PerChan.const {}
  engine : Engine := {}
  loop : PerChan LoopChan := PerChan.const {}
  refs : PerChan Reference := PerChan.const {}
  pairs : Vector PairRuntime 4 := Vector.replicate 4 {}
  mods : PerChan Modulator := PerChan.const {}
  pos : PerChan Position := PerChan.const {}
  store : Store := {}
  sup : PerChan Supervisor := PerChan.const {}
  router : Router := {}
deriving DecidableEq, Repr

/-- The part right after power-on, with no command waiting (R5, R39, R53, R73, R84, R104, R106, R123, R141, R159, R179). -/
def State.reset : State := {}

/-- A step of the 8C40 raises no fault: whatever goes wrong in the part is an event, a status code or a discarded frame,
and each is a next state (R62, R144, R181, R191). The type has no constructor, so no command can answer one: safe. -/
inductive Fault where
deriving DecidableEq, Repr

/-- Why a command has no meaning. -/
inductive Refusal where
  /-- Raised by an arm of `exec` for a row that has no meaning yet; no arm raises it. Safe. -/
  | notModelled (mnemonic : String)
deriving DecidableEq, Repr

end Sys2Proof.Machine
end

