-- ==== Sys2Proof/Machine/Operands.lean ====
section
/-! DEFINITION. Where fields stand: the groups of a bank and their ranges (R161, R162, R164, R171, R207), the curves (R46), the
pair table (R52), the routes (R145), the cells of the ring and their CRC (R181, R204), the frames of the lanes (R62, R206). -/

namespace Sys2Proof.Machine

/-! ### Codes -/

/-- The state code (R123). -/
def ChanState.code : ChanState → Nat
  | .off => 0
  | .charge => 1
  | .run => 2
  | .hold => 3
  | .stopping => 4
  | .trip => 5

/-- In CHARGE, RUN, HOLD or STOPPING (R82, R98). -/
def ChanState.busy : ChanState → Bool
  | .charge | .run | .hold | .stopping => true
  | .off | .trip => false

/-- In RUN or HOLD (R2, R35, R92). -/
def ChanState.closing : ChanState → Bool
  | .run | .hold => true
  | .off | .charge | .stopping | .trip => false

/-- The lock state code (R185). -/
def Lock.code : Lock → Nat
  | .free => 0
  | .acquire => 1
  | .locked => 2

/-- The bank state code (R208). -/
def BankState.code : BankState → Nat
  | .empty => 0
  | .edited => 1
  | .valid => 2

/-- The bank code: A 0, B 1 (R160, R185). -/
def BankName.code : BankName → Nat
  | .a => 0
  | .b => 1

/-- The other bank. -/
def BankName.other : BankName → BankName
  | .a => .b
  | .b => .a

/-- The via code (R208). -/
def Via.code : Via → Nat
  | .self => 0
  | .partner _ => 1
  | .all => 2

/-- The code of a filtered level: low 0, high 1, unknown 2 (R208). -/
def levelCode : Option Bool → Nat
  | some false => 0
  | some true => 1
  | none => 2

/-- The id mode a code byte gives: any code above 2 is kept as ZERO (R34). -/
def IdMode.ofByte (b : Byte) : IdMode :=
  if b = 1 then .given else if b = 2 then .auto else .zero

/-! ### Tables, groups and addresses (8-2, R161) -/

/-- Whether a table has a group of this index (R161). -/
def validIndex (t i : Nat) : Bool :=
  match t with
  | 0 => decide (i < 64)
  | 1 => decide (i < 32)
  | 2 => decide (i < 64)
  | 3 => decide (i < 8)
  | 4 => decide (1 ≤ i) && decide (i ≤ 22)
  | _ => false

/-- The group of a table at an index; zeros where there is none. -/
def Bank.group (b : Bank) (t i : Nat) : Group :=
  match t with
  | 0 => b.records[i]?.getD {}
  | 1 => b.derate[i]?.getD {}
  | 2 => b.fw[i]?.getD {}
  | 3 => b.pairs[i]?.getD {}
  | 4 => if i = 0 then {} else b.routes[i - 1]?.getD {}
  | _ => {}

/-- The bank with one group replaced; unchanged where there is none. -/
def Bank.put (b : Bank) (t i : Nat) (g : Group) : Bank :=
  match t with
  | 0 => { b with records := b.records.setIfInBounds i g }
  | 1 => { b with derate := b.derate.setIfInBounds i g }
  | 2 => { b with fw := b.fw.setIfInBounds i g }
  | 3 => { b with pairs := b.pairs.setIfInBounds i g }
  | 4 => if i = 0 then b else { b with routes := b.routes.setIfInBounds (i - 1) g }
  | _ => b

/-- The bits of each word of a group that carry a field (R161, R207). -/
def fieldMask (t i : Nat) : Group :=
  let full : Word := 0xFFFF
  match t with
  | 0 =>
    match i % 8 with
    | 0 => ⟨0x0F7F, 0x00FF, 0x1F0F, 0x00FF⟩
    | 7 => ⟨full, full, full, 0⟩
    | _ => ⟨full, full, full, full⟩
  | 1 | 2 => ⟨full, full, full, full⟩
  | 3 => if i % 2 = 0 then ⟨0x8707, full, full, full⟩ else ⟨full, full, full, full⟩
  | 4 => ⟨0x00FF, 0, 0, 0⟩
  | _ => ⟨0, 0, 0, 0⟩

/-- A group as it is stored: bits that carry no field are 0 (R161). -/
def Group.masked (t i : Nat) (g : Group) : Group :=
  let m := fieldMask t i
  ⟨g.w0 &&& m.w0, g.w1 &&& m.w1, g.w2 &&& m.w2, g.w3 &&& m.w3⟩

/-! ### The channel record (8-3-1, R207) -/

/-- A channel record, field by field. -/
structure Record where
  inUse : Bool
  fwEnable : Bool
  ffEnable : Bool
  ramp : Bool
  shifted : Bool
  indexMode : Nat
  holdAfter : Nat
  chargePeriods : Nat
  derateCount : Nat
  fwCount : Nat
  vsatRuns : Nat
  offsetA : Nat
  offsetB : Nat
  disagreeWindow : Nat
  iTrip : Nat
  iMax : Nat
  vLimit : Nat
  decayStep : Nat
  minPulse : Nat
  kpD : Nat
  kiD : Nat
  kpQ : Nat
  kiQ : Nat
  xD : Int
  xQ : Int
  eBemf : Int
  deadTime : Nat
  uNominal : Nat
  uUnder : Nat
  uOver : Nat
  tTrip : Nat
  cpr : Nat
  polePairs : Nat
  angleOffset : Nat
  indexExpect : Nat
  indexTolerance : Nat
deriving DecidableEq, Repr

/-- Group `g` of the record of channel `c` (8-2: channel × 8 + group). -/
def Bank.recGroup (b : Bank) (c : Chan) (g : Nat) : Group := b.group 0 (c.val * 8 + g)

/-- A field of `w` bits from bit `lo` of a word. -/
def bitsOf (x : Word) (lo w : Nat) : Nat := (x.extractLsb' lo w).toNat

/-- The record of channel `c` (R162, R207). -/
def Bank.record (b : Bank) (c : Chan) : Record :=
  let g0 := b.recGroup c 0
  let g1 := b.recGroup c 1
  let g2 := b.recGroup c 2
  let g3 := b.recGroup c 3
  let g4 := b.recGroup c 4
  let g5 := b.recGroup c 5
  let g6 := b.recGroup c 6
  let g7 := b.recGroup c 7
  { inUse := g0.w0.getLsbD 0
    fwEnable := g0.w0.getLsbD 1
    ffEnable := g0.w0.getLsbD 2
    ramp := g0.w0.getLsbD 3
    shifted := g0.w0.getLsbD 4
    indexMode := bitsOf g0.w0 5 2
    holdAfter := bitsOf g0.w0 8 4
    chargePeriods := bitsOf g0.w1 0 8
    derateCount := bitsOf g0.w2 0 4
    fwCount := bitsOf g0.w2 8 5
    vsatRuns := bitsOf g0.w3 0 8
    offsetA := g1.w0.toNat
    offsetB := g1.w1.toNat
    disagreeWindow := g1.w2.toNat
    iTrip := g1.w3.toNat
    iMax := g2.w0.toNat
    vLimit := g2.w1.toNat
    decayStep := g2.w2.toNat
    minPulse := g2.w3.toNat
    kpD := g3.w0.toNat
    kiD := g3.w1.toNat
    kpQ := g3.w2.toNat
    kiQ := g3.w3.toNat
    xD := g4.w0.toInt
    xQ := g4.w1.toInt
    eBemf := g4.w2.toInt
    deadTime := g4.w3.toNat
    uNominal := g5.w0.toNat
    uUnder := g5.w1.toNat
    uOver := g5.w2.toNat
    tTrip := g5.w3.toNat
    cpr := twoWords g6.w0 g6.w1
    polePairs := g6.w2.toNat
    angleOffset := g6.w3.toNat
    indexExpect := twoWords g7.w0 g7.w1
    indexTolerance := g7.w2.toNat }

/-- A count or curve length of the fw curve: 0 or 2..16 (8-3-1). -/
def fwCountOk (n : Nat) : Bool := decide (n = 0) || (decide (2 ≤ n) && decide (n ≤ 16))

/-- Whether a value lies in lo..hi. -/
def inRange (lo hi n : Nat) : Bool := decide (lo ≤ n) && decide (n ≤ hi)

/-- For each word of a group, whether the field that begins in it, or the fields it holds, lie within their write
range (8-3, R162, R164). A two-word field is judged at its first word. -/
def wordsInRange (t i : Nat) (g : Group) : List Bool :=
  match t with
  | 0 =>
    match i % 8 with
    | 0 =>
      [inRange 0 2 (bitsOf g.w0 5 2), true,
        inRange 0 8 (bitsOf g.w2 0 4) && fwCountOk (bitsOf g.w2 8 5), true]
    | 1 =>
      [inRange 0 4095 g.w0.toNat, inRange 0 4095 g.w1.toNat, inRange 0 4095 g.w2.toNat,
        inRange 0 32767 g.w3.toNat]
    | 2 =>
      [inRange 0 32767 g.w0.toNat, inRange 0 32767 g.w1.toNat, inRange 0 32767 g.w2.toNat,
        inRange 0 1023 g.w3.toNat]
    | 4 => [true, true, true, inRange 0 255 g.w3.toNat]
    | 5 =>
      [inRange 0 4095 g.w0.toNat, inRange 0 4095 g.w1.toNat, inRange 0 4095 g.w2.toNat,
        inRange 0 4095 g.w3.toNat]
    | 6 =>
      [decide (twoWords g.w0 g.w1 = 0) || inRange 16 16777216 (twoWords g.w0 g.w1), true,
        inRange 0 64 g.w2.toNat, true]
    | _ => [true, true, true, true]
  | 1 =>
    [inRange 0 4095 g.w0.toNat, inRange 0 32767 g.w1.toNat, inRange 0 4095 g.w2.toNat,
      inRange 0 32767 g.w3.toNat]
  | 2 =>
    [inRange 0 32767 g.w0.toNat, decide (g.w1.toInt ≤ 0), inRange 0 32767 g.w2.toNat,
      decide (g.w3.toInt ≤ 0)]
  | 3 =>
    if i % 2 = 0 then [true, inRange 0 32768 g.w1.toNat, true, inRange 0 32767 g.w3.toNat]
    else [true, true, true, true]
  | _ => [true, true, true, true]

/-- The position of the first false entry of a list. -/
def firstFalse : List Bool → Option Nat
  | [] => none
  | true :: l => (firstFalse l).map (· + 1)
  | false :: _ => some 0

/-- For each group of a record, whether every field of it lies within its in-use range, apart from index_expect (8-3-1,
R171 test 1). -/
def Record.groupsInUse (r : Record) : List Bool :=
  [inRange 0 2 r.indexMode && inRange 1 15 r.holdAfter && inRange 1 255 r.chargePeriods
      && inRange 1 8 r.derateCount && fwCountOk r.fwCount && inRange 1 255 r.vsatRuns,
    inRange 0 4095 r.offsetA && inRange 0 4095 r.offsetB && inRange 0 4095 r.disagreeWindow
      && inRange 1 32767 r.iTrip,
    inRange 1 32767 r.iMax && inRange 1 32767 r.vLimit && inRange 1 32767 r.decayStep
      && inRange 0 1023 r.minPulse,
    true,
    inRange 0 255 r.deadTime,
    inRange 1 4095 r.uNominal && inRange 1 4095 r.uUnder && inRange 1 4095 r.uOver
      && inRange 0 4095 r.tTrip,
    inRange 16 16777216 r.cpr && inRange 1 64 r.polePairs]

/-! ### Curves (R46, R161) -/

/-- Point `k` of a curve group list: words 0 and 1 hold an even point, words 2 and 3 an odd one (R161). -/
def pointOf (g : Group) (k : Nat) : Word × Word :=
  if k % 2 = 0 then (g.w0, g.w1) else (g.w2, g.w3)

/-- Point `k` of the derate curve of channel `c`, x and y unsigned (R161). -/
def Bank.deratePoint (b : Bank) (c : Chan) (k : Nat) : Int × Int :=
  let p := pointOf (b.group 1 (c.val * 4 + k / 2)) k
  (p.1.toNat, p.2.toNat)

/-- Point `k` of the fw curve of channel `c`, x unsigned and y signed (R161). -/
def Bank.fwPoint (b : Bank) (c : Chan) (k : Nat) : Int × Int :=
  let p := pointOf (b.group 2 (c.val * 8 + k / 2)) k
  (p.1.toNat, p.2.toInt)

/-- The points of the derate curve within its count (R46). -/
def Bank.deratePoints (b : Bank) (c : Chan) : List (Int × Int) :=
  (List.range (b.record c).derateCount).map (b.deratePoint c)

/-- The points of the fw curve within its count (R46). -/
def Bank.fwPoints (b : Bank) (c : Chan) : List (Int × Int) :=
  (List.range (b.record c).fwCount).map (b.fwPoint c)

/-- The value of a curve at `x` (R46): before the first point its y, from the last point on its y, between two points
the segment, its quotient truncated toward zero. -/
def curveAt : List (Int × Int) → Int → Int
  | [], _ => 0
  | [p], _ => p.2
  | p :: q :: l, x =>
    if x < p.1 then p.2
    else if x < q.1 then p.2 + truncDiv ((q.2 - p.2) * (x - p.1)) (q.1 - p.1)
    else curveAt (q :: l) x

/-! ### Pair table (R52, R207) -/

/-- A pair entry (2-5-1). -/
structure PairEntry where
  active : Bool
  leader : Chan
  follower : Chan
  split : Nat
  skewGain : Int
  skewMax : Nat
  skewOffset : Int
  skewTrip : Nat
deriving DecidableEq, Repr

/-- A channel number of three bits. -/
def chanOfBits (x : BitVec 3) : Chan := x.toFin

/-- The pair entry of a slot (R207). -/
def Bank.pairEntry (b : Bank) (slot : Fin 4) : PairEntry :=
  let g := b.group 3 (slot.val * 2)
  let h := b.group 3 (slot.val * 2 + 1)
  { active := g.w0.getLsbD 15
    leader := chanOfBits (g.w0.extractLsb' 8 3)
    follower := chanOfBits (g.w0.extractLsb' 0 3)
    split := g.w1.toNat
    skewGain := g.w2.toInt
    skewMax := g.w3.toNat
    skewOffset := twoWordsSigned h.w0 h.w1
    skewTrip := twoWords h.w2 h.w3 }

/-- The pair role of a channel (R52): lone, or leader or follower of a slot with its partner. This is the pair
membership of R173. -/
inductive Role where
  | lone
  | leader (slot : Fin 4) (partner : Chan)
  | follower (slot : Fin 4) (partner : Chan)
deriving DecidableEq, Repr

/-- The role a slot gives a channel (R52). -/
def Bank.roleIn (b : Bank) (slot : Fin 4) (c : Chan) : Role :=
  let e := b.pairEntry slot
  if e.active then
    if e.leader = c then .leader slot e.follower
    else if e.follower = c then .follower slot e.leader
    else .lone
  else .lone

/-- The role of a channel: that of the first active slot that names it (R52; R172 leaves at most one). -/
def Bank.role (b : Bank) (c : Chan) : Role :=
  match b.roleIn 0 c with
  | .lone =>
    match b.roleIn 1 c with
    | .lone =>
      match b.roleIn 2 c with
      | .lone => b.roleIn 3 c
      | r => r
    | r => r
  | r => r

/-- The pair partner, where there is one. -/
def Role.partner : Role → Option Chan
  | .lone => none
  | .leader _ p => some p
  | .follower _ p => some p

/-- The slot, where there is one. -/
def Role.slot : Role → Option (Fin 4)
  | .lone => none
  | .leader s _ => some s
  | .follower s _ => some s

/-- Whether a channel is the follower of an active pair. -/
def Role.isFollower : Role → Bool
  | .follower _ _ => true
  | .lone | .leader _ _ => false

/-! ### Routes (R145, R207) -/

/-- An action word of the route table (R145). -/
structure Route where
  tripSelf : Bool
  holdSelf : Bool
  tripAll : Bool
  holdAll : Bool
  lines : BitVec 4
deriving DecidableEq, Repr

/-- The route of a kind code (R145, R207). -/
def Bank.route (b : Bank) (code : Nat) : Route :=
  let w := (b.group 4 code).w0
  { tripSelf := w.getLsbD 0
    holdSelf := w.getLsbD 1
    tripAll := w.getLsbD 2
    holdAll := w.getLsbD 3
    lines := w.extractLsb' 4 4 }

/-! ### CRC (R62, R181) -/

/-- One bit of the CRC-16 of polynomial 1021h. -/
def crc16Bit (c : BitVec 16) : BitVec 16 := if c.msb then (c <<< 1) ^^^ 0x1021 else c <<< 1

/-- One byte of the CRC-16, most significant bit first. -/
def crc16Byte (c : BitVec 16) (b : Byte) : BitVec 16 :=
  Nat.repeat crc16Bit 8 (c ^^^ (b ++ (0 : Byte)))

/-- The CRC-16 of the bytes: initial value FFFFh, no final inversion (R181). -/
def crc16 (l : List Byte) : BitVec 16 := l.foldl crc16Byte 0xFFFF

/-- One bit of the CRC-8 of polynomial 07h. -/
def crc8Bit (c : BitVec 8) : BitVec 8 := if c.msb then (c <<< 1) ^^^ 0x07 else c <<< 1

/-- One byte of the CRC-8, most significant bit first. -/
def crc8Byte (c : BitVec 8) (b : Byte) : BitVec 8 := Nat.repeat crc8Bit 8 (c ^^^ b)

/-- The CRC-8 of the bytes: initial value 00h, no final inversion (R62). -/
def crc8 (l : List Byte) : BitVec 8 := l.foldl crc8Byte 0

/-- A SET payload as the mailbox keeps it (R34). -/
def Payload.ofSet (p : SetPayload) : Payload :=
  { cycle := p.cycle
    iq := p.iq.toInt
    id := p.id.toInt
    mode := IdMode.ofByte p.mode
    limit := if p.limit.toNat < 32768 then p.limit.toNat else 0 }

end Sys2Proof.Machine

namespace Sys2Proof

open Machine

/-! ### Cells (R183, R204) -/

/-- Bytes 0 to 13 of a cell. -/
def Cell.body (c : Cell) : List Byte :=
  [c.header, c.station, c.p0.hi, c.p0.lo, c.p1.hi, c.p1.lo, c.p2.hi, c.p2.lo, c.p3.hi, c.p3.lo,
    c.p4.hi, c.p4.lo, c.p5.hi, c.p5.lo]

/-- The CRC-16 of bytes 0 to 13 stands in bytes 14 and 15 (R181). -/
def Cell.good (c : Cell) : Bool := decide (crc16 c.body = c.crc)

/-- The cell with the CRC of its bytes 0 to 13 (R181, R183). -/
def Cell.sealed (c : Cell) : Cell := { c with crc := crc16 c.body }

/-- The kind, bits 7 to 5 of byte 0. -/
def Cell.kind (c : Cell) : BitVec 3 := c.header.extractLsb' 5 3

/-- The channel field, bits 4 to 2 of byte 0. -/
def Cell.chanField (c : Cell) : BitVec 3 := c.header.extractLsb' 2 3

/-- The damaged mark D, bit 1 of byte 0. -/
def Cell.damaged (c : Cell) : Bool := c.header.getLsbD 1

/-- The taken mark T, bit 0 of byte 0. -/
def Cell.taken (c : Cell) : Bool := c.header.getLsbD 0

/-- The header byte of a kind, a channel field, D and T (R204). -/
def headerByte (kind chan : BitVec 3) (d t : Bool) : Byte :=
  kind ++ chan ++ BitVec.ofBool d ++ BitVec.ofBool t

/-- The sixteen bytes of a cell, byte 0 first (R204). -/
def Cell.bytes (c : Cell) : List Byte := c.body ++ [c.crc.hi, c.crc.lo]

/-- Received bytes, byte 0 first, those with a line-code error as 00h: bit k of `errors` names byte k (R178). -/
def blanked (errors : BitVec 16) (l : List Byte) : List Byte :=
  l.mapIdx fun k b => if errors.getLsbD k then 0 else b

/-- The cell of sixteen received bytes, byte 0 first (R204); none for any other number. -/
def Cell.ofBytes : List Byte → Option Cell
  | [b0, b1, b2, b3, b4, b5, b6, b7, b8, b9, b10, b11, b12, b13, b14, b15] =>
    some ⟨b0, b1, Word.of b2 b3, Word.of b4 b5, Word.of b6 b7, Word.of b8 b9, Word.of b10 b11,
      Word.of b12 b13, Word.of b14 b15⟩
  | _ => none

/-- A cell as the part takes it: its bytes with a line-code error as 00h (R178, R203). -/
def Cell.received (c : Cell) (errors : BitVec 16) : Cell := (Cell.ofBytes (blanked errors c.bytes)).getD c

/-- The SET payload of a cell (R204). -/
def Cell.setPayload (c : Cell) : SetPayload :=
  { cycle := c.p0, iq := c.p1, id := c.p2, mode := c.p3.hi, limit := c.p4 }

/-- The request of a cell (R204). -/
def Cell.request (c : Cell) : Request :=
  { chanField := c.chanField, tag := c.p0.lo, target := c.p1.hi, index := c.p1.lo,
    w0 := c.p2, w1 := c.p3, w2 := c.p4, w3 := c.p5 }

/-- The cell that carries a request of a kind to a station (R204). -/
def requestCell (station : BitVec 5) (kind : Byte) (r : Request) : Cell :=
  Cell.sealed
    { header := headerByte 4 r.chanField false false, station := station.setWidth 8,
      p0 := Word.of kind r.tag, p1 := Word.of r.target r.index,
      p2 := r.w0, p3 := r.w1, p4 := r.w2, p5 := r.w3, crc := 0 }

/-- The cell that carries a SET for a channel to a station, its fieldless bytes 0 (R204). -/
def setCell (station : BitVec 5) (ch : Chan) (p : SetPayload) : Cell :=
  Cell.sealed
    { header := headerByte 2 (BitVec.ofFin ch) false false, station := station.setWidth 8,
      p0 := p.cycle, p1 := p.iq, p2 := p.id, p3 := Word.of p.mode 0, p4 := p.limit, p5 := 0,
      crc := 0 }

/-! ### Frames of the burst lines (R62, R206) -/

/-- Word `k` of a frame, high byte first. -/
def Frame.word (f : Frame) (k : Nat) : Word :=
  Word.of (f.bytes.getD (2 * k) 0) (f.bytes.getD (2 * k + 1) 0)

/-- A frame holds ten whole words: it ended at its end symbol, with 20 bytes and no line-code error (R206). -/
def Frame.whole (f : Frame) : Bool :=
  decide (f.ending = .endSymbol) && !f.lineError && decide (f.bytes.length = 20)

/-- The integrity test of a frame (R62): ten whole words, and the CRC-8 of words 0 to 8 in the low byte of word 9. -/
def Frame.intact (f : Frame) : Bool :=
  f.whole && decide (crc8 (f.bytes.take 18) = (f.word 9).lo)

/-- The sequence number of a burst, bits 3 to 0 of word 0 (R206). -/
def Frame.seq (f : Frame) : BitVec 4 := (f.word 0).extractLsb' 0 4

/-- The desaturation fault bit or the gate-supply-low bit of word 0 is set (R64, R206). -/
def Frame.bridgeFault (f : Frame) : Bool := (f.word 0).getLsbD 15 || (f.word 0).getLsbD 14

/-- Words 1 to 8 of a burst (R65). -/
def Frame.words (f : Frame) : BurstWords :=
  { a1 := f.word 1, a2 := f.word 2, a3 := f.word 3, b1 := f.word 4, b2 := f.word 5,
    b3 := f.word 6, dc := f.word 7, temp := f.word 8 }

end Sys2Proof
end

