-- ==== Sys2Proof/Machine/Flags.lean ====
section
/-! DEFINITION. The event router (chapter 7) and the trip and hold actions of the channel supervisor that it calls (R130,
R136): kinds, routes, raises, kept conditions, trip records, fault lines. -/

namespace Sys2Proof.Machine

/-! ### Kinds (R142) -/

/-- Index of a channel kind: its code less 1. -/
def ChanKind.idx : ChanKind → Fin 17
  | .overcurrent => 0
  | .bridgeFault => 1
  | .comparesStale => 2
  | .sampleDisagree => 3
  | .sampleMissing => 4
  | .sampleOverrun => 5
  | .loopLate => 6
  | .voltSat => 7
  | .currentLimit => 8
  | .undervolt => 9
  | .overvolt => 10
  | .overtemp => 11
  | .encoderFault => 12
  | .indexMismatch => 13
  | .setpointStale => 14
  | .setpointOverrun => 15
  | .pairSkew => 16

/-- The code of a channel kind, 1 to 17 (R142). -/
def ChanKind.code (k : ChanKind) : Nat := k.idx.val + 1

/-- Index of a device kind: its code less 18. -/
def DevKind.idx : DevKind → Fin 5
  | .ringLoss => 0
  | .cellCrc => 1
  | .carrierUnlock => 2
  | .extInhibit => 3
  | .bankSwapDone => 4

/-- The code of a device kind, 18 to 22 (R142). -/
def DevKind.code (k : DevKind) : Nat := k.idx.val + 18

/-- The channel kinds in code order. -/
def ChanKind.all : List ChanKind :=
  [.overcurrent, .bridgeFault, .comparesStale, .sampleDisagree, .sampleMissing, .sampleOverrun,
    .loopLate, .voltSat, .currentLimit, .undervolt, .overvolt, .overtemp, .encoderFault,
    .indexMismatch, .setpointStale, .setpointOverrun, .pairSkew]

/-- The device kinds in code order. -/
def DevKind.all : List DevKind := [.ringLoss, .cellCrc, .carrierUnlock, .extInhibit, .bankSwapDone]

/-- Fixed action trip self (R142). -/
def ChanKind.fixedTrip : ChanKind → Bool
  | .overcurrent | .bridgeFault | .comparesStale => true
  | .sampleDisagree | .sampleMissing | .sampleOverrun | .loopLate | .voltSat | .currentLimit
  | .undervolt | .overvolt | .overtemp | .encoderFault | .indexMismatch | .setpointStale
  | .setpointOverrun | .pairSkew => false

/-- Fixed action hold self with cause STALE (R142). -/
def ChanKind.fixedHold (k : ChanKind) : Bool := decide (k = .setpointStale)

/-- Fixed action trip all (R142). -/
def DevKind.fixedTrip (k : DevKind) : Bool := decide (k = .extInhibit)

/-- Fixed action hold all with cause RING (R142). -/
def DevKind.fixedHold (k : DevKind) : Bool := decide (k = .ringLoss)

/-- The channel kind of a level condition (R142). -/
def ChanLevel.kind : ChanLevel → ChanKind
  | .bridgeFault => .bridgeFault
  | .undervolt => .undervolt
  | .overvolt => .overvolt
  | .overtemp => .overtemp
  | .pairSkew => .pairSkew

/-- The device kind of a level condition (R142). -/
def DevLevel.kind : DevLevel → DevKind
  | .ringLoss => .ringLoss
  | .extInhibit => .extInhibit

/-- The level condition of a channel kind, for the level kinds (R142). -/
def ChanKind.level : ChanKind → Option ChanLevel
  | .bridgeFault => some .bridgeFault
  | .undervolt => some .undervolt
  | .overvolt => some .overvolt
  | .overtemp => some .overtemp
  | .pairSkew => some .pairSkew
  | .overcurrent | .comparesStale | .sampleDisagree | .sampleMissing | .sampleOverrun | .loopLate
  | .voltSat | .currentLimit | .encoderFault | .indexMismatch | .setpointStale
  | .setpointOverrun => none

/-- The level condition of a device kind, for the level kinds (R142). -/
def DevKind.level : DevKind → Option DevLevel
  | .ringLoss => some .ringLoss
  | .extInhibit => some .extInhibit
  | .cellCrc | .carrierUnlock | .bankSwapDone => none

/-- A kept condition of a channel (R141). -/
def Kept.get (k : Kept) : ChanLevel → Bool
  | .bridgeFault => k.bridgeFault
  | .undervolt => k.undervolt
  | .overvolt => k.overvolt
  | .overtemp => k.overtemp
  | .pairSkew => k.pairSkew

/-- The kept conditions of a channel with one replaced. -/
def Kept.put (k : Kept) (l : ChanLevel) (x : Bool) : Kept :=
  match l with
  | .bridgeFault => { k with bridgeFault := x }
  | .undervolt => { k with undervolt := x }
  | .overvolt => { k with overvolt := x }
  | .overtemp => { k with overtemp := x }
  | .pairSkew => { k with pairSkew := x }

/-- A kept condition of the device (R141). -/
def DevKept.get (k : DevKept) : DevLevel → Bool
  | .ringLoss => k.ringLoss
  | .extInhibit => k.extInhibit

/-- The kept conditions of the device with one replaced. -/
def DevKept.put (k : DevKept) (l : DevLevel) (x : Bool) : DevKept :=
  match l with
  | .ringLoss => { k with ringLoss := x }
  | .extInhibit => { k with extInhibit := x }

/-! ### Reading the state -/

/-- The contents of a bank. -/
def Store.bank (st : Store) : BankName → Bank
  | .a => st.a
  | .b => st.b

/-- The active bank (R159). -/
def State.bank (s : State) : Bank := s.store.bank s.store.active

/-- The shadow bank (R159). -/
def State.shadow (s : State) : Bank := s.store.bank s.store.active.other

/-- The state of a channel (R123). -/
def State.st (s : State) (c : Chan) : ChanState := (s.sup.get c).st

/-- The record of a channel in the active bank. -/
def State.record (s : State) (c : Chan) : Record := s.bank.record c

/-- The pair role of a channel in the active bank (R52, R124). -/
def State.role (s : State) (c : Chan) : Role := s.bank.role c

/-- A flag of a channel (R141). -/
def State.chanFlag (s : State) (c : Chan) (k : ChanKind) : Flag := (s.router.flags.get c).get k.idx

/-- A flag of the device (R141). -/
def State.devFlag (s : State) (k : DevKind) : Flag := s.router.dev.get k.idx

/-- Whether a channel kind is trip-class by a bank's routes (R147). -/
def Bank.chanTripClass (b : Bank) (k : ChanKind) : Bool :=
  k.fixedTrip || (b.route k.code).tripSelf || (b.route k.code).tripAll

/-- Whether a device kind is trip-class by a bank's routes (R147). -/
def Bank.devTripClass (b : Bank) (k : DevKind) : Bool :=
  k.fixedTrip || (b.route k.code).tripSelf || (b.route k.code).tripAll

/-- A trip-class flag is set on the channel (R147). -/
def State.chanTripFlag (s : State) (c : Chan) : Bool :=
  ChanKind.all.any fun k => (s.chanFlag c k).isSet && s.bank.chanTripClass k

/-- A trip-class flag is set on the device (R147). -/
def State.devTripFlag (s : State) : Bool :=
  DevKind.all.any fun k => (s.devFlag k).isSet && s.bank.devTripClass k

/-- A trip-class flag is set on the channel, on its active-pair partner or on the device (R125 check 5, R137, R157). -/
def State.tripFlagNear (s : State) (c : Chan) : Bool :=
  s.chanTripFlag c || s.devTripFlag ||
    (match (s.role c).partner with
      | some p => s.chanTripFlag p
      | none => false)

/-- Any flag is set on the channel or on the device (R157). -/
def State.anyFlagNear (s : State) (c : Chan) : Bool :=
  (ChanKind.all.any fun k => (s.chanFlag c k).isSet) || DevKind.all.any fun k => (s.devFlag k).isSet

/-! ### Fault lines (R148) -/

/-- The line mask of a flag: that of its kind's route while it is set. -/
def Flag.lines (f : Flag) (r : Route) : BitVec 4 := if f.isSet then r.lines else 0

/-- The lines that the flags of channel `c` assert. -/
def State.chanLines (s : State) (c : Chan) : BitVec 4 :=
  ChanKind.all.foldl (fun m k => m ||| (s.chanFlag c k).lines (s.bank.route k.code)) 0

/-- The lines that the device flags assert. -/
def State.devLines (s : State) : BitVec 4 :=
  DevKind.all.foldl (fun m k => m ||| (s.devFlag k).lines (s.bank.route k.code)) 0

/-- The four lines as the set flags and the routes of the active bank give them (R148). -/
def State.linesNow (s : State) : BitVec 4 :=
  (List.finRange 8).foldl (fun m c => m ||| s.chanLines c) s.devLines

/-- The judgement of the fault lines (R148). -/
def State.judgeLines (s : State) : State :=
  { s with router := { s.router with lines := s.linesNow } }

/-! ### Gate lines off (R87) -/

/-- Both gates of a phase off: a gate that was on has now been off for no tick. -/
def Phase.allOff (p : Phase) : Phase :=
  { hi := false, lo := false, hiOff := if p.hi then 0 else p.hiOff,
    loOff := if p.lo then 0 else p.loOff }

/-- All six gate lines of a modulator off at once (R87, R95). -/
def Modulator.linesOff (m : Modulator) : Modulator :=
  { m with pa := m.pa.allOff, pb := m.pb.allOff, pc := m.pc.allOff }

/-- Entry into INHIBIT: gate lines off, pending compares discarded (R87). -/
def Modulator.inhibit (m : Modulator) : Modulator :=
  { m.linesOff with drive := false, pending := none }

/-! ### The trip action (R136, R146, R150 to R152) -/

/-- How a trip that names the channels of `named` reaches channel `c`: named, or partner of a named channel in the
active pair table (R136, R146). -/
def State.tripReach (s : State) (named : Chan → Option Via) (c : Chan) : Option Via :=
  match named c with
  | some v => some v
  | none =>
    match (s.role c).partner with
    | some p => if (named p).isSome then some (.partner p) else none
    | none => none

/-- The snapshot of a last-run record; the record of a channel with no completed run is all zero (R151). -/
def LastRun.snapshot (r : LastRun) : Snapshot :=
  if r.completed then
    { iA := r.iA, iB := r.iB, id := r.id, iq := r.iq, theta := r.theta, dc := r.dc, temp := r.temp }
  else {}

/-- A secondary cause: an entry at the end of the list while it holds fewer than 3, else the overflow count (R152). -/
def TripRecord.addSecondary (t : TripRecord) (code : Nat) (cycle : Word) : TripRecord :=
  if t.secondary.length < 3 then { t with secondary := t.secondary ++ [⟨code, cycle⟩] }
  else { t with overflow := satSucc 255 t.overflow }

/-- Whether a trip that reaches channel `c` takes it into TRIP: not already there, record in use (R136). -/
def State.tripTakes (s : State) (c : Chan) : Bool :=
  decide (s.st c ≠ .trip) && (s.record c).inUse

/-- The trip record of channel `c` after a trip action of kind `code` reached it by `via` (R150, R152). -/
def State.tripRecordAfter (s : State) (code : Nat) (via : Via) (c : Chan) : Option TripRecord :=
  if s.tripTakes c then
    some { cause := code, via := via, cycle := s.ring.lastCycle, before := s.st c,
           snapshot := (s.loop.get c).last.snapshot }
  else (s.router.trips.get c).map fun t =>
    if s.st c = .trip then t.addSecondary code s.ring.lastCycle else t

/-- The supervisor of a channel that enters TRIP: causes emptied, missed count 0 (R136). -/
def Supervisor.enterTrip (u : Supervisor) : Supervisor :=
  { u with st := .trip, causes := {}, missed := 0 }

/-- The trip action of a raise of kind `code` (R136, R146): every channel reached enters TRIP with INHIBIT and a trip
record, or gains a secondary cause. -/
def State.tripAction (code : Nat) (named : Chan → Option Via) (s : State) : State :=
  { s with
    sup := PerChan.ofFn fun c =>
      if (s.tripReach named c).isSome && s.tripTakes c then (s.sup.get c).enterTrip
      else s.sup.get c
    mods := PerChan.ofFn fun c =>
      if (s.tripReach named c).isSome && s.tripTakes c then (s.mods.get c).inhibit
      else s.mods.get c
    router := { s.router with
      trips := PerChan.ofFn fun c =>
        match s.tripReach named c with
        | some v => s.tripRecordAfter code v c
        | none => s.router.trips.get c } }

/-! ### The hold action (R130) -/

/-- The union of two cause sets. -/
def Causes.union (x y : Causes) : Causes :=
  { stale := x.stale || y.stale, ring := x.ring || y.ring, routed := x.routed || y.routed }

/-- Whether a cause set is empty. -/
def Causes.isEmpty (x : Causes) : Bool := !(x.stale || x.ring || x.routed)

/-- The causes that a hold action naming `named` gives channel `c`: its own and its active-pair partner's (R130). -/
def State.holdReach (s : State) (named : Chan → Causes) (c : Chan) : Causes :=
  match (s.role c).partner with
  | some p => (named c).union (named p)
  | none => named c

/-- A channel given hold causes: from RUN it enters HOLD, in HOLD it gains them, elsewhere they are not kept (R130). -/
def Supervisor.addCauses (u : Supervisor) (x : Causes) : Supervisor :=
  if x.isEmpty then u
  else if u.st.closing then { u with st := .hold, causes := u.causes.union x }
  else u

/-- The hold action of a raise (R130). -/
def State.holdAction (named : Chan → Causes) (s : State) : State :=
  { s with sup := PerChan.ofFn fun c => (s.sup.get c).addCauses (s.holdReach named c) }

/-! ### Raises (R143 to R146) -/

/-- A flag raised: set, its count one higher, staying at 65535 (R144). -/
def Flag.raised (f : Flag) : Flag := { isSet := true, count := satSucc 65535 f.count }

/-- The flag of a channel kind set and counted (R144). -/
def State.setChanFlag (k : ChanKind) (c : Chan) (s : State) : State :=
  { s with router := { s.router with
      flags := s.router.flags.modify c fun v => v.set k.idx.val (v.get k.idx).raised k.idx.isLt } }

/-- The flag of a device kind set and counted (R144). -/
def State.setDevFlag (k : DevKind) (s : State) : State :=
  { s with router := { s.router with
      dev := s.router.dev.set k.idx.val (s.router.dev.get k.idx).raised k.idx.isLt } }

/-- The channels a raise of a channel kind names for a trip, with their via (R145, R146). -/
def Route.chanTrip (r : Route) (k : ChanKind) (c : Chan) (d : Chan) : Option Via :=
  if d = c && (k.fixedTrip || r.tripSelf) then some .self
  else if r.tripAll then some .all
  else none

/-- The causes a raise of a channel kind gives each channel (R145). -/
def Route.chanHold (r : Route) (k : ChanKind) (c : Chan) (d : Chan) : Causes :=
  { stale := decide (d = c) && k.fixedHold, ring := false,
    routed := (decide (d = c) && r.holdSelf) || r.holdAll }

/-- The channels a raise of a device kind names for a trip (R145, R146). -/
def Route.devTrip (r : Route) (k : DevKind) (_ : Chan) : Option Via :=
  if k.fixedTrip || r.tripSelf || r.tripAll then some .all else none

/-- The causes a raise of a device kind gives every channel (R145). -/
def Route.devHold (r : Route) (k : DevKind) (_ : Chan) : Causes :=
  { stale := false, ring := k.fixedHold, routed := r.holdSelf || r.holdAll }

/-- A raise of a channel kind on channel `c` (R144 to R146): flag and count, trip action, hold action, fault lines. -/
def State.raiseChan (k : ChanKind) (c : Chan) (s : State) : State :=
  let r := s.bank.route k.code
  ((s.setChanFlag k c).tripAction k.code (r.chanTrip k c) |>.holdAction (r.chanHold k c)).judgeLines

/-- A raise of a device kind (R144 to R146). -/
def State.raiseDev (k : DevKind) (s : State) : State :=
  let r := s.bank.route k.code
  ((s.setDevFlag k).tripAction k.code (r.devTrip k) |>.holdAction (r.devHold k)).judgeLines

/-- A raise only where it is found. -/
def State.raiseChanIf (b : Bool) (k : ChanKind) (c : Chan) (s : State) : State :=
  if b then s.raiseChan k c else s

/-- The kept condition of a channel's level kind, written. -/
def State.keepChan (l : ChanLevel) (c : Chan) (x : Bool) (s : State) : State :=
  { s with router := { s.router with kept := s.router.kept.modify c fun k => k.put l x } }

/-- The kept condition of a device level kind, written. -/
def State.keepDev (l : DevLevel) (x : Bool) (s : State) : State :=
  { s with router := { s.router with devKept := s.router.devKept.put l x } }

/-- A level condition of a channel delivered present or absent (R11, R143): delivered present where the kept condition
is absent, it is one raise. -/
def State.deliverChan (l : ChanLevel) (c : Chan) (present : Bool) (s : State) : State :=
  let s' := s.keepChan l c present
  if present && !(s.router.kept.get c).get l then s'.raiseChan l.kind c else s'

/-- A level condition of the device delivered present or absent (R143). -/
def State.deliverDev (l : DevLevel) (present : Bool) (s : State) : State :=
  let s' := s.keepDev l present
  if present && !s.router.devKept.get l then s'.raiseDev l.kind else s'

/-! ### Acknowledgement (R154 to R156) -/

/-- A flag after an ACK that names it, and whether it was left set (R155). -/
def Flag.acked (f : Flag) (kept : Bool) : Flag := if f.isSet && kept then f else {}

/-- The kept condition behind a channel kind's flag: absent for the occurrence kinds (R155). -/
def State.chanHeld (s : State) (c : Chan) (k : ChanKind) : Bool :=
  match k.level with
  | some l => (s.router.kept.get c).get l
  | none => false

/-- The kept condition behind a device kind's flag (R155). -/
def State.devHeld (s : State) (k : DevKind) : Bool :=
  match k.level with
  | some l => s.router.devKept.get l
  | none => false

/-- The named flags of a channel acted on together (R155). -/
def State.ackChan (c : Chan) (named : ChanKind → Bool) (s : State) : State :=
  { s with router := { s.router with
      flags := s.router.flags.modify c fun v =>
        ChanKind.all.foldl (fun w k =>
          if named k then w.set k.idx.val ((v.get k.idx).acked (s.chanHeld c k)) k.idx.isLt
          else w) v } }

/-- The named device flags acted on together (R155). -/
def State.ackDev (named : DevKind → Bool) (s : State) : State :=
  { s with router := { s.router with
      dev := DevKind.all.foldl (fun w k =>
        if named k then
          w.set k.idx.val ((s.router.dev.get k.idx).acked (s.devHeld k)) k.idx.isLt
        else w) s.router.dev } }

/-- A named flag of the channel stays set (R154, STILL_ACTIVE). -/
def State.chanStillActive (s : State) (c : Chan) (named : ChanKind → Bool) : Bool :=
  ChanKind.all.any fun k => named k && (s.chanFlag c k).isSet && s.chanHeld c k

/-- A named flag of the device stays set (R154, STILL_ACTIVE). -/
def State.devStillActive (s : State) (named : DevKind → Bool) : Bool :=
  DevKind.all.any fun k => named k && (s.devFlag k).isSet && s.devHeld k

/-- The exit judgement after an ACK (R137, R153): a channel, or a pair, with no trip-class flag left on it and none on
the device leaves TRIP for OFF and loses its trip record. -/
def State.judgeExit (s : State) : State :=
  { s with
    sup := PerChan.ofFn fun c =>
      if s.st c = .trip ∧ s.tripFlagNear c = false then { s.sup.get c with st := .off }
      else s.sup.get c
    router := { s.router with
      trips := PerChan.ofFn fun c =>
        if s.st c = .trip ∧ s.tripFlagNear c = false then none else s.router.trips.get c } }

/-- Some set flag holds channel `c` by the routes of the active bank (R132). -/
def State.flagHolds (s : State) (c : Chan) : Bool :=
  ((List.finRange 8).any fun d => ChanKind.all.any fun k =>
    (s.chanFlag d k).isSet &&
      ((s.bank.route k.code).holdAll || (decide (d = c) && (s.bank.route k.code).holdSelf)))
  || DevKind.all.any fun k =>
    (s.devFlag k).isSet && ((s.bank.route k.code).holdSelf || (s.bank.route k.code).holdAll)

/-- Some set flag holds channel `c` or its active-pair partner (R132). -/
def State.flagHoldsUnit (s : State) (c : Chan) : Bool :=
  s.flagHolds c ||
    (match (s.role c).partner with
      | some p => s.flagHolds p
      | none => false)

/-- The ROUTED judgement after an ACK (R132). -/
def State.judgeRouted (s : State) : State :=
  { s with sup := PerChan.ofFn fun c =>
      if s.st c = .hold ∧ s.flagHoldsUnit c = false then
        { s.sup.get c with causes := { (s.sup.get c).causes with routed := false } }
      else s.sup.get c }

end Sys2Proof.Machine
end

