-- ==== Sys2Proof/Machine/Ops.lean ====
section
/-! DEFINITION. Shared operations: pairs moved as one (R124), the entries of channel states other than TRIP and HOLD (R126 to
R129), the gate lines of a phase and the passage of ticks over them (R85, R86). -/

namespace Sys2Proof.Machine

/-! ### Pairs (R124) -/

/-- The channel whose own decision governs channel `c`: its leader where it is a follower, else itself (R124). -/
def State.leadOf (s : State) (c : Chan) : Chan :=
  match s.role c with
  | .follower _ p => p
  | .lone | .leader _ _ => c

/-- Whether channel `d` moves with channel `c`: `c` itself or its active-pair partner (R124). -/
def State.inUnit (s : State) (c d : Chan) : Bool :=
  decide (d = c) || decide ((s.role c).partner = some d)

/-- The supervisors of a unit changed alike. -/
def State.unitSup (c : Chan) (f : Supervisor → Supervisor) (s : State) : State :=
  { s with sup := PerChan.ofFn fun d => if s.inUnit c d then f (s.sup.get d) else s.sup.get d }

/-- The modulators of a unit changed alike. -/
def State.unitMods (c : Chan) (f : Modulator → Modulator) (s : State) : State :=
  { s with mods := PerChan.ofFn fun d => if s.inUnit c d then f (s.mods.get d) else s.mods.get d }

/-! ### Gate lines (R85, R86) -/

/-- The commanded side from counter value `k` on, the counter going up or down (R85): high below the compare; a compare of 0
is low and one of P high for the whole period. Going down the counter lies below the compare from the compare value on, so
that the band is the 2·cmp ticks of R85 and 4-4-3. -/
def sideHigh (up : Bool) (p k cmp : Nat) : Bool :=
  if cmp = 0 then false else if cmp = p then true else if up then decide (k < cmp) else decide (k ≤ cmp)

/-- A saturating count of ticks a gate has been off; any dead time lies below its top. -/
def offTicks (n : Nat) : Nat := min 65535 n

/-- The lines of a phase for a commanded side at one tick (R86): the other gate goes off at once; the side's own gate is on
once its partner has been off for the dead time. `en` is DRIVE with INH_N not low. -/
def Phase.settle (en high : Bool) (dt : Nat) (p : Phase) : Phase :=
  if !en then p.allOff
  else if high then
    let loOff := if p.lo then 0 else p.loOff
    let gateOn := p.hi || decide (dt ≤ loOff)
    { hi := gateOn, lo := false, hiOff := if gateOn then 0 else p.hiOff, loOff := loOff }
  else
    let hiOff := if p.hi then 0 else p.hiOff
    let gateOn := p.lo || decide (dt ≤ hiOff)
    { hi := false, lo := gateOn, hiOff := hiOff, loOff := if gateOn then 0 else p.loOff }

/-- `n` ticks with one commanded side throughout: a gate found on at the first of them goes off there where its side is
not commanded, and the side's own gate goes on when its partner has been off for the dead time. -/
def Phase.hold (en high : Bool) (dt n : Nat) (p : Phase) : Phase :=
  if n = 0 then p
  else if !en then
    { hi := false, lo := false, hiOff := offTicks (if p.hi then n - 1 else p.hiOff + n),
      loOff := offTicks (if p.lo then n - 1 else p.loOff + n) }
  else if high then
    let loOff := offTicks (if p.lo then n - 1 else p.loOff + n)
    let gateOn := p.hi || decide (dt ≤ loOff)
    { hi := gateOn, lo := false, hiOff := if gateOn then 0 else offTicks (p.hiOff + n), loOff := loOff }
  else
    let hiOff := offTicks (if p.hi then n - 1 else p.hiOff + n)
    let gateOn := p.lo || decide (dt ≤ hiOff)
    { hi := false, lo := gateOn, hiOff := hiOff, loOff := if gateOn then 0 else offTicks (p.loOff + n) }

/-- The ticks until a counter at `k` passes the compare, going up or down (R85): the commanded side changes there. None
where it has passed in this half of the period, or where the compare is taken whole. -/
def crossing (up : Bool) (p k cmp : Nat) : Option Nat :=
  if cmp = 0 ∨ cmp = p then none
  else if up then (if k < cmp then some (cmp - k) else none)
  else if cmp < k then some (k - cmp) else none

/-- `n` ticks of one direction of the counter over a phase, from counter value `k` (R85, R86). -/
def Phase.glide (en : Bool) (dt p : Nat) (up : Bool) (k cmp n : Nat) (ph : Phase) : Phase :=
  let side := sideHigh up p k cmp
  match crossing up p k cmp with
  | some x =>
    if x ≤ n then (ph.hold en side dt (x - 1)).hold en (!side) dt (n - x + 1)
    else ph.hold en side dt n
  | none => ph.hold en side dt n

/-- INH_N filtered low (R95). -/
def Timebase.inhLow (t : Timebase) : Bool := decide (t.inh.level = some false)

/-- The counter of a channel (R79). -/
def Timebase.chanCounter (t : Timebase) (c : Chan) : Nat :=
  if t.shifted.get c then t.crest - t.counter else t.counter

/-- Whether the counter of a channel is counting up (R79). -/
def Timebase.chanUp (t : Timebase) (c : Chan) : Bool := t.up != t.shifted.get c

/-- A compare by its phase. -/
def Compares.get (x : Compares) : PhaseId → Nat
  | .a => x.a
  | .b => x.b
  | .c => x.c

/-- The lines of a phase by its name. -/
def Modulator.phase (m : Modulator) : PhaseId → Phase
  | .a => m.pa
  | .b => m.pb
  | .c => m.pc

/-- A function applied to the lines of each phase with its active compare. -/
def Modulator.mapPhases (m : Modulator) (f : Nat → Phase → Phase) : Modulator :=
  { m with pa := f m.active.a m.pa, pb := f m.active.b m.pb, pc := f m.active.c m.pc }

/-- Whether a modulator drives its lines: DRIVE, and INH_N not low (R87, R95). -/
def State.enabled (s : State) (c : Chan) : Bool := (s.mods.get c).drive && !s.tb.inhLow

/-- The gate lines of one channel brought to what its counter, compares and gate state command now (R85 to R87, R95). -/
def State.settledMod (s : State) (c : Chan) : Modulator :=
  let m := s.mods.get c
  m.mapPhases fun cmp ph =>
    ph.settle (s.enabled c) (sideHigh (s.tb.chanUp c) s.tb.set.p (s.tb.chanCounter c) cmp) m.deadTime

/-- The gate lines of every channel settled. -/
def State.settleGates (s : State) : State :=
  { s with mods := PerChan.ofFn s.settledMod }

/-! ### Entries of channel states (R126 to R129, R133) -/

/-- The values of a channel's loop state at entry into CHARGE (R126). -/
def LoopChan.chargeEntry (l : LoopChan) : LoopChan := { l with accD := 0, accQ := 0, vsat := 0 }

/-- The supervisor at entry into CHARGE (R126). -/
def Supervisor.enterCharge (u : Supervisor) : Supervisor :=
  { u with st := .charge, causes := {}, chargeCount := 0, missed := 0 }

/-- The modulator at entry into CHARGE: INHIBIT, stale count 0, pending compares discarded (R126). -/
def Modulator.enterCharge (m : Modulator) : Modulator := { m.inhibit with stale := 0 }

/-- The run executing is marked where the channel that enters CHARGE is its own (R58, log 17). -/
def Engine.markCharge (e : Engine) (f : Chan → Bool) : Engine :=
  { e with
    running := e.running.map fun r =>
      if f r.entry.chan then { r with chargeEntered := true } else r }

/-- Entry of a unit into CHARGE (R126). -/
def State.enterCharge (c : Chan) (s : State) : State :=
  { s with
    sup := PerChan.ofFn fun d => if s.inUnit c d then (s.sup.get d).enterCharge else s.sup.get d
    mods := PerChan.ofFn fun d => if s.inUnit c d then (s.mods.get d).enterCharge else s.mods.get d
    loop := PerChan.ofFn fun d => if s.inUnit c d then (s.loop.get d).chargeEntry else s.loop.get d
    refs := PerChan.ofFn fun d => if s.inUnit c d then {} else s.refs.get d
    engine := s.engine.markCharge (s.inUnit c) }

/-- The supervisor at entry into STOPPING (R128). -/
def Supervisor.enterStopping (u : Supervisor) : Supervisor :=
  { u with st := .stopping, causes := {}, missed := 0 }

/-- Entry of a unit into STOPPING: pending compares discarded, gate state and active compares kept (R128). -/
def State.enterStopping (c : Chan) (s : State) : State :=
  (s.unitSup c Supervisor.enterStopping).unitMods c fun m => { m with pending := none }

/-- Entry of a unit into OFF at the end of STOPPING (R129). -/
def State.enterOff (c : Chan) (s : State) : State :=
  (s.unitSup c fun u => { u with st := .off }).unitMods c Modulator.inhibit

/-- The compares of entry into RUN (R88). -/
def centred (p : Nat) : Compares := ⟨p / 2, p / 2, p / 2⟩

/-- The pair runtime of the slot a channel leads, cleared (R53). -/
def State.clearPair (c : Chan) (s : State) : State :=
  match (s.role c).slot with
  | some slot => { s with pairs := s.pairs.set slot.val {} slot.isLt }
  | none => s

/-- Entry of a unit into RUN from CHARGE (R88, R127): compares of floor(P/2), the pair runtime cleared. -/
def State.enterRun (c : Chan) (s : State) : State :=
  ((s.unitSup c fun u => { u with st := .run }).unitMods c fun m =>
    { m with active := centred s.tb.set.p, drive := true }).clearPair c

/-- A take reported to the supervisor (R131, R133): STALE is removed from the unit, and a unit in HOLD whose cause set is
then empty returns to RUN. -/
def Supervisor.takeReported (u : Supervisor) : Supervisor :=
  let x := { u.causes with stale := false }
  { u with causes := x, st := if u.st = .hold ∧ x.isEmpty then .run else u.st }

/-! ### Marks of the loop engine (R15, R70) -/

/-- Every entry waiting and the run executing, changed alike. -/
def Engine.mapEntries (e : Engine) (f : Entry → Entry) : Engine :=
  { queue := e.queue.map f, running := e.running.map fun r => { r with entry := f r.entry } }

/-- An entry of a channel is the unfinished one of its lane's latest strobe (R70). -/
def Entry.unfinished (c : Chan) (e : Entry) : Bool := decide (e.chan = c) && e.current

/-- Whether the burst accepted for a channel's latest strobe waits or executes (R70). -/
def Engine.unfinished (e : Engine) (c : Chan) : Bool :=
  e.queue.any (Entry.unfinished c) ||
    (match e.running with
      | some r => r.entry.unfinished c
      | none => false)

/-- The late mark set on the unfinished entry or run of a channel's latest strobe (R70). -/
def Engine.markLate (e : Engine) (c : Chan) : Engine :=
  e.mapEntries fun x => if x.unfinished c then { x with late := true } else x

/-- The count mark given to every entry and run of a channel (R15, R61). -/
def Engine.markCount (e : Engine) (c : Chan) : Engine :=
  e.mapEntries fun x =>
    if x.chan = c then { x with strobe := { x.strobe with countMark := true } } else x

/-- A new strobe of a channel: its waiting entry and executing run now stand for an older one (log 17). -/
def Engine.strobed (e : Engine) (f : Chan → Bool) : Engine :=
  e.mapEntries fun x => if f x.chan then { x with current := false } else x

end Sys2Proof.Machine
end

