-- ==== Sys2Proof/Machine/Sine.lean ====
section
/-! DEFINITION. The sine table of the loop engine (R7): S(k) is 32767 sin(2 pi k / 4096) rounded to the nearest integer, ties
away from zero. The first quarter is listed; the others follow by the symmetry of the sine. -/

namespace Sys2Proof.Machine

/-- Quarter-wave entries 0 to 207, sixteen of 16 bits to a row, the lowest entry lowest. -/
def sineRows0 : List Nat := [
  0x02f202c0028d025b022901f701c401920160012e00fb00c90097006500320000,
  0x061605e305b1057f054d051b04e804b604840452041f03ed03bb038903560324,
  0x0938090608d408a20870083e080b07d907a707750743071106de06ac067a0648,
  0x0c5a0c280bf60bc40b920b5f0b2d0afb0ac90a970a650a330a0109cf099d096a,
  0x0f790f470f150ee30eb10e800e4e0e1c0dea0db80d860d540d220cf00cbe0c8c,
  0x129612641233120111cf119d116c113a110810d610a410721041100f0fdd0fab,
  0x15b0157f154d151c14ea14b914871455142413f213c0138f135d132b12fa12c8,
  0x18c7189618651833180217d0179f176e173c170b16d916a816761645161315e2,
  0x1bda1ba91b781b471b161ae51ab41a821a511a2019ef19be198c195b192a18f9,
  0x1ee91eb81e871e571e261df51dc41d931d621d311d001ccf1c9e1c6d1c3c1c0b,
  0x21f321c2219221612131210020d0209f206f203e200d1fdd1fac1f7b1f4a1f1a,
  0x24f824c8249724672437240723d723a623762346231522e522b5228422542223,
  0x27f727c7279727672737270826d826a826782648261825e825b8258825582528]

/-- Quarter-wave entries 208 to 415, sixteen of 16 bits to a row, the lowest entry lowest. -/
def sineRows1 : List Nat := [
  0x2af02ac02a912a612a322a0229d329a329742944291528e528b5288628562826,
  0x2de22db32d842d552d262cf72cc82c992c6a2c3a2c0b2bdc2bad2b7d2b4e2b1f,
  0x30cd309e3070304130132fe42fb62f872f582f2a2efb2ecc2e9d2e6e2e402e11,
  0x33b133833355332632f832ca329c326e3240321131e331b531873158312a30fb,
  0x368c365f3631360435d635a8357b354d351f34f234c434963468343a340c33df,
  0x39603933390638d938ab387e3851382437f737ca379c376f3742371536e736ba,
  0x3c2a3bfe3bd13ba53b783b4c3b1f3af23ac63a993a6c3a403a1339e639b9398c,
  0x3eeb3ebf3e933e683e3c3e103de43db83d8c3d603d333d073cdb3caf3c833c56,
  0x41a24177414c412140f640ca409f40734048401d3ff13fc53f9a3f6e3f433f17,
  0x4450442543fb43d043a5437b4350432542fa42d042a5427a424f422441f941ce,
  0x46f346c9469f4675464b462145f745cd45a34578454e452444f944cf44a5447a,
  0x498a49614938490f48e548bc489348694840481647ed47c3479a47704746471c,
  0x4c174bee4bc64b9d4b754b4c4b244afb4ad24aa94a804a584a2f4a0649dd49b4]

/-- Quarter-wave entries 416 to 623, sixteen of 16 bits to a row, the lowest entry lowest. -/
def sineRows2 : List Nat := [
  0x4e984e704e484e204df94dd14da94d814d594d314d094ce04cb84c904c684c3f,
  0x510c50e550be50975070504950224ffb4fd44fac4f854f5d4f364f0e4ee74ebf,
  0x5374534e5328530252dc52b5528f52685242521b51f551ce51a85181515a5133,
  0x55d055aa55855560553a551554ef54c954a4547e54585432540c53e753c1539b,
  0x581e57f957d557b0578b57675742571d56f856d356af568a5664563f561a55f5,
  0x5a5e5a3b5a1759f359cf59ac598859645940591c58f858d358af588b58675842,
  0x5c915c6e5c4b5c285c055be25bbf5b9c5b795b565b335b0f5aec5ac95aa55a82,
  0x5eb55e935e715e4f5e2d5e0b5de95dc75da55d825d605d3e5d1b5cf95cd65cb3,
  0x60cb60aa608960686047602560045fe35fc25fa05f7f5f5d5f3c5f1a5ef85ed7,
  0x62d162b16291627162516231621161f061d061af618f616e614e612d610c60eb,
  0x64c964aa648b646c644c642d640e63ee63cf63af6390637063516331631162f1,
  0x66b16693667566566638661a65fc65dd65bf65a06582656365446525650764e8,
  0x6889686c684f6832681467f767da67bc679f6781676467466728670a66ed66cf]

/-- Quarter-wave entries 624 to 831, sixteen of 16 bits to a row, the lowest entry lowest. -/
def sineRows3 : List Nat := [
  0x6a516a356a1969fd69e069c469a8698b696f69526936691968fc68e068c368a6,
  0x6c086bed6bd26bb76b9c6b816b656b4a6b2f6b136af86adc6ac06aa46a896a6d,
  0x6daf6d956d7b6d616d476d2d6d136cf86cde6cc36ca96c8e6c746c596c3e6c23,
  0x6f456f2c6f146efb6ee16ec86eaf6e966e7c6e636e4a6e306e166dfd6de36dc9,
  0x70ca70b2709b7083706b7053703a7022700a6ff26fd96fc16fa86f906f776f5e,
  0x723e7227721071f971e271cb71b4719d7186716f715871407129711170fa70e2,
  0x739f738a7374735e73497333731d730772f172db72c472ae72987281726b7254,
  0x74f074db74c674b2749d74887474745f744a74357420740a73f573e073ca73b5,
  0x762d761a760775f375e075cc75b875a57591757d756975557541752d75187504,
  0x7759774777357722771076fe76eb76d876c676b376a0768d767a766776547641,
  0x787378627850783f782e781d780b77fa77e877d777c577b377a1778f777d776b,
  0x7979796a795a794a793979297919790978f878e878d778c778b678a578947884,
  0x7a6d7a5f7a507a417a327a237a147a0579f679e679d779c879b879a979997989]

/-- Quarter-wave entries 832 to 1024, sixteen of 16 bits to a row, the lowest entry lowest. -/
def sineRows4 : List Nat := [
  0x7b4f7b417b337b267b187b0a7afc7aee7ae07ad27ac47ab67aa87a997a8b7a7c,
  0x7c1d7c107c047bf87beb7bde7bd27bc57bb87bab7b9e7b917b847b777b697b5c,
  0x7cd87ccd7cc17cb67cab7c9f7c947c887c7d7c717c657c597c4d7c417c357c29,
  0x7d807d767d6c7d627d577d4d7d437d397d2e7d247d197d0e7d047cf97cee7ce3,
  0x7e147e0b7e027dfa7df17de87ddf7dd57dcc7dc37db97db07da67d9d7d937d89,
  0x7e957e8d7e867e7e7e777e6f7e677e5f7e577e4f7e477e3e7e367e2e7e257e1d,
  0x7f027efc7ef67eef7ee97ee27edc7ed57ece7ec77ec07eb97eb27eab7ea47e9c,
  0x7f5c7f577f527f4d7f487f427f3d7f377f327f2c7f267f217f1b7f157f0f7f09,
  0x7fa27f9f7f9b7f977f937f8f7f8a7f867f827f7d7f797f747f707f6b7f667f61,
  0x7fd57fd27fd07fcd7fca7fc77fc47fc17fbe7fbb7fb87fb47fb17fad7faa7fa6,
  0x7ff47ff37ff17ff07fee7fec7feb7fe97fe77fe57fe37fe17fdf7fdc7fda7fd8,
  0x7fff7fff7fff7ffe7ffe7ffe7ffd7ffd7ffc7ffb7ffa7ff97ff87ff77ff67ff5,
  0x7fff]

/-- The rows of the first quarter, entries 0 to 1024. -/
def sineRows : List Nat := sineRows0 ++ sineRows1 ++ sineRows2 ++ sineRows3 ++ sineRows4

/-- S(k) for k in 0..1024. -/
def sineQuarter (k : Nat) : Nat := (sineRows.getD (k / 16) 0 >>> (16 * (k % 16))) % 65536

/-- S(k) for k in 0..4095 (R7). -/
def sineEntry (k : Nat) : Int :=
  if k ≤ 1024 then sineQuarter k
  else if k ≤ 2048 then sineQuarter (2048 - k)
  else if k ≤ 3072 then -(sineQuarter (k - 2048) : Int)
  else -(sineQuarter (4096 - k) : Int)

/-- The sine of an angle of `theta` angle units (R7). -/
def sinOf (theta : Nat) : Int := sineEntry (theta / 16 % 4096)

/-- The cosine of an angle of `theta` angle units (R7). -/
def cosOf (theta : Nat) : Int := sineEntry ((theta / 16 + 1024) % 4096)

end Sys2Proof.Machine
end

