-- ==== Sys2Proof/Machine/Run.lean ====
section
/-! DEFINITION. The eleven stages of a run (chapters 1 and 2) as functions of what its start fixed: conditioning, transforms,
references, regulators, limits, compares. -/

namespace Sys2Proof.Machine

/-! ### Stage 1: conditioning (R8 to R11) -/

/-- A sample code: the low 12 bits of its word (R8). -/
def code12 (w : Word) : Nat := bitsOf w 0 12

/-- The middle of three values (R8). -/
def median3 (a b c : Nat) : Nat := max (min a b) (min (max a b) c)

/-- The largest of three values less the smallest (R8). -/
def spread3 (a b c : Nat) : Nat := max (max a b) c - min (min a b) c

/-- A phase current from a median and an offset (R9). -/
def phaseCurrent (m offset : Nat) : Int := sat16 (((m : Int) - offset) * 16)

/-- What stage 1 finds (R8 to R11). -/
structure Conditioned where
  iA : Int
  iB : Int
  iC : Int
  dc : Nat
  temp : Nat
  disagree : Bool
  overcurrent : Bool
  undervolt : Bool
  overvolt : Bool
  overtemp : Bool
deriving DecidableEq, Repr

/-- Stage 1 (R8 to R11). -/
def condition (w : BurstWords) (r : Record) : Conditioned :=
  let mA := median3 (code12 w.a1) (code12 w.a2) (code12 w.a3)
  let mB := median3 (code12 w.b1) (code12 w.b2) (code12 w.b3)
  let iA := phaseCurrent mA r.offsetA
  let iB := phaseCurrent mB r.offsetB
  let iC := sat16 (-(iA + iB))
  let dc := code12 w.dc
  let temp := code12 w.temp
  { iA := iA, iB := iB, iC := iC, dc := dc, temp := temp
    disagree :=
      decide (spread3 (code12 w.a1) (code12 w.a2) (code12 w.a3) > r.disagreeWindow) ||
        decide (spread3 (code12 w.b1) (code12 w.b2) (code12 w.b3) > r.disagreeWindow)
    overcurrent :=
      decide (iA.natAbs > r.iTrip) || decide (iB.natAbs > r.iTrip) || decide (iC.natAbs > r.iTrip)
    undervolt := decide (dc < r.uUnder)
    overvolt := decide (dc > r.uOver)
    overtemp := decide (temp ≥ r.tTrip) }

/-! ### Stages 2 to 4 (R12 to R16) -/

/-- iβ of the Clarke transform (R12); iα is i_A. -/
def clarkeBeta (iA iB : Int) : Int := sat16 (roundAt 15 ((iA + 2 * iB) * 18919))

/-- The electrical angle (R13). -/
def electricalAngle (r : Record) (c : Nat) : Nat :=
  ((c * r.polePairs) % r.cpr * 65536 / r.cpr + r.angleOffset) % 65536

/-- The electrical speed (R14): 0 where the history is absent or the count mark set. -/
def electricalSpeed (h : Option History) (mark : Bool) (theta : Nat) : Int :=
  match h with
  | some h => if mark then 0 else wrap16 ((theta : Int) - h.theta)
  | none => 0

/-- The revolution counts of two readings as a signed 16-bit difference (R14, R55). -/
def revDiff (x y : Word) : Int := wrap16 (x.toInt - y.toInt)

/-- The mechanical speed (R14): saturated to -32767..32767; 0 where the history is absent or the count mark set. -/
def mechanicalSpeed (h : Option History) (mark : Bool) (cpr : Nat) (x : Counts) : Int :=
  match h with
  | some h =>
    if mark then 0
    else clampTo 32767 ((x.fine : Int) - h.counts.fine + revDiff x.rev h.counts.rev * cpr)
  | none => 0

/-- What stages 1 to 4 hand on. -/
structure Front where
  cond : Conditioned
  theta : Nat
  sin : Int
  cos : Int
  omega : Int
  delta : Int
  id : Int
  iq : Int
deriving DecidableEq, Repr

/-- Stages 1 to 4 of a run (R8 to R16), on the record of the pinned bank and the history and mark of its start. -/
def Run.front (x : Run) : Front :=
  let r := x.bank.record x.entry.chan
  let k := condition x.entry.words r
  let own := x.entry.strobe.own
  let theta := electricalAngle r own.fine
  let sn := sinOf theta
  let cs := cosOf theta
  let iAlpha := k.iA
  let iBeta := clarkeBeta k.iA k.iB
  { cond := k, theta := theta, sin := sn, cos := cs
    omega := electricalSpeed x.history x.countMark theta
    delta := mechanicalSpeed x.history x.countMark r.cpr own
    id := sat16 (roundAt 15 (iAlpha * cs + iBeta * sn))
    iq := sat16 (roundAt 15 (iBeta * cs - iAlpha * sn)) }

/-! ### Stage 5: references (R38 to R57) -/

/-- The reference state with a payload as the setpoint in force (R40). -/
def RefState.take (f : RefState) (p : Payload) : RefState :=
  { f with base := f.raw, target := p.iq, step := 0, mode := p.mode, idHeld := p.id,
           limit := p.limit, takenCycle := some p.cycle }

/-- A tracking run's step 5.3 (R41, R42). -/
def RefState.track (f : RefState) (ramp : Bool) (n : Nat) : RefState :=
  if ramp then
    let k := min n (f.step + 1)
    { f with step := k, raw := f.base + truncDiv ((f.target - f.base) * k) n }
  else { f with step := n, raw := f.target }

/-- A value moved toward 0 by a step (R43, R44). -/
def decay (x : Int) (step : Nat) : Int :=
  if x.natAbs ≤ step then 0 else if 0 < x then x - step else x + step

/-- A holding run's step 5.3, with the decay of id_held in GIVEN mode (R43, R44). -/
def RefState.decayed (f : RefState) (step : Nat) : RefState :=
  { f with raw := decay f.raw step,
           idHeld := if f.mode = .given then decay f.idHeld step else f.idHeld }

/-- The reference state of a lone channel's or leader's control run, after take and step 5.3 (R38 to R44). -/
def Run.reference (x : Run) : RefState :=
  let r := x.bank.record x.entry.chan
  if x.tracking then
    (match x.taken with
      | some p => x.ref.take p
      | none => x.ref).track r.ramp x.n
  else x.ref.decayed r.decayStep

/-- id_ref_raw by the id mode (R45): AUTO evaluates the channel's own fw curve at its own speed. -/
def idRefRaw (b : Bank) (c : Chan) (mode : IdMode) (held delta : Int) : Int :=
  match mode with
  | .zero => 0
  | .given => held
  | .auto =>
    let r := b.record c
    if r.fwEnable && decide (2 ≤ r.fwCount) then curveAt (b.fwPoints c) delta.natAbs else 0

/-- The current limit of a run (R47, R49). -/
def currentLimit (b : Bank) (c : Chan) (temp limit : Nat) : Int :=
  let r := b.record c
  let d := min (r.iMax : Int) (curveAt (b.deratePoints c) temp)
  if limit = 0 then d else min d limit

/-- The references of a control run (R50, R51): the d axis first, the q axis within what remains of the circle, and whether a
clamp changed a value. -/
structure References where
  idRef : Int
  iqRef : Int
  limited : Bool
deriving DecidableEq, Repr

/-- Steps 5.6, 5.8 and 5.9 (R50, R51). -/
def composeReferences (ilim idRaw iqRaw : Int) : References :=
  let idRef := clampTo ilim idRaw
  let iqLim : Int := isqrt (ilim * ilim - idRef * idRef).toNat
  let iqRef := clampTo iqLim iqRaw
  { idRef := idRef, iqRef := iqRef, limited := decide (idRef ≠ idRaw) || decide (iqRef ≠ iqRaw) }

/-- The skew of a pair, from counts latched at one valley (R55). -/
def pairSkew (e : PairEntry) (cpr : Nat) (l f : Counts) : Int :=
  revDiff l.rev f.rev * cpr + ((l.fine : Int) - f.fine) - e.skewOffset

/-- The skew correction (R55). -/
def skewCorrection (e : PairEntry) (d : Int) : Int := clampTo e.skewMax (roundAt 8 (d * e.skewGain))

/-- share_L of a leader's control run (R54). -/
def leaderShare (e : PairEntry) (t corr : Int) : Int := roundAt 15 (t * e.split) + corr

/-- What stage 5 hands on: references, the reference state and pair runtime to be written, and the skew condition. -/
structure StageFive where
  refs : References
  ref : Option RefState
  pair : Option (Fin 4 × PairRuntime)
  skew : Bool
deriving DecidableEq, Repr

/-- The follower's counts of a leader's entry; free values where the strobe record holds none (log 15). -/
def Run.followerCounts (x : Run) : Counts :=
  x.entry.strobe.follower.getD ⟨Config.followerFine x.free, Config.followerRev x.free⟩

/-- Stage 5 of a control run, by the channel's role in the pinned bank (R37 to R57). -/
def Run.stageFive (x : Run) (f : Front) : StageFive :=
  let c := x.entry.chan
  match x.bank.role c with
  | .follower _ _ =>
    let mode := if x.pair.written then x.pair.mode else .zero
    let limit := if x.pair.written then x.pair.limit else 0
    let iqRaw := if x.pair.written then x.pair.shareF else 0
    { refs := composeReferences (currentLimit x.bank c f.cond.temp limit)
        (idRefRaw x.bank c mode x.pair.idValue f.delta) iqRaw
      ref := none, pair := none, skew := false }
  | .leader slot _ =>
    let e := x.bank.pairEntry slot
    let rf := x.reference
    let d := pairSkew e (x.bank.record c).cpr x.entry.strobe.own x.followerCounts
    let shareL := leaderShare e rf.raw (skewCorrection e d)
    { refs := composeReferences (currentLimit x.bank c f.cond.temp rf.limit)
        (idRefRaw x.bank c rf.mode rf.idHeld f.delta) shareL
      ref := some rf
      pair := some (slot, { shareL := shareL, shareF := rf.raw - shareL, mode := rf.mode,
                            idValue := rf.idHeld, limit := rf.limit, written := true })
      skew := decide (d.natAbs > e.skewTrip) }
  | .lone =>
    let rf := x.reference
    { refs := composeReferences (currentLimit x.bank c f.cond.temp rf.limit)
        (idRefRaw x.bank c rf.mode rf.idHeld f.delta) rf.raw
      ref := some rf, pair := none, skew := false }

/-! ### Stages 6 to 8: regulators, DC link compensation, vector limit (R18 to R25) -/

/-- One axis after stage 7: error, unsaturated output, compensated output, candidate integrator, limited mark. -/
structure Axis where
  err : Int
  uRaw : Int
  v : Int
  candidate : Int
  limited : Bool
deriving DecidableEq, Repr

/-- The gain of the DC link compensation (R22). -/
def dcGain (r : Record) (dc : Nat) : Int := min 65535 (r.uNominal * 32768 / max dc r.uUnder : Nat)

/-- Stages 6 and 7 of one axis (R18, R19, R21, R22). -/
def axisOf (ref meas : Int) (kp ki : Nat) (acc ff comp : Int) : Axis :=
  let e := ref - meas
  let uRaw := roundAt 12 (kp * e) + acc / 65536 + ff
  let u := sat16 uRaw
  let w := roundAt 15 (u * comp)
  let v := sat16 w
  { err := e, uRaw := uRaw, v := v, candidate := sat32 (acc + ki * e)
    limited := decide (u ≠ uRaw) || decide (v ≠ w) }

/-- The feed-forward term of the d axis (R20). -/
def feedForwardD (r : Record) (omega iq : Int) : Int :=
  if r.ffEnable then -(roundAt 15 (roundAt 15 (omega * r.xQ) * iq)) else 0

/-- The feed-forward term of the q axis (R20). -/
def feedForwardQ (r : Record) (omega id : Int) : Int :=
  if r.ffEnable then roundAt 15 (roundAt 15 (omega * r.xD) * id) + roundAt 15 (omega * r.eBemf) else 0

/-- The integrator decided after stage 8 (R24): a limited axis whose error has the sign of its unsaturated output keeps
the old value. -/
def decideAcc (a : Axis) (limited : Bool) (acc : Int) : Int :=
  if limited && decide (0 < a.err * a.uRaw) then acc else a.candidate

/-- The voltage vector after stage 8 (R23). -/
structure Vector2 where
  d : Int
  q : Int
deriving DecidableEq, Repr

/-- The voltage vector limit, priority to the d axis (R23). -/
def limitVector (limit : Nat) (vd vq : Int) : Vector2 :=
  let d := clampTo limit vd
  let rad : Int := isqrt ((limit : Int) * limit - d * d).toNat
  { d := d, q := clampTo rad vq }

/-! ### Stages 9 to 11: compares (R26 to R29) -/

/-- A compare limited by the minimum pulse (R29, R91), with T = min(min_pulse, floor(P/4)). -/
def minPulsed (p minPulse cmp : Nat) : Nat :=
  let t := min minPulse (p / 4)
  if 1 ≤ cmp ∧ cmp < t then (if 2 * cmp < t then 0 else t)
  else if p - t < cmp ∧ cmp < p then (if 2 * (p - cmp) < t then p else p - t)
  else cmp

/-- A compare of stage 11 before the minimum pulse (R28). -/
def rawCompare (p : Nat) (w : Int) : Nat :=
  (clampIn 0 p ((p / 2 : Nat) + roundAt 30 (w * p * 18919))).toNat

/-- Three compares limited by the minimum pulse. -/
def Compares.minPulsed (p minPulse : Nat) (x : Compares) : Compares :=
  ⟨Machine.minPulsed p minPulse x.a, Machine.minPulsed p minPulse x.b, Machine.minPulsed p minPulse x.c⟩

/-- Stages 9 to 11 (R26 to R29). -/
def comparesOf (p minPulse : Nat) (sn cs : Int) (v : Vector2) : Compares :=
  let vAlpha := sat16 (roundAt 15 (v.d * cs - v.q * sn))
  let vBeta := sat16 (roundAt 15 (v.d * sn + v.q * cs))
  let va := vAlpha
  let vb := roundAt 15 (-16384 * vAlpha + 28378 * vBeta)
  let vc := -va - vb
  let o := -((max (max va vb) vc + min (min va vb) vc) / 2)
  Compares.minPulsed p minPulse ⟨rawCompare p (va + o), rawCompare p (vb + o), rawCompare p (vc + o)⟩

/-! ### The whole control run -/

/-- What a control run computes past stage 4. -/
structure ControlResult where
  five : StageFive
  accD : Int
  accQ : Int
  limited : Bool
  vsat : Nat
  voltSat : Bool
  compares : Compares
deriving DecidableEq, Repr

/-- The VOLT_SAT count after a control run (R25). -/
def vsatAfter (limited : Bool) (vsat : Nat) : Nat := if limited then satSucc 255 vsat else 0

/-- VOLT_SAT is found where the count becomes equal to vsat_runs at this run (R25). -/
def vsatFound (limited : Bool) (vsat runs : Nat) : Bool :=
  limited && decide (vsatAfter limited vsat = runs) && decide (vsat ≠ runs)

/-- Stages 5 to 11 of a control run (R17 to R29, R34 to R58), with the integrators and VOLT_SAT count that stage 6 finds. -/
def Run.controlResult (x : Run) (f : Front) (accD accQ : Int) (vsat : Nat) : ControlResult :=
  let r := x.bank.record x.entry.chan
  let five := x.stageFive f
  let comp := dcGain r f.cond.dc
  let ad := axisOf five.refs.idRef f.id r.kpD r.kiD accD (feedForwardD r f.omega f.iq) comp
  let aq := axisOf five.refs.iqRef f.iq r.kpQ r.kiQ accQ (feedForwardQ r f.omega f.id) comp
  let v := limitVector r.vLimit ad.v aq.v
  let limD := ad.limited || decide (v.d ≠ ad.v)
  let limQ := aq.limited || decide (v.q ≠ aq.v)
  { five := five
    accD := decideAcc ad limD accD
    accQ := decideAcc aq limQ accQ
    limited := limD || limQ
    vsat := vsatAfter (limD || limQ) vsat
    voltSat := vsatFound (limD || limQ) vsat r.vsatRuns
    compares := comparesOf x.p r.minPulse f.sin f.cos v }

/-- The last-run record of a completed run (R5); a monitor run's limited marks are clear (R3). -/
def Run.record (x : Run) (f : Front) (k : Option ControlResult) : LastRun :=
  { completed := true, control := x.control, iA := f.cond.iA, iB := f.cond.iB, id := f.id, iq := f.iq
    theta := f.theta, dc := f.cond.dc, temp := f.cond.temp, fine := x.entry.strobe.own.fine
    delta := f.delta
    currentLimited := match k with | some k => k.five.refs.limited | none => false
    voltageLimited := match k with | some k => k.limited | none => false }

end Sys2Proof.Machine
end

