-- ==== Sys2Proof/Machine/Engine.lean ====
section
/-! DEFINITION. The loop engine as arbiter: RUN_START, RUN_COMPLETION and VOLT_SAT (R1 to R5, R30 to R33, R37, R58, R65 to R69,
R89). -/

namespace Sys2Proof.Machine

/-! ### Run start -/

/-- The run type (R2): control where the channel and its strobe were both in RUN or HOLD. -/
def isControl (now strobe : ChanState) : Bool := now.closing && strobe.closing

/-- A run makes a take (R37): a control run of a lone channel or leader with a full mailbox. -/
def State.takes (s : State) (e : Entry) : Bool :=
  isControl (s.st e.chan) e.strobe.st && !(s.role e.chan).isFollower
    && (s.refs.get e.chan).mailbox.isSome

/-- The take of channel `c`'s mailbox (R37): emptied, and reported to the supervisor. -/
def State.take (c : Chan) (s : State) : State :=
  { s with refs := s.refs.modify c fun f => { f with mailbox := none } }.unitSup c
    Supervisor.takeReported

/-- The pair runtime that a channel's run reads at its start: that of its slot (R57). -/
def State.pairOf (s : State) (c : Chan) : PairRuntime :=
  match (s.role c).slot with
  | some slot => s.pairs.get slot
  | none => {}

/-- The run of an entry with all that its start fixes (R1, R14, R37, R38, R57); `s` is the state after the take. R1 fixes P
here and no rule says when N is read; the model reads it here too (DESIGN CHOICE, log 35). -/
def State.runOf (s0 s : State) (e : Entry) : Run :=
  let c := e.chan
  let l := s0.loop.get c
  { entry := e
    bank := s0.bank
    st := s0.st c
    control := isControl (s0.st c) e.strobe.st
    tracking := decide (s.st c = .run)
    p := s0.tb.set.p
    n := s0.tb.set.n
    taken := if s0.takes e && decide (s.st c = .run) then (s0.refs.get c).mailbox else none
    ref := (s0.refs.get c).ref
    history := l.history
    countMark := e.strobe.countMark
    pair := s0.pairOf c
    accD := l.accD
    accQ := l.accQ
    vsat := l.vsat
    free := s0.free }

/-- Run start (R1, R2, R37, R65, R68): the free engine removes the oldest entry; where the channel's record is not in use
the run ends at once. Without a free engine and a waiting entry there is no run start. -/
def State.startRun (s : State) : State :=
  match s.engine.running, s.engine.queue with
  | none, e :: rest =>
    if (s.record e.chan).inUse then
      let s' := if s.takes e then s.take e.chan else s
      { s' with engine := { queue := rest, running := some (s.runOf s' e) }, free := s.free + 1 }
    else { s with engine := { queue := rest, running := none } }
  | _, _ => s

/-- The starts that R68 makes at once: the free engine starts the oldest entry, and a run that ends at its start (R2) frees it
for the next. -/
def State.startWaiting (s : State) : State := Nat.repeat State.startRun (s.engine.queue.length) s

/-- RUN_START (R1, R68). An acceptance and a completion make the start they bring themselves (log 4); sent alone, it is the
start of a free engine with entries waiting, and elsewhere there is no such event. -/
def execRunStart (s : State) : Host.Outcome State Fault Refusal := .next s.startWaiting

/-! ### Run completion -/

/-- Whether a run was left zero integrators by an ENABLE or a RESTART while it executed (R19, log 13). -/
def Run.cleared (x : Run) : Bool := x.restarted || x.chargeEntered

/-- Whether stage 6 of a run reads the integrators of its start: always where they were not cleared meanwhile (log 13). -/
def Run.early (x : Run) : Bool := !x.cleared || Config.stageSixIsEarly x.free

/-- The control part of a run, computed with the integrators that stage 6 finds. -/
def State.controlOf (s : State) (x : Run) : Option ControlResult :=
  if x.control then
    let l := s.loop.get x.entry.chan
    some (x.controlResult x.front (bif x.early then x.accD else l.accD)
      (bif x.early then x.accQ else l.accQ) (bif x.early then x.vsat else l.vsat))
  else none

/-- The speed history after a run (R15): not written where the count mark is set. -/
def Run.historyAfter (x : Run) (f : Front) (old : Option History) : Option History :=
  if x.entry.strobe.countMark then old else some ⟨f.theta, x.entry.strobe.own⟩

/-- Whether a run's integrators, VOLT_SAT count, references and shares are written (R33, R58). -/
def Run.writes (x : Run) : Bool := !x.restarted && !x.chargeEntered

/-- The loop state of the channel after a run (R5, R15, R24, R25, R33, R58). -/
def Run.loopAfter (x : Run) (f : Front) (k : Option ControlResult) (l : LoopChan) : LoopChan :=
  let l' := { l with last := x.record f k, history := x.historyAfter f l.history }
  match k with
  | some k => if x.writes then { l' with accD := k.accD, accQ := k.accQ, vsat := k.vsat } else l'
  | none => l'

/-- The reference state after a run (R39, R58). -/
def Run.refAfter (x : Run) (k : Option ControlResult) (f : Reference) : Reference :=
  match k with
  | some k =>
    match k.five.ref with
    | some rf => if x.writes then { f with ref := rf } else f
    | none => f
  | none => f

/-- The pair runtimes after a run (R54, R58). -/
def Run.pairsAfter (x : Run) (k : Option ControlResult) (v : Vector PairRuntime 4) :
    Vector PairRuntime 4 :=
  match k with
  | some k =>
    match k.five.pair with
    | some (slot, p) => if x.writes then v.set slot.val p slot.isLt else v
    | none => v
  | none => v

/-- The modulator after a run (R89): fresh pending compares where the channel is in RUN or HOLD, the run is not late and no
RESTART has come. -/
def Run.modAfter (x : Run) (st : ChanState) (k : Option ControlResult) (m : Modulator) : Modulator :=
  match k with
  | some k =>
    if st.closing && !x.entry.late && !x.restarted then { m with pending := some k.compares } else m
  | none => m

/-- The results of a run written together, the engine freed (R30). -/
def State.writeRun (x : Run) (f : Front) (k : Option ControlResult) (s : State) : State :=
  let c := x.entry.chan
  { s with
    engine := { s.engine with running := none }
    loop := s.loop.modify c (x.loopAfter f k)
    refs := s.refs.modify c (x.refAfter k)
    pairs := x.pairsAfter k s.pairs
    mods := s.mods.modify c (x.modAfter (s.st c) k) }

/-- VOLT_SAT is still to be delivered for a run: found by it, and not delivered before its completion (R25, log 17). -/
def Run.voltSatDue (x : Run) (k : Option ControlResult) : Bool :=
  match k with
  | some k => k.voltSat && !x.voltSatDone
  | none => false

/-- The events and conditions of a run delivered in the order of R31. -/
def State.deliverRun (x : Run) (f : Front) (k : Option ControlResult) (s : State) : State :=
  let c := x.entry.chan
  let z := f.cond
  let currentLimit := match k with | some k => k.five.refs.limited | none => false
  let skew := match k with | some k => k.five.skew | none => false
  (((((((s.raiseChanIf z.disagree .sampleDisagree c).raiseChanIf z.overcurrent .overcurrent c
    ).deliverChan .undervolt c z.undervolt).deliverChan .overvolt c z.overvolt
    ).deliverChan .overtemp c z.overtemp).raiseChanIf currentLimit .currentLimit c
    ).deliverChan .pairSkew c skew).raiseChanIf (x.voltSatDue k) .voltSat c

/-- The completion of a run (R30 to R33, R58). -/
def State.completeRun (x : Run) (s : State) : State :=
  let f := x.front
  let k := s.controlOf x
  let s' := s.writeRun x f k
  if x.restarted then s' else s'.deliverRun x f k

/-- RUN_COMPLETION (R30): the run executing completes, and the engine it frees starts the oldest waiting entry (R68). With no
run executing there is no completion. -/
def execRunCompletion (s : State) : Host.Outcome State Fault Refusal :=
  match s.engine.running with
  | some x => .next (s.completeRun x).startWaiting
  | none => .next s

/-- What the run executing has still to report of VOLT_SAT (R25, R33): it is a run of channel `c`, no RESTART has come, and its
control result, on its own pinned bank, finds an axis limited and the count equal to vsat_runs. -/
def State.voltSatRun (s : State) (c : Chan) : Option (Run × ControlResult) :=
  match s.engine.running with
  | some x =>
    match s.controlOf x with
    | some k =>
      if x.entry.chan = c ∧ x.restarted = false ∧ x.voltSatDue (some k) = true then some (x, k) else none
    | none => none
  | none => none

/-- VOLT_SAT (R25), sent before the completion it is a part of (log 2): the count of the executing control run takes effect
and VOLT_SAT is raised, which the completion then does not do again. Where the run reports no VOLT_SAT, there is no such event. -/
def execVoltSat (c : Chan) (s : State) : Host.Outcome State Fault Refusal :=
  match s.voltSatRun c with
  | some (x, k) =>
    .next ({ s with
      loop := s.loop.modify c fun l => if x.writes then { l with vsat := k.vsat } else l
      engine := { s.engine with running := some { x with voltSatDone := true } } }.raiseChan .voltSat c)
  | none => .next s

end Sys2Proof.Machine
end

