-- ==== Sys2Proof/Machine/Intake.lean ====
section
/-! DEFINITION. The sense intake at a burst (R62 to R68, R75): integrity, acceptance, the run queue, the start it brings. -/

namespace Sys2Proof.Machine

/-- A burst is accepted on a lane (R63): expected, not yet arrived, and the number is the current one. -/
def Lane.accepts (l : Lane) (f : Frame) : Bool :=
  f.intact && l.expected && !l.arrived && decide (f.seq = l.seq)

/-- The run entry that an accepted burst makes on lane `c` (R65). -/
def Lane.entry (l : Lane) (c : Chan) (f : Frame) : Entry :=
  { chan := c, words := f.words, strobe := l.strobe.getD {} }

/-- A channel has a waiting entry (R65, R66). -/
def Engine.waits (e : Engine) (c : Chan) : Bool := e.queue.any fun x => decide (x.chan = c)

/-- The queue with an entry added at the tail, or put in the place of its channel's waiting one (R65, R66). -/
def Engine.enqueue (e : Engine) (x : Entry) : Engine :=
  { e with
    queue :=
      if e.waits x.chan then e.queue.map fun y => if y.chan = x.chan then x else y
      else e.queue ++ [x] }

/-- The arrived mark of a lane set (R63). -/
def State.markArrived (c : Chan) (s : State) : State :=
  { s with lanes := s.lanes.modify c fun l => { l with arrived := true } }

/-- An accepted burst (R63 to R66): the arrived mark, the BRIDGE_FAULT condition, the run queue; SAMPLE_OVERRUN where it
replaces a waiting entry. -/
def State.accept (c : Chan) (f : Frame) (s : State) : State :=
  let s' := (s.markArrived c).deliverChan .bridgeFault c f.bridgeFault
  { s' with engine := s.engine.enqueue ((s.lanes.get c).entry c f) }.raiseChanIf (s.engine.waits c)
    .sampleOverrun c

/-- BURST (R62, R63, R206): a frame ends on the lane of channel `c`. A frame that fails, or a burst that is not accepted,
changes nothing; an accepted burst that finds the engine free starts its run at once (R65, R68). -/
def execBurst (c : Chan) (f : Frame) (s : State) : Host.Outcome State Fault Refusal :=
  if (s.lanes.get c).accepts f then .next (s.accept c f).startWaiting else .next s

end Sys2Proof.Machine
end

