-- ==== Sys2Proof/Machine/Reply.lean ====
section
/-! DEFINITION. Status codes (R191), replies, the fields of a request (R189, R204, R205) and the reply cell (R183, R186). -/

namespace Sys2Proof.Machine

/-- The status codes of a reply (R191). -/
inductive Status where
  | ok
  | accepted
  | badKind
  | badTarget
  | range
  | activeBank
  | swapPending
  | busy
  | state
  | noParams
  | paired
  | flags
  | stillActive
  | curveOrder
  | pairConflict
  | structure'
  | limits
deriving DecidableEq, Repr

/-- The code of a status (R191). -/
def Status.code : Status → Nat
  | .ok => 0
  | .accepted => 1
  | .badKind => 2
  | .badTarget => 3
  | .range => 4
  | .activeBank => 5
  | .swapPending => 6
  | .busy => 7
  | .state => 8
  | .noParams => 9
  | .paired => 10
  | .flags => 11
  | .stillActive => 12
  | .curveOrder => 13
  | .pairConflict => 14
  | .structure' => 15
  | .limits => 16

/-- What an owning block answers: a status and four data words, 0 unless its rule gives them (R191). -/
structure Reply where
  status : Status
  data : Group := {}
deriving DecidableEq, Repr

/-- The channel of a target byte 0..7 (R190). -/
def chanOf (t : Byte) : Option Chan := if h : t.toNat < 8 then some ⟨t.toNat, h⟩ else none

end Sys2Proof.Machine

namespace Sys2Proof

open Machine

/-- The bank a target byte names (8-2): bit 7. -/
def Request.bank (r : Request) : BankName := if r.target.getLsbD 7 then .b else .a

/-- The table a target byte names (8-2): bits 2 to 0. -/
def Request.table (r : Request) : Nat := (r.target.extractLsb' 0 3).toNat

/-- The group index (8-2). -/
def Request.groupIndex (r : Request) : Nat := r.index.toNat

/-- The four data words as a group. -/
def Request.words (r : Request) : Group := ⟨r.w0, r.w1, r.w2, r.w3⟩

/-- The kinds an ACK mask names by code (R154, R205): bit k - 1 of word 0 for kinds 1 to 16, bits 0 to 5 of word 1 for
kinds 17 to 22. -/
def Request.ackNames (r : Request) (code : Nat) : Bool :=
  if code ≤ 16 then decide (1 ≤ code) && r.w0.getLsbD (code - 1)
  else decide (code ≤ 22) && r.w1.getLsbD (code - 17)

/-- The MGT reply to a request of kind `kind` by the station of address `station` (R183, R186, R204). -/
def replyCell (station : BitVec 5) (kind : Byte) (r : Request) (x : Reply) : Cell :=
  Cell.sealed
    { header := headerByte 5 r.chanField false true, station := station.setWidth 8,
      p0 := Word.of kind r.tag, p1 := Word.of (BitVec.ofNat 8 x.status.code) r.index,
      p2 := x.data.w0, p3 := x.data.w1, p4 := x.data.w2, p5 := x.data.w3, crc := 0 }

end Sys2Proof
end

