-- ==== Sys2Proof/Machine/Status.lean ====
section
/-! DEFINITION. The status groups of READ_STATUS (R192 to R198, R208). -/

namespace Sys2Proof.Machine

/-- The two words of a fine count, high word first (R202). -/
def highWord (n : Nat) : Word := wordOfNat (n / 65536)

/-- The low word of a fine count. -/
def lowWord (n : Nat) : Word := wordOfNat n

/-- Marks of the channel kinds 1 to 16, kind k at bit k - 1 (R208). -/
def chanMarks (f : ChanKind → Bool) : Word :=
  wordOfFields ((ChanKind.all.take 16).map fun k => (k.idx.val, markBit (f k)))

/-- Marks of the device kinds, kind k at bit k - 18 (R208). -/
def devMarks (f : DevKind → Bool) : Word :=
  wordOfFields (DevKind.all.map fun k => (k.idx.val, markBit (f k)))

/-- The occurrence count of a channel kind as a word. -/
def State.countWord (s : State) (c : Chan) (k : ChanKind) : Word := wordOfNat (s.chanFlag c k).count

/-- The occurrence count of a device kind as a word. -/
def State.devCountWord (s : State) (k : DevKind) : Word := wordOfNat (s.devFlag k).count

/-- The taken cycle number that the state group of a channel shows: a follower's is absent (R193). -/
def State.takenShown (s : State) (c : Chan) : Option Word :=
  if (s.role c).isFollower then none else (s.refs.get c).ref.takenCycle

/-- The state group of a channel (R193). -/
def State.stateGroup (s : State) (c : Chan) : Group :=
  let u := s.sup.get c
  let f := s.refs.get c
  { w0 := wordOfFields
      [(0, u.st.code), (6, markBit u.causes.stale), (5, markBit u.causes.ring),
        (4, markBit u.causes.routed), (8, markBit u.setSeen), (12, u.missed)]
    w1 := wordOfFields
      [(0, u.chargeCount), (8, (s.mods.get c).stale), (12, markBit f.mailbox.isSome),
        (15, markBit (s.takenShown c).isSome)]
    w2 := (s.takenShown c).getD 0 }

/-- The flag group of a channel (R194). The trip-class marks stand for the kinds that are trip-class in the active bank, their
flag set or clear (DEDUCED, log 20). -/
def State.flagGroup (s : State) (c : Chan) : Group :=
  let k := s.router.kept.get c
  { w0 := chanMarks fun x => (s.chanFlag c x).isSet
    w1 := wordOfFields
      [(0, markBit (s.chanFlag c .pairSkew).isSet), (8, markBit k.bridgeFault),
        (9, markBit k.undervolt), (10, markBit k.overvolt), (11, markBit k.overtemp),
        (12, markBit k.pairSkew)]
    w2 := chanMarks s.bank.chanTripClass
    w3 := wordOfFields [(0, markBit (s.bank.chanTripClass .pairSkew))] }

/-- The partner fields of a via: present mark and channel (R208). -/
def Via.partnerFields : Via → List (Nat × Nat)
  | .partner c => [(3, 1), (0, c.val)]
  | .self | .all => []

/-- The head of a trip record (R195, index 7). -/
def TripRecord.headGroup (t : TripRecord) : Group :=
  { w0 := wordOfFields ([(15, 1), (8, t.cause), (6, t.via.code)] ++ t.via.partnerFields)
    w1 := t.cycle
    w2 := wordOfFields [(0, t.before.code), (4, t.secondary.length)]
    w3 := wordOfNat t.overflow }

/-- Entry `k` of a secondary list as two words, zeros beyond the number held (R195). -/
def TripRecord.entryWords (t : TripRecord) (k : Nat) : Word × Word :=
  match t.secondary[k]? with
  | some e => (wordOfNat e.code, e.cycle)
  | none => (0, 0)

/-- A trip-record group (R195, indexes 7 to 11). -/
def TripRecord.group (t : TripRecord) (i : Nat) : Group :=
  let p := t.snapshot
  match i with
  | 7 => t.headGroup
  | 8 => ⟨wordOfInt p.iA, wordOfInt p.iB, wordOfInt p.id, wordOfInt p.iq⟩
  | 9 => ⟨wordOfNat p.theta, wordOfNat p.dc, wordOfNat p.temp, 0⟩
  | 10 => ⟨(t.entryWords 0).1, (t.entryWords 0).2, (t.entryWords 1).1, (t.entryWords 1).2⟩
  | 11 => ⟨(t.entryWords 2).1, (t.entryWords 2).2, 0, 0⟩
  | _ => {}

/-- A trip-record group of a channel: zeros with no record (R195). -/
def State.tripGroup (s : State) (c : Chan) (i : Nat) : Group :=
  match s.router.trips.get c with
  | some t => t.group i
  | none => {}

/-- Counts with a present mark at bit `b` of the last word and `rest` beside it; zeros where absent (R196). -/
def countsGroup (x : Option Counts) (b : Nat) (rest : List (Nat × Nat)) : Group :=
  match x with
  | some x => ⟨highWord x.fine, lowWord x.fine, x.rev, wordOfFields ((b, 1) :: rest)⟩
  | none => { w3 := wordOfFields rest }

/-- The live position group (R196, index 12). -/
def Position.liveGroup (p : Position) : Group :=
  ⟨highWord p.fine, lowWord p.fine, p.rev,
    wordOfFields [(0, levelCode p.fa.level), (2, levelCode p.fb.level), (4, levelCode p.fz.level)]⟩

/-- The last-run groups (R196, indexes 15 and 16). -/
def LastRun.currents (l : LastRun) : Group :=
  ⟨wordOfInt l.iA, wordOfInt l.iB, wordOfInt l.id, wordOfInt l.iq⟩

/-- The last-run group of index 16 (R196). -/
def LastRun.marks (l : LastRun) : Group :=
  ⟨wordOfNat l.theta, wordOfNat l.dc, wordOfNat l.temp,
    wordOfFields
      [(0, markBit l.completed), (1, markBit l.control), (2, markBit l.currentLimited),
        (3, markBit l.voltageLimited)]⟩

/-- A status group of a channel (R193 to R196); none where the index names no group. -/
def State.chanGroup (s : State) (c : Chan) (i : Nat) : Option Group :=
  let n := s.countWord c
  let p := s.pos.get c
  match i with
  | 0 => some (s.stateGroup c)
  | 1 => some (s.flagGroup c)
  | 2 => some ⟨n .overcurrent, n .bridgeFault, n .comparesStale, n .sampleDisagree⟩
  | 3 => some ⟨n .sampleMissing, n .sampleOverrun, n .loopLate, n .voltSat⟩
  | 4 => some ⟨n .currentLimit, n .undervolt, n .overvolt, n .overtemp⟩
  | 5 => some ⟨n .encoderFault, n .indexMismatch, n .setpointStale, n .setpointOverrun⟩
  | 6 => some { w0 := n .pairSkew }
  | 7 => some (s.tripGroup c 7)
  | 8 => some (s.tripGroup c 8)
  | 9 => some (s.tripGroup c 9)
  | 10 => some (s.tripGroup c 10)
  | 11 => some (s.tripGroup c 11)
  | 12 => some p.liveGroup
  | 13 => some (countsGroup p.latched 0 [])
  | 14 => some (countsGroup p.captured 9 [(0, p.captures), (8, markBit p.armed)])
  | 15 => some (s.loop.get c).last.currents
  | 16 => some (s.loop.get c).last.marks
  | _ => none

/-- A status group of the device (R197, R198), its trip-class marks by kind as those of a channel (DEDUCED, log 20), the
fault lines of group 0 with FL0 at bit 0 and FL3 at bit 3 (DEDUCED, log 40); none where the index names no group. -/
def State.devGroup (s : State) (i : Nat) : Option Group :=
  let t := s.tb
  match i with
  | 0 => some
      { w0 := wordOfFields
          [(0, t.lock.code), (2, t.acquire), (5, s.store.active.code), (6, s.store.stA.code),
            (8, s.store.stB.code), (10, markBit s.store.swapPending),
            (11, markBit s.store.copy.isSome), (12, markBit (decide (t.inh.level ≠ some false)))]
        w1 := s.router.lines.setWidth 16 }
  | 1 => some
      { w0 := s.ring.lastCycle
        w1 := wordOfFields [(0, s.ring.address.toNat), (8, 1)]
        w2 := wordOfNat t.lossCount
        w3 := wordOfNat (markBit t.lossMark) }
  | 2 => some
      { w0 := devMarks fun k => (s.devFlag k).isSet
        w1 := wordOfFields
          [(0, markBit s.router.devKept.ringLoss), (1, markBit s.router.devKept.extInhibit)]
        w2 := devMarks s.bank.devTripClass }
  | 3 => some
      ⟨s.devCountWord .ringLoss, s.devCountWord .cellCrc, s.devCountWord .carrierUnlock,
        s.devCountWord .extInhibit⟩
  | 4 => some { w0 := s.devCountWord .bankSwapDone }
  | 5 => some ⟨wordOfNat t.set.p, wordOfNat t.set.qt, wordOfNat t.set.d, wordOfNat t.set.n⟩
  | 6 => some ⟨wordOfNat t.set.lockWindow, wordOfNat t.set.slewMax, wordOfNat t.set.lossLimit, 0⟩
  | 7 => some
      (match t.pend with
        | some x => ⟨1, wordOfNat x.d, wordOfNat x.p, wordOfNat x.n⟩
        | none => {})
  | _ => none

/-- READ_STATUS decided (R190, R192): a group of a channel or of the device (target 255). -/
def State.statusReply (s : State) (r : Request) : Reply :=
  let g :=
    if r.target = 255 then s.devGroup r.groupIndex
    else (chanOf r.target).bind fun c => s.chanGroup c r.groupIndex
  match g with
  | some g => ⟨.ok, g⟩
  | none => ⟨.badTarget, {}⟩

end Sys2Proof.Machine
end

