-- ==== Sys2Proof/Machine/Position.lean ====
section
/-! DEFINITION. The position counters (chapter 5): input filter, quadrature decode, counts, index, and the inhibit input that
shares the filter (R95, R96). -/

namespace Sys2Proof.Machine

/-! ### Input filter (R107) -/

/-- A filter after `n` ticks, the pin held (R107): each samples the pin; the number of equal samples in a row stays at 3. -/
def Filter.aged (f : Filter) (n : Nat) : Filter :=
  if n = 0 then f
  else if f.raw = some f.pin then { f with count := min 3 (f.count + n) }
  else { f with raw := some f.pin, count := min 3 n }

/-- The run of equal samples has reached 3 with a value other than the filtered level (R107). -/
def Filter.due (f : Filter) : Bool := decide (f.count = 3) && f.raw.isSome && decide (f.raw ≠ f.level)

/-- A filter that has taken its raw sample as its level where it was due. -/
def Filter.taken (f : Filter) : Filter := if f.due then { f with level := f.raw } else f

/-- The filter of an input whose level has become `x` after three samples. -/
def Filter.settled (x : Bool) : Filter := { pin := x, raw := some x, count := 3, level := some x }

/-- The filter of an input whose filtered level changes to `x`: only a known other level changes (R107). -/
def Filter.change (f : Filter) (x : Option Bool) : Filter :=
  match x, f.level with
  | some v, some l => if v = l then f else Filter.settled v
  | _, _ => f

/-- The filter of an input whose unknown level is taken as `x` (R107). -/
def Filter.start (f : Filter) (x : Bool) : Filter :=
  match f.level with
  | none => Filter.settled x
  | some _ => f

/-- The level at the pin, which the samples have from the next tick on (R107). -/
def Filter.drive (x : Bool) (f : Filter) : Filter := { f with pin := x }

/-- A filter as power-on leaves it: nothing sampled, the level at the pin as the outside holds it (R107, R121). -/
def Filter.poweredOn (f : Filter) : Filter := { pin := f.pin }

/-! ### Decoder (R108 to R110) -/

/-- What the decoder makes of a new filtered pair. -/
inductive Step where
  | none
  | up
  | down
  | illegal
deriving DecidableEq, Repr

/-- The step from one pair (A, B) of decoder levels to another, high being true (R108, R109). -/
def stepOf (old new : Bool × Bool) : Step :=
  match old, new with
  | (false, false), (true, false) => .up
  | (true, false), (true, true) => .up
  | (true, true), (false, true) => .up
  | (false, true), (false, false) => .up
  | (true, false), (false, false) => .down
  | (true, true), (true, false) => .down
  | (false, true), (true, true) => .down
  | (false, false), (false, true) => .down
  | (false, false), (true, true) => .illegal
  | (true, true), (false, false) => .illegal
  | (true, false), (false, true) => .illegal
  | (false, true), (true, false) => .illegal
  | (false, false), (false, false) => .none
  | (true, false), (true, false) => .none
  | (false, true), (false, true) => .none
  | (true, true), (true, true) => .none

/-- The effective cpr of a record (R106). -/
def Record.effectiveCpr (r : Record) : Nat := if r.inUse then r.cpr else 16777216

/-- One step up (R110). -/
def Position.stepUp (p : Position) (cpr : Nat) : Position :=
  if p.fine + 1 = cpr then { p with fine := 0, rev := p.rev + 1 } else { p with fine := p.fine + 1 }

/-- One step down (R110). -/
def Position.stepDown (p : Position) (cpr : Nat) : Position :=
  if p.fine = 0 then { p with fine := cpr - 1, rev := p.rev - 1 } else { p with fine := p.fine - 1 }

/-- A counter of a channel changed. -/
def State.setPos (c : Chan) (p : Position) (s : State) : State := { s with pos := s.pos.set c p }

/-- The decoder at a tick at which the filtered level of A or B has changed, or at which both have become known (R108,
R109). -/
def State.decodeStep (c : Chan) (changed : Bool) (s : State) : State :=
  let p := s.pos.get c
  match p.fa.level, p.fb.level with
  | some a, some b =>
    match p.dec with
    | none => s.setPos c { p with dec := some (a, b) }
    | some old =>
      if changed then
        let p' := { p with dec := some (a, b) }
        match stepOf old (a, b) with
        | .up => s.setPos c (p'.stepUp (s.record c).effectiveCpr)
        | .down => s.setPos c (p'.stepDown (s.record c).effectiveCpr)
        | .none => s.setPos c p'
        | .illegal => (s.setPos c p').raiseChanIf (s.record c).inUse .encoderFault c
      else s
  | _, _ => s

/-! ### Index (R116 to R118) -/

/-- The index record with the counts as they stand captured and the capture count one higher. -/
def Position.capture (p : Position) : Position :=
  { p with captured := some ⟨p.fine, p.rev⟩, captures := satSucc 255 p.captures }

/-- The distance around the revolution of a captured count from its expected place (R118). -/
def indexDistance (cap expect cpr : Nat) : Int :=
  let x := ((cap : Int) - expect) % cpr
  min x (cpr - x)

/-- An index edge (R116 to R118). -/
def State.indexEdge (c : Chan) (s : State) : State :=
  let p := s.pos.get c
  let r := s.record c
  if !r.inUse then s
  else
    match r.indexMode with
    | 1 => if p.armed then s.setPos c { p.capture with armed := false } else s
    | 2 =>
      (s.setPos c p.capture).raiseChanIf
        (decide (indexDistance p.fine r.indexExpect r.cpr > r.indexTolerance)) .indexMismatch c
    | _ => s

/-! ### A tick of an encoder (R107, R108, R116) -/

/-- The filters of one encoder replaced at one tick; a change of A or B is decoded, a change of Z from low to high is an
index edge, and `stepFirst` gives the order of the two (R116). -/
def State.encoderTick (c : Chan) (fa fb fz : Filter) (stepFirst : Bool) (s : State) : State :=
  let p := s.pos.get c
  let changed :=
    (p.fa.level.isSome && decide (fa.level ≠ p.fa.level)) ||
      (p.fb.level.isSome && decide (fb.level ≠ p.fb.level))
  let edge := decide (p.fz.level = some false) && decide (fz.level = some true)
  let s' := s.setPos c { p with fa := fa, fb := fb, fz := fz }
  if edge then
    (if changed && !stepFirst then (s'.indexEdge c).decodeStep c changed
     else (s'.decodeStep c changed).indexEdge c)
  else s'.decodeStep c changed

/-! ### The inhibit input (R95, R96) -/

/-- The filter of INH_N replaced. -/
def State.setInh (f : Filter) (s : State) : State := { s with tb := { s.tb with inh := f } }

/-- Every gate line of every channel off at once (R95). -/
def State.allLinesOff (s : State) : State :=
  { s with mods := PerChan.ofFn fun c => (s.mods.get c).linesOff }

/-- INH_N has gone low: gate lines off, EXT_INHIBIT delivered present (R95). -/
def State.inhibitLow (f : Filter) (s : State) : State :=
  ((s.setInh f).allLinesOff).deliverDev .extInhibit true

/-- INH_N has gone high: EXT_INHIBIT delivered absent, gate lines driven from the gate states (R95, R96). -/
def State.inhibitHigh (f : Filter) (s : State) : State :=
  ((s.setInh f).deliverDev .extInhibit false).settleGates

/-- The filter of INH_N replaced at a tick, acting on a change of its level; a starting level taken high delivers nothing
(R95). -/
def State.inhTick (f : Filter) (s : State) : State :=
  if f.level = s.tb.inh.level then s.setInh f
  else
    match f.level, s.tb.inh.level with
    | some false, _ => s.inhibitLow f
    | some true, some false => s.inhibitHigh f
    | _, _ => s.setInh f

/-! ### Commands of the inputs -/

/-- FILTERED_CHANGE (R107 to R109, R116 to R118). -/
def execFilteredChange (c : Chan) (a b z : Option Bool) (stepFirst : Bool) (s : State) :
    Host.Outcome State Fault Refusal :=
  let p := s.pos.get c
  .next (s.encoderTick c (p.fa.change a) (p.fb.change b) (p.fz.change z) stepFirst)

/-- The filter of a line of an encoder. -/
def Position.filter (p : Position) : EncLine → Filter
  | .a => p.fa
  | .b => p.fb
  | .z => p.fz

/-- One filter of an encoder replaced at a tick. -/
def State.lineTick (c : Chan) (l : EncLine) (f : Filter) (s : State) : State :=
  let p := s.pos.get c
  match l with
  | .a => s.encoderTick c f p.fb p.fz true
  | .b => s.encoderTick c p.fa f p.fz true
  | .z => s.encoderTick c p.fa p.fb f true

/-- STARTING_LEVEL (R95, R107, R108): an unknown level is taken; it makes no count and no index edge; for INH_N a low
one acts as INH_N going low. -/
def execStartingLevel (pin : Pin) (level : Bool) (s : State) : Host.Outcome State Fault Refusal :=
  match pin with
  | .enc c l => .next (s.lineTick c l (((s.pos.get c).filter l).start level))
  | .inhN => .next (s.inhTick (s.tb.inh.start level))

/-- The filter of a line of an encoder changed. -/
def Position.mapFilter (p : Position) (l : EncLine) (f : Filter → Filter) : Position :=
  match l with
  | .a => { p with fa := f p.fa }
  | .b => { p with fb := f p.fb }
  | .z => { p with fz := f p.fz }

/-- RAW_SAMPLE_CHANGE (R107): the level at the pin changes, without a filtered change. The next tick samples it and, where the
sample differs from the last one, starts the count of equal samples again at 1 (log 34). -/
def execRawSampleChange (pin : Pin) (level : Bool) (s : State) : Host.Outcome State Fault Refusal :=
  match pin with
  | .enc c l => .next (s.setPos c ((s.pos.get c).mapFilter l (Filter.drive level)))
  | .inhN => .next (s.setInh (s.tb.inh.drive level))

/-- INH_N_LOW (R95): filtered low, from high or as the starting level. -/
def execInhNLow (s : State) : Host.Outcome State Fault Refusal :=
  if s.tb.inh.level = some false then .next s else .next (s.inhTick (Filter.settled false))

/-- INH_N_HIGH (R96): filtered high, from low or as the starting level. -/
def execInhNHigh (s : State) : Host.Outcome State Fault Refusal :=
  if s.tb.inh.level = some true then .next s else .next (s.inhTick (Filter.settled true))

/-! ### Writing the counts (R114, R119) and a change of cpr (R111) -/

/-- The counter of a channel written by SET_COUNT (R114): counts replaced, captured counts removed. -/
def Position.written (p : Position) (fine : Nat) (rev : Word) : Position :=
  { p with fine := fine, rev := rev, captured := none }

/-- SET_COUNT on the counter, the speed history, the entries and runs, and the strobe record (R15, R61, R114). The record
is marked where its burst has not been accepted yet; else its entry or run is. -/
def State.writeCount (c : Chan) (fine : Nat) (rev : Word) (s : State) : State :=
  { s with
    pos := s.pos.modify c fun p => p.written fine rev
    loop := s.loop.modify c fun l => { l with history := none }
    engine := s.engine.markCount c
    lanes := s.lanes.modify c fun l =>
      if l.arrived then l
      else { l with strobe := l.strobe.map fun r => { r with countMark := true } } }

/-- ARM_INDEX on the index record (R119). -/
def Position.arm (p : Position) (set : Bool) : Position :=
  if set then { p with armed := true, captured := none, captures := 0 } else { p with armed := false }

/-- A counter at a swap effect (R111): a changed effective cpr reduces a fine count at or above it and removes the
captured counts. -/
def Position.newCpr (p : Position) (old new : Nat) : Position :=
  if old = new then p
  else { p with fine := if new ≤ p.fine then p.fine % new else p.fine, captured := none }

end Sys2Proof.Machine
end

