-- ==== Sys2Proof/Machine/Store.lean ====
section
/-! DEFINITION. The parameter store (chapter 8): reading, writing, copy, the checks of a swap and its effect. -/

namespace Sys2Proof.Machine

/-! ### The banks (R159, R160) -/

/-- The state of a bank. -/
def Store.stateOf (st : Store) : BankName → BankState
  | .a => st.stA
  | .b => st.stB

/-- The contents of a bank replaced. -/
def Store.setBank (st : Store) (n : BankName) (b : Bank) : Store :=
  match n with
  | .a => { st with a := b }
  | .b => { st with b := b }

/-- The state of a bank replaced. -/
def Store.setState (st : Store) (n : BankName) (x : BankState) : Store :=
  match n with
  | .a => { st with stA := x }
  | .b => { st with stB := x }

/-- The name of the shadow bank (R159). -/
def Store.shadowName (st : Store) : BankName := st.active.other

/-! ### Reading and writing (R161, R163, R164) -/

/-- READ_ENTRY decided (R161, R163). -/
def Store.readEntry (st : Store) (r : Request) : Reply :=
  if validIndex r.table r.groupIndex then
    if r.bank ≠ st.active ∧ st.copy.isSome then ⟨.busy, {}⟩
    else ⟨.ok, ((st.bank r.bank).group r.table r.groupIndex).masked r.table r.groupIndex⟩
  else ⟨.badTarget, {}⟩

/-- WRITE_ENTRY decided (R161, R162, R164). -/
def Store.writeReply (st : Store) (r : Request) : Reply :=
  if !validIndex r.table r.groupIndex then ⟨.badTarget, {}⟩
  else if r.bank = st.active then ⟨.activeBank, {}⟩
  else if st.swapPending then ⟨.swapPending, {}⟩
  else if st.copy.isSome then ⟨.busy, {}⟩
  else
    match firstFalse (wordsInRange r.table r.groupIndex r.words) with
    | some k => ⟨.range, { w0 := wordOfNat k }⟩
    | none => ⟨.ok, {}⟩

/-- The shadow with one group written, EDITED (R161, R164). -/
def Store.written (st : Store) (t i : Nat) (g : Group) : Store :=
  let n := st.shadowName
  (st.setBank n ((st.bank n).put t i (g.masked t i))).setState n .edited

/-- WRITE_ENTRY applied (R164). -/
def Store.writeEntry (st : Store) (r : Request) : Store :=
  if (st.writeReply r).status = .ok then st.written r.table r.groupIndex r.words else st

/-! ### Copy (R166 to R168) -/

/-- COPY_BANK decided (R166). -/
def Store.copyReply (st : Store) : Reply :=
  if st.copy.isSome then ⟨.busy, {}⟩
  else if st.swapPending then ⟨.swapPending, {}⟩
  else ⟨.accepted, {}⟩

/-- COPY_BANK applied (R166): copy in progress, the shadow EDITED. The spec gives the order of the groups and the 60 us, not the
pace: the copied groups appear in the shadow all at once, at COPY_COMPLETION, or at a RESTART that abandons the copy (DESIGN
CHOICE, log 37). No command but those reads the shadow or the number meanwhile. -/
def Store.copyBank (st : Store) : Store :=
  if st.copyReply.status = .accepted then
    { st.setState st.shadowName .edited with copy := some 0 }
  else st

/-- The first `n` groups of a list of groups numbered from `start`, taken from `src`, the others from `dst`. -/
def mixGroups {k : Nat} (start n : Nat) (src dst : Vector Group k) : Vector Group k :=
  Vector.ofFn fun i => if start + i.val < n then src[i] else dst[i]

/-- `dst` with the first `n` groups of `src`, in table order and index order within each table (R166). -/
def Bank.mixed (src dst : Bank) (n : Nat) : Bank :=
  { records := mixGroups 0 n src.records dst.records
    derate := mixGroups 64 n src.derate dst.derate
    fw := mixGroups 96 n src.fw dst.fw
    pairs := mixGroups 160 n src.pairs dst.pairs
    routes := mixGroups 168 n src.routes dst.routes }

/-- Copy completion (R166): the shadow equal to the active bank and VALID, the mark clear. -/
def Store.copyDone (st : Store) : Store :=
  let n := st.shadowName
  { (st.setBank n (st.bank st.active)).setState n .valid with copy := none }

/-- COPY_COMPLETION (R166). With no copy in progress there is no such event. -/
def execCopyCompletion (s : State) : Host.Outcome State Fault Refusal :=
  if s.store.copy.isSome then .next { s with store := s.store.copyDone } else .next s

/-- A copy abandoned at RESTART (R168): the shadow keeps the groups copied so far; how many is a free value (log 14). -/
def Store.abandonCopy (st : Store) (free : Nat) : Store :=
  match st.copy with
  | none => st
  | some k =>
    let n := st.shadowName
    let done := k + Config.copyProgress free % (191 - k)
    { (st.setBank n ((st.bank st.active).mixed (st.bank n) done)).setState n .edited with copy := none }

/-! ### The checks of a swap (R169 to R173) -/

/-- The first channel of a scan that a test finds at fault, with the table and index it names. -/
def scanChans (f : Chan → Option (Nat × Nat)) : Option (Nat × Nat) := (List.finRange 8).findSome? f

/-- The position of the first x that does not exceed its predecessor (R170). -/
def firstNotAscending : List Int → Option Nat
  | [] => none
  | [_] => none
  | x :: y :: l => if x < y then (firstNotAscending (y :: l)).map (· + 1) else some 1

/-- CURVE_ORDER of one channel (R170). -/
def Bank.curveFault (b : Bank) (c : Chan) : Option (Nat × Nat) :=
  if (b.record c).inUse then
    match firstNotAscending ((b.deratePoints c).map (·.1)) with
    | some k => some (1, c.val * 4 + k / 2)
    | none => (firstNotAscending ((b.fwPoints c).map (·.1))).map fun k => (2, c.val * 8 + k / 2)
  else none

/-- LIMITS of one channel (R171). -/
def Bank.limitsFault (b : Bank) (c : Chan) : Option (Nat × Nat) :=
  let r := b.record c
  if r.inUse then
    match firstFalse r.groupsInUse with
    | some g => some (0, c.val * 8 + g)
    | none =>
      match firstFalse ((b.deratePoints c).map fun p => decide (1 ≤ p.2) && decide (p.2 ≤ 32767)) with
      | some k => some (1, c.val * 4 + k / 2)
      | none =>
        if r.iTrip < r.iMax then some (0, c.val * 8 + 2)
        else if ¬(r.uUnder < r.uNominal ∧ r.uNominal < r.uOver) then some (0, c.val * 8 + 5)
        else if r.cpr ≤ r.indexExpect then some (0, c.val * 8 + 7)
        else none
  else none

/-- A channel stands in a pair entry. -/
def PairEntry.has (e : PairEntry) (c : Chan) : Bool := decide (e.leader = c) || decide (e.follower = c)

/-- A slot fails PAIR_CONFLICT (R172). -/
def Bank.slotConflict (b : Bank) (slot : Fin 4) : Bool :=
  let e := b.pairEntry slot
  let l := b.record e.leader
  let f := b.record e.follower
  e.active &&
    (decide (e.leader = e.follower) || !l.inUse || !f.inUse ||
      (List.finRange 4).any (fun k => decide (k < slot) && (b.pairEntry k).active &&
        ((b.pairEntry k).has e.leader || (b.pairEntry k).has e.follower)) ||
      decide (l.cpr ≠ f.cpr) || decide (l.shifted ≠ f.shifted))

/-- PAIR_CONFLICT (R172). -/
def Bank.pairFault (b : Bank) : Option (Nat × Nat) :=
  (List.finRange 4).findSome? fun k => if b.slotConflict k then some (3, k.val * 2) else none

/-- STRUCTURE of one channel, the active bank against the shadow (R173). R173 does not say where a membership difference stands
in the scan; here each channel's follows its fields (DESIGN CHOICE, log 38). -/
def structureDiff (act sh : Bank) (c : Chan) : Option (Nat × Nat) :=
  let r := act.record c
  let q := sh.record c
  if r.inUse ≠ q.inUse ∨ r.shifted ≠ q.shifted ∨ r.indexMode ≠ q.indexMode then some (0, c.val * 8)
  else if r.cpr ≠ q.cpr ∨ r.polePairs ≠ q.polePairs ∨ r.angleOffset ≠ q.angleOffset then
    some (0, c.val * 8 + 6)
  else if act.role c = sh.role c then none
  else
    match (act.role c).slot, (sh.role c).slot with
    | some k, _ => some (3, k.val * 2)
    | none, some k => some (3, k.val * 2)
    | none, none => none

/-- STRUCTURE over every channel not in OFF (R173, R174). -/
def State.structureFault (s : State) : Option (Nat × Nat) :=
  scanChans fun c => if s.st c = .off then none else structureDiff s.bank s.shadow c

/-- A refused swap's reply names a table and an index (R169). -/
def refuseSwap (x : Status) (at' : Nat × Nat) : Reply :=
  ⟨x, { w0 := wordOfNat at'.1, w1 := wordOfNat at'.2 }⟩

/-- The four checks of a swap in order (R169). -/
def State.swapChecks (s : State) : Reply :=
  match scanChans s.shadow.curveFault with
  | some x => refuseSwap .curveOrder x
  | none =>
    match scanChans s.shadow.limitsFault with
    | some x => refuseSwap .limits x
    | none =>
      match s.shadow.pairFault with
      | some x => refuseSwap .pairConflict x
      | none =>
        match s.structureFault with
        | some x => refuseSwap .structure' x
        | none => ⟨.accepted, {}⟩

/-- SWAP_BANKS decided (R169). -/
def State.swapReply (s : State) : Reply :=
  if s.store.copy.isSome then ⟨.busy, {}⟩
  else if s.store.swapPending then ⟨.swapPending, {}⟩
  else s.swapChecks

/-! ### The swap effect (R111, R174, R175) -/

/-- The store at a swap effect (R160, R175). -/
def Store.swapped (st : Store) : Store :=
  { st.setState st.shadowName .valid with active := st.shadowName, swapPending := false }

/-- The supervisor of a channel by the pair table of bank `b`: a follower's charge count and missed count are those of a
follower, the leader's charge count and 0 (R124, R193). -/
def State.pairedSup (s : State) (b : Bank) (c : Chan) : Supervisor :=
  match b.role c with
  | .follower _ p => { s.sup.get c with chargeCount := (s.sup.get p).chargeCount, missed := 0 }
  | .lone | .leader _ _ => s.sup.get c

/-- The swap effect (R111, R124, R175): the banks change places, the position counters take the new effective cpr, a new
follower's counts are kept with its leader's (log 39), BANK_SWAP_DONE is raised by the new routes and the fault lines are
judged. -/
def State.swapEffect (s : State) : State :=
  { s with
    store := s.store.swapped
    sup := PerChan.ofFn (s.pairedSup s.shadow)
    pos := PerChan.ofFn fun c =>
      (s.pos.get c).newCpr (s.record c).effectiveCpr (s.shadow.record c).effectiveCpr }.raiseDev
    .bankSwapDone

/-- A pending swap takes effect where STRUCTURE holds afresh (R174). -/
def State.trySwap (s : State) : State :=
  if s.store.swapPending && s.structureFault.isNone then s.swapEffect else s

/-- SWAP_EFFECT (R174, R175). With no swap pending, or STRUCTURE failing afresh, there is no such event. -/
def execSwapEffect (s : State) : Host.Outcome State Fault Refusal := .next s.trySwap

end Sys2Proof.Machine
end

