-- ==== Sys2Proof/Machine/Timebase.lean ====
section
/-! DEFINITION. The carrier timebase (chapter 4): ticks, settings, correction, lock, ring loss, and the events that the
passage of ticks brings to the gate lines. -/

namespace Sys2Proof.Machine

/-! ### The passage of ticks (R76, R77, R85, R86, R107) -/

/-- Ticks left to the next turning point of the master counter (R77). -/
def Timebase.left (t : Timebase) : Nat := if t.up then t.crest - t.counter else t.counter

/-- The timebase `n` ticks on, short of its turning point taken: counter, ring-cycle position, the filter of INH_N (R77,
R95). -/
def Timebase.moved (t : Timebase) (n : Nat) : Timebase :=
  { t with
    counter := if t.up then t.counter + n else t.counter - n
    pos := t.pos + n
    inh := t.inh.aged n }

/-- A position counter whose pins are held for `n` ticks (R107). -/
def Position.aged (p : Position) (n : Nat) : Position :=
  { p with fa := p.fa.aged n, fb := p.fb.aged n, fz := p.fz.aged n }

/-- `n` ticks within one half of the master period, with the pins held: counters, gate lines, filters. -/
def State.glide (n : Nat) (s : State) : State :=
  { s with
    tb := s.tb.moved n
    mods := PerChan.ofFn fun c =>
      let m := s.mods.get c
      m.mapPhases fun cmp ph =>
        ph.glide (s.enabled c) m.deadTime s.tb.set.p (s.tb.chanUp c) (s.tb.chanCounter c) cmp n
    pos := PerChan.ofFn fun c => (s.pos.get c).aged n }

/-- A filter whose pin is not at its filtered level: three held samples will change it (R107). -/
def Filter.unsettled (f : Filter) : Bool := decide (f.level ≠ some f.pin)

/-- Some filter of a counter is unsettled. -/
def Position.unsettled (p : Position) : Bool := p.fa.unsettled || p.fb.unsettled || p.fz.unsettled

/-- No input is on its way to another filtered level. -/
def State.quiet (s : State) : Bool :=
  !s.tb.inh.unsettled && (List.finRange 8).all fun c => !(s.pos.get c).unsettled

/-- The filtered changes and starting levels of this tick taken, INH_N first and then the encoders in channel order
(R107; the order is log 31). -/
def State.takeInputs (s : State) : State :=
  let s0 := if s.tb.inh.due then s.inhTick s.tb.inh.taken else s
  (List.finRange 8).foldl (fun t c =>
    let p := t.pos.get c
    if p.fa.due || p.fb.due || p.fz.due then
      t.encoderTick c p.fa.taken p.fb.taken p.fz.taken (Config.tickOrder s.free)
    else t) { s0 with free := s0.free + 1 }

/-- One tick. The inputs that settle at it are taken at once; a turning point that it reaches is taken after them (R60, R95,
R112, R138 give the outcome of either order; DESIGN CHOICE, log 36). -/
def State.tick (s : State) : State := (s.glide 1).takeInputs

/-- `n` ticks within one half of the master period: an input that changes its filtered level does so within the first
three of them. -/
def State.advance (n : Nat) (s : State) : State :=
  if s.quiet then s.glide n
  else (Nat.repeat State.tick (min 3 n) s).glide (n - min 3 n)

/-! ### Events of the gate lines (R85, R86) -/

/-- COUNTER_PASSES_COMPARE (R85): time runs to the tick at which the channel counter passes the phase's active compare,
and the commanded side changes there. Where it does not pass in the present half of the period, there is no such event. -/
def execCounterPassesCompare (c : Chan) (ph : PhaseId) (s : State) :
    Host.Outcome State Fault Refusal :=
  match crossing (s.tb.chanUp c) s.tb.set.p (s.tb.chanCounter c) ((s.mods.get c).active.get ph) with
  | some x => if x ≤ s.tb.left then .next (s.advance x) else .next s
  | none => .next s

/-- The ticks after which the gate of the commanded side of a phase turns on (R86), where it is off, its partner is off
and the lines are driven. -/
def State.deadLeft (c : Chan) (ph : PhaseId) (s : State) : Option Nat :=
  let m := s.mods.get c
  let p := m.phase ph
  if !s.enabled c || p.hi || p.lo then none
  else if sideHigh (s.tb.chanUp c) s.tb.set.p (s.tb.chanCounter c) (m.active.get ph) then some (m.deadTime - p.loOff)
  else some (m.deadTime - p.hiOff)

/-- The command of a phase stands for `n` more ticks: neither the compare is passed nor the turning point reached. -/
def State.commandStands (c : Chan) (ph : PhaseId) (n : Nat) (s : State) : Bool :=
  decide (n ≤ s.tb.left) &&
    (match crossing (s.tb.chanUp c) s.tb.set.p (s.tb.chanCounter c)
        ((s.mods.get c).active.get ph) with
      | some x => decide (n < x)
      | none => true)

/-- DEAD_TIME_ELAPSED (R86): time runs to the tick at which the partner has been off for the dead time while the side is
still commanded, and the gate turns on. Where the command does not stand so long, there is no such event. -/
def execDeadTimeElapsed (c : Chan) (ph : PhaseId) (s : State) : Host.Outcome State Fault Refusal :=
  match s.deadLeft c ph with
  | some n => if s.commandStands c ph n then .next (s.advance n).settleGates else .next s
  | none => .next s

/-! ### Periods and corrections (R77, R78) -/

/-- The period index and ring-cycle position at a master valley (R77). -/
def Timebase.nextPeriod (t : Timebase) : Timebase :=
  if t.index + 1 < t.set.n then { t with index := t.index + 1 } else { t with index := 0, pos := 0 }

/-- The crest value of the period that a valley opens, and the correction's count (R78). -/
def Timebase.openPeriod (t : Timebase) : Timebase :=
  if 0 < t.corrLeft then
    { t with crest := ((t.set.p : Int) + t.corr).toNat, corrLeft := t.corrLeft - 1,
             corr := if t.corrLeft = 1 then 0 else t.corr }
  else { t with crest := t.set.p }

/-- Pending D, P and N in effect at a master valley (R82). -/
def Timebase.applyPending (t : Timebase) (x : PendingSettings) : Timebase :=
  { t with
    set := { t.set with d := x.d, p := x.p, n := x.n }
    pend := none
    index := 0
    pos := 0
    corr := 0
    corrLeft := 0
    crest := x.p
    lock := .free
    acquire := 0 }

/-- The master counter at a master valley, turned (R77). -/
def Timebase.atValley (t : Timebase) : Timebase := { t with counter := 0, up := true }

/-- A change of the timebase. -/
def State.mapTb (f : Timebase → Timebase) (s : State) : State := { s with tb := f s.tb }

/-- RING_CYCLE_START (R77): a master valley at which the period index returns to 0. Where the index would not, there is no
such event. Sent alone it is at its valley whatever the counter shows: the master counter stands at 0 and counts up, with no
ticks gone by (DESIGN CHOICE, log 2). -/
def execRingCycleStart (s : State) : Host.Outcome State Fault Refusal :=
  if s.tb.index + 1 < s.tb.set.n then .next s
  else .next (s.mapTb fun t => { t.atValley with index := 0, pos := 0 }).settleGates

/-- CORRECTION_END (R78): the count of corrected periods reaches 0 and the correction becomes 0. With more than one
corrected period left there is no such event. -/
def execCorrectionEnd (s : State) : Host.Outcome State Fault Refusal :=
  if s.tb.corrLeft ≤ 1 then .next (s.mapTb fun t => { t with corrLeft := 0, corr := 0 }) else .next s

/-- PENDING_SETTINGS_EFFECT (R82): at a master valley. Without pending values there is no such event. Sent alone it is at its
valley whatever the counter shows: the master counter stands at 0 and counts up, with no ticks gone by (DESIGN CHOICE, log 2). -/
def execPendingSettingsEffect (s : State) : Host.Outcome State Fault Refusal :=
  match s.tb.pend with
  | some x => .next (s.mapTb fun t => t.atValley.applyPending x).settleGates
  | none => .next s

/-! ### Ring loss (R102) -/

/-- The ring-loss count and mark at a master valley: the count rises first, and where it then stands at the limit with
the mark clear the mark is set, the lock freed and the correction dropped (R102). -/
def Timebase.lossAtValley (t : Timebase) : Timebase :=
  let n := satSucc 255 t.lossCount
  if t.set.lossLimit ≤ n && !t.lossMark then
    { t with lossCount := n, lossMark := true, lock := .free, acquire := 0, corr := 0, corrLeft := 0 }
  else { t with lossCount := n }

/-- The RING_LOSS condition delivered at a master valley with the mark set (R102). -/
def State.deliverLoss (s : State) : State :=
  if s.tb.lossMark then s.deliverDev .ringLoss true else s

/-- RING_LOSS (R102): the ring-loss count reaches the limit at a master valley with the mark clear. Where it would not,
there is no such event. -/
def execRingLoss (s : State) : Host.Outcome State Fault Refusal :=
  if s.tb.set.lossLimit ≤ satSucc 255 s.tb.lossCount && !s.tb.lossMark then
    .next (s.mapTb Timebase.lossAtValley).deliverLoss
  else .next s

/-! ### The lock (R97 to R101) -/

/-- The length of an uncorrected ring cycle, L = 2NP (R97). -/
def Settings.cycleLength (x : Settings) : Nat := 2 * x.n * x.p

/-- The target ring-cycle position, q_t modulo L (R81, R97). -/
def Settings.target (x : Settings) : Nat := x.qt % x.cycleLength

/-- The lock error of a SYNC arrival (R97). -/
def Timebase.lockError (t : Timebase) : Int :=
  let l : Int := t.set.cycleLength
  ((t.pos : Int) - t.set.target + l / 2) % l - l / 2

/-- A slew by an error (R100). -/
def Timebase.slew (t : Timebase) (e : Int) : Timebase :=
  { t with corr := clampTo t.set.slewMax (truncDiv e (2 * t.set.n)), corrLeft := t.set.n }

/-- A hard realign (R99). -/
def Timebase.realign (t : Timebase) : Timebase :=
  let q := t.set.target
  let x := q % (2 * t.set.p)
  { t with
    pos := q
    index := q / (2 * t.set.p)
    counter := if x < t.set.p then x else 2 * t.set.p - x
    up := decide (x < t.set.p)
    crest := t.set.p
    corr := 0
    corrLeft := 0 }

/-- The expected mark of every lane cleared, as a hard realign does (R72). -/
def State.clearExpected (s : State) : State :=
  { s with lanes := PerChan.ofFn fun c => { s.lanes.get c with expected := false } }

/-- Some channel is in CHARGE, RUN, HOLD or STOPPING (R82, R98). -/
def State.anyBusy (s : State) : Bool := (List.finRange 8).any fun c => (s.st c).busy

/-- The lock after an arrival in ACQUIRE, given whether the error lay within the window (R101). -/
def Timebase.acquireJudged (t : Timebase) (within : Bool) : Timebase :=
  if within then
    (if t.acquire + 1 < 4 then { t with acquire := t.acquire + 1 }
     else { t with lock := .locked, acquire := 0 })
  else { t with acquire := 0 }

/-- The lock measurement of a SYNC arrival (R83, R97 to R101). -/
def State.measureLock (s : State) : State :=
  if s.tb.pend.isSome then s
  else
    let e := s.tb.lockError
    let within := decide (e.natAbs ≤ s.tb.set.lockWindow)
    match s.tb.lock with
    | .free =>
      let s' := if s.anyBusy then s.mapTb fun t => t.slew e
        else ((s.mapTb Timebase.realign).clearExpected).settleGates
      s'.mapTb fun t => { t with lock := .acquire, acquire := 0 }
    | .acquire => s.mapTb fun t => (t.slew e).acquireJudged within
    | .locked =>
      if within then s.mapTb fun t => t.slew e
      else (s.mapTb fun t => { t.slew e with lock := .acquire, acquire := 0 }).raiseDev .carrierUnlock

/-- LOCK_REACHED (R101): in ACQUIRE the count becomes 4. Where it would not, there is no such event. -/
def execLockReached (s : State) : Host.Outcome State Fault Refusal :=
  if s.tb.lock = .acquire ∧ 4 ≤ s.tb.acquire + 1 then
    .next (s.mapTb fun t => { t with lock := .locked, acquire := 0 })
  else .next s

/-! ### CONFIGURE (R82, R83, R199) -/

/-- The seven settings a CONFIGURE carries (R199, R205). -/
def Request.settings (r : Request) : Settings :=
  { d := r.w3.hi.toNat
    p := r.w0.toNat
    n := r.index.toNat
    qt := r.w1.toNat
    lockWindow := bitsOf r.w2 0 10
    slewMax := bitsOf r.w2 11 5
    lossLimit := r.w3.lo.toNat }

/-- Every setting lies in its range (4-3). -/
def Settings.inRange (x : Settings) : Bool :=
  Machine.inRange 0 255 x.d && Machine.inRange 2000 32767 x.p && Machine.inRange 1 8 x.n
    && Machine.inRange 0 65535 x.qt && Machine.inRange 1 1000 x.lockWindow
    && Machine.inRange 0 16 x.slewMax && Machine.inRange 2 255 x.lossLimit

/-- The timebase after an accepted CONFIGURE (R82, R83). -/
def Timebase.configured (t : Timebase) (x : Settings) : Timebase :=
  let t' := { t with
    set := { t.set with qt := x.qt, lockWindow := x.lockWindow, slewMax := x.slewMax,
                        lossLimit := x.lossLimit }
    pend := if x.d = t.set.d ∧ x.p = t.set.p ∧ x.n = t.set.n then none else some ⟨x.d, x.p, x.n⟩ }
  if x.qt = t.set.qt then t' else { t' with lock := .free, acquire := 0 }

end Sys2Proof.Machine
end

