-- ==== Sys2Proof/Machine/Valley.lean ====
section
/-! DEFINITION. The turning points of the master counter and the channel valleys they bring (R77 to R80): the valley check (R91 to
R94), the supervisor at a valley (R127, R129), strobe and latch (R60, R61, R112). -/

namespace Sys2Proof.Machine

/-! ### The valley check (R91 to R94) -/

/-- What the check of one channel decides: its modulator, whether the engine is to mark its unfinished run late, and the
kinds it reports, in order. -/
structure ValleyCheck where
  mod : Modulator
  late : Bool := false
  reports : List ChanKind := []
deriving DecidableEq, Repr

/-- SAMPLE_MISSING is found for the previous strobe of a lane (R92, R94). -/
def Lane.missing (l : Lane) : Bool := l.expected && !l.arrived

/-- A modulator that loads its pending compares (R91). -/
def Modulator.load (m : Modulator) (p minPulse : Nat) (x : Compares) : Modulator :=
  { m with active := x.minPulsed p minPulse, pending := none, stale := 0 }

/-- The check in RUN or HOLD without fresh compares (R92, R93). -/
def staleCheck (m : Modulator) (missing late : Bool) : ValleyCheck :=
  { mod := { m with stale := satSucc 4 m.stale }
    late := late
    reports := (if missing then [.sampleMissing] else []) ++ (if late then [.loopLate] else []) ++
      (if m.stale < 4 ∧ satSucc 4 m.stale = 4 then [.comparesStale] else []) }

/-- The valley check of channel `c`, decided on the state in which the valley finds the part (R80, R91 to R94). -/
def State.valleyCheck (s : State) (c : Chan) : ValleyCheck :=
  let m := s.mods.get c
  let l := s.lanes.get c
  match s.st c with
  | .run | .hold =>
    match m.pending with
    | some x => { mod := m.load s.tb.set.p (s.record c).minPulse x }
    | none => staleCheck m l.missing (l.arrived && s.engine.unfinished c)
  | .charge | .stopping | .trip =>
    { mod := m, reports := if l.missing then [.sampleMissing] else [] }
  | .off => { mod := m }

/-- The kinds of a list raised on a channel, one after another. -/
def State.raiseAll (c : Chan) (l : List ChanKind) (s : State) : State :=
  l.foldl (fun t k => t.raiseChan k c) s

/-- The modulators as the checks of the channels of `f` leave them. -/
def State.checkedMods (s : State) (f : Chan → Bool) : PerChan Modulator :=
  PerChan.ofFn fun c => if f c then (s.valleyCheck c).mod else s.mods.get c

/-- The late marks that the checks of the channels of `f` ask of the engine (R70). -/
def State.checkedEngine (s : State) (f : Chan → Bool) : Engine :=
  s.engine.mapEntries fun x =>
    if f x.chan && (s.valleyCheck x.chan).late && x.unfinished x.chan then { x with late := true } else x

/-- The valley checks of the channels of `f`, all on the state the valley found, their reports raised in channel order
(log 19). -/
def State.checkAll (f : Chan → Bool) (s : State) : State :=
  (List.finRange 8).foldl (fun t c => if f c then t.raiseAll c (s.valleyCheck c).reports else t)
    { s with mods := s.checkedMods f, engine := s.checkedEngine f }

/-! ### The supervisor at a valley (R127, R129) -/

/-- The modulator at the valley that begins charging (R88). -/
def Modulator.charging (m : Modulator) : Modulator := { m with active := {}, drive := true }

/-- Charging begins for a unit (R88, R127). -/
def State.beginCharging (c : Chan) (s : State) : State := s.unitMods c Modulator.charging

/-- The charge count of a unit written. -/
def State.setCharge (c : Chan) (n : Nat) (s : State) : State :=
  s.unitSup c fun u => { u with chargeCount := n }

/-- A later valley in CHARGE (R127): the count rises, and at charge_periods the unit enters RUN. -/
def State.countCharge (c : Chan) (s : State) : State :=
  let n := satSucc 255 (s.sup.get c).chargeCount
  if (s.record c).chargePeriods ≤ n then (s.setCharge c n).enterRun c else s.setCharge c n

/-- The supervisor at a valley of a channel that governs itself: the first valley in CHARGE begins charging, a later one
counts, one in STOPPING ends it (R127, R129). -/
def State.superviseOne (c : Chan) (s : State) : State :=
  match s.st c with
  | .charge => if (s.mods.get c).drive then s.countCharge c else s.beginCharging c
  | .stopping => s.enterOff c
  | .off | .run | .hold | .trip => s

/-- The supervisor at the valleys of the channels of `f`; a follower moves with its leader (R124). -/
def State.supervise (f : Chan → Bool) (s : State) : State :=
  (List.finRange 8).foldl (fun t c => if f c && !(t.role c).isFollower then t.superviseOne c else t) s

/-! ### Strobe and latch (R60, R61, R112, R206) -/

/-- The counts of a counter as they stand. -/
def Position.counts (p : Position) : Counts := ⟨p.fine, p.rev⟩

/-- The strobe record of a valley of channel `c` (R60, R61). -/
def State.strobeRec (s : State) (c : Chan) : StrobeRec :=
  { st := s.st c
    own := (s.pos.get c).counts
    follower :=
      match s.role c with
      | .leader _ p => some (s.pos.get p).counts
      | .lone | .follower _ _ => none
    countMark := false }

/-- The word of a strobe frame (R206). -/
def strobeWord (seq : BitVec 4) : Word := seq.setWidth 16

/-- A lane after a strobe with record `r` (R60, R206). -/
def Lane.strobed (l : Lane) (r : StrobeRec) : Lane :=
  { seq := l.seq + 1, expected := true, arrived := false, strobe := some r,
    strobeOut := some (strobeWord (l.seq + 1)) }

/-- Whether the counter of channel `c` latches at the valleys of the channels of `f` (R112): at its own valley, and, a
follower of the active bank, at its leader's. -/
def State.latches (s : State) (f : Chan → Bool) (c : Chan) : Bool :=
  f c || (match s.role c with
    | .follower _ p => f p
    | .lone | .leader _ _ => false)

/-- Strobes and latches of the channels of `f`, with the dead time that each valley takes from the active bank (R60, R61,
R86, R112). -/
def State.strobeAll (f : Chan → Bool) (s : State) : State :=
  { s with
    lanes := PerChan.ofFn fun c =>
      if f c then (s.lanes.get c).strobed (s.strobeRec c) else s.lanes.get c
    pos := PerChan.ofFn fun c =>
      if s.latches f c then { s.pos.get c with latched := some (s.pos.get c).counts } else s.pos.get c
    mods := PerChan.ofFn fun c =>
      if f c then { s.mods.get c with deadTime := (s.record c).deadTime } else s.mods.get c
    engine := s.engine.strobed f }

/-- The valleys of the channels of `f` (R80): checks, supervisor, strobes, and the gate lines as they command then. -/
def State.channelValleys (f : Chan → Bool) (s : State) : State :=
  (((s.checkAll f).supervise f).strobeAll f).settleGates

/-! ### The turning points (R77 to R79, R82, R102) -/

/-- The timebase at a master valley: pending settings or the next period, the ring-loss count, the crest of the period it
opens (R77, R78, R82, R102; log 18). -/
def Timebase.valley (t : Timebase) : Timebase :=
  let t' := match t.pend with
    | some x => t.atValley.applyPending x
    | none => t.atValley.nextPeriod
  t'.lossAtValley.openPeriod

/-- The interleave by which each channel counts from a master valley on (R79). -/
def State.takeInterleave (s : State) : State :=
  s.mapTb fun t => { t with shifted := PerChan.ofFn fun c => (s.record c).shifted }

/-- A master valley (R77). `lossFirst` puts the RING_LOSS condition of this valley before the channel valleys. -/
def State.masterValley (lossFirst : Bool) (s : State) : State :=
  let s' := (s.mapTb Timebase.valley).takeInterleave
  let f := fun c => !s'.tb.shifted.get c
  if lossFirst then (s'.deliverLoss).channelValleys f else (s'.channelValleys f).deliverLoss

/-- The master counter at a crest, turned (R77). -/
def Timebase.atCrest (t : Timebase) : Timebase := { t with counter := t.crest, up := false }

/-- A master crest (R77, R79): the valleys of the shifted channels. -/
def State.masterCrest (s : State) : State :=
  (s.mapTb Timebase.atCrest).channelValleys s.tb.shifted.get

/-- Time runs to the next turning point of the master counter. An input that settles on the tick of the turning point is taken
before it (DESIGN CHOICE, log 36). -/
def State.toTurn (s : State) : State := s.advance s.tb.left

/-- MASTER_VALLEY (R77): time runs to the master valley. From a counter that counts up, the crest on the way is taken
first (log 5). -/
def execMasterValley (lossFirst : Bool) (s : State) : Host.Outcome State Fault Refusal :=
  if s.tb.up then .next ((s.toTurn.masterCrest).toTurn.masterValley lossFirst)
  else .next (s.toTurn.masterValley lossFirst)

/-- MASTER_CREST (R77): time runs to the master crest. From a counter that counts down, the valley on the way is taken
first (log 5). -/
def execMasterCrest (s : State) : Host.Outcome State Fault Refusal :=
  if s.tb.up then .next s.toTurn.masterCrest
  else .next ((s.toTurn.masterValley (Config.tickOrder s.free)).toTurn.masterCrest)

/-- The turning point that the master counter stands at taken (R77). The order of a RING_LOSS condition and the channel
valleys of one tick is a free value (log 3). -/
def State.takeTurn (s : State) : State :=
  if s.tb.up then s.masterCrest else s.masterValley (Config.tickOrder s.free)

/-- One tick of the idle block (log 3): a turning point that has come and has not been taken is taken; else one tick goes
by, and the turning point it reaches is taken, after the inputs that settle on that tick (DESIGN CHOICE, log 36). -/
def State.tickOrTurn (s : State) : State :=
  if s.tb.left = 0 then s.takeTurn
  else if (s.advance 1).tb.left = 0 then (s.advance 1).takeTurn
  else s.advance 1

/-! ### The parts of a channel valley sent alone (log 2) -/

/-- CHARGING_BEGIN (R88, R127): at the first valley after entry into CHARGE the unit drives 0, 0, 0. Where the channel is not in
CHARGE, or drives already, there is no such event. -/
def execChargingBegin (c : Chan) (s : State) : Host.Outcome State Fault Refusal :=
  let l := s.leadOf c
  if s.st l = .charge ∧ (s.mods.get l).drive = false then .next (s.beginCharging l).settleGates
  else .next s

/-- END_OF_CHARGING (R88, R127): the charge count rises to charge_periods and the unit enters RUN. Where it would not, there
is no such event. -/
def execEndOfCharging (c : Chan) (s : State) : Host.Outcome State Fault Refusal :=
  let l := s.leadOf c
  if s.st l = .charge ∧ (s.mods.get l).drive = true ∧
      (s.record l).chargePeriods ≤ satSucc 255 (s.sup.get l).chargeCount then
    .next (s.countCharge l).settleGates
  else .next s

/-- STOPPING_END (R87, R129): a unit in STOPPING enters OFF. In another state there is no such event. -/
def execStoppingEnd (c : Chan) (s : State) : Host.Outcome State Fault Refusal :=
  let l := s.leadOf c
  if s.st l = .stopping then .next (s.enterOff l) else .next s

/-- COMPARE_LOAD (R91): fresh pending compares of a channel in RUN or HOLD are loaded. Elsewhere there is no such event. -/
def execCompareLoad (c : Chan) (s : State) : Host.Outcome State Fault Refusal :=
  match (s.mods.get c).pending with
  | some x =>
    if (s.st c).closing then
      .next { s with mods := s.mods.modify c fun m => m.load s.tb.set.p (s.record c).minPulse x }.settleGates
    else .next s
  | none => .next s

/-- COMPARES_STALE (R93): the stale count of a channel in RUN or HOLD without fresh compares becomes 4. Elsewhere there is no
such event. -/
def execComparesStale (c : Chan) (s : State) : Host.Outcome State Fault Refusal :=
  let m := s.mods.get c
  if (s.st c).closing && m.pending.isNone && decide (m.stale = 3) then
    .next ({ s with mods := s.mods.modify c fun m => { m with stale := 4 } }.raiseChan
      .comparesStale c)
  else .next s

end Sys2Proof.Machine
end

