-- ==== Sys2Proof/Machine/Sync.lean ====
section
/-! DEFINITION. The SYNC arrival (R187): lock, ring loss, RING causes, staleness (R134), a pending swap, the last cycle number;
and what the ring port does with a cell in progress when another one comes (R178). -/

namespace Sys2Proof.Machine

/-! ### The ring port's own part (R179, R180, R182) -/

/-- A transparent station (R180). -/
def State.transparent (s : State) : Bool := decide (s.ring.address = 0) || decide (s.ring.address = 31)

/-- The cell in progress and what leaves, written. -/
def State.ringWith (cell : Option PartialCell) (o : RingOut) (s : State) : State :=
  { s with ring := { s.ring with cell := cell, out := o } }

/-- A control symbol after some bytes of a cell (R178): idle symbols in its place, CELL_CRC raised. A transparent station
forwards what it received and raises nothing (R180). -/
def State.cut (s : State) : State :=
  if s.transparent then s.ringWith none .unchanged else (s.raiseDev .cellCrc).ringWith none .idle

/-- The first start symbol after power-on has come (R179). -/
def State.started (s : State) : State := { s with ring := { s.ring with waitStart := false } }

/-- A cell of 16 bytes comes with its start symbol, which cuts a cell in progress (R178). One that has no byte yet is this
cell (log 28). -/
def State.cellOpened (s : State) : State :=
  match s.ring.cell with
  | some p => (if p.bytes = [] then s else s.cut).started
  | none => s.started

/-- What leaves in the slot of a cell that has arrived, the cell in progress taken (R178, R182, R183). -/
def State.sent (o : RingOut) (s : State) : State :=
  { s with ring := { s.ring with cell := none, out := o } }

/-- A cell forwarded unchanged (R180, R182). -/
def State.forwarded (s : State) : State := s.sent .unchanged

/-- The last cycle number recorded (R187). -/
def State.recordCycle (w : Word) (s : State) : State :=
  { s with ring := { s.ring with lastCycle := w } }

/-! ### Staleness (R134) -/

/-- The missed count of a judged channel after a SYNC arrival (R134). -/
def Supervisor.missedAfter (u : Supervisor) : Nat := if u.setSeen then 0 else satSucc 15 u.missed

/-- A channel is judged (R134): in RUN or HOLD and no follower. -/
def State.judged (s : State) (c : Chan) : Bool := (s.st c).closing && !(s.role c).isFollower

/-- SETPOINT_STALE is found on a channel (R134): the count rises to hold_after or above, with no STALE cause. -/
def State.staleFound (s : State) (c : Chan) : Bool :=
  let u := s.sup.get c
  s.judged c && !u.setSeen && decide (u.missed < satSucc 15 u.missed)
    && decide ((s.record c).holdAfter ≤ satSucc 15 u.missed) && !u.causes.stale

/-- The supervisors after the judgement of a SYNC arrival: missed counts, every SET-seen mark clear (R134). -/
def State.judgedSup (s : State) : PerChan Supervisor :=
  PerChan.ofFn fun c =>
    let u := s.sup.get c
    { u with missed := if s.judged c then u.missedAfter else u.missed, setSeen := false }

/-- The staleness judgement (R134): every channel judged on the state found, SETPOINT_STALE raised in channel order (log
19). -/
def State.judgeStaleness (s : State) : State :=
  (List.finRange 8).foldl (fun t c => t.raiseChanIf (s.staleFound c) .setpointStale c)
    { s with sup := s.judgedSup }

/-- SETPOINT_STALE (R134): the missed count of a judged channel rises to hold_after with no STALE cause. Elsewhere there is no
such event. -/
def execSetpointStale (c : Chan) (s : State) : Host.Outcome State Fault Refusal :=
  if s.staleFound c then
    .next ({ s with sup := s.sup.modify c fun u => { u with missed := satSucc 15 u.missed } }.raiseChan
      .setpointStale c)
  else .next s

/-! ### The arrival (R102, R131, R187) -/

/-- The RING cause removed from every channel (R131). -/
def State.removeRing (s : State) : State :=
  { s with sup := PerChan.ofFn fun c =>
      let u := s.sup.get c
      { u with causes := { u.causes with ring := false } } }

/-- The ring-loss count and mark at a SYNC arrival, RING_LOSS delivered absent (R102). -/
def State.endLoss (s : State) : State :=
  (s.mapTb fun t => { t with lossCount := 0, lossMark := false }).deliverDev .ringLoss false

/-- The actions of a SYNC arrival apart from the swap and the cycle number, in the order of R187's table (log 23). -/
def State.syncActions (s : State) : State := s.measureLock.endLoss.removeRing.judgeStaleness

/-- A pending swap before or after the other actions (R175). -/
def State.syncWithSwap (swapFirst : Bool) (s : State) : State :=
  if swapFirst then s.trySwap.syncActions else s.syncActions.trySwap

/-- A SYNC arrival at the present tick (R187). -/
def State.syncNow (cycle : Word) (o : SyncOrder) (s : State) : State :=
  if o.cycleFirst then (s.recordCycle cycle).syncWithSwap o.swapFirst
  else (s.syncWithSwap o.swapFirst).recordCycle cycle

/-- SYNC_ARRIVAL (R187), `elapsed` ticks after the command before it, and not past the next turning point (log 6); nothing
else happens before its actions, so that a RUN_COMPLETION or BURST after it starts its run on the bank it leaves active. A
transparent station forwards the cell and takes no SYNC arrival (R180). -/
def execSyncArrival (cycle : Word) (elapsed : Nat) (o : SyncOrder) (s : State) :
    Host.Outcome State Fault Refusal :=
  let s' := (s.advance (min elapsed s.tb.left)).cellOpened
  if s'.transparent then .next s'.forwarded else .next (s'.syncNow cycle o).forwarded

end Sys2Proof.Machine
end

