-- ==== Sys2Proof/Machine/Requests.lean ====
section
/-! DEFINITION. The management requests (chapter 10): what each owning block decides and does, and the reply in the request's
slot (R186, R189, R190). -/

namespace Sys2Proof.Machine

/-- What a request's owner makes of it: its reply and the part after it. -/
structure Answer where
  reply : Reply
  after : State

/-- A refusal changes no state (R191). -/
def State.refuse (s : State) (x : Status) : Answer := ⟨⟨x, {}⟩, s⟩

/-- A request taken at a normal station: decided, applied and answered in its slot; a transparent station forwards it (R180,
R186). -/
def State.answered (s : State) (kind : Byte) (r : Request) (a : Answer) : State :=
  if s.transparent then s.forwarded
  else a.after.sent (.cell (replyCell s.ring.address kind r a.reply))

/-- A request decided by its owner `f` and answered, all at its cell's arrival. -/
def State.requested (s : State) (kind : Byte) (r : Request) (f : State → Answer) : State := s.answered kind r (f s)

/-! ### Parameter store -/

/-- READ_ENTRY (R163). -/
def State.onReadEntry (s : State) (r : Request) : Answer := ⟨s.store.readEntry r, s⟩

/-- WRITE_ENTRY (R164). -/
def State.onWriteEntry (s : State) (r : Request) : Answer :=
  ⟨s.store.writeReply r, { s with store := s.store.writeEntry r }⟩

/-- COPY_BANK (R166). -/
def State.onCopyBank (s : State) : Answer := ⟨s.store.copyReply, { s with store := s.store.copyBank }⟩

/-- SWAP_BANKS (R169): accepted, the swap-pending mark is set. -/
def State.onSwapBanks (s : State) : Answer :=
  ⟨s.swapReply,
    if s.swapReply.status = .accepted then { s with store := { s.store with swapPending := true } }
    else s⟩

/-! ### Timebase and decoder -/

/-- CONFIGURE (R82, R83, R190, R199). -/
def State.onConfigure (s : State) (r : Request) : Answer :=
  if r.target ≠ 255 then s.refuse .badTarget
  else if s.anyBusy then s.refuse .state
  else if !(Request.settings r).inRange then s.refuse .range
  else ⟨⟨.ok, {}⟩, s.mapTb fun t => t.configured (Request.settings r)⟩

/-- READ_STATUS (R192): no state is changed. -/
def State.onReadStatus (s : State) (r : Request) : Answer := ⟨s.statusReply r, s⟩

/-- The modulators at RESTART (R105). -/
def Modulator.restarted (m : Modulator) : Modulator := { m.inhibit with active := {}, stale := 0 }

/-- The blocks as RESTART leaves them, before EXT_INHIBIT is taken from the INH_N level (R200). -/
def State.restartBlocks (s : State) : State :=
  { s with
    free := s.free + 1
    engine := { queue := [], running := s.engine.running.map fun r => { r with restarted := true } }
    loop := PerChan.ofFn fun c => { s.loop.get c with accD := 0, accQ := 0, vsat := 0 }
    pairs := Vector.replicate 4 {}
    refs := PerChan.const {}
    mods := PerChan.ofFn fun c => (s.mods.get c).restarted
    store := { s.store.abandonCopy s.free with swapPending := false }
    sup := PerChan.const {}
    router := {} }

/-- RESTART (R200): block by block, then EXT_INHIBIT raised again where INH_N is low (R158). -/
def State.restartAll (s : State) : State :=
  let s' := s.restartBlocks
  if s.tb.inhLow then s'.deliverDev .extInhibit true else s'

/-- RESTART with its target test (R190, R200). -/
def State.onRestart (s : State) (r : Request) : Answer :=
  if r.target ≠ 255 then s.refuse .badTarget else ⟨⟨.ok, {}⟩, s.restartAll⟩

/-! ### Channel supervisor -/

/-- ENABLE check 4 for one channel where a swap is pending (R125): in use in the shadow and agreeing in structure. -/
def State.shadowServes (s : State) (c : Chan) : Bool :=
  (s.shadow.record c).inUse && (structureDiff s.bank s.shadow c).isNone

/-- ENABLE check 4 (R125), for a leader and its follower where a swap is pending. -/
def State.hasParams (s : State) (c : Chan) : Bool :=
  (s.record c).inUse &&
    (!s.store.swapPending ||
      (s.shadowServes c &&
        (match (s.role c).partner with
          | some p => s.shadowServes p
          | none => true)))

/-- ENABLE (R125, R126). -/
def State.onEnable (s : State) (r : Request) : Answer :=
  match chanOf r.target with
  | none => s.refuse .badTarget
  | some c =>
    if (s.role c).isFollower then s.refuse .paired
    else if s.st c ≠ .off then s.refuse .state
    else if !s.hasParams c then s.refuse .noParams
    else if s.tripFlagNear c then s.refuse .flags
    else ⟨⟨.accepted, {}⟩, s.enterCharge c⟩

/-- DISABLE (R128). -/
def State.onDisable (s : State) (r : Request) : Answer :=
  match chanOf r.target with
  | none => s.refuse .badTarget
  | some c =>
    if (s.role c).isFollower then s.refuse .paired
    else
      match s.st c with
      | .charge | .run | .hold => ⟨⟨.accepted, {}⟩, s.enterStopping c⟩
      | .off | .stopping => s.refuse .ok
      | .trip => s.refuse .state

/-! ### Event router -/

/-- The judgements after an ACK (R156): fault lines, exit from TRIP, ROUTED causes. -/
def State.afterAck (s : State) : State := s.judgeLines.judgeExit.judgeRouted

/-- The status of an ACK (R154). -/
def ackStatus (still : Bool) : Status := if still then .stillActive else .ok

/-- ACK (R154 to R156, R190). -/
def State.onAck (s : State) (r : Request) : Answer :=
  if r.target = 255 then
    let named := fun k : DevKind => r.ackNames k.code
    ⟨⟨ackStatus (s.devStillActive named), {}⟩, (s.ackDev named).afterAck⟩
  else
    match chanOf r.target with
    | none => s.refuse .badTarget
    | some c =>
      let named := fun k : ChanKind => r.ackNames k.code
      ⟨⟨ackStatus (s.chanStillActive c named), {}⟩, (s.ackChan c named).afterAck⟩

/-! ### Position counters -/

/-- SET_COUNT (R114). -/
def State.onSetCount (s : State) (r : Request) : Answer :=
  match chanOf r.target with
  | none => s.refuse .badTarget
  | some c =>
    if s.st c ≠ .off then s.refuse .state
    else if (s.record c).effectiveCpr ≤ twoWords r.w0 r.w1 then s.refuse .range
    else ⟨⟨.ok, {}⟩, s.writeCount c (twoWords r.w0 r.w1) r.w2⟩

/-- ARM_INDEX (R119). -/
def State.onArmIndex (s : State) (r : Request) : Answer :=
  match chanOf r.target with
  | none => s.refuse .badTarget
  | some c =>
    if 1 < r.w0.toNat then s.refuse .range
    else ⟨⟨.ok, {}⟩, { s with pos := s.pos.modify c fun p => p.arm (decide (r.w0 = 1)) }⟩

/-! ### Decoding (R189) -/

/-- The owner of a request kind, and BAD_KIND for a kind that is unknown (R189). -/
def State.onRequest (s : State) (kind : Byte) (r : Request) : Answer :=
  match kind.toNat with
  | 1 => s.onReadEntry r
  | 2 => s.onWriteEntry r
  | 3 => s.onCopyBank
  | 4 => s.onSwapBanks
  | 5 => s.onConfigure r
  | 6 => s.onReadStatus r
  | 7 => s.onEnable r
  | 8 => s.onDisable r
  | 9 => s.onAck r
  | 10 => s.onSetCount r
  | 11 => s.onArmIndex r
  | 12 => s.onRestart r
  | _ => s.refuse .badKind

/-! ### The commands -/

/-- READ_ENTRY (R163). -/
def execReadEntry (r : Request) (s : State) : Host.Outcome State Fault Refusal :=
  .next (s.cellOpened.requested 1 r fun t => t.onReadEntry r)

/-- WRITE_ENTRY (R164). -/
def execWriteEntry (r : Request) (s : State) : Host.Outcome State Fault Refusal :=
  .next (s.cellOpened.requested 2 r fun t => t.onWriteEntry r)

/-- COPY_BANK (R166). -/
def execCopyBank (r : Request) (s : State) : Host.Outcome State Fault Refusal :=
  .next (s.cellOpened.requested 3 r State.onCopyBank)

/-- SWAP_BANKS (R169). -/
def execSwapBanks (r : Request) (s : State) : Host.Outcome State Fault Refusal :=
  .next (s.cellOpened.requested 4 r State.onSwapBanks)

/-- CONFIGURE (R82). -/
def execConfigure (r : Request) (s : State) : Host.Outcome State Fault Refusal :=
  .next (s.cellOpened.requested 5 r fun t => t.onConfigure r)

/-- READ_STATUS (R192). -/
def execReadStatus (r : Request) (s : State) : Host.Outcome State Fault Refusal :=
  .next (s.cellOpened.requested 6 r fun t => t.onReadStatus r)

/-- ENABLE (R125). -/
def execEnable (r : Request) (s : State) : Host.Outcome State Fault Refusal :=
  .next (s.cellOpened.requested 7 r fun t => t.onEnable r)

/-- DISABLE (R128). -/
def execDisable (r : Request) (s : State) : Host.Outcome State Fault Refusal :=
  .next (s.cellOpened.requested 8 r fun t => t.onDisable r)

/-- ACK (R154). -/
def execAck (r : Request) (s : State) : Host.Outcome State Fault Refusal :=
  .next (s.cellOpened.requested 9 r fun t => t.onAck r)

/-- SET_COUNT (R114). -/
def execSetCount (r : Request) (s : State) : Host.Outcome State Fault Refusal :=
  .next (s.cellOpened.requested 10 r fun t => t.onSetCount r)

/-- ARM_INDEX (R119). -/
def execArmIndex (r : Request) (s : State) : Host.Outcome State Fault Refusal :=
  .next (s.cellOpened.requested 11 r fun t => t.onArmIndex r)

/-- RESTART (R200). -/
def execRestart (r : Request) (s : State) : Host.Outcome State Fault Refusal :=
  .next (s.cellOpened.requested 12 r fun t => t.onRestart r)

/-- BAD_KIND (R189): a kind of 1 to 12, which is none of this row, goes to its owner all the same. -/
def execBadKind (kind : Byte) (r : Request) (s : State) : Host.Outcome State Fault Refusal :=
  .next (s.cellOpened.requested kind r fun t => t.onRequest kind r)

end Sys2Proof.Machine
end

