-- ==== Sys2Proof/Machine/Ring.lean ====
section
/-! DEFINITION. The ring port (chapter 9): SET arrivals and RETs, cells by their bytes (R181, R182), cut cells and stray bytes
(R178, R203), and power-on (R139, R179). -/

namespace Sys2Proof.Machine

/-! ### SET arrivals (R35, R184, R185) -/

/-- The mailbox of a channel filled. -/
def State.fillMailbox (c : Chan) (p : Payload) (s : State) : State :=
  { s with refs := s.refs.modify c fun f => { f with mailbox := some p } }

/-- The SET-seen mark of a channel set (R35). -/
def State.markSeen (c : Chan) (s : State) : State :=
  { s with sup := s.sup.modify c fun u => { u with setSeen := true } }

/-- The mailbox path at a SET arrival (R35). -/
def State.mailboxPath (c : Chan) (p : SetPayload) (s : State) : State :=
  let s' := s.markSeen c
  if (s.st c).closing && !(s.role c).isFollower then
    if (s.refs.get c).mailbox.isSome then s'.raiseChan .setpointOverrun c
    else s'.fillMailbox c (Payload.ofSet p)
  else s'

/-- Byte 12 of a RET (R204): state, lock, causes. -/
def State.retStateByte (s : State) (c : Chan) : Byte :=
  let u := s.sup.get c
  BitVec.ofNat 8 (u.st.code * 32 + s.tb.lock.code * 8 + markBit u.causes.stale * 4
    + markBit u.causes.ring * 2 + markBit u.causes.routed)

/-- Byte 13 of a RET (R204): flag marks, limited marks of the last run, bank and swap marks. -/
def State.retMarkByte (s : State) (c : Chan) : Byte :=
  let l := (s.loop.get c).last
  BitVec.ofNat 8 (markBit (s.tripFlagNear c) * 128 + markBit (s.anyFlagNear c) * 64
    + markBit (l.completed && l.currentLimited) * 32 + markBit (l.completed && l.voltageLimited) * 16
    + s.store.active.code * 8 + markBit s.store.swapPending * 4)

/-- A field of the last-run record in a RET: 0 where no run has completed (R185). -/
def LastRun.shown (l : LastRun) (x : Int) : Word := if l.completed then wordOfInt x else 0

/-- The RET for a SET of channel `c` with cycle field `cycle` (R183, R185, R204). -/
def State.retCell (s : State) (c : Chan) (cycle : Word) : Cell :=
  let l := (s.loop.get c).last
  Cell.sealed
    { header := headerByte 3 (BitVec.ofFin c) false true, station := s.ring.address.setWidth 8,
      p0 := cycle, p1 := l.shown l.iq, p2 := l.shown l.id, p3 := l.shown l.fine,
      p4 := l.shown l.delta, p5 := Word.of (s.retStateByte c) (s.retMarkByte c), crc := 0 }

/-- A SET handled by case 3 of R182: the mailbox path, then the RET in its slot (R184). -/
def State.setNow (c : Chan) (p : SetPayload) (s : State) : State :=
  let s' := s.mailboxPath c p
  s'.sent (.cell (s'.retCell c p.cycle))

/-- A SET at its station, a transparent one forwarding the cell (R180, R184). -/
def State.setOrForward (c : Chan) (p : SetPayload) (s : State) : State :=
  if s.transparent then s.forwarded else s.setNow c p

/-- SET_ARRIVAL (R184). -/
def execSetArrival (c : Chan) (p : SetPayload) (s : State) : Host.Outcome State Fault Refusal :=
  .next (s.cellOpened.setOrForward c p)

/-! ### Cells by their bytes (R180 to R182) -/

/-- The cell a normal station sends on for a bad one: D set, its CRC rewritten (R181). -/
def markedCell (c : Cell) : Cell := Cell.sealed { c with header := c.header ||| 2 }

/-- A bad cell at a normal station (R181). -/
def State.damagedNow (c : Cell) (s : State) : State :=
  (s.raiseDev .cellCrc).sent (.cell (markedCell c))

/-- A cell is addressed to this station and not yet taken (R182). -/
def State.isForMe (s : State) (c : Cell) : Bool :=
  decide (c.station = s.ring.address.setWidth 8) && !c.taken

/-- A good cell at a normal station, by the first case of R182 that fits. A SYNC so given is taken at the present tick
(log 27). -/
def State.goodCell (c : Cell) (s : State) : State :=
  if c.damaged then s.forwarded
  else if c.kind = 1 then (s.syncNow c.p0 {}).forwarded
  else if c.kind = 2 ∧ s.isForMe c = true then s.setNow (chanOfBits c.chanField) c.setPayload
  else if c.kind = 4 ∧ s.isForMe c = true then
    s.answered c.p0.hi c.request (s.onRequest c.p0.hi c.request)
  else s.forwarded

/-- The arrival of a cell of these bytes; `bad` says that one of them was of unknown value, so that the cell is judged bad
whatever its CRC (R178, R180 to R182). -/
def State.cellArrival (c : Cell) (bad : Bool) (s : State) : State :=
  if s.transparent then s.forwarded
  else if bad || !c.good then s.damagedNow c
  else s.goodCell c

/-- DAMAGED_CELL (R178, R181). A cell that is in fact good is handled as its bytes say (log 27). -/
def execDamagedCell (c : Cell) (errors : BitVec 16) (s : State) : Host.Outcome State Fault Refusal :=
  .next (s.cellOpened.cellArrival (c.received errors) (decide (errors ≠ 0)))

/-- FORWARDED_CELL (R182). A cell that is not one to forward is handled as its bytes say (log 27). -/
def execForwardedCell (c : Cell) (s : State) : Host.Outcome State Fault Refusal :=
  .next (s.cellOpened.cellArrival c false)

/-! ### Cut cells and stray bytes (R178, R203) -/

/-- The cell that a control symbol opens: a start symbol a new one, an idle symbol none; an end symbol is taken as an idle
symbol (R178, R203). -/
def openedBy : RingSymbol → Option PartialCell
  | .startSymbol => some {}
  | .endSymbol | .idleSymbol => none

/-- CUT_CELL (R178): the cell in progress is cut and the symbol opens the next one. With no cell in progress the command
stands for its start symbol and `got` bytes too; sixteen bytes or more make no cut cell, and there is no such event (log 28). -/
def execCutCell (got : Nat) (x : RingSymbol) (s : State) : Host.Outcome State Fault Refusal :=
  if s.ring.cell.isNone && decide (16 ≤ got) then .next s
  else
    let t := s.cut.started
    .next (t.ringWith (openedBy x) t.ring.out)

/-- What leaves in place of ten bits outside every cell (R178 to R180, R203): an idle symbol at a normal station, for ten bits
that are no symbol, and before the first start symbol after power-on; a transparent station forwards a byte. -/
def State.strayOut (s : State) (b : Option Byte) : RingOut :=
  if s.transparent && b.isSome && !s.ring.waitStart then .unchanged else .idle

/-- A cell in progress with one more byte, one with a line-code error as 00h (R178, R203). -/
def PartialCell.add (p : PartialCell) (b : Option Byte) : PartialCell :=
  { bytes := p.bytes ++ [b.getD 0], bad := p.bad || b.isNone }

/-- BYTE_OUTSIDE_CELL (R178, R203): nothing raised. With a cell in progress the byte joins it, and the sixteenth is its
arrival (log 28). -/
def execByteOutsideCell (b : Option Byte) (s : State) : Host.Outcome State Fault Refusal :=
  match s.ring.cell with
  | none => .next (s.ringWith none (s.strayOut b))
  | some p =>
    let p' := p.add b
    match Cell.ofBytes p'.bytes with
    | some c => .next (s.cellArrival c p'.bad)
    | none => .next (s.ringWith (some p') s.ring.out)

/-! ### Power-on (R104, R121, R139, R158, R159, R179) -/

/-- A position counter as power-on leaves it (R106, R121); the levels at its pins are the outside's. -/
def Position.poweredOn (p : Position) : Position :=
  { fa := p.fa.poweredOn, fb := p.fb.poweredOn, fz := p.fz.poweredOn }

/-- POWER_ON: every block at its power-on values, the station address from the straps. The queue of commands and the number
of free values read are the model's and stay, and so do the levels at the pins, which are the outside's (log 34). -/
def execPowerOn (straps : BitVec 5) (s : State) : Host.Outcome State Fault Refusal :=
  .next { State.reset with
    pending := s.pending
    free := s.free
    ring := { address := straps }
    tb := { inh := s.tb.inh.poweredOn }
    pos := PerChan.ofFn fun c => (s.pos.get c).poweredOn }

end Sys2Proof.Machine
end

