-- ==== Sys2Proof/Machine/Dispatch.lean ====
section
/-! DEFINITION. One arm for each command. -/

namespace Sys2Proof.Machine

/-- The effect of a command on everything but the queue. -/
def exec (i : Instr) (s : State) : Host.Outcome State Fault Refusal :=
  match i with
  | .powerOn straps => Sys2Proof.Machine.execPowerOn straps s
  | .restart r => Sys2Proof.Machine.execRestart r s
  | .masterValley lossFirst => Sys2Proof.Machine.execMasterValley lossFirst s
  | .masterCrest => Sys2Proof.Machine.execMasterCrest s
  | .ringCycleStart => Sys2Proof.Machine.execRingCycleStart s
  | .correctionEnd => Sys2Proof.Machine.execCorrectionEnd s
  | .pendingSettingsEffect => Sys2Proof.Machine.execPendingSettingsEffect s
  | .ringLoss => Sys2Proof.Machine.execRingLoss s
  | .syncArrival cycle elapsed order => Sys2Proof.Machine.execSyncArrival cycle elapsed order s
  | .setArrival ch p => Sys2Proof.Machine.execSetArrival ch p s
  | .damagedCell cell errors => Sys2Proof.Machine.execDamagedCell cell errors s
  | .cutCell got symbol => Sys2Proof.Machine.execCutCell got symbol s
  | .forwardedCell cell => Sys2Proof.Machine.execForwardedCell cell s
  | .readEntry r => Sys2Proof.Machine.execReadEntry r s
  | .writeEntry r => Sys2Proof.Machine.execWriteEntry r s
  | .copyBank r => Sys2Proof.Machine.execCopyBank r s
  | .swapBanks r => Sys2Proof.Machine.execSwapBanks r s
  | .configure r => Sys2Proof.Machine.execConfigure r s
  | .readStatus r => Sys2Proof.Machine.execReadStatus r s
  | .enable r => Sys2Proof.Machine.execEnable r s
  | .disable r => Sys2Proof.Machine.execDisable r s
  | .ack r => Sys2Proof.Machine.execAck r s
  | .setCount r => Sys2Proof.Machine.execSetCount r s
  | .armIndex r => Sys2Proof.Machine.execArmIndex r s
  | .badKind kind r => Sys2Proof.Machine.execBadKind kind r s
  | .copyCompletion => Sys2Proof.Machine.execCopyCompletion s
  | .swapEffect => Sys2Proof.Machine.execSwapEffect s
  | .burst lane f => Sys2Proof.Machine.execBurst lane f s
  | .runStart => Sys2Proof.Machine.execRunStart s
  | .runCompletion => Sys2Proof.Machine.execRunCompletion s
  | .chargingBegin ch => Sys2Proof.Machine.execChargingBegin ch s
  | .endOfCharging ch => Sys2Proof.Machine.execEndOfCharging ch s
  | .stoppingEnd ch => Sys2Proof.Machine.execStoppingEnd ch s
  | .compareLoad ch => Sys2Proof.Machine.execCompareLoad ch s
  | .comparesStale ch => Sys2Proof.Machine.execComparesStale ch s
  | .setpointStale ch => Sys2Proof.Machine.execSetpointStale ch s
  | .voltSat ch => Sys2Proof.Machine.execVoltSat ch s
  | .lockReached => Sys2Proof.Machine.execLockReached s
  | .filteredChange ch a b z stepFirst => Sys2Proof.Machine.execFilteredChange ch a b z stepFirst s
  | .startingLevel pin level => Sys2Proof.Machine.execStartingLevel pin level s
  | .inhNLow => Sys2Proof.Machine.execInhNLow s
  | .inhNHigh => Sys2Proof.Machine.execInhNHigh s
  | .counterPassesCompare ch ph => Sys2Proof.Machine.execCounterPassesCompare ch ph s
  | .deadTimeElapsed ch ph => Sys2Proof.Machine.execDeadTimeElapsed ch ph s
  | .rawSampleChange pin level => Sys2Proof.Machine.execRawSampleChange pin level s
  | .byteOutsideCell b => Sys2Proof.Machine.execByteOutsideCell b s

end Sys2Proof.Machine
end

