-- ==== Sys2Proof/Safety.lean ====
section
/-! DEFINITION. What counts as a sound state, in the terms that claims use: each predicate is one promise of the spec about the
part between two events. -/

namespace Sys2Proof.Machine

/-! ### Gate lines -/

/-- The two gates of a phase are not on together (R86). -/
def Phase.exclusive (p : Phase) : Prop := ¬(p.hi = true ∧ p.lo = true)

/-- Both gates of a phase are off. -/
def Phase.dark (p : Phase) : Prop := p.hi = false ∧ p.lo = false

/-- All six gate lines of a modulator are off (R87). -/
def Modulator.dark (m : Modulator) : Prop := m.pa.dark ∧ m.pb.dark ∧ m.pc.dark

/-- No phase of any bridge has both its gates on (R86). -/
def State.gatesExclusive (s : State) : Prop :=
  ∀ c, (s.mods.get c).pa.exclusive ∧ (s.mods.get c).pb.exclusive ∧ (s.mods.get c).pc.exclusive

/-- Every gate line is off in INHIBIT (R87) and while INH_N is low (R95). -/
def State.darkUnlessEnabled (s : State) : Prop :=
  ∀ c, (s.mods.get c).drive = false ∨ s.tb.inh.level = some false → (s.mods.get c).dark

/-- The gate state is INHIBIT in OFF and TRIP, and DRIVE in RUN and HOLD (R87, R88). -/
def State.gateStateFollows (s : State) : Prop :=
  ∀ c,
    (s.st c = .off ∨ s.st c = .trip → (s.mods.get c).drive = false) ∧
      (s.st c = .run ∨ s.st c = .hold → (s.mods.get c).drive = true)

/-! ### Router -/

/-- A flag is set exactly while its occurrence count is above 0, and the count stays within 65535 (R141, R144, R155). -/
def Flag.counted (f : Flag) : Prop := (f.isSet = true ↔ 0 < f.count) ∧ f.count ≤ 65535

/-- Every flag of every channel and of the device is counted. -/
def State.flagsCounted (s : State) : Prop :=
  (∀ c, ∀ k ∈ ChanKind.all, (s.chanFlag c k).counted) ∧ ∀ k ∈ DevKind.all, (s.devFlag k).counted

/-- A channel holds a trip record exactly while it is in TRIP, its secondary list of at most 3 entries and its overflow
count within 255 (R150, R152, R153). -/
def State.tripsRecorded (s : State) : Prop :=
  ∀ c, ((s.router.trips.get c).isSome = true ↔ s.st c = .trip) ∧
    ∀ t ∈ s.router.trips.get c, t.secondary.length ≤ 3 ∧ t.overflow ≤ 255

/-! ### Run queue -/

/-- No waiting entry has a free engine before it (R68): a run executes, or nothing waits. -/
def State.engineSettled (s : State) : Prop := s.engine.running.isSome = true ∨ s.engine.queue = []

/-- The run queue holds at most 8 entries and at most one for a channel (R67). -/
def State.queueSound (s : State) : Prop :=
  s.engine.queue.length ≤ 8 ∧ (s.engine.queue.map fun e => e.chan).Nodup

/-! ### Timebase -/

/-- The settings lie in their ranges (4-3). -/
def Settings.sound (x : Settings) : Prop := x.inRange = true

/-- Pending D, P and N lie in their ranges (4-3, R82). -/
def PendingSettings.sound (x : PendingSettings) : Prop :=
  x.d ≤ 255 ∧ 2000 ≤ x.p ∧ x.p ≤ 32767 ∧ 1 ≤ x.n ∧ x.n ≤ 8

/-- Settings, counter, crest value, correction, period index and counts of the timebase lie in their ranges (R77, R78, R81,
R97, R102). -/
def Timebase.sound (t : Timebase) : Prop :=
  t.set.sound ∧ (∀ x ∈ t.pend, x.sound) ∧ t.counter ≤ t.crest ∧ t.set.p ≤ t.crest + 16 ∧
    t.crest ≤ t.set.p + 16 ∧ t.index < t.set.n ∧ t.corr.natAbs ≤ 16 ∧ t.corrLeft ≤ 8 ∧
    t.acquire ≤ 3 ∧ t.lossCount ≤ 255

/-! ### Parameter store -/

/-- A bank that the checks of a swap that judge a bank by itself find nothing wrong with (R170 to R172). -/
def Bank.checked (b : Bank) : Prop :=
  scanChans b.curveFault = none ∧ scanChans b.limitsFault = none ∧ b.pairFault = none

/-- The active bank has passed those checks; with a swap pending the shadow has passed them too and no copy is in progress
(R166, R169, R174). -/
def State.banksChecked (s : State) : Prop :=
  s.bank.checked ∧ (s.store.swapPending = true → s.shadow.checked ∧ s.store.copy = none)

/-! ### Supervisor -/

/-- Causes are held in HOLD only (R123), and the members of a pair share state, causes and charge count (R124). -/
def State.pairsAlike (s : State) : Prop :=
  (∀ c, s.st c ≠ .hold → (s.sup.get c).causes = {}) ∧
    ∀ c p, (s.role c).partner = some p →
      s.st p = s.st c ∧ (s.sup.get p).causes = (s.sup.get c).causes ∧
        (s.sup.get p).chargeCount = (s.sup.get c).chargeCount

/-! ### Position -/

/-- The fine count of every channel lies below its effective cpr (R106). -/
def State.countsBelowCpr (s : State) : Prop :=
  ∀ c, (s.pos.get c).fine < (s.record c).effectiveCpr

/-! ### Ring port -/

/-- A cell in progress holds fewer than sixteen bytes (R179), and its start symbol has come. -/
def State.cellSound (s : State) : Prop := ∀ p ∈ s.ring.cell, p.bytes.length ≤ 15 ∧ s.ring.waitStart = false

/-! ### Terms that several claims share -/

/-- No byte of a cell has come since its start symbol (R178): a cell that comes now cuts none. -/
def State.atBoundary (s : State) : Prop := ∀ p ∈ s.ring.cell, p.bytes = []

/-- A normal station (R180) ready for a cell: no byte of another one is in progress (R178). -/
def State.ready (s : State) : Prop := s.transparent = false ∧ s.atBoundary

/-- The ring port when a cell has been taken and `o` leaves in its slot (R178, R182, R183). -/
def State.slotRing (s : State) (o : RingOut) : RingPort := { s.ring with cell := none, waitStart := false, out := o }

/-- The ring port after a request has been answered in its slot (R183, R186). -/
def State.repliedRing (s : State) (kind : Byte) (r : Request) (x : Reply) : RingPort :=
  s.slotRing (.cell (replyCell s.ring.address kind r x))

/-- Channel `c`, found by a trip in state `s`, stands in TRIP in `t` with a new trip record of this cause and via (R136,
R150, R151). -/
def State.trippedTo (s t : State) (c : Chan) (cause : Nat) (via : Via) : Prop :=
  t.sup.get c = { s.sup.get c with st := .trip, causes := {}, missed := 0 } ∧
    (t.mods.get c).dark ∧ (t.mods.get c).drive = false ∧ (t.mods.get c).pending = none ∧
    t.router.trips.get c =
      some { cause := cause, via := via, cycle := s.ring.lastCycle, before := s.st c,
             snapshot := (s.loop.get c).last.snapshot, secondary := [], overflow := 0 }

/-- The record of a channel in `u` is what a strobe of `t` takes from it: the state of the period it opens, the channel's
counts, a leader's follower's counts, the count mark clear (R60, R61). -/
def State.strobeTakenFrom (t u : State) (c : Chan) : Prop :=
  ∃ r, (t.lanes.get c).strobe = some r ∧ r.own = ⟨(u.pos.get c).fine, (u.pos.get c).rev⟩ ∧
    r.countMark = false ∧
    (∀ k p, u.role c = .leader k p → r.follower = some ⟨(u.pos.get p).fine, (u.pos.get p).rev⟩)

/-- The statuses that a request of kind byte `k` may be answered with (the table of R191). -/
def statusesOf (k : Byte) : List Status :=
  match k.toNat with
  | 1 => [.ok, .badTarget, .busy]
  | 2 => [.ok, .badTarget, .range, .activeBank, .swapPending, .busy]
  | 3 => [.accepted, .swapPending, .busy]
  | 4 => [.accepted, .swapPending, .busy, .curveOrder, .pairConflict, .structure', .limits]
  | 5 => [.ok, .badTarget, .range, .state]
  | 6 => [.ok, .badTarget]
  | 7 => [.accepted, .badTarget, .state, .noParams, .paired, .flags]
  | 8 => [.ok, .accepted, .badTarget, .state, .paired]
  | 9 => [.ok, .badTarget, .stillActive]
  | 10 => [.ok, .badTarget, .range, .state]
  | 11 => [.ok, .badTarget, .range]
  | 12 => [.ok, .badTarget]
  | _ => [.badKind]

end Sys2Proof.Machine
end

