-- ==== Sys2Proof/WellFormed.lean ====
section
/-! DEFINITION. Which terms of `Instr` name an event the part can meet. `exec` gives every term a meaning all the same. -/

namespace Sys2Proof

/-- A command is well formed when its operands can stand together: a BAD_KIND request carries a kind outside 1..12
(R189), a cut cell had fewer than 16 bytes (R178), a filtered change names at least one input (R107). -/
def Instr.wellFormed : Instr → Bool
  | .badKind k _ => decide (k = 0) || decide (12 < k.toNat)
  | .cutCell got _ => decide (got < 16)
  | .filteredChange _ a b z _ => a.isSome || b.isSome || z.isSome
  | .powerOn _ | .restart _ | .masterValley _ | .masterCrest | .ringCycleStart | .correctionEnd
  | .pendingSettingsEffect | .ringLoss | .syncArrival _ _ _ | .setArrival _ _ | .damagedCell _ _
  | .forwardedCell _ | .readEntry _ | .writeEntry _ | .copyBank _ | .swapBanks _ | .configure _
  | .readStatus _ | .enable _ | .disable _ | .ack _ | .setCount _ | .armIndex _ | .copyCompletion
  | .swapEffect | .burst _ _ | .runStart | .runCompletion | .chargingBegin _ | .endOfCharging _
  | .stoppingEnd _ | .compareLoad _ | .comparesStale _ | .setpointStale _ | .voltSat _ | .lockReached
  | .startingLevel _ _ | .inhNLow | .inhNHigh | .counterPassesCompare _ _ | .deadTimeElapsed _ _
  | .rawSampleChange _ _ | .byteOutsideCell _ => true

end Sys2Proof
end

