-- ==== Sys2Proof/Certificates/Slice0/Obligations.lean ====
section
/-! DEFINITION. The statements for the provers. A statement about a command says that `exec` answers a next state, what that
state holds, and what it leaves as it was: most frames are written as an equation that names the fields that may differ. -/

section

open Sys2Proof Sys2Proof.Machine

/-! ### The machine as a whole -/

/-- A step with a command at the front of the queue is that command's effect, with the queue's rest. The queue of commands is
the model's choice (logs 1, 26): the spec's rows come to the part one at a time, and it names no queue of them. -/
def Obligations.StepRunsFrontCommand : Prop :=
  ∀ (i : Instr) (rest : List Instr) (s : State),
    step { s with pending := i :: rest } = exec i { s with pending := rest }

/-- Every command, in every state, answers a next state, and leaves the queue of waiting commands as it was. This is a
property of the model: that a command whose event cannot come answers next is its choice (log 11), and the queue is its own
(logs 1, 26). -/
def Obligations.EveryCommandAnswers : Prop :=
  ∀ (i : Instr) (s : State), ∃ t, exec i s = .next t ∧ t.pending = s.pending

/-- POWER_ON brings every block to the power-on values of its state table, with the station address of the straps. The fields
that no table names are the model's: the gates have been off for 0 ticks (log 9), nothing has left the lanes (log 10), the
number of free values and the queue of commands stay (logs 12, 26), and so do the levels at the pins (log 34). -/
def Obligations.PowerOnValues : Prop :=
  ∀ (straps : BitVec 5) (s : State), ∃ t, exec (.powerOn straps) s = .next t ∧
    t.pending = s.pending ∧ t.free = s.free ∧
    t.ring.address = straps ∧ t.ring.lastCycle = 0 ∧ t.ring.cell = none ∧ t.ring.waitStart = true ∧
    (t.tb.set.d, t.tb.set.p, t.tb.set.n, t.tb.set.qt) = (0, 12500, 4, 0) ∧
    (t.tb.set.lockWindow, t.tb.set.slewMax, t.tb.set.lossLimit) = (50, 8, 12) ∧
    t.tb.pend = none ∧ t.tb.counter = 0 ∧ t.tb.up = true ∧ t.tb.crest = 12500 ∧ t.tb.index = 0 ∧
    t.tb.pos = 0 ∧ t.tb.corr = 0 ∧ t.tb.corrLeft = 0 ∧ t.tb.lock = .free ∧ t.tb.acquire = 0 ∧
    t.tb.lossCount = 0 ∧ t.tb.lossMark = false ∧ t.tb.inh = { pin := s.tb.inh.pin } ∧
    t.engine.queue = [] ∧ t.engine.running = none ∧
    (∀ k : Fin 4, t.pairs.get k = {}) ∧
    (t.store.stA, t.store.stB, t.store.active) = (.empty, .empty, .a) ∧
    t.store.swapPending = false ∧ t.store.copy = none ∧
    (∀ n g i, (t.store.bank n).group g i = {}) ∧
    t.router.lines = 0 ∧ (∀ k, t.devFlag k = {}) ∧ (∀ l, t.router.devKept.get l = false) ∧
    ∀ c,
      t.sup.get c = { st := .off, causes := {}, chargeCount := 0, missed := 0, setSeen := false } ∧
      t.mods.get c = { pending := none, active := ⟨0, 0, 0⟩, stale := 0, drive := false, deadTime := 0 } ∧
      t.loop.get c = { accD := 0, accQ := 0, history := none, vsat := 0 } ∧
      (t.loop.get c).last.completed = false ∧ t.refs.get c = { mailbox := none } ∧
      t.pos.get c = { fa := { pin := (s.pos.get c).fa.pin }, fb := { pin := (s.pos.get c).fb.pin }
                      fz := { pin := (s.pos.get c).fz.pin }, dec := none
                      fine := 0, rev := 0, latched := none, captured := none, captures := 0, armed := false } ∧
      t.lanes.get c = { seq := 0, expected := false, arrived := false, strobe := none } ∧
      (∀ k, t.chanFlag c k = {}) ∧ (∀ l, (t.router.kept.get c).get l = false) ∧
      t.router.trips.get c = none

/-- The part right after reset meets every invariant below. The station address after reset and the levels at the pins are the
model's choice (logs 8, 34). -/
def Obligations.ResetIsSound : Prop :=
  State.reset.gatesExclusive ∧ State.reset.darkUnlessEnabled ∧ State.reset.gateStateFollows ∧
    State.reset.flagsCounted ∧ State.reset.tripsRecorded ∧ State.reset.queueSound ∧ State.reset.engineSettled ∧
    State.reset.cellSound ∧ State.reset.tb.sound ∧ State.reset.banksChecked ∧ State.reset.pairsAlike ∧
    State.reset.countsBelowCpr ∧ State.reset.pending = []

/-- No step of the part ever turns both gates of a phase on together (the promise of 4-4-3), from any state in which they
are not.

Every step keeps all six gate lines of a channel off while its gate state is INHIBIT or INH_N is low. -/
def Obligations.StepKeepsGatesSafe : Prop :=
  (∀ s t : State, s.gatesExclusive → step s = .next t → t.gatesExclusive) ∧
  (∀ s t : State, s.darkUnlessEnabled → step s = .next t → t.darkUnlessEnabled)

/-- Every step keeps a flag set exactly while its occurrence count is above 0, and the count within 65535.

Every step keeps the run queue within 8 entries, with at most one waiting entry for a channel, and no entry waiting before
a free engine: a run starts in the very event that lets it.

Every step keeps a cell in progress below sixteen bytes. -/
def Obligations.StepKeepsFlagsAndQueueSound : Prop :=
  (∀ s t : State, s.flagsCounted → step s = .next t → t.flagsCounted) ∧
  (∀ s t : State, s.queueSound → step s = .next t → t.queueSound) ∧
  (∀ s t : State, s.engineSettled → step s = .next t → t.engineSettled) ∧
  (∀ s t : State, s.cellSound → step s = .next t → t.cellSound)

/-- Every step keeps the settings, the pending settings, the master counter, the crest value, the period index, the
correction and the counts of the timebase within their ranges. -/
def Obligations.StepKeepsTimebaseSound : Prop :=
  ∀ s t : State, s.tb.sound → step s = .next t → t.tb.sound

/-- Every step keeps the active bank one that has passed the checks a bank is judged by alone, and with a swap pending the
shadow too: no request, copy, swap or reset puts an unchecked bank in force.

With checked banks, every step keeps the fine count of every channel below its effective cpr. -/
def Obligations.StepKeepsBanksChecked : Prop :=
  (∀ s t : State, s.banksChecked → step s = .next t → t.banksChecked) ∧
  (∀ s t : State, s.banksChecked → s.countsBelowCpr → step s = .next t → t.countsBelowCpr)

/-- With checked banks, every step keeps the members of every active pair in the same state with the same hold causes and the
same charge count, and the cause set empty outside HOLD. Which of two counts a pair formed by a swap shares is the model's
reading (log 39). -/
def Obligations.StepKeepsPairsAlike : Prop :=
  ∀ s t : State, s.banksChecked → s.pairsAlike → step s = .next t → t.pairsAlike

/-- With checked banks and pairs alike, every step keeps a trip record present exactly while its channel is in TRIP, its
secondary list at most 3 long.

With checked banks and pairs alike, every step keeps the gate state INHIBIT in OFF and TRIP and DRIVE in RUN and HOLD. -/
def Obligations.StepKeepsTripsAndGateStates : Prop :=
  (∀ s t : State, s.banksChecked → s.pairsAlike → s.tripsRecorded → step s = .next t → t.tripsRecorded) ∧
  (∀ s t : State, s.banksChecked → s.pairsAlike → s.gateStateFollows → step s = .next t → t.gateStateFollows)

/-! ### Replies and the decoder -/

/-- Every reply carries a status code of the table that its request may give, its data words are 0 except where the owning
rule gives them, and a refusal changes no state. -/
def Obligations.RepliesFollowTheStatusTable : Prop :=
  ([Status.ok, .accepted, .badKind, .badTarget, .range, .activeBank, .swapPending, .busy, .state,
      .noParams, .paired, .flags, .stillActive, .curveOrder, .pairConflict, .structure', .limits].map
    Status.code = List.range 17) ∧
  ∀ (k : Byte) (r : Request) (s : State),
    let a := s.onRequest k r
    a.reply.status ∈ statusesOf k ∧
    (a.reply.status = .ok ∨ a.reply.status = .accepted ∨ a.reply.status = .stillActive ∨ a.after = s) ∧
    (a.reply.data = {} ∨
      ((k = 1 ∨ k = 6) ∧ a.reply.status = .ok) ∨
      (k = 2 ∧ a.reply.status = .range ∧ a.reply.data.w1 = 0 ∧ a.reply.data.w2 = 0 ∧ a.reply.data.w3 = 0) ∨
      (k = 4 ∧ a.reply.status ∈ [Status.curveOrder, .limits, .pairConflict, .structure'] ∧
        a.reply.data.w2 = 0 ∧ a.reply.data.w3 = 0))

/-- A target that fails the decoder's target test is answered BAD_TARGET with data words of 0, and nothing but the ring
port's slot changes: ENABLE, DISABLE, SET_COUNT and ARM_INDEX take 0..7, READ_STATUS and ACK 0..7 or 255, CONFIGURE
and RESTART 255; a target that passes is answered by its owner, which for COPY_BANK and SWAP_BANKS reads no target,
and for READ_ENTRY and WRITE_ENTRY reads the bank in bit 7 and the table in bits 2 to 0. -/
def Obligations.TargetTest : Prop :=
  ∀ (r : Request) (s : State), s.ready →
    let no := fun k : Byte => Host.Outcome.next (φ := Fault) (ρ := Refusal)
      { s with ring := s.repliedRing k r ⟨.badTarget, {}⟩ }
    (7 < r.target.toNat →
      exec (.enable r) s = no 7 ∧ exec (.disable r) s = no 8 ∧ exec (.setCount r) s = no 10 ∧
        exec (.armIndex r) s = no 11) ∧
    (7 < r.target.toNat → r.target.toNat ≠ 255 →
      exec (.readStatus r) s = no 6 ∧ exec (.ack r) s = no 9) ∧
    (r.target.toNat ≠ 255 → exec (.configure r) s = no 5 ∧ exec (.restart r) s = no 12) ∧
    (r.target.toNat ≤ 7 →
      (s.onEnable r).reply.status ≠ .badTarget ∧ (s.onDisable r).reply.status ≠ .badTarget ∧
        (s.onSetCount r).reply.status ≠ .badTarget ∧ (s.onArmIndex r).reply.status ≠ .badTarget) ∧
    (r.target.toNat ≤ 7 ∨ r.target.toNat = 255 →
      (s.onAck r).reply.status ≠ .badTarget ∧
        (r.groupIndex ≤ 7 → (s.onReadStatus r).reply.status ≠ .badTarget)) ∧
    (r.target.toNat = 255 →
      (s.onConfigure r).reply.status ≠ .badTarget ∧ (s.onRestart r).reply.status ≠ .badTarget) ∧
    (∀ x : Byte, s.onCopyBank.reply.status ≠ .badTarget ∧ s.onSwapBanks.reply.status ≠ .badTarget ∧
      exec (.copyBank { r with target := x }) s = exec (.copyBank r) s ∧
      exec (.swapBanks { r with target := x }) s = exec (.swapBanks r) s) ∧
    (r.bank = if 128 ≤ r.target.toNat then .b else .a) ∧ r.table = r.target.toNat % 8 ∧
    (validIndex r.table r.groupIndex = true →
      (s.onReadEntry r).reply.status ≠ .badTarget ∧ (s.onWriteEntry r).reply.status ≠ .badTarget)

/-- BAD_KIND: a request of a kind outside 1..12 reaches no block: it is answered BAD_KIND with its kind, tag and index
echoed and data words of 0, and nothing else changes.

The MGT reply that leaves in a request's slot: kind 5, the request's channel field, D clear, T set, the station
address, kind, tag and index echoed, the status code, the four data words, and a good CRC. -/
def Obligations.BadKindAndReplyFields : Prop :=
  (∀ (k : Byte) (r : Request) (s : State), s.ready → k = 0 ∨ 13 ≤ k.toNat →
     exec (.badKind k r) s = .next { s with ring := s.repliedRing k r ⟨.badKind, {}⟩ }) ∧
  (∀ (station : BitVec 5) (kind : Byte) (r : Request) (x : Reply),
     let c := replyCell station kind r x
     c.kind = 5 ∧ c.chanField = r.chanField ∧ c.damaged = false ∧ c.taken = true ∧
       c.station = station.setWidth 8 ∧ c.p0.hi = kind ∧ c.p0.lo = r.tag ∧
       c.p1.hi.toNat = x.status.code ∧ c.p1.lo = r.index ∧
       (c.p2, c.p3, c.p4, c.p5) = (x.data.w0, x.data.w1, x.data.w2, x.data.w3) ∧ c.good = true)

/-! ### Parameter store -/

/-- READ_ENTRY of a valid group, other than of the shadow during a copy, answers OK with the words of the group as the
named bank holds them, fieldless bits 0; an invalid table or index answers BAD_TARGET, the shadow during a copy BUSY;
nothing but the ring port's slot changes. Tables 0 to 3 have the groups 0 to 63, 31, 63 and 7, table 4 those of the kind
codes 1 to 22, a table above 4 none; the bits that carry a field, word by word, are those of every group's layout. -/
def Obligations.ReadEntryAnswersTheGroup : Prop :=
  (∀ t i, validIndex t i = true ↔
    (t = 0 ∧ i < 64) ∨ (t = 1 ∧ i < 32) ∨ (t = 2 ∧ i < 64) ∨ (t = 3 ∧ i < 8) ∨ (t = 4 ∧ 1 ≤ i ∧ i ≤ 22)) ∧
  (∀ i, let all : Word := 0xFFFF
    fieldMask 0 i = (if i % 8 = 0 then ⟨0x0F7F, 0x00FF, 0x1F0F, 0x00FF⟩
      else if i % 8 = 7 then ⟨all, all, all, 0⟩ else ⟨all, all, all, all⟩) ∧
    fieldMask 1 i = ⟨all, all, all, all⟩ ∧ fieldMask 2 i = ⟨all, all, all, all⟩ ∧
    fieldMask 3 i = (if i % 2 = 0 then ⟨0x8707, all, all, all⟩ else ⟨all, all, all, all⟩) ∧
    fieldMask 4 i = ⟨0x00FF, 0, 0, 0⟩) ∧
  ∀ (r : Request) (s : State), r.groupIndex = r.index.toNat ∧ (s.ready →
    let g := (s.store.bank r.bank).group r.table r.groupIndex
    let m := fieldMask r.table r.groupIndex
    exec (.readEntry r) s = .next { s with ring := s.repliedRing 1 r (
      if validIndex r.table r.groupIndex = false then ⟨.badTarget, {}⟩
      else if r.bank ≠ s.store.active ∧ s.store.copy ≠ none then ⟨.busy, {}⟩
      else ⟨.ok, ⟨g.w0 &&& m.w0, g.w1 &&& m.w1, g.w2 &&& m.w2, g.w3 &&& m.w3⟩⟩) })

/-- Where every field stands, and what the two range tests of the store ask, in the bits of the words. Each field of a
channel record, of a pair entry and of a route, with the words of its group; the pair role of a channel that one active slot
names, or none. The write ranges of a group, word by word; a two-word field is judged at its first word (the model's reading,
log 22). The in-use ranges of a record, group by group, on the words that the bank holds for the channel. -/
def Obligations.FieldLayoutsAndRanges : Prop :=
  (∀ (b : Bank) (c : Chan),
    let g := fun k : Nat => b.group 0 (c.val * 8 + k)
    let signed : Word → Int := fun w => if w.toNat < 32768 then w.toNat else (w.toNat : Int) - 65536
    let flags := (g 0).w0.toNat
    let flag := fun k : Nat => decide (flags / 2 ^ k % 2 = 1)
    b.record c =
      { inUse := flag 0, fwEnable := flag 1, ffEnable := flag 2, ramp := flag 3, shifted := flag 4
        indexMode := flags / 32 % 4, holdAfter := flags / 256 % 16, chargePeriods := (g 0).w1.toNat % 256
        derateCount := (g 0).w2.toNat % 16, fwCount := (g 0).w2.toNat / 256 % 32, vsatRuns := (g 0).w3.toNat % 256
        offsetA := (g 1).w0.toNat, offsetB := (g 1).w1.toNat, disagreeWindow := (g 1).w2.toNat
        iTrip := (g 1).w3.toNat, iMax := (g 2).w0.toNat, vLimit := (g 2).w1.toNat, decayStep := (g 2).w2.toNat
        minPulse := (g 2).w3.toNat, kpD := (g 3).w0.toNat, kiD := (g 3).w1.toNat, kpQ := (g 3).w2.toNat
        kiQ := (g 3).w3.toNat, xD := signed (g 4).w0, xQ := signed (g 4).w1, eBemf := signed (g 4).w2
        deadTime := (g 4).w3.toNat, uNominal := (g 5).w0.toNat, uUnder := (g 5).w1.toNat
        uOver := (g 5).w2.toNat, tTrip := (g 5).w3.toNat, cpr := (g 6).w0.toNat * 65536 + (g 6).w1.toNat
        polePairs := (g 6).w2.toNat, angleOffset := (g 6).w3.toNat
        indexExpect := (g 7).w0.toNat * 65536 + (g 7).w1.toNat, indexTolerance := (g 7).w2.toNat }) ∧
  (∀ (b : Bank) (k : Fin 4),
    let g := b.group 3 (2 * k.val)
    let h := b.group 3 (2 * k.val + 1)
    let e := b.pairEntry k
    let offset := h.w0.toNat * 65536 + h.w1.toNat
    e.active = decide (32768 ≤ g.w0.toNat) ∧ e.leader.val = g.w0.toNat / 256 % 8 ∧ e.follower.val = g.w0.toNat % 8 ∧
      e.split = g.w1.toNat ∧ e.skewGain = (if g.w2.toNat < 32768 then (g.w2.toNat : Int) else (g.w2.toNat : Int) - 65536) ∧
      e.skewMax = g.w3.toNat ∧
      e.skewOffset = (if offset < 2147483648 then (offset : Int) else (offset : Int) - 4294967296) ∧
      e.skewTrip = h.w2.toNat * 65536 + h.w3.toNat) ∧
  (∀ (b : Bank) (code : Nat),
    let w := (b.group 4 code).w0.toNat
    let r := b.route code
    r.tripSelf = decide (w % 2 = 1) ∧ r.holdSelf = decide (w / 2 % 2 = 1) ∧ r.tripAll = decide (w / 4 % 2 = 1) ∧
      r.holdAll = decide (w / 8 % 2 = 1) ∧ r.lines.toNat = w / 16 % 16) ∧
  (∀ (b : Bank) (c : Chan),
    let e := b.pairEntry
    let names := fun k => (e k).active = true ∧ ((e k).leader = c ∨ (e k).follower = c)
    let r := b.role c
    ((∀ k, ¬names k) → r = .lone ∧ r.partner = none ∧ r.slot = none ∧ r.isFollower = false) ∧
    ∀ k, names k → (∀ j, j ≠ k → ¬names j) → r.slot = some k ∧
      ((e k).leader = c → r = .leader k (e k).follower ∧ r.partner = some (e k).follower ∧ r.isFollower = false) ∧
      ((e k).leader ≠ c → r = .follower k (e k).leader ∧ r.partner = some (e k).leader ∧ r.isFollower = true)) ∧
  (∀ (i : Nat) (g : Group),
    let a := g.w0.toNat
    let b := g.w1.toNat
    let c := g.w2.toNat
    let d := g.w3.toNat
    let fw := c / 256 % 32
    let ok := fun (t i : Nat) (l : List Bool) => wordsInRange t i g = l
    (i % 8 = 0 → ok 0 i [decide (a / 32 % 4 ≤ 2), true,
      decide (c % 16 ≤ 8 ∧ (fw = 0 ∨ (2 ≤ fw ∧ fw ≤ 16))), true]) ∧
    (i % 8 = 1 → ok 0 i [decide (a ≤ 4095), decide (b ≤ 4095), decide (c ≤ 4095), decide (d ≤ 32767)]) ∧
    (i % 8 = 2 → ok 0 i [decide (a ≤ 32767), decide (b ≤ 32767), decide (c ≤ 32767), decide (d ≤ 1023)]) ∧
    (i % 8 = 3 → ok 0 i [true, true, true, true]) ∧
    (i % 8 = 4 → ok 0 i [true, true, true, decide (d ≤ 255)]) ∧
    (i % 8 = 5 → ok 0 i [decide (a ≤ 4095), decide (b ≤ 4095), decide (c ≤ 4095), decide (d ≤ 4095)]) ∧
    (i % 8 = 6 → ok 0 i [decide (a * 65536 + b = 0 ∨ (16 ≤ a * 65536 + b ∧ a * 65536 + b ≤ 16777216)), true,
      decide (c ≤ 64), true]) ∧
    (i % 8 = 7 → ok 0 i [true, true, true, true]) ∧
    ok 1 i [decide (a ≤ 4095), decide (b ≤ 32767), decide (c ≤ 4095), decide (d ≤ 32767)] ∧
    ok 2 i [decide (a ≤ 32767), decide (b = 0 ∨ 32768 ≤ b), decide (c ≤ 32767), decide (d = 0 ∨ 32768 ≤ d)] ∧
    (i % 2 = 0 → ok 3 i [true, decide (b ≤ 32768), true, decide (d ≤ 32767)]) ∧
    (i % 2 = 1 → ok 3 i [true, true, true, true]) ∧
    ok 4 i [true, true, true, true]) ∧
  (∀ (bank : Bank) (c : Chan),
    let w0 := fun g => (bank.group 0 (c.val * 8 + g)).w0.toNat
    let w1 := fun g => (bank.group 0 (c.val * 8 + g)).w1.toNat
    let w2 := fun g => (bank.group 0 (c.val * 8 + g)).w2.toNat
    let w3 := fun g => (bank.group 0 (c.val * 8 + g)).w3.toNat
    let fw := w2 0 / 256 % 32
    let cpr := w0 6 * 65536 + w1 6
    ((bank.record c).inUse = decide (w0 0 % 2 = 1)) ∧
    (bank.record c).groupsInUse =
      [decide (w0 0 / 32 % 4 ≤ 2 ∧ 1 ≤ w0 0 / 256 % 16 ∧ 1 ≤ w1 0 % 256 ∧
          (1 ≤ w2 0 % 16 ∧ w2 0 % 16 ≤ 8) ∧ (fw = 0 ∨ (2 ≤ fw ∧ fw ≤ 16)) ∧ 1 ≤ w3 0 % 256),
        decide (w0 1 ≤ 4095 ∧ w1 1 ≤ 4095 ∧ w2 1 ≤ 4095 ∧ 1 ≤ w3 1 ∧ w3 1 ≤ 32767),
        decide ((1 ≤ w0 2 ∧ w0 2 ≤ 32767) ∧ (1 ≤ w1 2 ∧ w1 2 ≤ 32767) ∧ (1 ≤ w2 2 ∧ w2 2 ≤ 32767) ∧ w3 2 ≤ 1023),
        true,
        decide (w3 4 ≤ 255),
        decide ((1 ≤ w0 5 ∧ w0 5 ≤ 4095) ∧ (1 ≤ w1 5 ∧ w1 5 ≤ 4095) ∧ (1 ≤ w2 5 ∧ w2 5 ≤ 4095) ∧ w3 5 ≤ 4095),
        decide ((16 ≤ cpr ∧ cpr ≤ 16777216) ∧ 1 ≤ w2 6 ∧ w2 6 ≤ 64)])

/-- WRITE_ENTRY of a valid group of the shadow, with no swap pending, no copy in progress and every field in its write
range, answers OK: the named group of the shadow holds the four words with fieldless bits 0, the shadow is EDITED, and
every other group of both banks, and everything else, is as it was.

WRITE_ENTRY refused: the checks in their order, the first that fails gives the reply, RANGE with the position of the
first word that holds a field out of range, and nothing but the ring port's slot changes. That a two-word field out of range
names its first word is the model's reading (log 22). -/
def Obligations.WriteEntryChecksAndWrites : Prop :=
  (∀ (r : Request) (s : State), s.ready → validIndex r.table r.groupIndex = true →
     r.bank ≠ s.store.active → s.store.swapPending = false → s.store.copy = none →
     (∀ ok ∈ wordsInRange r.table r.groupIndex ⟨r.w0, r.w1, r.w2, r.w3⟩, ok = true) →
     ∃ t, exec (.writeEntry r) s = .next t ∧
       t = { s with ring := s.repliedRing 2 r ⟨.ok, {}⟩, store := t.store } ∧
       (let m := fieldMask r.table r.groupIndex;
         (t.store.bank r.bank).group r.table r.groupIndex =
           ⟨r.w0 &&& m.w0, r.w1 &&& m.w1, r.w2 &&& m.w2, r.w3 &&& m.w3⟩) ∧
       (∀ g i, validIndex g i = true → (g, i) ≠ (r.table, r.groupIndex) →
         (t.store.bank r.bank).group g i = (s.store.bank r.bank).group g i) ∧
       t.store.bank s.store.active = s.store.bank s.store.active ∧
       t.store.stateOf r.bank = .edited ∧
       t.store.stateOf s.store.active = s.store.stateOf s.store.active ∧
       t.store.active = s.store.active ∧ t.store.swapPending = false ∧ t.store.copy = none) ∧
  (∀ (r : Request) (s : State), s.ready →
     let no := fun x : Reply => exec (.writeEntry r) s = .next { s with ring := s.repliedRing 2 r x }
     (validIndex r.table r.groupIndex = false → no ⟨.badTarget, {}⟩) ∧
     (validIndex r.table r.groupIndex = true → r.bank = s.store.active → no ⟨.activeBank, {}⟩) ∧
     (validIndex r.table r.groupIndex = true → r.bank ≠ s.store.active → s.store.swapPending = true →
       no ⟨.swapPending, {}⟩) ∧
     (validIndex r.table r.groupIndex = true → r.bank ≠ s.store.active → s.store.swapPending = false →
       s.store.copy ≠ none → no ⟨.busy, {}⟩) ∧
     (validIndex r.table r.groupIndex = true → r.bank ≠ s.store.active → s.store.swapPending = false →
       s.store.copy = none → ∀ k : Fin 4,
         (wordsInRange r.table r.groupIndex ⟨r.w0, r.w1, r.w2, r.w3⟩)[k.val]? = some false →
         (∀ j : Fin 4, j < k → (wordsInRange r.table r.groupIndex ⟨r.w0, r.w1, r.w2, r.w3⟩)[j.val]? = some true) →
         no ⟨.range, { w0 := BitVec.ofNat 16 k.val }⟩))

/-- COPY_BANK with no copy in progress and no swap pending answers ACCEPTED, marks the copy in progress and the shadow
EDITED; otherwise BUSY or SWAP_PENDING and no change. At COPY_COMPLETION the shadow equals the active bank group for
group and is VALID, and the mark is clear. -/
def Obligations.CopyMakesTheShadowEqual : Prop :=
  (∀ (r : Request) (s : State), s.ready → s.store.copy = none → s.store.swapPending = false →
    ∃ t, exec (.copyBank r) s = .next t ∧
      t = { s with ring := s.repliedRing 3 r ⟨.accepted, {}⟩, store := t.store } ∧
      (∀ n, t.store.bank n = s.store.bank n) ∧ t.store.copy ≠ none ∧
      t.store.stateOf s.store.active.other = .edited ∧
      t.store.stateOf s.store.active = s.store.stateOf s.store.active ∧
      t.store.active = s.store.active ∧ t.store.swapPending = false) ∧
  (∀ (r : Request) (s : State), s.ready → s.store.copy ≠ none →
    exec (.copyBank r) s = .next { s with ring := s.repliedRing 3 r ⟨.busy, {}⟩ }) ∧
  (∀ (r : Request) (s : State), s.ready → s.store.copy = none → s.store.swapPending = true →
    exec (.copyBank r) s = .next { s with ring := s.repliedRing 3 r ⟨.swapPending, {}⟩ }) ∧
  (∀ s : State, s.store.copy ≠ none →
    ∃ t, exec .copyCompletion s = .next t ∧ t = { s with store := t.store } ∧
      (∀ n, t.store.bank n = s.store.bank s.store.active) ∧ t.store.copy = none ∧
      t.store.stateOf s.store.active.other = .valid ∧
      t.store.stateOf s.store.active = s.store.stateOf s.store.active ∧
      t.store.active = s.store.active ∧ t.store.swapPending = s.store.swapPending)

/-- SWAP_BANKS answers BUSY during a copy, SWAP_PENDING with a swap pending, and else makes four checks of the shadow, of
which the first that fails gives the reply. CURVE_ORDER: every in-use record has strictly ascending curves; table 1 or 2
and the group of the first point that does not ascend. LIMITS: every in-use record passes the five limits tests; table and
index of the first that fails. PAIR_CONFLICT: no active slot of the pair table conflicts; table 3 and the first slot that
does. STRUCTURE: every channel not in OFF keeps its structure; the group of the field, or the slot, of the first that does
not. When all pass it is ACCEPTED and sets the swap-pending mark alone; in every other case nothing changes. That LIMITS
takes all five tests of a channel before the next channel, and STRUCTURE the membership of a channel before the next one's
fields, is the model's reading (logs 21, 38). -/
def Obligations.SwapBanksChecksTheShadow : Prop :=
  ∀ (r : Request) (s : State), s.ready →
    let b := s.shadow
    let no := fun (x : Status) (tab idx : Nat) => exec (.swapBanks r) s = .next { s with
      ring := s.repliedRing 4 r ⟨x, { w0 := BitVec.ofNat 16 tab, w1 := BitVec.ofNat 16 idx }⟩ }
    let derateXs := fun c => (b.deratePoints c).map (·.1)
    let fwXs := fun c => (b.fwPoints c).map (·.1)
    let ascend : Chan → Prop := fun c => (derateXs c).Pairwise (· < ·) ∧ (fwXs c).Pairwise (· < ·)
    let inRange : Int × Int → Prop := fun p => 1 ≤ p.2 ∧ p.2 ≤ 32767
    let fields : Chan → Prop := fun c =>
      (∀ x ∈ (b.record c).groupsInUse, x = true) ∧ ∀ p ∈ b.deratePoints c, inRange p
    let volts : Chan → Prop := fun c =>
      (b.record c).uUnder < (b.record c).uNominal ∧ (b.record c).uNominal < (b.record c).uOver
    let within : Chan → Prop := fun c => fields c ∧
      (b.record c).iMax ≤ (b.record c).iTrip ∧ volts c ∧ (b.record c).indexExpect < (b.record c).cpr
    let pairOk : Fin 4 → Prop := fun k => (b.pairEntry k).active = true →
      let e := b.pairEntry k
      e.leader ≠ e.follower ∧ (b.record e.leader).inUse = true ∧ (b.record e.follower).inUse = true ∧
      (b.record e.leader).cpr = (b.record e.follower).cpr ∧
      (b.record e.leader).shifted = (b.record e.follower).shifted ∧
      ∀ j < k, (b.pairEntry j).active = true →
        (b.pairEntry j).leader ≠ e.leader ∧ (b.pairEntry j).leader ≠ e.follower ∧
        (b.pairEntry j).follower ≠ e.leader ∧ (b.pairEntry j).follower ≠ e.follower
    let headSame : Chan → Prop := fun c => (b.record c).inUse = (s.record c).inUse ∧
      (b.record c).shifted = (s.record c).shifted ∧ (b.record c).indexMode = (s.record c).indexMode
    let shaftSame : Chan → Prop := fun c => (b.record c).cpr = (s.record c).cpr ∧
      (b.record c).polePairs = (s.record c).polePairs ∧ (b.record c).angleOffset = (s.record c).angleOffset
    let kept : Chan → Prop := fun c => s.st c ≠ .off → headSame c ∧ shaftSame c ∧ b.role c = s.role c
    let asked : Prop := s.store.copy = none ∧ s.store.swapPending = false
    let curves : Prop := asked ∧ ∀ c, (b.record c).inUse = true → ascend c
    let limits : Prop := curves ∧ ∀ c, (b.record c).inUse = true → within c
    let pairs : Prop := limits ∧ ∀ k, pairOk k
    (s.store.copy ≠ none → exec (.swapBanks r) s = .next { s with ring := s.repliedRing 4 r ⟨.busy, {}⟩ }) ∧
    (s.store.copy = none → s.store.swapPending = true →
      exec (.swapBanks r) s = .next { s with ring := s.repliedRing 4 r ⟨.swapPending, {}⟩ }) ∧
    (asked → ∀ c, (b.record c).inUse = true → (∀ d < c, (b.record d).inUse = true → ascend d) → ∀ k,
      ((derateXs c).take k).Pairwise (· < ·) → ¬((derateXs c).take (k + 1)).Pairwise (· < ·) →
      no .curveOrder 1 (c.val * 4 + k / 2)) ∧
    (asked → ∀ c, (b.record c).inUse = true → (∀ d < c, (b.record d).inUse = true → ascend d) → ∀ k,
      (derateXs c).Pairwise (· < ·) →
      ((fwXs c).take k).Pairwise (· < ·) → ¬((fwXs c).take (k + 1)).Pairwise (· < ·) →
      no .curveOrder 2 (c.val * 8 + k / 2)) ∧
    (asked → ¬curves → ∃ tab idx, no .curveOrder tab idx) ∧
    (curves → ∀ c, (b.record c).inUse = true → (∀ d < c, (b.record d).inUse = true → within d) →
      (∀ g, (∀ x ∈ (b.record c).groupsInUse.take g, x = true) → (b.record c).groupsInUse[g]? = some false →
        no .limits 0 (c.val * 8 + g)) ∧
      ((∀ x ∈ (b.record c).groupsInUse, x = true) → ∀ k, (∀ p ∈ (b.deratePoints c).take k, inRange p) →
        ¬(∀ p ∈ (b.deratePoints c).take (k + 1), inRange p) → no .limits 1 (c.val * 4 + k / 2)) ∧
      (fields c → (b.record c).iTrip < (b.record c).iMax → no .limits 0 (c.val * 8 + 2)) ∧
      (fields c → (b.record c).iMax ≤ (b.record c).iTrip → ¬volts c → no .limits 0 (c.val * 8 + 5)) ∧
      (fields c → (b.record c).iMax ≤ (b.record c).iTrip → volts c →
        (b.record c).cpr ≤ (b.record c).indexExpect → no .limits 0 (c.val * 8 + 7))) ∧
    (curves → ¬limits → ∃ tab idx, no .limits tab idx) ∧
    (limits → ∀ k, (∀ j < k, pairOk j) → ¬pairOk k → no .pairConflict 3 (2 * k.val)) ∧
    (pairs → ∀ c, s.st c ≠ .off → (∀ d < c, kept d) →
      (¬headSame c → no .structure' 0 (c.val * 8)) ∧
      (headSame c → ¬shaftSame c → no .structure' 0 (c.val * 8 + 6)) ∧
      (headSame c → shaftSame c → b.role c ≠ s.role c → ∀ k : Fin 4,
        (s.role c).slot = some k ∨ ((s.role c).slot = none ∧ (b.role c).slot = some k) →
        no .structure' 3 (2 * k.val))) ∧
    (pairs → ¬(∀ c, kept c) → ∃ tab idx, no .structure' tab idx) ∧
    (pairs → (∀ c, kept c) → exec (.swapBanks r) s = .next { s with
      ring := s.repliedRing 4 r ⟨.accepted, {}⟩, store := { s.store with swapPending := true } })

/-- SWAP_EFFECT of a pending swap for which every channel not in OFF keeps its structure: the shadow is active and VALID,
the old active bank is the shadow with its contents and state, no swap is pending; BANK_SWAP_DONE is raised by the new
routes; a counter whose effective cpr changed is reduced and loses its captured counts, any other stays; the charge count of a
follower by the new pair table is its leader's (log 39), any other stays. Where a channel not in OFF differs between the two
banks in its record's in_use, interleave, index_mode, cpr, pole_pairs or angle_offset or in its pair membership, nothing swaps
and the swap stays pending: nothing changes. Nor does it with no swap pending. That SWAP_EFFECT can be sent alone, outside a
SYNC arrival, is the model's choice (log 2), as is that it then changes nothing with no swap pending (log 11). -/
def Obligations.SwapEffectExchangesBanks : Prop :=
  (∀ s : State,
    let b := s.shadow
    let keeps : Chan → Prop := fun c => (b.record c).inUse = (s.record c).inUse ∧
      (b.record c).shifted = (s.record c).shifted ∧ (b.record c).indexMode = (s.record c).indexMode ∧
      (b.record c).cpr = (s.record c).cpr ∧ (b.record c).polePairs = (s.record c).polePairs ∧
      (b.record c).angleOffset = (s.record c).angleOffset ∧ b.role c = s.role c
    (s.structureFault = none ↔ ∀ c, s.st c ≠ .off → keeps c) ∧
    (s.store.swapPending = true → ∀ c, s.st c ≠ .off → ¬keeps c → exec .swapEffect s = .next s)) ∧
  (∀ s : State, s.store.swapPending = true → s.structureFault = none →
    ∃ t, exec .swapEffect s = .next t ∧
      t = { s with store := t.store, pos := t.pos, sup := t.sup, mods := t.mods, router := t.router } ∧
      t.bank = s.shadow ∧ t.shadow = s.bank ∧ t.store.active = s.store.active.other ∧
      t.store.stateOf t.store.active = .valid ∧
      t.store.stateOf s.store.active = s.store.stateOf s.store.active ∧
      t.store.swapPending = false ∧ t.store.copy = s.store.copy ∧
      t.devFlag .bankSwapDone = { isSet := true, count := min 65535 ((s.devFlag .bankSwapDone).count + 1) } ∧
      t.router.lines = t.linesNow ∧
      (s.shadow.devTripClass .bankSwapDone = false →
        (∀ c, t.mods.get c = s.mods.get c ∧ t.router.trips.get c = s.router.trips.get c ∧
          (t.st c = s.st c ∨ (s.st c = .run ∧ t.st c = .hold)))) ∧
      (∀ c k p, s.shadow.role c = .follower k p → (t.sup.get c).chargeCount = (s.sup.get p).chargeCount) ∧
      (∀ c, (s.shadow.role c).isFollower = false → (t.sup.get c).chargeCount = (s.sup.get c).chargeCount) ∧
      ∀ c, let old := if (s.record c).inUse = true then (s.record c).cpr else 16777216
        let new := if (s.shadow.record c).inUse = true then (s.shadow.record c).cpr else 16777216
        (old = new → t.pos.get c = s.pos.get c) ∧
        (old ≠ new → t.pos.get c = { s.pos.get c with fine := (t.pos.get c).fine, captured := none } ∧
          (t.pos.get c).fine = if (s.pos.get c).fine < new then (s.pos.get c).fine else (s.pos.get c).fine % new)) ∧
  (∀ s : State, s.store.swapPending = false → exec .swapEffect s = .next s)

/-! ### Timebase settings and status -/

/-- CONFIGURE: refused with STATE while a channel is in CHARGE, RUN, HOLD or STOPPING, then with RANGE for a value out of
its range. Otherwise OK: target position, lock window, slew limit and loss limit are in force at once; a D, P or N
that differs leaves all three pending, equal ones leave none pending; a new target position frees the lock; the rest
of the timebase runs on. -/
def Obligations.ConfigureWritesSettings : Prop :=
  ∀ (r : Request) (s : State), s.ready → r.target = 255 →
    let p := r.w0.toNat
    let n := r.index.toNat
    let qt := r.w1.toNat
    let window := r.w2.toNat % 1024
    let slew := r.w2.toNat / 2048
    let d := r.w3.toNat / 256
    let loss := r.w3.toNat % 256
    let ranges : Prop := 2000 ≤ p ∧ p ≤ 32767 ∧ 1 ≤ n ∧ n ≤ 8 ∧ 1 ≤ window ∧ window ≤ 1000 ∧ slew ≤ 16 ∧ 2 ≤ loss
    let busy : Prop := ∃ c, s.st c = .charge ∨ s.st c = .run ∨ s.st c = .hold ∨ s.st c = .stopping
    (busy → exec (.configure r) s = .next { s with ring := s.repliedRing 5 r ⟨.state, {}⟩ }) ∧
    (¬busy → ¬ranges → exec (.configure r) s = .next { s with ring := s.repliedRing 5 r ⟨.range, {}⟩ }) ∧
    (¬busy → ranges → ∃ t, exec (.configure r) s = .next t ∧
      t = { s with ring := s.repliedRing 5 r ⟨.ok, {}⟩, tb := t.tb } ∧
      t.tb = { s.tb with
        set := { s.tb.set with qt := qt, lockWindow := window, slewMax := slew, lossLimit := loss },
        pend := t.tb.pend, lock := t.tb.lock, acquire := t.tb.acquire } ∧
      (d = s.tb.set.d ∧ p = s.tb.set.p ∧ n = s.tb.set.n → t.tb.pend = none) ∧
      (d ≠ s.tb.set.d ∨ p ≠ s.tb.set.p ∨ n ≠ s.tb.set.n → t.tb.pend = some ⟨d, p, n⟩) ∧
      (qt = s.tb.set.qt → t.tb.lock = s.tb.lock ∧ t.tb.acquire = s.tb.acquire) ∧
      (qt ≠ s.tb.set.qt → t.tb.lock = .free ∧ t.tb.acquire = 0))

/-- READ_STATUS answers OK with the group that the index names, of the channel or of the device, or BAD_TARGET with data
words of 0 where it names none: indexes 0 to 16 name groups of a channel, 0 to 7 of the device. The state group of a
follower has its taken cycle number absent. It changes no state. -/
def Obligations.ReadStatusChangesNothing : Prop :=
  ∀ (r : Request) (s : State), s.ready →
    ∃ x : Reply, exec (.readStatus r) s = .next { s with ring := s.repliedRing 6 r x } ∧
      (∀ c : Chan, r.target.toNat = c.val →
        (r.index.toNat ≤ 16 → x.status = .ok ∧ s.chanGroup c r.index.toNat = some x.data) ∧
        (16 < r.index.toNat → x = ⟨.badTarget, {}⟩)) ∧
      (r.target.toNat = 255 →
        (r.index.toNat ≤ 7 → x.status = .ok ∧ s.devGroup r.index.toNat = some x.data) ∧
        (7 < r.index.toNat → x = ⟨.badTarget, {}⟩)) ∧
      (r.target.toNat = 255 → r.index.toNat = 5 →
        x.data = ⟨BitVec.ofNat 16 s.tb.set.p, BitVec.ofNat 16 s.tb.set.qt, BitVec.ofNat 16 s.tb.set.d,
          BitVec.ofNat 16 s.tb.set.n⟩) ∧
      (∀ c : Chan, r.target.toNat = c.val → r.index.toNat = 0 → (s.role c).isFollower = true →
        x.data.w1.getLsbD 15 = false ∧ x.data.w2 = 0) ∧
      (∀ c : Chan, r.target.toNat = c.val → r.index.toNat = 12 →
        x.data.w0.toNat * 65536 + x.data.w1.toNat = (s.pos.get c).fine % 4294967296 ∧
          x.data.w2 = (s.pos.get c).rev)

/-- The words of every status group, bit by bit: the state, flags and kept conditions, occurrence counts, trip record, counts,
filtered levels and last run of a channel; the lock, banks and fault lines, ring port, flags, settings and pending settings
of the device; with the codes of the states, the lock, the banks and the levels. A mark for each kind, its order that of
the kind codes. The trip-class marks stand for every trip-class kind, its flag set or clear (the model's reading, log 20),
and fault line FL0 stands at bit 0 and FL3 at bit 3 (the model's reading, log 40). -/
def Obligations.StatusGroupLayout : Prop :=
  let w : Nat → Word := BitVec.ofNat 16
  let i : Int → Word := BitVec.ofInt 16
  let bit : Bool → Nat := fun x => if x = true then 1 else 0
  let level : Option Bool → Nat := fun x => if x = some false then 0 else if x = some true then 1 else 2
  let kinds : List ChanKind := [.overcurrent, .bridgeFault, .comparesStale, .sampleDisagree, .sampleMissing,
    .sampleOverrun, .loopLate, .voltSat, .currentLimit, .undervolt, .overvolt, .overtemp, .encoderFault,
    .indexMismatch, .setpointStale, .setpointOverrun]
  let devKinds : List DevKind := [.ringLoss, .cellCrc, .carrierUnlock, .extInhibit, .bankSwapDone]
  ([ChanState.off, .charge, .run, .hold, .stopping, .trip].map ChanState.code = [0, 1, 2, 3, 4, 5] ∧
    [Lock.free, .acquire, .locked].map Lock.code = [0, 1, 2] ∧
    [BankState.empty, .edited, .valid].map BankState.code = [0, 1, 2] ∧
    kinds.map ChanKind.code = [1, 2, 3, 4, 5, 6, 7, 8, 9, 10, 11, 12, 13, 14, 15, 16] ∧ ChanKind.code .pairSkew = 17 ∧
    devKinds.map DevKind.code = [18, 19, 20, 21, 22]) ∧
  (∀ (c : Chan) (s : State),
    let u := s.sup.get c
    let taken : Option Word := if (s.role c).isFollower then none else (s.refs.get c).ref.takenCycle
    let k := s.router.kept.get c
    let n := fun j => w (s.chanFlag c j).count
    let p := s.pos.get c
    let l := (s.loop.get c).last
    s.chanGroup c 0 = some
      ⟨w (u.st.code + 16 * bit u.causes.routed + 32 * bit u.causes.ring + 64 * bit u.causes.stale + 256 * bit u.setSeen +
          4096 * u.missed),
        w (u.chargeCount + 256 * (s.mods.get c).stale + 4096 * bit (s.refs.get c).mailbox.isSome +
          32768 * bit taken.isSome),
        taken.getD 0, 0⟩ ∧
    (∃ g, s.chanGroup c 1 = some g ∧
      (∀ (j : Nat) (x : ChanKind), kinds[j]? = some x →
        g.w0.getLsbD j = (s.chanFlag c x).isSet ∧ g.w2.getLsbD j = s.bank.chanTripClass x) ∧
      g.w1 = w (bit (s.chanFlag c .pairSkew).isSet + 256 * bit k.bridgeFault + 512 * bit k.undervolt +
        1024 * bit k.overvolt + 2048 * bit k.overtemp + 4096 * bit k.pairSkew) ∧
      g.w3 = w (bit (s.bank.chanTripClass .pairSkew))) ∧
    s.chanGroup c 2 = some ⟨n .overcurrent, n .bridgeFault, n .comparesStale, n .sampleDisagree⟩ ∧
    s.chanGroup c 3 = some ⟨n .sampleMissing, n .sampleOverrun, n .loopLate, n .voltSat⟩ ∧
    s.chanGroup c 4 = some ⟨n .currentLimit, n .undervolt, n .overvolt, n .overtemp⟩ ∧
    s.chanGroup c 5 = some ⟨n .encoderFault, n .indexMismatch, n .setpointStale, n .setpointOverrun⟩ ∧
    s.chanGroup c 6 = some ⟨n .pairSkew, 0, 0, 0⟩ ∧
    (s.router.trips.get c = none → ∀ j, 7 ≤ j → j ≤ 11 → s.chanGroup c j = some ⟨0, 0, 0, 0⟩) ∧
    (∀ x, s.router.trips.get c = some x →
      let via : Nat := match x.via with | .self => 0 | .partner q => 64 + 8 + q.val | .all => 128
      let entry : Nat → Word × Word := fun j =>
        ((x.secondary[j]?.map fun e => w e.code).getD 0, (x.secondary[j]?.map fun e => e.cycle).getD 0)
      s.chanGroup c 7 = some ⟨w (via + 256 * x.cause + 32768), x.cycle, w (x.before.code + 16 * x.secondary.length),
        w x.overflow⟩ ∧
      s.chanGroup c 8 = some ⟨i x.snapshot.iA, i x.snapshot.iB, i x.snapshot.id, i x.snapshot.iq⟩ ∧
      s.chanGroup c 9 = some ⟨w x.snapshot.theta, w x.snapshot.dc, w x.snapshot.temp, 0⟩ ∧
      s.chanGroup c 10 = some ⟨(entry 0).1, (entry 0).2, (entry 1).1, (entry 1).2⟩ ∧
      s.chanGroup c 11 = some ⟨(entry 2).1, (entry 2).2, 0, 0⟩) ∧
    s.chanGroup c 12 = some ⟨w (p.fine / 65536), w p.fine, p.rev,
      w (level p.fa.level + 4 * level p.fb.level + 16 * level p.fz.level)⟩ ∧
    (p.latched = none → s.chanGroup c 13 = some ⟨0, 0, 0, 0⟩) ∧
    (∀ x, p.latched = some x → s.chanGroup c 13 = some ⟨w (x.fine / 65536), w x.fine, x.rev, 1⟩) ∧
    (p.captured = none → s.chanGroup c 14 = some ⟨0, 0, 0, w (p.captures + 256 * bit p.armed)⟩) ∧
    (∀ x, p.captured = some x → s.chanGroup c 14 = some ⟨w (x.fine / 65536), w x.fine, x.rev,
      w (p.captures + 256 * bit p.armed + 512)⟩) ∧
    s.chanGroup c 15 = some ⟨i l.iA, i l.iB, i l.id, i l.iq⟩ ∧
    s.chanGroup c 16 = some ⟨w l.theta, w l.dc, w l.temp,
      w (bit l.completed + 2 * bit l.control + 4 * bit l.currentLimited + 8 * bit l.voltageLimited)⟩) ∧
  (∀ s : State,
    let t := s.tb
    let n := fun j => w (s.devFlag j).count
    s.devGroup 0 = some
      ⟨w (t.lock.code + 4 * t.acquire + 32 * bit (decide (s.store.active = .b)) + 64 * s.store.stA.code +
          256 * s.store.stB.code + 1024 * bit s.store.swapPending + 2048 * bit s.store.copy.isSome +
          4096 * bit (decide (t.inh.level ≠ some false))),
        w s.router.lines.toNat, 0, 0⟩ ∧
    s.devGroup 1 = some ⟨s.ring.lastCycle, w (s.ring.address.toNat + 256), w t.lossCount, w (bit t.lossMark)⟩ ∧
    (∃ g, s.devGroup 2 = some g ∧
      (∀ (j : Nat) (x : DevKind), devKinds[j]? = some x →
        g.w0.getLsbD j = (s.devFlag x).isSet ∧ g.w2.getLsbD j = s.bank.devTripClass x) ∧
      g.w0.toNat < 32 ∧ g.w2.toNat < 32 ∧ g.w3 = 0 ∧
      g.w1 = w (bit s.router.devKept.ringLoss + 2 * bit s.router.devKept.extInhibit)) ∧
    s.devGroup 3 = some ⟨n .ringLoss, n .cellCrc, n .carrierUnlock, n .extInhibit⟩ ∧
    s.devGroup 4 = some ⟨n .bankSwapDone, 0, 0, 0⟩ ∧
    s.devGroup 5 = some ⟨w t.set.p, w t.set.qt, w t.set.d, w t.set.n⟩ ∧
    s.devGroup 6 = some ⟨w t.set.lockWindow, w t.set.slewMax, w t.set.lossLimit, 0⟩ ∧
    (t.pend = none → s.devGroup 7 = some ⟨0, 0, 0, 0⟩) ∧
    (∀ x, t.pend = some x → s.devGroup 7 = some ⟨1, w x.d, w x.p, w x.n⟩))

/-! ### Channel supervisor requests -/

/-- ENABLE of a channel that is no follower, in OFF, with its parameters and no trip-class flag near, is ACCEPTED: the
channel and a follower of it enter CHARGE with counts, causes, integrators, VOLT_SAT count, mailbox, reference state
and stale count cleared, pending compares discarded and all gates off; a run executing for one of the two is marked, so that it
keeps what the entry cleared; everything else is as it was.

ENABLE refused: the checks of its table in their order, the first that fails giving PAIRED, STATE, NO_PARAMS or FLAGS,
and nothing but the ring port's slot changes. The parameters are there where the record is in use and, with a swap pending,
the channel and a follower of it are in use in the shadow with the same interleave, index_mode, cpr, pole_pairs,
angle_offset and pair membership in both banks. A flag near is a set trip-class flag of the target, of its partner or of the
device: of a kind whose fixed action or route trips. -/
def Obligations.EnableChecksAndEntersCharge : Prop :=
  let paramsOf : State → Chan → Prop := fun s c =>
    let b := s.shadow
    let serves : Chan → Prop := fun d => (b.record d).inUse = true ∧ (s.record d).inUse = true ∧
      (b.record d).shifted = (s.record d).shifted ∧ (b.record d).indexMode = (s.record d).indexMode ∧
      (b.record d).cpr = (s.record d).cpr ∧ (b.record d).polePairs = (s.record d).polePairs ∧
      (b.record d).angleOffset = (s.record d).angleOffset ∧ b.role d = s.role d
    (s.record c).inUse = true ∧
      (s.store.swapPending = true → serves c ∧ ∀ p, (s.role c).partner = some p → serves p)
  let flagged : State → Chan → Prop := fun s c => ∃ k, (s.chanFlag c k).isSet = true ∧
    (k = .overcurrent ∨ k = .bridgeFault ∨ k = .comparesStale ∨ (s.bank.route k.code).tripSelf = true ∨
      (s.bank.route k.code).tripAll = true)
  let flagNear : State → Chan → Prop := fun s c =>
    flagged s c ∨ (∃ p, (s.role c).partner = some p ∧ flagged s p) ∨
      ∃ k, (s.devFlag k).isSet = true ∧ (k = .extInhibit ∨ (s.bank.route k.code).tripSelf = true ∨
        (s.bank.route k.code).tripAll = true)
  (∀ (r : Request) (s : State) (c : Chan), s.ready → r.target.toNat = c.val →
     (s.role c).isFollower = false → s.st c = .off → paramsOf s c → ¬flagNear s c →
     ∃ t, exec (.enable r) s = .next t ∧
       t = { s with ring := s.repliedRing 7 r ⟨.accepted, {}⟩, sup := t.sup, mods := t.mods, loop := t.loop,
                    refs := t.refs, engine := t.engine } ∧
       t.engine = { queue := s.engine.queue
                    running := s.engine.running.map fun x =>
                      if x.entry.chan = c ∨ (s.role c).partner = some x.entry.chan then { x with chargeEntered := true }
                      else x } ∧
       ∀ d,
         (d = c ∨ (s.role c).partner = some d →
           t.sup.get d = { s.sup.get d with st := .charge, causes := {}, chargeCount := 0, missed := 0 } ∧
           (t.mods.get d).drive = false ∧ (t.mods.get d).pending = none ∧ (t.mods.get d).stale = 0 ∧
           (t.mods.get d).active = (s.mods.get d).active ∧
           (t.mods.get d).deadTime = (s.mods.get d).deadTime ∧ (t.mods.get d).dark ∧
           t.loop.get d = { s.loop.get d with accD := 0, accQ := 0, vsat := 0 } ∧ t.refs.get d = {}) ∧
         (d ≠ c → (s.role c).partner ≠ some d →
           t.sup.get d = s.sup.get d ∧ t.mods.get d = s.mods.get d ∧ t.loop.get d = s.loop.get d ∧
           t.refs.get d = s.refs.get d)) ∧
  (∀ (r : Request) (s : State) (c : Chan), s.ready → r.target.toNat = c.val →
     let no := fun x : Status => exec (.enable r) s = .next { s with ring := s.repliedRing 7 r ⟨x, {}⟩ }
     ((s.role c).isFollower = true → no .paired) ∧
     ((s.role c).isFollower = false → s.st c ≠ .off → no .state) ∧
     ((s.role c).isFollower = false → s.st c = .off → ¬paramsOf s c → no .noParams) ∧
     ((s.role c).isFollower = false → s.st c = .off → paramsOf s c → flagNear s c → no .flags))

/-- DISABLE: in CHARGE, RUN and HOLD it is ACCEPTED and the channel and a follower of it enter STOPPING, causes emptied,
missed count 0, pending compares discarded, gate state, active compares and gate lines kept; in OFF and STOPPING it is
answered OK, in TRIP STATE, for a follower PAIRED, each without a change. -/
def Obligations.DisableEntersStopping : Prop :=
  ∀ (r : Request) (s : State) (c : Chan), s.ready → r.target.toNat = c.val →
    let no := fun x : Status => exec (.disable r) s = .next { s with ring := s.repliedRing 8 r ⟨x, {}⟩ }
    ((s.role c).isFollower = true → no .paired) ∧
    ((s.role c).isFollower = false → s.st c = .off ∨ s.st c = .stopping → no .ok) ∧
    ((s.role c).isFollower = false → s.st c = .trip → no .state) ∧
    ((s.role c).isFollower = false → s.st c = .charge ∨ s.st c = .run ∨ s.st c = .hold →
      ∃ t, exec (.disable r) s = .next t ∧
        t = { s with ring := s.repliedRing 8 r ⟨.accepted, {}⟩, sup := t.sup, mods := t.mods } ∧
        ∀ d,
          (d = c ∨ (s.role c).partner = some d →
            t.sup.get d = { s.sup.get d with st := .stopping, causes := {}, missed := 0 } ∧
            t.mods.get d = { s.mods.get d with pending := none }) ∧
          (d ≠ c → (s.role c).partner ≠ some d →
            t.sup.get d = s.sup.get d ∧ t.mods.get d = s.mods.get d))

/-! ### Event router requests -/

/-- ACK of a channel acts on the named flags together: a clear flag is ignored, a set flag of an occurrence kind or of a
level kind whose condition is absent is cleared with its count, a set flag whose condition is present stays; flags not
named, the kept conditions and the flags of the device stay. The reply is STILL_ACTIVE exactly when a named flag stays
set. The device target does the same for the device kinds. The level kinds are BRIDGE_FAULT, UNDERVOLT, OVERVOLT, OVERTEMP,
PAIR_SKEW, RING_LOSS and EXT_INHIBIT; no other kind has a condition. A mask names kind k by bit k - 1 of word 0 for kinds 1 to 16, and
kinds 17 to 22 by bits 0 to 5 of word 1. -/
def Obligations.AckClearsNamedFlags : Prop :=
  (∀ (r : Request) (k : ChanKind), r.ackNames k.code =
    if k = .pairSkew then r.w1.toNat.testBit 0 else r.w0.toNat.testBit (k.code - 1)) ∧
  (∀ (r : Request) (k : DevKind), r.ackNames k.code = r.w1.toNat.testBit (k.code - 17)) ∧
  (∀ (s : State) (c : Chan) (k : ChanKind), let x := s.router.kept.get c
    s.chanHeld c k = true ↔ (k = .bridgeFault ∧ x.bridgeFault = true) ∨ (k = .undervolt ∧ x.undervolt = true) ∨
      (k = .overvolt ∧ x.overvolt = true) ∨ (k = .overtemp ∧ x.overtemp = true) ∨
      (k = .pairSkew ∧ x.pairSkew = true)) ∧
  (∀ (s : State) (k : DevKind), s.devHeld k = true ↔
    (k = .ringLoss ∧ s.router.devKept.ringLoss = true) ∨ (k = .extInhibit ∧ s.router.devKept.extInhibit = true)) ∧
  (∀ (r : Request) (s : State) (c : Chan), s.ready → r.target.toNat = c.val →
    ∃ t x, exec (.ack r) s = .next t ∧ t.ring = s.repliedRing 9 r ⟨x, {}⟩ ∧
      t = { s with ring := t.ring, sup := t.sup, router := t.router } ∧
      t.router.kept = s.router.kept ∧ t.router.devKept = s.router.devKept ∧ t.router.dev = s.router.dev ∧
      (∀ k,
        (r.ackNames k.code = false → t.chanFlag c k = s.chanFlag c k) ∧
        (r.ackNames k.code = true → (s.chanFlag c k).isSet = true → s.chanHeld c k = true →
          t.chanFlag c k = s.chanFlag c k) ∧
        (r.ackNames k.code = true → (s.chanFlag c k).isSet = true → s.chanHeld c k = false →
          t.chanFlag c k = { isSet := false, count := 0 }) ∧
        (r.ackNames k.code = true → (s.chanFlag c k) = {} → t.chanFlag c k = {})) ∧
      (∀ d k, d ≠ c → t.chanFlag d k = s.chanFlag d k) ∧
      (x = .ok ∨ x = .stillActive) ∧
      (x = .stillActive ↔ ∃ k, r.ackNames k.code = true ∧ (t.chanFlag c k).isSet = true)) ∧
  (∀ (r : Request) (s : State), s.ready → r.target.toNat = 255 →
    ∃ t x, exec (.ack r) s = .next t ∧ t.ring = s.repliedRing 9 r ⟨x, {}⟩ ∧
      t = { s with ring := t.ring, sup := t.sup, router := t.router } ∧
      t.router.kept = s.router.kept ∧ t.router.devKept = s.router.devKept ∧
      t.router.flags = s.router.flags ∧
      (∀ k,
        (r.ackNames k.code = false → t.devFlag k = s.devFlag k) ∧
        (r.ackNames k.code = true → (s.devFlag k).isSet = true → s.devHeld k = true →
          t.devFlag k = s.devFlag k) ∧
        (r.ackNames k.code = true → (s.devFlag k).isSet = true → s.devHeld k = false →
          t.devFlag k = { isSet := false, count := 0 }) ∧
        (r.ackNames k.code = true → (s.devFlag k) = {} → t.devFlag k = {})) ∧
      (x = .ok ∨ x = .stillActive) ∧
      (x = .stillActive ↔ ∃ k, r.ackNames k.code = true ∧ (t.devFlag k).isSet = true))

/-- After every ACK that is taken, whatever its target and mask, by the flags as the ACK left them: a channel in TRIP with
no trip-class flag left on it, on its partner or on the device leaves for OFF and loses its trip record, any other
channel in TRIP stays; a channel in HOLD, no set flag holding it or its partner by a route, loses ROUTED; no other
channel changes; the fault lines are judged. A kind is trip-class where its fixed action trips, OVERCURRENT, BRIDGE_FAULT,
COMPARES_STALE and EXT_INHIBIT, or its route trips self or all. A flag holds a channel where its route holds all, or, its own
or the device's, holds self. -/
def Obligations.AckReleasesChannels : Prop :=
  (∀ (b : Bank) (k : ChanKind), b.chanTripClass k = true ↔ k = .overcurrent ∨ k = .bridgeFault ∨ k = .comparesStale ∨
    (b.route k.code).tripSelf = true ∨ (b.route k.code).tripAll = true) ∧
  (∀ (b : Bank) (k : DevKind), b.devTripClass k = true ↔
    k = .extInhibit ∨ (b.route k.code).tripSelf = true ∨ (b.route k.code).tripAll = true) ∧
  (∀ (s : State) (c : Chan),
    let flagged : Chan → Prop := fun d => ∃ k, (s.chanFlag d k).isSet = true ∧ s.bank.chanTripClass k = true
    let holds : Chan → Prop := fun d =>
      (∃ e k, (s.chanFlag e k).isSet = true ∧ ((s.bank.route k.code).holdAll = true ∨
        (e = d ∧ (s.bank.route k.code).holdSelf = true))) ∨
      ∃ k, (s.devFlag k).isSet = true ∧ ((s.bank.route k.code).holdSelf = true ∨ (s.bank.route k.code).holdAll = true)
    (s.tripFlagNear c = true ↔ flagged c ∨ (∃ p, (s.role c).partner = some p ∧ flagged p) ∨
      ∃ k, (s.devFlag k).isSet = true ∧ s.bank.devTripClass k = true) ∧
    (s.flagHoldsUnit c = true ↔ holds c ∨ ∃ p, (s.role c).partner = some p ∧ holds p) ∧
    (s.anyFlagNear c = true ↔ (∃ k, (s.chanFlag c k).isSet = true) ∨ ∃ k, (s.devFlag k).isSet = true)) ∧
  ∀ (r : Request) (s : State), s.ready → r.target.toNat < 8 ∨ r.target.toNat = 255 →
    ∃ t, exec (.ack r) s = .next t ∧ t.router.lines = t.linesNow ∧ t.bank = s.bank ∧
      ∀ c,
        (s.st c = .trip → t.tripFlagNear c = false →
          t.sup.get c = { s.sup.get c with st := .off } ∧ t.router.trips.get c = none) ∧
        (s.st c = .trip → t.tripFlagNear c = true →
          t.sup.get c = s.sup.get c ∧ t.router.trips.get c = s.router.trips.get c) ∧
        (s.st c = .hold → t.flagHoldsUnit c = false →
          t.sup.get c = { s.sup.get c with causes := { (s.sup.get c).causes with routed := false } }) ∧
        (s.st c = .hold → t.flagHoldsUnit c = true → t.sup.get c = s.sup.get c) ∧
        (s.st c ≠ .trip → t.router.trips.get c = s.router.trips.get c) ∧
        (s.st c ≠ .trip → s.st c ≠ .hold → t.sup.get c = s.sup.get c)

/-! ### Position requests and RESTART -/

/-- SET_COUNT: outside OFF it is refused with STATE, then with RANGE for a fine count not below the effective cpr, the record's, or 2^24 for a record not in use.
Otherwise OK: the counts are written, the captured counts and the speed history removed, the channel's entries and
executing run given the count mark, and its strobe record where its burst has not come; latched counts, capture count
and armed mark stay. That the record of an answered strobe is not marked is the model's reading (log 30).

ARM_INDEX, in every channel state: operation 1 sets the armed mark, removes the captured counts and makes the capture
count 0; operation 0 clears the armed mark and keeps them; any other operation is refused with RANGE. Nothing else
changes. -/
def Obligations.SetCountAndArmIndex : Prop :=
  (∀ (r : Request) (s : State) (c : Chan), s.ready → r.target.toNat = c.val →
    let fine := r.w0.toNat * 65536 + r.w1.toNat
    let cpr := if (s.record c).inUse = true then (s.record c).cpr else 16777216
    let no := fun x : Status => exec (.setCount r) s = .next { s with ring := s.repliedRing 10 r ⟨x, {}⟩ }
    let mark := fun e : Entry =>
      if e.chan = c then { e with strobe := { e.strobe with countMark := true } } else e
    (s.st c ≠ .off → no .state) ∧
    (s.st c = .off → cpr ≤ fine → no .range) ∧
    (s.st c = .off → fine < cpr →
      ∃ t, exec (.setCount r) s = .next t ∧
        t = { s with ring := s.repliedRing 10 r ⟨.ok, {}⟩, pos := t.pos, loop := t.loop, engine := t.engine,
                     lanes := t.lanes } ∧
        t.pos = s.pos.set c { s.pos.get c with fine := fine, rev := r.w2, captured := none } ∧
        t.loop = s.loop.set c { s.loop.get c with history := none } ∧
        t.engine.queue = s.engine.queue.map mark ∧
        t.engine.running = s.engine.running.map (fun x => { x with entry := mark x.entry }) ∧
        (∀ d, d ≠ c → t.lanes.get d = s.lanes.get d) ∧
        ((s.lanes.get c).arrived = true → t.lanes.get c = s.lanes.get c) ∧
        ((s.lanes.get c).arrived = false →
          t.lanes.get c = { s.lanes.get c with
            strobe := (s.lanes.get c).strobe.map fun x => { x with countMark := true } }))) ∧
  ∀ (r : Request) (s : State) (c : Chan), s.ready → r.target.toNat = c.val →
    (r.w0.toNat = 1 → exec (.armIndex r) s = .next { s with
      ring := s.repliedRing 11 r ⟨.ok, {}⟩
      pos := s.pos.set c { s.pos.get c with armed := true, captured := none, captures := 0 } }) ∧
    (r.w0.toNat = 0 → exec (.armIndex r) s = .next { s with
      ring := s.repliedRing 11 r ⟨.ok, {}⟩, pos := s.pos.set c { s.pos.get c with armed := false } }) ∧
    (1 < r.w0.toNat →
      exec (.armIndex r) s = .next { s with ring := s.repliedRing 11 r ⟨.range, {}⟩ })

/-- RESTART, in every state: the timebase, the lanes, the position counters, the banks' pointer and the active bank are
kept; the queue is emptied, a run executing goes on, marked so that its results reach none of these; integrators, VOLT_SAT
counts, pair runtimes, mailboxes and reference states are cleared;
every modulator is in INHIBIT with its gates off; no swap is pending and no copy goes on. With INH_N not low every
channel is in OFF and the router is empty; with INH_N low EXT_INHIBIT stands with a count of 1 and every channel in
use is in TRIP via ALL. How far an abandoned copy had come is a free value (log 14), and the statement leaves the
groups of such a shadow open. -/
def Obligations.RestartClearsBlocks : Prop :=
  ∀ (r : Request) (s : State), s.ready → r.target.toNat = 255 →
    ∃ t, exec (.restart r) s = .next t ∧
      t.ring = s.repliedRing 12 r ⟨.ok, {}⟩ ∧ t.tb = s.tb ∧ t.lanes = s.lanes ∧ t.pos = s.pos ∧
      t.pending = s.pending ∧ t.bank = s.bank ∧ t.store.active = s.store.active ∧
      t.store.swapPending = false ∧ t.store.copy = none ∧
      (s.store.copy = none → t.shadow = s.shadow ∧
        t.store.stateOf s.store.active.other = s.store.stateOf s.store.active.other) ∧
      (s.store.copy ≠ none → t.store.stateOf s.store.active.other = .edited) ∧
      t.engine = { queue := [], running := s.engine.running.map fun x => { x with restarted := true } } ∧
      (∀ k : Fin 4, t.pairs.get k = {}) ∧
      (∀ c,
        t.loop.get c = { s.loop.get c with accD := 0, accQ := 0, vsat := 0 } ∧ t.refs.get c = {} ∧
        (t.mods.get c).drive = false ∧ (t.mods.get c).dark ∧ (t.mods.get c).pending = none ∧
        (t.mods.get c).active = ⟨0, 0, 0⟩ ∧ (t.mods.get c).stale = 0 ∧
        (t.mods.get c).deadTime = (s.mods.get c).deadTime ∧
        (t.sup.get c).causes = {} ∧ (t.sup.get c).chargeCount = 0 ∧ (t.sup.get c).missed = 0 ∧
        (t.sup.get c).setSeen = false ∧ (∀ k, t.chanFlag c k = {})) ∧
      (s.tb.inh.level ≠ some false → t.router = {} ∧ ∀ c, t.st c = .off) ∧
      (s.tb.inh.level = some false →
        t.devFlag .extInhibit = { isSet := true, count := 1 } ∧ t.router.devKept.extInhibit = true ∧
        t.router.lines = t.linesNow ∧ (∀ k, k ≠ .extInhibit → t.devFlag k = {}) ∧
        ∀ c,
          ((s.record c).inUse = true → t.st c = .trip ∧ t.router.trips.get c = some
            { cause := 21, via := .all, cycle := s.ring.lastCycle, before := .off,
              snapshot := (s.loop.get c).last.snapshot }) ∧
          ((s.record c).inUse = false → t.st c = .off ∧ t.router.trips.get c = none))

/-! ### Ring port -/

/-- A SET for a channel: the SET-seen mark is set in every case. In RUN or HOLD, for no follower, an empty mailbox is
filled with the decoded payload and a full one is kept with one SETPOINT_OVERRUN raised; elsewhere the payload is
discarded. The payload is decoded as its rule says: signed iq and id, modes above 2 as ZERO, a limit above 32767 as 0. -/
def Obligations.SetFillsTheMailbox : Prop :=
  ∀ (c : Chan) (p : SetPayload) (s : State), s.ready →
    ∃ t, exec (.setArrival c p) s = .next t ∧ (t.sup.get c).setSeen = true ∧
      (∀ d, d ≠ c → t.refs.get d = s.refs.get d) ∧ (t.refs.get c).ref = (s.refs.get c).ref ∧
      t = { s with ring := t.ring, sup := t.sup, refs := t.refs, mods := t.mods, router := t.router } ∧
      (((s.st c = .run ∨ s.st c = .hold) ∧ (s.role c).isFollower = false ∧ (s.refs.get c).mailbox = none →
        t.sup = s.sup.set c { s.sup.get c with setSeen := true } ∧ t.mods = s.mods ∧ t.router = s.router ∧
        ∃ x, (t.refs.get c).mailbox = some x ∧ x.cycle = p.cycle ∧ x.iq = p.iq.toInt ∧ x.id = p.id.toInt ∧
          x.mode = (if p.mode.toNat = 1 then .given else if p.mode.toNat = 2 then .auto else .zero) ∧
          x.limit = (if p.limit.toNat ≤ 32767 then p.limit.toNat else 0))) ∧
      (((s.st c = .run ∨ s.st c = .hold) ∧ (s.role c).isFollower = false ∧ (s.refs.get c).mailbox ≠ none →
        t.refs = s.refs ∧
        t.chanFlag c .setpointOverrun =
          { isSet := true, count := min 65535 ((s.chanFlag c .setpointOverrun).count + 1) })) ∧
      ((s.st c ≠ .run ∧ s.st c ≠ .hold ∨ (s.role c).isFollower = true →
        t.sup = s.sup.set c { s.sup.get c with setSeen := true } ∧ t.mods = s.mods ∧ t.router = s.router ∧
        t.refs = s.refs))

/-- The RET that replaces a SET: kind 3, the SET's channel, D clear, T set, the station address, a good CRC; the cycle
field of the SET; iq, id, the low 16 bits of the fine count and the speed of the last run, zeros where none has
completed; the state code, lock state and causes in byte 12; the flag marks, limited marks, bank and swap marks in
byte 13; all as they stand after the arrival's own raise. -/
def Obligations.RetCarriesTheChannel : Prop :=
  ∀ (c : Chan) (p : SetPayload) (s : State), s.ready →
    ∃ t x, exec (.setArrival c p) s = .next t ∧ t.ring = s.slotRing (.cell x) ∧
      x.kind = 3 ∧ x.chanField.toNat = c.val ∧ x.damaged = false ∧ x.taken = true ∧
      x.station = s.ring.address.setWidth 8 ∧ x.good = true ∧ x.p0 = p.cycle ∧
      ((s.loop.get c).last.completed = false → x.p1 = 0 ∧ x.p2 = 0 ∧ x.p3 = 0 ∧ x.p4 = 0 ∧
        x.p5.lo.getLsbD 5 = false ∧ x.p5.lo.getLsbD 4 = false) ∧
      ((s.loop.get c).last.completed = true →
        let l := (s.loop.get c).last
        x.p1 = BitVec.ofInt 16 l.iq ∧ x.p2 = BitVec.ofInt 16 l.id ∧ x.p3 = BitVec.ofNat 16 l.fine ∧
          x.p4 = BitVec.ofInt 16 l.delta ∧ x.p5.lo.getLsbD 5 = l.currentLimited ∧
          x.p5.lo.getLsbD 4 = l.voltageLimited) ∧
      x.p5.hi.toNat / 32 = (t.st c).code ∧ x.p5.hi.toNat / 8 % 4 = s.tb.lock.code ∧
      x.p5.hi.getLsbD 2 = (t.sup.get c).causes.stale ∧ x.p5.hi.getLsbD 1 = (t.sup.get c).causes.ring ∧
      x.p5.hi.getLsbD 0 = (t.sup.get c).causes.routed ∧
      x.p5.lo.getLsbD 7 = t.tripFlagNear c ∧ x.p5.lo.getLsbD 6 = t.anyFlagNear c ∧
      x.p5.lo.getLsbD 3 = decide (s.store.active = .b) ∧ x.p5.lo.getLsbD 2 = s.store.swapPending

/-- A bad cell, or one with a byte of unknown value, at a normal station: CELL_CRC is raised once, the cell leaves with D
set, every other bit of bytes 0 to 13 as received, a byte of unknown value as 00h, and a good CRC; nothing in it is acted
on: no mailbox, SET-seen mark, cycle number, setting or bank changes. What a DAMAGED_CELL row stands for is the model's
choice (log 27). -/
def Obligations.BadCellsRaiseCellCrc : Prop :=
  ∀ (x : Cell) (errors : BitVec 16) (s : State), s.ready → errors ≠ 0 ∨ x.good = false →
    ∃ (t : State) (y z : Cell), exec (.damagedCell x errors) s = .next t ∧ t.ring = s.slotRing (.cell y) ∧
      (∀ k, k < 16 → z.bytes[k]? = if errors.getLsbD k then some 0 else x.bytes[k]?) ∧
      y.damaged = true ∧ y.good = true ∧ y.header = z.header ||| 2 ∧
      y = { z with header := y.header, crc := y.crc } ∧
      t = { s with ring := t.ring, sup := t.sup, mods := t.mods, router := t.router } ∧
      (∀ c, (t.sup.get c).setSeen = (s.sup.get c).setSeen) ∧
      t.devFlag .cellCrc = { isSet := true, count := min 65535 ((s.devFlag .cellCrc).count + 1) } ∧
      (∀ k, k ≠ .cellCrc → t.devFlag k = s.devFlag k) ∧
      (s.bank.devTripClass .cellCrc = false → t.router.trips = s.router.trips ∧ t.mods = s.mods)

/-- A control symbol before the sixteenth byte of a cell cuts it: idle symbols leave in its place, CELL_CRC is raised once,
nothing in it is acted on; a start symbol opens a new, empty cell, an idle symbol opens none, and an end symbol is taken
as an idle symbol. A transparent station raises nothing and forwards the cut cell.

A byte outside every cell: an idle symbol leaves and nothing is raised; a transparent station forwards it, but not before
the first start symbol after power-on; ten bits that are no symbol are an idle symbol there. A byte of a cell in progress
joins it, one with a line-code error as 00h; the sixteenth is the arrival of the cell, judged bad if any of its bytes had
such an error.

A cell that comes while another one with a byte in it is in progress does what it does after that one's cut. What these
rows stand for is the model's choice (logs 27, 28). -/
def Obligations.CutCellsAndStrayBytes : Prop :=
  (∀ (got : Nat) (x : RingSymbol) (s : State), s.transparent = false → (s.ring.cell = none → got < 16) →
     ∃ t, exec (.cutCell got x) s = .next t ∧
       t = { s with ring := t.ring, sup := t.sup, mods := t.mods, router := t.router } ∧
       t.ring = { s.slotRing .idle with cell := if x = .startSymbol then some {} else none } ∧
       (∀ c, (t.sup.get c).setSeen = (s.sup.get c).setSeen) ∧
       t.devFlag .cellCrc = { isSet := true, count := min 65535 ((s.devFlag .cellCrc).count + 1) } ∧
       (∀ k, k ≠ .cellCrc → t.devFlag k = s.devFlag k) ∧
       (s.bank.devTripClass .cellCrc = false → t.router.trips = s.router.trips ∧ t.mods = s.mods)) ∧
  (∀ (got : Nat) (x : RingSymbol) (s : State), s.transparent = true → (s.ring.cell = none → got < 16) →
     exec (.cutCell got x) s = .next { s with
       ring := { s.slotRing .unchanged with cell := if x = .startSymbol then some {} else none } }) ∧
  (∀ (b : Option Byte) (s : State), s.ring.cell = none →
     exec (.byteOutsideCell b) s = .next { s with ring := { s.ring with
       out := if s.transparent = true ∧ b ≠ none ∧ s.ring.waitStart = false then .unchanged else .idle } }) ∧
  (∀ (b : Option Byte) (s : State) (p : PartialCell), s.ring.cell = some p →
     (p.bytes.length < 15 → exec (.byteOutsideCell b) s = .next { s with ring := { s.ring with
       cell := some { bytes := p.bytes ++ [b.getD 0], bad := p.bad || decide (b = none) } } }) ∧
     (∀ (x : Cell) (errors : BitVec 16), s.ring.waitStart = false →
       (x.received errors).bytes = p.bytes ++ [b.getD 0] → (errors ≠ 0 ↔ p.bad = true ∨ b = none) →
       exec (.byteOutsideCell b) s = exec (.damagedCell x errors) { s with ring := { s.ring with cell := none } })) ∧
  ∀ (s v : State) (p : PartialCell), s.ring.cell = some p → p.bytes ≠ [] →
    exec (.cutCell 0 .idleSymbol) s = .next v →
    (∀ (r : Request) (k : Byte),
      exec (.readEntry r) s = exec (.readEntry r) v ∧ exec (.writeEntry r) s = exec (.writeEntry r) v ∧
      exec (.copyBank r) s = exec (.copyBank r) v ∧ exec (.swapBanks r) s = exec (.swapBanks r) v ∧
      exec (.configure r) s = exec (.configure r) v ∧ exec (.readStatus r) s = exec (.readStatus r) v ∧
      exec (.enable r) s = exec (.enable r) v ∧ exec (.disable r) s = exec (.disable r) v ∧
      exec (.ack r) s = exec (.ack r) v ∧ exec (.setCount r) s = exec (.setCount r) v ∧
      exec (.armIndex r) s = exec (.armIndex r) v ∧ exec (.restart r) s = exec (.restart r) v ∧
      exec (.badKind k r) s = exec (.badKind k r) v) ∧
    (∀ (c : Chan) (y : SetPayload), exec (.setArrival c y) s = exec (.setArrival c y) v) ∧
    (∀ (x : Cell) (e : BitVec 16), exec (.damagedCell x e) s = exec (.damagedCell x e) v ∧
      exec (.forwardedCell x) s = exec (.forwardedCell x) v) ∧
    ∀ (w : Word) (o : SyncOrder), exec (.syncArrival w 0 o) s = exec (.syncArrival w 0 o) v

/-- A good cell that no case of a station's table acts on leaves unchanged, and nothing else changes: D set, or neither a
SYNC nor a SET or request that names this station with T clear.

A transparent station forwards every cell, whatever it carries, and acts on none: no reply, no mark, no raise, no SYNC
arrival. What a typed row stands for is the model's choice (log 27, 29). -/
def Obligations.CellsForwardedUnchanged : Prop :=
  (∀ (x : Cell) (s : State), s.ready → x.good = true →
     (x.damaged = true ∨
       (x.kind ≠ 1 ∧ ((x.kind ≠ 2 ∧ x.kind ≠ 4) ∨ x.station ≠ s.ring.address.setWidth 8 ∨ x.taken = true))) →
     exec (.forwardedCell x) s = .next { s with ring := s.slotRing .unchanged }) ∧
  (∀ (s : State), s.ring.address = 0 ∨ s.ring.address = 31 →
     let same := Host.Outcome.next (φ := Fault) (ρ := Refusal) { s with ring := s.slotRing .unchanged }
     (∀ (r : Request) (k : Byte),
       exec (.readEntry r) s = same ∧ exec (.writeEntry r) s = same ∧ exec (.copyBank r) s = same ∧
       exec (.swapBanks r) s = same ∧ exec (.configure r) s = same ∧ exec (.readStatus r) s = same ∧
       exec (.enable r) s = same ∧ exec (.disable r) s = same ∧ exec (.ack r) s = same ∧
       exec (.setCount r) s = same ∧ exec (.armIndex r) s = same ∧ exec (.restart r) s = same ∧
       exec (.badKind k r) s = same) ∧
     (∀ (c : Chan) (p : SetPayload), exec (.setArrival c p) s = same) ∧
     (∀ (x : Cell) (e : BitVec 16), exec (.damagedCell x e) s = same ∧ exec (.forwardedCell x) s = same) ∧
     ∀ (w : Word) (n : Nat) (o : SyncOrder), ∃ t, exec (.syncArrival w n o) s = .next t ∧
       t.ring.lastCycle = s.ring.lastCycle ∧ t.tb.lock = s.tb.lock ∧ t.store = s.store ∧
       t.ring.out = .unchanged)

/-- The cells of the ring and the commands agree: a normal station that meets the cell which the encoding of the ring
gives a request of any kind, with its sixteen bytes on the line, does what the command of that kind does; the same for
a SET of any payload. No bit of a request or a SET is dropped or read twice. A cell is good where its last two bytes are
the CRC-16 of the fourteen before them. What a typed row stands for is the
model's choice (log 27, 29). -/
def Obligations.CellsCarryTheirCommands : Prop :=
  ∀ (s : State), s.transparent = false →
    let sent := fun (k : Byte) (r : Request) => exec (.forwardedCell (requestCell s.ring.address k r)) s
    (∀ r : Request,
      sent 1 r = exec (.readEntry r) s ∧ sent 2 r = exec (.writeEntry r) s ∧
      sent 3 r = exec (.copyBank r) s ∧ sent 4 r = exec (.swapBanks r) s ∧
      sent 5 r = exec (.configure r) s ∧ sent 6 r = exec (.readStatus r) s ∧
      sent 7 r = exec (.enable r) s ∧ sent 8 r = exec (.disable r) s ∧ sent 9 r = exec (.ack r) s ∧
      sent 10 r = exec (.setCount r) s ∧ sent 11 r = exec (.armIndex r) s ∧
      sent 12 r = exec (.restart r) s) ∧
    (∀ (k : Byte) (r : Request), k = 0 ∨ 13 ≤ k.toNat → sent k r = exec (.badKind k r) s) ∧
    (∀ (c : Chan) (p : SetPayload),
      exec (.forwardedCell (setCell s.ring.address c p)) s = exec (.setArrival c p) s) ∧
    (crc16 [] = 0xFFFF ∧ ∀ (l : List Byte) (b : Byte), crc16 (l ++ [b]) =
      Nat.repeat (fun x : BitVec 16 => if 32768 ≤ x.toNat then (x <<< 1) ^^^ 0x1021 else x <<< 1) 8
        (crc16 l ^^^ (b.setWidth 16 <<< 8))) ∧
    ∀ x : Cell, x.bytes.length = 16 ∧ Cell.ofBytes x.bytes = some x ∧ x.received 0 = x ∧
      (x.good = true ↔ x.crc = crc16 (x.bytes.take 14))

/-! ### SYNC arrivals and the lock -/

/-- A SYNC arrival at a normal station, in whichever order its actions are taken: the cycle number is recorded, the ring-
loss count is 0 and its mark clear with the RING_LOSS condition absent, no channel holds the RING cause, every SET-
seen mark is clear; the cell goes on unchanged; the queue, the strobes, the counts, the integrators and the mailboxes
are those of the tick of the arrival. A pending swap for which STRUCTURE fails afresh does not take effect: the store, its
swap-pending mark among it, and the counters stay; with every channel in OFF or TRIP, STRUCTURE holding and the lock not
LOCKED, the banks change places. How a SYNC arrival says when it comes and which order its actions take is the
model's choice (log 6, 23). -/
def Obligations.SyncArrivalActs : Prop :=
  ∀ (w : Word) (n : Nat) (o : SyncOrder) (s : State), s.ready →
    let u := s.advance (min n s.tb.left)
    ∃ t, exec (.syncArrival w n o) s = .next t ∧
      t.ring = { u.slotRing .unchanged with lastCycle := w } ∧
      t.tb.lossCount = 0 ∧ t.tb.lossMark = false ∧ t.router.devKept.ringLoss = false ∧
      t.tb.set = u.tb.set ∧ t.tb.pend = u.tb.pend ∧ t.tb.inh = u.tb.inh ∧
      t.engine = u.engine ∧ t.loop = u.loop ∧ t.refs = u.refs ∧ t.pairs = u.pairs ∧
      (∀ c, (t.sup.get c).causes.ring = false ∧ (t.sup.get c).setSeen = false ∧
        (t.lanes.get c).seq = (u.lanes.get c).seq ∧ (t.lanes.get c).arrived = (u.lanes.get c).arrived ∧
        (t.lanes.get c).strobe = (u.lanes.get c).strobe ∧
        (t.pos.get c).rev = (u.pos.get c).rev ∧ (t.pos.get c).latched = (u.pos.get c).latched) ∧
      (u.store.swapPending = false ∨ u.structureFault ≠ none → t.store = u.store ∧ t.pos = u.pos ∧
        ∀ c, (t.sup.get c).chargeCount = (u.sup.get c).chargeCount) ∧
      (u.store.swapPending = true → u.structureFault = none →
        (∀ c, u.st c = .off ∨ u.st c = .trip) → u.tb.lock ≠ .locked → t.bank = u.shadow ∧ t.shadow = u.bank)

/-- The lock at a SYNC arrival with no settings pending. The error is the ring-cycle position less the target, wrapped
into half a ring cycle either way. In ACQUIRE and LOCKED, and from FREE with a channel in CHARGE, RUN, HOLD or
STOPPING, the correction becomes trunc(e / 2N) within the slew limit, for N periods; four arrivals within the window
in ACQUIRE reach LOCKED, one outside it drops the count or the lock; from FREE the lock becomes ACQUIRE. With settings
pending the lock and the correction stay.

LOCK_REACHED, with the ACQUIRE count at 3: the lock is LOCKED with its count at 0 and nothing else changes. That
LOCK_REACHED can be sent alone is the model's choice (log 2); so is how a SYNC arrival says when it comes (log 6). -/
def Obligations.LockMeasurement : Prop :=
  (∀ (w : Word) (n : Nat) (o : SyncOrder) (s : State), s.ready →
     let u := s.advance (min n s.tb.left)
     let len : Int := 2 * u.tb.set.n * u.tb.set.p
     let e : Int := ((u.tb.pos : Int) - (u.tb.set.qt : Int) % len + len / 2) % len - len / 2
     let c : Int := max (-u.tb.set.slewMax) (min u.tb.set.slewMax (e.tdiv (2 * u.tb.set.n)))
     let within : Prop := -u.tb.set.lockWindow ≤ e ∧ e ≤ u.tb.set.lockWindow
     u.store.swapPending = false ∨ u.structureFault ≠ none ∨ u.tb.lock ≠ .free →
     ∃ t, exec (.syncArrival w n o) s = .next t ∧
       (u.tb.pend ≠ none → t.tb = { u.tb with lossCount := 0, lossMark := false }) ∧
       (u.tb.pend = none → u.tb.lock ≠ .free ∨
         (∃ c, u.st c = .charge ∨ u.st c = .run ∨ u.st c = .hold ∨ u.st c = .stopping) →
         t.tb = { u.tb with corr := c, corrLeft := u.tb.set.n, lock := t.tb.lock, acquire := t.tb.acquire,
                            lossCount := 0, lossMark := false }) ∧
       (u.tb.pend = none → u.tb.lock = .free → t.tb.lock = .acquire ∧ t.tb.acquire = 0) ∧
       (u.tb.pend = none → u.tb.lock = .acquire → within → u.tb.acquire < 3 →
         t.tb.lock = .acquire ∧ t.tb.acquire = u.tb.acquire + 1) ∧
       (u.tb.pend = none → u.tb.lock = .acquire → within → u.tb.acquire = 3 →
         t.tb.lock = .locked ∧ t.tb.acquire = 0) ∧
       (u.tb.pend = none → u.tb.lock = .acquire → ¬within → t.tb.lock = .acquire ∧ t.tb.acquire = 0) ∧
       (u.tb.pend = none → u.tb.lock = .locked → within →
         t.tb.lock = .locked ∧ t.tb.acquire = u.tb.acquire ∧
           t.devFlag .carrierUnlock = u.devFlag .carrierUnlock) ∧
       (u.tb.pend = none → u.tb.lock = .locked → ¬within →
         t.tb.lock = .acquire ∧ t.tb.acquire = 0 ∧ t.devFlag .carrierUnlock =
           { isSet := true, count := min 65535 ((u.devFlag .carrierUnlock).count + 1) })) ∧
  (∀ s : State, s.tb.lock = .acquire → s.tb.acquire = 3 →
     exec .lockReached s = .next { s with tb := { s.tb with lock := .locked, acquire := 0 } })

/-- A hard realign, at a SYNC arrival in FREE with every channel in OFF or TRIP and sound settings: the ring-cycle
position is the target, period index, counter and direction match it, the crest value is P, no correction is left,
every lane's expected mark is clear and nothing else of the lanes changes; after it the lock error is 0. How a SYNC
arrival says when it comes is the model's choice (log 6). -/
def Obligations.HardRealignSetsTheTarget : Prop :=
  ∀ (w : Word) (n : Nat) (o : SyncOrder) (s : State), s.ready →
    let u := s.advance (min n s.tb.left)
    let q := u.tb.set.qt % (2 * u.tb.set.n * u.tb.set.p)
    let x := q % (2 * u.tb.set.p)
    u.tb.sound → u.tb.pend = none → u.tb.lock = .free → (∀ c, u.st c = .off ∨ u.st c = .trip) →
    ∃ t, exec (.syncArrival w n o) s = .next t ∧
      t.tb.pos = q ∧ t.tb.index * (2 * u.tb.set.p) + x = q ∧ t.tb.index < u.tb.set.n ∧
      (x < u.tb.set.p → t.tb.counter = x ∧ t.tb.up = true) ∧
      (u.tb.set.p ≤ x → t.tb.counter + x = 2 * u.tb.set.p ∧ t.tb.up = false) ∧
      t.tb.crest = u.tb.set.p ∧ t.tb.corr = 0 ∧ t.tb.corrLeft = 0 ∧
      t.tb.lock = .acquire ∧ t.tb.acquire = 0 ∧ t.tb.lockError = 0 ∧
      ∀ c, t.lanes.get c = { u.lanes.get c with expected := false }

/-- Staleness at a SYNC arrival of a normal station that does not leave LOCKED, a swap that takes effect at it routed to no
trip and no hold. The missed count of a judged channel, one in RUN or HOLD and no follower, becomes 0 where a SET was seen
and rises by 1 to at most 15 where none was; any other channel's stays; every SET-seen mark and RING cause is cleared. A
judged channel whose count rises to hold_after or above, with no STALE cause, raises SETPOINT_STALE, and no other flag of a
channel is raised. Where its route does not trip, that channel and its partner in RUN or HOLD are then in HOLD with STALE, a
routed hold holds with ROUTED, and nothing else of a supervisor changes; where it trips, the channel, in use, is in TRIP.
Hold_after and routes are those of the bank active when the judgement is taken, before or after the swap.

SETPOINT_STALE of a lone channel or leader in RUN or HOLD that saw no SET, with no STALE cause, whose missed count
rises to hold_after or above: the count rises, the flag is set and counted, and, where its route does not trip, the
channel and its partner enter HOLD with the cause STALE; other channels that no route names keep their state. That
SETPOINT_STALE can be sent alone is the model's choice (log 2), as is the order of the actions of an arrival (log 23). -/
def Obligations.StalenessCountsAndHolds : Prop :=
  (∀ (w : Word) (n : Nat) (o : SyncOrder) (s : State), s.ready →
     let u := s.advance (min n s.tb.left)
     let swaps : Prop := u.store.swapPending = true ∧ u.structureFault = none
     let b : Bank := if u.store.swapPending = true ∧ u.structureFault = none ∧ o.swapFirst = true then u.shadow else u.bank
     let judged : Chan → Bool := fun c =>
       decide ((u.st c = .run ∨ u.st c = .hold) ∧ (u.role c).isFollower = false)
     let after := fun c : Chan => { u.sup.get c with
       setSeen := false
       causes := { (u.sup.get c).causes with ring := false }
       missed := if judged c then (if (u.sup.get c).setSeen then 0 else min 15 ((u.sup.get c).missed + 1))
         else (u.sup.get c).missed }
     let found : Chan → Bool := fun c => judged c && decide ((u.sup.get c).setSeen = false ∧
       (u.sup.get c).causes.stale = false ∧ (u.sup.get c).missed < 15 ∧
       (b.record c).holdAfter ≤ (u.sup.get c).missed + 1)
     let stale : Chan → Bool := fun c => found c || (u.role c).partner.any found
     let all : Bool := (b.route 15).holdAll && decide (∃ d, found d = true)
     (u.tb.lock = .locked → u.tb.pend ≠ none ∨
       (-u.tb.set.lockWindow ≤ u.tb.lockError ∧ u.tb.lockError ≤ u.tb.set.lockWindow)) →
     (swaps → u.shadow.devTripClass .bankSwapDone = false ∧ (u.shadow.route 22).holdSelf = false ∧
       (u.shadow.route 22).holdAll = false) →
     ∃ t, exec (.syncArrival w n o) s = .next t ∧
       (¬swaps → t.router.dev = u.router.dev) ∧
       (∀ c, found c = true → t.chanFlag c .setpointStale =
         { isSet := true, count := min 65535 ((u.chanFlag c .setpointStale).count + 1) }) ∧
       (∀ c k, found c = false ∨ k ≠ .setpointStale → t.chanFlag c k = u.chanFlag c k) ∧
       (b.chanTripClass .setpointStale = false →
         t.router.trips = u.router.trips ∧ (swaps → t.bank = u.shadow) ∧
         ∀ c,
           ((u.st c = .run ∨ u.st c = .hold) → stale c = true ∨ all = true →
             t.st c = .hold ∧ (stale c = true → (t.sup.get c).causes.stale = true)) ∧
           (¬swaps ∨ judged c = true →
             ((u.st c = .run ∨ u.st c = .hold) → stale c = true ∨ all = true → t.sup.get c = { after c with
               st := .hold
               causes :=
                 { stale := (u.sup.get c).causes.stale || stale c, ring := false
                   routed := (u.sup.get c).causes.routed || ((b.route 15).holdSelf && stale c) || all } }) ∧
             ((u.st c ≠ .run ∧ u.st c ≠ .hold) ∨ (stale c = false ∧ all = false) → t.sup.get c = after c))) ∧
       (b.chanTripClass .setpointStale = true → ∀ c, found c = true → (u.record c).inUse = true →
         t.st c = .trip ∧ (t.sup.get c).causes = {} ∧ (t.mods.get c).dark ∧ (t.mods.get c).drive = false)) ∧
  (∀ (c : Chan) (s : State), s.st c = .run ∨ s.st c = .hold → (s.role c).isFollower = false →
     (s.sup.get c).setSeen = false → (s.sup.get c).causes.stale = false → (s.sup.get c).missed < 15 →
     (s.record c).holdAfter ≤ (s.sup.get c).missed + 1 →
     ∃ t, exec (.setpointStale c) s = .next t ∧
       t = { s with sup := t.sup, mods := t.mods, router := t.router } ∧
       t.chanFlag c .setpointStale =
         { isSet := true, count := min 65535 ((s.chanFlag c .setpointStale).count + 1) } ∧
       (∀ d k, (d, k) ≠ (c, ChanKind.setpointStale) → t.chanFlag d k = s.chanFlag d k) ∧
       (s.bank.chanTripClass .setpointStale = false →
         t.mods = s.mods ∧ t.router.trips = s.router.trips ∧ t.st c = .hold ∧
         (t.sup.get c).causes.stale = true ∧ (t.sup.get c).missed = (s.sup.get c).missed + 1 ∧
         (∀ p, (s.role c).partner = some p → (s.role p).partner = some c → (s.st p = .run ∨ s.st p = .hold) →
           t.st p = .hold ∧ (t.sup.get p).causes.stale = true) ∧
         ((s.bank.route 15).holdAll = false → ∀ d, d ≠ c → (s.role d).partner ≠ some c →
           t.sup.get d = s.sup.get d)))

/-! ### Ring loss and the master period -/

/-- RING_LOSS, where the risen ring-loss count reaches the limit with the mark clear: the mark is set, the lock FREE, the
correction 0; with the condition absent before, the flag is set and counted, and, where its route does not trip, every
channel in RUN or HOLD holds with the cause RING and no other changes. That this part of a valley can be sent alone is
the model's choice (log 2).

Three more parts of a master valley that the table lists by themselves. RING_CYCLE_START, at the last period of the
cycle: index and ring-cycle position return to 0. CORRECTION_END, at the last corrected period: the correction and its
count are 0. PENDING_SETTINGS_EFFECT: D, P and N take the pending values, counter, index and position start from 0
with crest value P, no correction is left, the lock is FREE; the other settings and the ring-loss count and mark stay.
Of the rest of the part only gate lines may change. That each part can be sent alone, and the first and last then put the
master counter at 0 counting up with no ticks gone by, is the model's choice (log 2). -/
def Obligations.MasterValleyParts : Prop :=
  (∀ s : State, s.tb.lossMark = false → s.tb.set.lossLimit ≤ min 255 (s.tb.lossCount + 1) →
    ∃ t, exec .ringLoss s = .next t ∧
      t = { s with tb := t.tb, sup := t.sup, mods := t.mods, router := t.router } ∧
      t.tb = { s.tb with lossCount := min 255 (s.tb.lossCount + 1), lossMark := true, lock := .free,
                         acquire := 0, corr := 0, corrLeft := 0 } ∧
      t.router.devKept = { s.router.devKept with ringLoss := true } ∧
      (s.router.devKept.ringLoss = true →
        t.sup = s.sup ∧ t.mods = s.mods ∧ t.router = s.router) ∧
      (s.router.devKept.ringLoss = false →
        t.devFlag .ringLoss = { isSet := true, count := min 65535 ((s.devFlag .ringLoss).count + 1) } ∧
        (s.bank.devTripClass .ringLoss = false →
          t.mods = s.mods ∧ t.router.trips = s.router.trips ∧
          ∀ c,
            (s.st c = .run ∨ s.st c = .hold → t.st c = .hold ∧ (t.sup.get c).causes.ring = true) ∧
            (s.st c ≠ .run → s.st c ≠ .hold → t.sup.get c = s.sup.get c)))) ∧
  (∀ s : State, s.tb.set.n ≤ s.tb.index + 1 →
    ∃ t, exec .ringCycleStart s = .next t ∧ t = { s with tb := t.tb, mods := t.mods } ∧
      t.tb = { s.tb with counter := 0, up := true, index := 0, pos := 0 } ∧
      ∀ c, t.mods.get c = { s.mods.get c with
        pa := (t.mods.get c).pa, pb := (t.mods.get c).pb, pc := (t.mods.get c).pc }) ∧
  (∀ s : State, s.tb.corrLeft ≤ 1 →
    exec .correctionEnd s = .next { s with tb := { s.tb with corrLeft := 0, corr := 0 } }) ∧
  (∀ (s : State) (x : PendingSettings), s.tb.pend = some x →
    ∃ t, exec .pendingSettingsEffect s = .next t ∧ t = { s with tb := t.tb, mods := t.mods } ∧
      t.tb = { s.tb with
        set := { s.tb.set with d := x.d, p := x.p, n := x.n }, pend := none, counter := 0, up := true,
        index := 0, pos := 0, corr := 0, corrLeft := 0, crest := x.p, lock := .free, acquire := 0 } ∧
      ∀ c, t.mods.get c = { s.mods.get c with
        pa := (t.mods.get c).pa, pb := (t.mods.get c).pb, pc := (t.mods.get c).pc })

/-- MASTER_VALLEY from a counter on its way down: time runs to the valley, then the counter is at 0 counting up, the index
and ring-cycle position go on or start again, pending settings come into force, the ring-loss count rises, the crest
value of the period is P or P plus the correction, whose count falls; every aligned channel strobes with the next
sequence number and an expected, not arrived mark, latches its counts, and takes its dead time; a shifted channel does
none of these, but a shifted follower whose leader is aligned latches with it.

MASTER_CREST from a counter on its way up: time runs to the crest, then the counter is at the crest value counting
down, and every channel counted shifted strobes, latches and takes its dead time while no aligned channel does, but that a
follower latches at its leader's valley too, whichever it counts by; the rest of the timebase stays.

MASTER_VALLEY from a counter on its way up takes the crest on the way first, and MASTER_CREST from a counter on its way
down the valley. A turning point is the channel valleys of its channels, aligned ones at the valley and shifted ones at the
crest, and no more but the RING_LOSS condition, which a valley delivers where the mark is set, a risen count at the limit
setting it with the lock FREE and no correction. That the command says whether that comes before or after the channel
valleys is the model's choice (log 7). The order of the parts of one valley is the model's reading (log 18, 19), as is that
the command runs time to the turning point and that the inputs of its tick come first (log 5, 36). -/
def Obligations.TurningPointsStrobeChannels : Prop :=
  (∀ (first : Bool) (s : State), s.tb.up = false →
     let u := s.advance s.tb.left
     ∃ t, exec (.masterValley first) s = .next t ∧
       t.tb.counter = 0 ∧ t.tb.up = true ∧ t.tb.pend = none ∧
       t.tb.lossCount = min 255 (u.tb.lossCount + 1) ∧
       (u.tb.pend = none → t.tb.set = u.tb.set ∧
         (u.tb.index + 1 < u.tb.set.n → t.tb.index = u.tb.index + 1 ∧ t.tb.pos = u.tb.pos) ∧
         (u.tb.set.n ≤ u.tb.index + 1 → t.tb.index = 0 ∧ t.tb.pos = 0)) ∧
       (∀ x, u.tb.pend = some x → t.tb.set = { u.tb.set with d := x.d, p := x.p, n := x.n } ∧
         t.tb.index = 0 ∧ t.tb.pos = 0 ∧ t.tb.crest = x.p) ∧
       (u.tb.corrLeft = 0 → t.tb.crest = t.tb.set.p) ∧
       (0 < u.tb.corrLeft → u.tb.pend = none → t.tb.lossMark = false →
         (t.tb.crest : Int) = max 0 ((u.tb.set.p : Int) + u.tb.corr) ∧ t.tb.corrLeft + 1 = u.tb.corrLeft ∧
         (1 < u.tb.corrLeft → t.tb.corr = u.tb.corr) ∧ (u.tb.corrLeft = 1 → t.tb.corr = 0)) ∧
       (∀ c,
         let latch : Position := { u.pos.get c with latched := some ⟨(u.pos.get c).fine, (u.pos.get c).rev⟩ }
         ((u.record c).shifted = false →
           (t.lanes.get c).seq = (u.lanes.get c).seq + 1 ∧ (t.lanes.get c).expected = true ∧
           (t.lanes.get c).arrived = false ∧ t.strobeTakenFrom u c ∧ t.pos.get c = latch ∧
           (t.mods.get c).deadTime = (u.record c).deadTime) ∧
         ((u.record c).shifted = true →
           t.lanes.get c = u.lanes.get c ∧ (t.mods.get c).deadTime = (u.mods.get c).deadTime ∧
           (∀ k p, u.role c = .follower k p → (u.record p).shifted = false → t.pos.get c = latch) ∧
           ((∀ k p, u.role c = .follower k p → (u.record p).shifted = true) → t.pos.get c = u.pos.get c))) ∧
       t.ring = u.ring ∧ t.store = u.store ∧ t.loop = u.loop ∧ t.refs = u.refs ∧
       t.tb.lossMark = (u.tb.lossMark || decide (u.tb.set.lossLimit ≤ min 255 (u.tb.lossCount + 1))) ∧
       (u.tb.lossMark = false → t.tb.lossMark = true → t.tb.lock = .free ∧ t.tb.corr = 0 ∧ t.tb.corrLeft = 0) ∧
       let v : State := { u with tb := t.tb }
       let aligned := fun c => !(u.record c).shifted
       (t.tb.lossMark = false → t = v.channelValleys aligned) ∧
       (t.tb.lossMark = true → t =
         if first then (v.deliverDev .ringLoss true).channelValleys aligned
         else (v.channelValleys aligned).deliverDev .ringLoss true)) ∧
  (∀ s : State, s.tb.up = true →
     let u := s.advance s.tb.left
     ∃ t, exec .masterCrest s = .next t ∧ t = { u with tb := t.tb }.channelValleys u.tb.shifted.get ∧
       t.tb = { u.tb with counter := u.tb.crest, up := false } ∧
       (∀ c,
         let latch : Position := { u.pos.get c with latched := some ⟨(u.pos.get c).fine, (u.pos.get c).rev⟩ }
         (u.tb.shifted.get c = true →
           (t.lanes.get c).seq = (u.lanes.get c).seq + 1 ∧ (t.lanes.get c).expected = true ∧
           (t.lanes.get c).arrived = false ∧ t.strobeTakenFrom u c ∧ t.pos.get c = latch ∧
           (t.mods.get c).deadTime = (u.record c).deadTime) ∧
         (u.tb.shifted.get c = false →
           t.lanes.get c = u.lanes.get c ∧ (t.mods.get c).deadTime = (u.mods.get c).deadTime ∧
           (∀ k p, u.role c = .follower k p → u.tb.shifted.get p = true → t.pos.get c = latch) ∧
           ((∀ k p, u.role c = .follower k p → u.tb.shifted.get p = false) → t.pos.get c = u.pos.get c))) ∧
       t.ring = u.ring ∧ t.store = u.store ∧ t.loop = u.loop ∧ t.refs = u.refs) ∧
  (∀ (first : Bool) (s : State), s.tb.up = true →
     ∃ v t, exec .masterCrest s = .next v ∧ exec (.masterValley first) s = .next t ∧
       exec (.masterValley first) v = .next t) ∧
  (∀ s : State, s.tb.up = false →
     ∃ first v t, exec (.masterValley first) s = .next v ∧ exec .masterCrest s = .next t ∧
       exec .masterCrest v = .next t)

/-- A step with no command waiting. At a turning point that has come, or one tick before the next one, it is that turning
point. Elsewhere one tick goes by: the counter and the ring-cycle position move by one; with every input at its filtered
level only gate lines and filters change besides, no level, count, compare, gate state or flag; else a level that settles
at this tick acts at once, and still no lane, bank, run, reference or cell changes. That a step on an empty queue is a
tick is the model's choice (log 3), as is which of two things of one tick comes first (log 3, 36). -/
def Obligations.IdleStepIsATick : Prop :=
  (∀ s : State, s.quiet = true ↔ s.tb.inh.level = some s.tb.inh.pin ∧
    ∀ c l, ((s.pos.get c).filter l).level = some ((s.pos.get c).filter l).pin) ∧
  ∀ s : State, s.pending = [] → ∃ t, step s = .next t ∧ t.pending = [] ∧
    (s.tb.left ≤ 1 → s.tb.up = true → exec .masterCrest s = .next t) ∧
    (s.tb.left ≤ 1 → s.tb.up = false → ∃ first, exec (.masterValley first) s = .next t) ∧
    (1 < s.tb.left →
      t = { s with tb := t.tb, mods := t.mods, pos := t.pos, sup := t.sup, router := t.router, free := t.free } ∧
      t.tb = { s.tb with counter := if s.tb.up then s.tb.counter + 1 else s.tb.counter - 1
                         pos := s.tb.pos + 1, inh := t.tb.inh } ∧
      (s.quiet = true →
        t.sup = s.sup ∧ t.router = s.router ∧ t.free = s.free ∧ t.tb.inh.level = s.tb.inh.level ∧
        ∀ c,
          t.mods.get c = { s.mods.get c with
            pa := (t.mods.get c).pa, pb := (t.mods.get c).pb, pc := (t.mods.get c).pc } ∧
          (∀ l, ((t.pos.get c).filter l).level = ((s.pos.get c).filter l).level) ∧
          t.pos.get c = { s.pos.get c with
            fa := (t.pos.get c).fa, fb := (t.pos.get c).fb, fz := (t.pos.get c).fz }))

/-- The valleys of the channels of f. Their checks, on the state found, of a channel in RUN or HOLD: pending compares are loaded
and the stale count is 0; without them it rises, to at most 4, and SAMPLE_MISSING is raised where the lane's strobe is
expected and unanswered, LOOP_LATE where its burst has come and is unfinished, the waiting or executing entry marked late,
COMPARES_STALE where the count becomes 4. In CHARGE, STOPPING and TRIP only SAMPLE_MISSING is raised, in OFF nothing; no
other flag is. A channel in use whose report is COMPARES_STALE, or by its route trips, is in TRIP before its strobe; a lone
one's record names the first such report, COMPARES_STALE a secondary cause behind another. A report routed to hold holds its
unit.

Where no report trips or holds, a unit of f, a lone channel or a leader and its follower found in one state and gate state:
in RUN or HOLD the loaded compares, limited by the minimum pulse of the active bank, are active, else the active ones stay;
the first valley in CHARGE drives 0, 0, 0, a later one raises the charge count, and at charge_periods the unit enters RUN on
floor(P/2), the pair runtime of its slot cleared; STOPPING ends in OFF with all gates off; OFF and TRIP stay. The strobe
records the state entered. MASTER_VALLEY and MASTER_CREST are such channel valleys of their channels. The order of the
parts of one valley, and of the valleys of one tick, is the model's reading (log 19). -/
def Obligations.ChannelValleysReportAndMoveUnits : Prop :=
  ∀ (f : Chan → Bool) (s : State),
    let t := s.channelValleys f
    let waits : Chan → Bool := fun c =>
      decide ((s.st c = .run ∨ s.st c = .hold) ∧ (s.mods.get c).pending = none)
    let missing : Chan → Bool := fun c =>
      (waits c || decide (s.st c = .charge ∨ s.st c = .stopping ∨ s.st c = .trip)) &&
        (s.lanes.get c).expected && !(s.lanes.get c).arrived
    let mine : Chan → Entry → Bool := fun c e => decide (e.chan = c) && e.current
    let late : Chan → Bool := fun c => waits c && (s.lanes.get c).arrived &&
      (s.engine.queue.any (mine c) || s.engine.running.any fun r => mine c r.entry)
    let stale : Chan → Bool := fun c => waits c && decide ((s.mods.get c).stale = 3)
    let reports : ChanKind → Chan → Bool := fun k c => f c &&
      ((decide (k = .sampleMissing) && missing c) || (decide (k = .loopLate) && late c) ||
        (decide (k = .comparesStale) && stale c))
    let marked : Entry → Entry := fun e =>
      { e with late := e.late || (f e.chan && e.current && late e.chan), current := e.current && !f e.chan }
    let trips : Chan → Bool := fun c => stale c || (missing c && s.bank.chanTripClass .sampleMissing) ||
      (late c && s.bank.chanTripClass .loopLate)
    let unit : Chan → Chan → Prop := fun c d => d = c ∨ (s.role c).partner = some d
    (t = { s with sup := t.sup, mods := t.mods, router := t.router, engine := t.engine, lanes := t.lanes,
                  pos := t.pos, pairs := t.pairs } ∧
      t.engine = { queue := s.engine.queue.map marked
                   running := s.engine.running.map fun r => { r with entry := marked r.entry } } ∧
      (∀ c, (t.mods.get c).stale = if f c then
          (if waits c then min 4 ((s.mods.get c).stale + 1)
           else if s.st c = .run ∨ s.st c = .hold then 0 else (s.mods.get c).stale)
        else (s.mods.get c).stale) ∧
      (∀ c k, reports k c = true → t.chanFlag c k =
        { isSet := true, count := min 65535 ((s.chanFlag c k).count + 1) }) ∧
      (∀ c k, reports k c = false → t.chanFlag c k = s.chanFlag c k) ∧
      t.router.dev = s.router.dev ∧ t.router.kept = s.router.kept ∧ t.router.devKept = s.router.devKept ∧
      ((∃ c k, reports k c = true) → t.router.lines = t.linesNow) ∧
      ((∀ c k, reports k c = false) → t.router = s.router)) ∧
    (∀ c, f c = true → s.role c = .lone ∨ s.bank.pairFault = none → (s.record c).inUse = true → trips c = true →
      t.st c = .trip ∧ (t.lanes.get c).strobe.map (·.st) = some .trip ∧
      (s.st c ≠ .trip → (t.mods.get c).dark ∧ (t.mods.get c).drive = false ∧ (t.mods.get c).pending = none ∧
        (t.router.trips.get c).isSome = true) ∧
      (s.st c = .run ∨ s.st c = .hold → (t.mods.get c).active = (s.mods.get c).active) ∧
      (s.role c = .lone → (s.st c = .run ∨ s.st c = .hold) → (s.bank.route 3).tripAll = false →
        (s.bank.route 5).tripAll = false → (s.bank.route 7).tripAll = false →
        let first : Nat := if missing c && (s.bank.route 5).tripSelf then 5
          else if late c && (s.bank.route 7).tripSelf then 7 else 3
        ∃ x, t.router.trips.get c = some x ∧ x.cause = first ∧ x.via = .self ∧ x.cycle = s.ring.lastCycle ∧
          (x.before = s.st c ∨ x.before = .hold) ∧ x.snapshot = (s.loop.get c).last.snapshot ∧ x.overflow = 0 ∧
          x.secondary = if stale c && decide (first ≠ 3) then [⟨3, s.ring.lastCycle⟩] else [])) ∧
    (∀ c, f c = true → s.role c = .lone ∨ s.bank.pairFault = none → (∀ d, f d = true → trips d = false) →
      (∀ d, unit c d → s.st d = .run ∨ s.st d = .hold) →
      (missing c = true ∧ (s.bank.route 5).holdSelf = true) ∨ (late c = true ∧ (s.bank.route 7).holdSelf = true) →
      ∀ d, unit c d → t.st d = .hold ∧ (t.sup.get d).causes.routed = true) ∧
    (∀ c, f c = true → (∀ d, f d = true → stale d = false) →
      (∀ d, f d = true → missing d = false ∧ late d = false) ∨
        (∀ k ∈ [5, 7], (s.bank.route k).tripSelf = false ∧ (s.bank.route k).tripAll = false ∧
          (s.bank.route k).holdSelf = false ∧ (s.bank.route k).holdAll = false) →
      (s.role c = .lone ∨ (s.bank.pairFault = none ∧ ∃ k p, s.role c = .leader k p ∧ f p = true ∧
        s.st p = s.st c ∧ (s.mods.get p).drive = (s.mods.get c).drive)) →
      let p := s.tb.set.p
      let n := min 255 ((s.sup.get c).chargeCount + 1)
      (s.st c = .charge → (s.mods.get c).drive = true → (s.record c).chargePeriods ≤ n →
        ∀ k, (s.role c).slot = some k → t.pairs.get k = {}) ∧
      ∀ d, unit c d →
        (t.lanes.get d).strobe.map (·.st) = some (t.st d) ∧ t.router.trips.get d = s.router.trips.get d ∧
        (s.st c = .run ∨ s.st c = .hold → t.sup.get d = s.sup.get d ∧
          (∀ x, (s.mods.get d).pending = some x →
            (t.mods.get d).active = ⟨minPulsed p (s.record d).minPulse x.a, minPulsed p (s.record d).minPulse x.b,
              minPulsed p (s.record d).minPulse x.c⟩ ∧
            (t.mods.get d).pending = none) ∧
          ((s.mods.get d).pending = none → (t.mods.get d).active = (s.mods.get d).active)) ∧
        (s.st c = .charge → (s.mods.get c).drive = false →
          t.sup.get d = s.sup.get d ∧ (t.mods.get d).drive = true ∧ (t.mods.get d).active = ⟨0, 0, 0⟩) ∧
        (s.st c = .charge → (s.mods.get c).drive = true → n < (s.record c).chargePeriods →
          t.sup.get d = { s.sup.get d with chargeCount := n } ∧
          (t.mods.get d).active = (s.mods.get d).active ∧ (t.mods.get d).drive = true) ∧
        (s.st c = .charge → (s.mods.get c).drive = true → (s.record c).chargePeriods ≤ n →
          t.sup.get d = { s.sup.get d with st := .run, chargeCount := n } ∧
          (t.mods.get d).active = ⟨p / 2, p / 2, p / 2⟩ ∧ (t.mods.get d).drive = true) ∧
        (s.st c = .stopping → t.sup.get d = { s.sup.get d with st := .off } ∧ (t.mods.get d).drive = false ∧
          (t.mods.get d).pending = none ∧ (t.mods.get d).dark) ∧
        (s.st c = .off ∨ s.st c = .trip → t.sup.get d = s.sup.get d ∧
          (t.mods.get d).drive = (s.mods.get d).drive ∧ (t.mods.get d).active = (s.mods.get d).active))

/-! ### Modulators and channel valleys -/

/-- The parts of a channel valley that the table lists by themselves. COMPARE_LOAD of a channel in RUN or HOLD with pending
compares: each becomes active, limited by the minimum pulse of the active bank at the present P, the pending ones are gone,
the stale count is 0. A loaded compare is 0, P, or within T..P − T. Only this channel's loaded compares change; gate lines
follow their commands.

COMPARES_STALE, for a channel in RUN or HOLD without fresh compares whose stale count is 3 and whose record is in use: the
count is 4, the flag is set and counted, and the channel is in TRIP at once with all gates off and a trip record of cause 3
via SELF. The active compares and the run results stay.

CHARGING_BEGIN, of a unit in CHARGE that does not drive: it drives 0, 0, 0. END_OF_CHARGING, at the count that reaches
charge_periods: the unit is in RUN on floor(P/2), the pair runtime of its slot cleared. STOPPING_END: the unit is in OFF,
INHIBIT, gates off, pending compares gone. A unit is a lone channel, or a leader with its follower; nothing else but gate
lines changes. That each part can be sent alone is the model's choice (log 2). -/
def Obligations.ChannelValleyParts : Prop :=
  (∀ (c : Chan) (s : State) (x : Compares), s.st c = .run ∨ s.st c = .hold → (s.mods.get c).pending = some x →
     let p := s.tb.set.p
     let m := (s.record c).minPulse
     ∃ t, exec (.compareLoad c) s = .next t ∧ t = { s with mods := t.mods } ∧
       (∀ d, t.mods.get d = { (if d = c then
           { s.mods.get c with active := ⟨minPulsed p m x.a, minPulsed p m x.b, minPulsed p m x.c⟩,
                               pending := none, stale := 0 }
         else s.mods.get d) with pa := (t.mods.get d).pa, pb := (t.mods.get d).pb, pc := (t.mods.get d).pc }) ∧
       ∀ y : Nat, y ≤ p → let z := minPulsed p m y
         z = 0 ∨ z = p ∨ (min m (p / 4) ≤ z ∧ z + min m (p / 4) ≤ p)) ∧
  (∀ (c : Chan) (s : State), s.st c = .run ∨ s.st c = .hold → (s.mods.get c).pending = none →
     (s.mods.get c).stale = 3 → (s.record c).inUse = true →
     ∃ t, exec (.comparesStale c) s = .next t ∧
       t = { s with sup := t.sup, mods := t.mods, router := t.router } ∧
       (t.mods.get c).stale = 4 ∧ (t.mods.get c).active = (s.mods.get c).active ∧
       t.chanFlag c .comparesStale =
         { isSet := true, count := min 65535 ((s.chanFlag c .comparesStale).count + 1) } ∧
       (∀ d k, (d, k) ≠ (c, ChanKind.comparesStale) → t.chanFlag d k = s.chanFlag d k) ∧
       s.trippedTo t c 3 .self ∧
       ((s.bank.route 3).tripAll = false → (s.bank.route 3).holdAll = false →
         ∀ d, d ≠ c → (s.role d).partner ≠ some c →
           t.sup.get d = s.sup.get d ∧ t.mods.get d = s.mods.get d ∧
           t.router.trips.get d = s.router.trips.get d)) ∧
  (∀ (c : Chan) (s : State), (s.role c).isFollower = false → s.st c = .charge → (s.mods.get c).drive = false →
    ∃ t, exec (.chargingBegin c) s = .next t ∧ t = { s with mods := t.mods } ∧
      ∀ d, t.mods.get d = { s.mods.get d with
        drive := decide (d = c ∨ (s.role c).partner = some d) || (s.mods.get d).drive
        active := if d = c ∨ (s.role c).partner = some d then ⟨0, 0, 0⟩ else (s.mods.get d).active
        pa := (t.mods.get d).pa
        pb := (t.mods.get d).pb
        pc := (t.mods.get d).pc }) ∧
  (∀ (c : Chan) (s : State), (s.role c).isFollower = false → s.st c = .charge → (s.mods.get c).drive = true →
    (s.record c).chargePeriods ≤ min 255 ((s.sup.get c).chargeCount + 1) →
    ∃ t, exec (.endOfCharging c) s = .next t ∧
      t = { s with sup := t.sup, mods := t.mods, pairs := t.pairs } ∧
      (∀ d, t.sup.get d =
        if d = c ∨ (s.role c).partner = some d then
          { s.sup.get d with st := .run, chargeCount := min 255 ((s.sup.get c).chargeCount + 1) }
        else s.sup.get d) ∧
      (∀ d, t.mods.get d = { s.mods.get d with
        drive := decide (d = c ∨ (s.role c).partner = some d) || (s.mods.get d).drive
        active := if d = c ∨ (s.role c).partner = some d then
            ⟨s.tb.set.p / 2, s.tb.set.p / 2, s.tb.set.p / 2⟩ else (s.mods.get d).active
        pa := (t.mods.get d).pa
        pb := (t.mods.get d).pb
        pc := (t.mods.get d).pc }) ∧
      ∀ k : Fin 4, t.pairs.get k = if (s.role c).slot = some k then {} else s.pairs.get k) ∧
  (∀ (c : Chan) (s : State), (s.role c).isFollower = false → s.st c = .stopping →
    ∃ t, exec (.stoppingEnd c) s = .next t ∧ t = { s with sup := t.sup, mods := t.mods } ∧
      ∀ d,
        (d = c ∨ (s.role c).partner = some d →
          t.sup.get d = { s.sup.get d with st := .off } ∧ (t.mods.get d).dark ∧
          (t.mods.get d).drive = false ∧ (t.mods.get d).pending = none ∧
          (t.mods.get d).active = (s.mods.get d).active ∧ (t.mods.get d).stale = (s.mods.get d).stale) ∧
        (d ≠ c → (s.role c).partner ≠ some d →
          t.sup.get d = s.sup.get d ∧ t.mods.get d = s.mods.get d))

/-- COUNTER_PASSES_COMPARE: with a compare between 0 and P ahead of the channel counter in the present half of the period
and every input at its filtered level, time runs to it: the master counter and the ring-cycle position move by that
many ticks, the commanded side of the phase is the other one, the gate of the side left is off, and no compare, gate
state, count, flag or queue changes. The high side is commanded while the channel counter lies below the compare, never
at compare 0 and always at P. A shifted channel counts the crest value less the master counter, and the other way.

DEAD_TIME_ELAPSED: in DRIVE with INH_N not low and both gates of a phase off, the gate of the commanded side turns on
at the tick at which its partner has been off for the dead time, where the command stands so long; its partner stays
off, and no compare, gate state, count, flag or queue changes. That the command runs time to its event, and the side
taken at the compare value itself on the way down, are the model's reading (log 3, 32). -/
def Obligations.ComparePassageAndDeadTime : Prop :=
  (∀ (up : Bool) (p k cmp : Nat), sideHigh up p k cmp = true ↔
    cmp ≠ 0 ∧ (cmp = p ∨ (up = true ∧ k < cmp) ∨ (up = false ∧ k ≤ cmp))) ∧
  (∀ (c : Chan) (b : Timebase), let shifted := b.shifted.get c
    b.left = (if b.up = true then b.crest - b.counter else b.counter) ∧
      b.chanCounter c = (if shifted = true then b.crest - b.counter else b.counter) ∧ b.chanUp c = (b.up != shifted)) ∧
  (∀ (c : Chan) (ph : PhaseId) (s : State) (x : Nat), s.quiet = true →
     s.tb.counter ≤ s.tb.crest →
     let cmp := (s.mods.get c).active.get ph
     let k := s.tb.chanCounter c
     0 < cmp → cmp ≠ s.tb.set.p → 0 < x →
     (if s.tb.chanUp c then k + x = cmp else cmp + x = k) → x ≤ s.tb.left →
     ∃ t, exec (.counterPassesCompare c ph) s = .next t ∧
       t = { s with tb := t.tb, mods := t.mods, pos := t.pos } ∧
       t.tb = { s.tb with counter := t.tb.counter, pos := s.tb.pos + x, inh := t.tb.inh } ∧
       t.tb.counter = (if s.tb.up then s.tb.counter + x else s.tb.counter - x) ∧
       t.tb.chanCounter c = cmp ∧ t.tb.inh.level = s.tb.inh.level ∧
       sideHigh (s.tb.chanUp c) s.tb.set.p k cmp = !(s.tb.chanUp c == false) ∧
       sideHigh (t.tb.chanUp c) t.tb.set.p (t.tb.chanCounter c) cmp = (s.tb.chanUp c == false) ∧
       (if s.tb.chanUp c then ((t.mods.get c).phase ph).hi = false else ((t.mods.get c).phase ph).lo = false) ∧
       ∀ d, (t.pos.get d).fine = (s.pos.get d).fine ∧ (t.pos.get d).rev = (s.pos.get d).rev ∧
         t.mods.get d = { s.mods.get d with
           pa := (t.mods.get d).pa, pb := (t.mods.get d).pb, pc := (t.mods.get d).pc }) ∧
  (∀ (c : Chan) (ph : PhaseId) (s : State), s.quiet = true → s.tb.counter ≤ s.tb.crest →
     let m := s.mods.get c
     let q := m.phase ph
     let high := sideHigh (s.tb.chanUp c) s.tb.set.p (s.tb.chanCounter c) (m.active.get ph)
     let n := m.deadTime - (if high then q.loOff else q.hiOff)
     m.drive = true → s.tb.inh.level ≠ some false → q.hi = false → q.lo = false → m.deadTime ≤ 255 →
     s.commandStands c ph n = true →
     ∃ t, exec (.deadTimeElapsed c ph) s = .next t ∧
       t = { s with tb := t.tb, mods := t.mods, pos := t.pos } ∧
       t.tb = { s.tb with counter := t.tb.counter, pos := s.tb.pos + n, inh := t.tb.inh } ∧
       ((t.mods.get c).phase ph).hi = high ∧ ((t.mods.get c).phase ph).lo = !high ∧
       ∀ d, (t.pos.get d).fine = (s.pos.get d).fine ∧ (t.pos.get d).rev = (s.pos.get d).rev ∧
         t.mods.get d = { s.mods.get d with
           pa := (t.mods.get d).pa, pb := (t.mods.get d).pb, pc := (t.mods.get d).pc })

/-! ### Sense intake and run queue -/

/-- BURST: an intact frame with the lane's current number, while the strobe is expected and unanswered, is accepted: the
arrived mark is set; the entry of its words with the strobe record stands at the tail of the queue, or in the place of
the channel's waiting entry with one SAMPLE_OVERRUN; the BRIDGE_FAULT condition is kept as the two fault bits of word
0 give it. With the engine busy that is all; with it free the oldest entry's run starts at once, so that a burst that
finds queue and engine empty, of a channel in use, executes. Any other frame changes nothing. A frame is intact where it
ended at its end symbol with no line-code error and twenty bytes, the last the CRC-8 of the first eighteen. -/
def Obligations.BurstAcceptance : Prop :=
  (∀ f : Frame, (f.intact = true ↔ f.ending = .endSymbol ∧ f.lineError = false ∧ f.bytes.length = 20 ∧
      crc8 (f.bytes.take 18) = (f.word 9).lo) ∧
    ∀ k, (f.word k).toNat = (f.bytes.getD (2 * k) 0).toNat * 256 + (f.bytes.getD (2 * k + 1) 0).toNat) ∧
  (crc8 [] = 0 ∧ ∀ (l : List Byte) (b : Byte), crc8 (l ++ [b]) =
    Nat.repeat (fun x : BitVec 8 => if 128 ≤ x.toNat then (x <<< 1) ^^^ 0x07 else x <<< 1) 8 (crc8 l ^^^ b)) ∧
  (∀ (c : Chan) (f : Frame) (s : State),
    f.intact = false ∨ (s.lanes.get c).expected = false ∨ (s.lanes.get c).arrived = true ∨
      (f.word 0).toNat % 16 ≠ (s.lanes.get c).seq.toNat →
    exec (.burst c f) s = .next s) ∧
  (∀ (c : Chan) (f : Frame) (s : State) (r : StrobeRec), f.intact = true → (s.lanes.get c).expected = true →
    (s.lanes.get c).arrived = false → (f.word 0).toNat % 16 = (s.lanes.get c).seq.toNat →
    (s.lanes.get c).strobe = some r →
    let e : Entry := { chan := c, strobe := r, late := false, current := true
                       words := ⟨f.word 1, f.word 2, f.word 3, f.word 4, f.word 5, f.word 6, f.word 7, f.word 8⟩ }
    let fault := 16384 ≤ (f.word 0).toNat
    ∃ t v, exec (.burst c f) s = .next t ∧ exec .runStart v = .next t ∧
      (s.engine.running ≠ none → t = v) ∧
      (s.engine.running = none → s.engine.queue = [] → (s.record c).inUse = true →
        t.engine.queue = [] ∧ t.engine.running.map (·.entry) = some e) ∧
      v = { s with lanes := v.lanes, engine := v.engine, sup := v.sup, mods := v.mods, router := v.router } ∧
      v.lanes = s.lanes.set c { s.lanes.get c with arrived := true } ∧
      v.engine.running = s.engine.running ∧
      (v.router.kept.get c).bridgeFault = decide fault ∧
      ((∀ y ∈ s.engine.queue, y.chan ≠ c) → v.engine.queue = s.engine.queue ++ [e] ∧
        v.chanFlag c .sampleOverrun = s.chanFlag c .sampleOverrun) ∧
      ((∃ y ∈ s.engine.queue, y.chan = c) →
        v.engine.queue = s.engine.queue.map (fun y => if y.chan = c then e else y) ∧
        v.chanFlag c .sampleOverrun =
          { isSet := true, count := min 65535 ((s.chanFlag c .sampleOverrun).count + 1) }) ∧
      (fault → (s.router.kept.get c).bridgeFault = false → s.st c ≠ .trip → (s.record c).inUse = true →
        t.st c = .trip ∧ (t.mods.get c).dark ∧
        (t.router.trips.get c).map (·.cause) = some 2 ∧ (t.router.trips.get c).map (·.before) = some (s.st c)) ∧
      (¬fault → (∀ y ∈ s.engine.queue, y.chan ≠ c) → v.sup = s.sup ∧ v.mods = s.mods))

/-! ### Runs -/

/-- RUN_START, with the engine free and an entry at the head of the queue: an entry of a channel not in use ends there, and
the entry behind it starts; any other starts a run with the active bank, the channel state, the type (control where
channel and strobe were both in RUN or HOLD), P, and history and pair runtime of this moment. A control run of a lone
channel or leader takes a full mailbox: STALE is removed, and a channel in HOLD without a cause left is in RUN. Without a
free engine or an entry nothing starts. The model's choices: that RUN_START can be sent alone (logs 2, 4); that the run
takes the integrators and the VOLT_SAT count of this moment, which R19 names at the start of stage 6 (log 13); that it
takes N of this moment (log 35); and the number of its free values (log 12). -/
def Obligations.RunStartPinsAndTakes : Prop :=
  (∀ s : State, s.engine.running ≠ none ∨ s.engine.queue = [] → exec .runStart s = .next s) ∧
  (∀ (s : State) (e : Entry) (rest : List Entry), s.engine.running = none → s.engine.queue = e :: rest →
    (s.record e.chan).inUse = false →
    (rest = [] → exec .runStart s = .next { s with engine := { queue := [], running := none } }) ∧
    exec .runStart s = exec .runStart { s with engine := { queue := rest, running := none } }) ∧
  (∀ (s : State) (e : Entry) (rest : List Entry), s.engine.running = none → s.engine.queue = e :: rest →
    (s.record e.chan).inUse = true →
    let c := e.chan
    let control : Prop := (s.st c = .run ∨ s.st c = .hold) ∧ (e.strobe.st = .run ∨ e.strobe.st = .hold)
    let takes : Prop := control ∧ (s.role c).isFollower = false ∧ (s.refs.get c).mailbox ≠ none
    ∃ t x, exec .runStart s = .next t ∧
      t = { s with engine := t.engine, sup := t.sup, refs := t.refs, free := s.free + 1 } ∧
      t.engine = { queue := rest, running := some x } ∧
      x.entry = e ∧ x.bank = s.bank ∧ x.st = s.st c ∧ (x.control = true ↔ control) ∧
      x.p = s.tb.set.p ∧ x.n = s.tb.set.n ∧ x.ref = (s.refs.get c).ref ∧
      x.history = (s.loop.get c).history ∧ x.countMark = e.strobe.countMark ∧
      x.accD = (s.loop.get c).accD ∧ x.accQ = (s.loop.get c).accQ ∧ x.vsat = (s.loop.get c).vsat ∧
      (∀ k, (s.role c).slot = some k → x.pair = s.pairs.get k) ∧
      (x.tracking = true ↔ t.st c = .run) ∧ x.restarted = false ∧ x.chargeEntered = false ∧
      x.voltSatDone = false ∧ x.free = s.free ∧
      (¬takes → t.sup = s.sup ∧ t.refs = s.refs ∧ x.taken = none) ∧
      (takes → t.refs = s.refs.set c { s.refs.get c with mailbox := none } ∧
        (t.st c = .run → x.taken = (s.refs.get c).mailbox) ∧ (t.st c ≠ .run → x.taken = none) ∧
        ∀ d,
          (d = c ∨ (s.role c).partner = some d →
            (t.sup.get d).causes = { (s.sup.get d).causes with stale := false } ∧
            t.st d = (if s.st d = .hold ∧ (s.sup.get d).causes.ring = false ∧
              (s.sup.get d).causes.routed = false then .run else s.st d)) ∧
          (d ≠ c → (s.role c).partner ≠ some d → t.sup.get d = s.sup.get d)))

/-- RUN_COMPLETION of the run executing. First its results are written together: the last-run record holds the measured
values of the run's stages and the marks of a control run, the speed history is written unless the count mark stands; a
control run that was neither cut off by a RESTART nor crossed by an ENABLE writes integrators, VOLT_SAT count, reference
state and, a leader's, the pair runtime, and hands over its compares where the channel is in RUN or HOLD and the run is
not late; a monitor run writes none of these; other channels' loop state, and the queue, lanes, counts, banks and
timebase, stay. Then its events and conditions are delivered in the order of R31's table, none after a RESTART. Then the
free engine starts the oldest waiting entry. VOLT_SAT is left out where a VOLT_SAT command has already delivered it for
this run (log 2). -/
def Obligations.RunCompletionWritesResults : Prop :=
  (∀ s : State, s.engine.running = none → exec .runCompletion s = .next s) ∧
  ∀ (s : State) (x : Run), s.engine.running = some x →
    let c := x.entry.chan
    let f := x.front
    let z := f.cond
    let k := x.controlResult f x.accD x.accQ x.vsat
    let whole : Prop := x.restarted = false ∧ x.chargeEntered = false
    ∃ t w v, exec .runCompletion s = .next t ∧ exec .runStart v = .next t ∧ (s.engine.queue = [] → t = v) ∧
      w = { s with engine := { queue := s.engine.queue, running := none }, loop := w.loop, refs := w.refs,
                   pairs := w.pairs, mods := w.mods } ∧
      (∀ d, d ≠ c → w.loop.get d = s.loop.get d ∧ w.refs.get d = s.refs.get d ∧ w.mods.get d = s.mods.get d) ∧
      (let l := (w.loop.get c).last;
        l.completed = true ∧ l.control = x.control ∧ (l.iA, l.iB) = (z.iA, z.iB) ∧
        (l.id, l.iq, l.theta, l.delta) = (f.id, f.iq, f.theta, f.delta) ∧
        (l.dc, l.temp, l.fine) = (z.dc, z.temp, x.entry.strobe.own.fine) ∧
        (x.control = false → l.currentLimited = false ∧ l.voltageLimited = false) ∧
        (x.control = true → l.currentLimited = k.five.refs.limited) ∧
        (x.control = true → whole → l.voltageLimited = k.limited)) ∧
      (w.loop.get c).history = (if x.entry.strobe.countMark then (s.loop.get c).history
        else some ⟨f.theta, x.entry.strobe.own⟩) ∧
      (w.refs.get c).mailbox = (s.refs.get c).mailbox ∧
      (x.control = false ∨ ¬whole →
        (w.loop.get c).accD = (s.loop.get c).accD ∧ (w.loop.get c).accQ = (s.loop.get c).accQ ∧
        (w.loop.get c).vsat = (s.loop.get c).vsat ∧ w.pairs = s.pairs ∧ w.refs = s.refs) ∧
      (x.control = true → whole →
        (w.loop.get c).accD = k.accD ∧ (w.loop.get c).accQ = k.accQ ∧ (w.loop.get c).vsat = k.vsat ∧
        (w.refs.get c).ref = k.five.ref.getD (s.refs.get c).ref ∧
        (k.five.pair = none → w.pairs = s.pairs) ∧
        (∀ slot y, k.five.pair = some (slot, y) → w.pairs = s.pairs.set slot.val y slot.isLt)) ∧
      (x.control = false ∨ x.restarted = true ∨ x.entry.late = true ∨ (s.st c ≠ .run ∧ s.st c ≠ .hold) →
        w.mods = s.mods) ∧
      (x.control = true → whole → x.entry.late = false → s.st c = .run ∨ s.st c = .hold →
        w.mods.get c = { s.mods.get c with pending := some k.compares }) ∧
      (x.restarted = true → v = w) ∧
      (x.restarted = false → x.control = false ∨ x.chargeEntered = false →
        let w1 := w.raiseChanIf z.disagree .sampleDisagree c
        let w2 := w1.raiseChanIf z.overcurrent .overcurrent c
        let w3 := w2.deliverChan .undervolt c z.undervolt
        let w4 := w3.deliverChan .overvolt c z.overvolt
        let w5 := w4.deliverChan .overtemp c z.overtemp
        let w6 := w5.raiseChanIf (x.control && k.five.refs.limited) .currentLimit c
        let w7 := w6.deliverChan .pairSkew c (x.control && k.five.skew)
        v = w7.raiseChanIf (x.control && k.voltSat && !x.voltSatDone) .voltSat c)

/-- A run, of either type, that finds OVERCURRENT on a channel in use and not in TRIP, where a sample disagreement of it
is not trip-class: the channel is in TRIP at its completion with all gates off, cause OVERCURRENT via SELF, and a
snapshot of this run.

VOLT_SAT of the executing control run that finds an axis limited and raises the count to vsat_runs of its pinned bank:
the count takes effect, the flag is set and counted, and, where its route neither trips nor holds, no channel changes;
the completion does not raise it again. With no run executing, another channel's run, or no axis limited, there is no
VOLT_SAT. That this part of a completion can be sent alone is the model's choice (logs 2, 11). -/
def Obligations.OvercurrentAndVoltSat : Prop :=
  (∀ (s : State) (x : Run), s.engine.running = some x → x.restarted = false →
    let c := x.entry.chan
    let f := x.front
    let r := x.bank.record c
    f.cond.iA.natAbs > r.iTrip ∨ f.cond.iB.natAbs > r.iTrip ∨ f.cond.iC.natAbs > r.iTrip →
    s.st c ≠ .trip → (s.record c).inUse = true → s.bank.chanTripClass .sampleDisagree = false →
    ∃ t u, exec .runCompletion s = .next t ∧ t.st c = .trip ∧ (t.mods.get c).dark ∧
      (t.mods.get c).drive = false ∧
      t.router.trips.get c = some u ∧ u.cause = 1 ∧ u.via = .self ∧ u.cycle = s.ring.lastCycle ∧
      u.snapshot = { iA := f.cond.iA, iB := f.cond.iB, id := f.id, iq := f.iq, theta := f.theta,
                     dc := f.cond.dc, temp := f.cond.temp } ∧
      (t.chanFlag c .overcurrent).isSet = true) ∧
  (∀ (s : State) (x : Run), s.engine.running = some x → x.control = true → x.restarted = false →
    x.chargeEntered = false → x.voltSatDone = false →
    let c := x.entry.chan
    (x.controlResult x.front x.accD x.accQ x.vsat).limited = true → x.vsat < 255 →
    x.vsat + 1 = (x.bank.record c).vsatRuns →
    ∃ t u, exec (.voltSat c) s = .next t ∧
      t = { s with loop := t.loop, engine := t.engine, sup := t.sup, mods := t.mods, router := t.router } ∧
      t.engine = { s.engine with running := some { x with voltSatDone := true } } ∧
      t.loop = s.loop.set c { s.loop.get c with vsat := x.vsat + 1 } ∧
      t.chanFlag c .voltSat = { isSet := true, count := min 65535 ((s.chanFlag c .voltSat).count + 1) } ∧
      (∀ d k, (d, k) ≠ (c, ChanKind.voltSat) → t.chanFlag d k = s.chanFlag d k) ∧
      ((s.bank.route 8).tripSelf = false → (s.bank.route 8).tripAll = false →
        t.mods = s.mods ∧ t.router.trips = s.router.trips ∧
        ((s.bank.route 8).holdSelf = false → (s.bank.route 8).holdAll = false → t.sup = s.sup)) ∧
      exec .runCompletion t = .next u ∧ u.chanFlag c .voltSat = t.chanFlag c .voltSat ∧
      (u.loop.get c).vsat = x.vsat + 1) ∧
  (∀ (c : Chan) (s : State),
    (∀ x, s.engine.running = some x → x.entry.chan ≠ c ∨ x.control = false ∨ x.restarted = true ∨
      (x.chargeEntered = false ∧ (x.controlResult x.front x.accD x.accQ x.vsat).limited = false)) →
    exec (.voltSat c) s = .next s)

/-! ### Arithmetic of the run -/

/-- The compares of stage 11: for every voltage vector and setting, each of the three compares of a run is 0, P, or within
T..P − T with T = min(min_pulse, floor(P/4)); the minimum pulse changes a compare in 1..T − 1 to 0 where twice it is
below T and to T otherwise, one in P − T + 1..P − 1 to P where twice the rest is below T and to P − T otherwise, and
no other; with min_pulse 0 or 1 it changes none. -/
def Obligations.MinimumPulse : Prop :=
  (∀ (p m : Nat) (sn cs : Int) (v : Vector2), ∀ z ∈ [(comparesOf p m sn cs v).a, (comparesOf p m sn cs v).b,
      (comparesOf p m sn cs v).c],
    (∃ y ≤ p, z = minPulsed p m y) ∧
      (z = 0 ∨ z = p ∨ (min m (p / 4) ≤ z ∧ z + min m (p / 4) ≤ p))) ∧
  ∀ (p m y : Nat), y ≤ p → let t := min m (p / 4)
    (1 ≤ y → y < t → minPulsed p m y = if 2 * y < t then 0 else t) ∧
    (p - t < y → y < p → minPulsed p m y = if 2 * (p - y) < t then p else p - t) ∧
    (y = 0 ∨ y = p ∨ (t ≤ y ∧ y ≤ p - t) → minPulsed p m y = y) ∧
    (m ≤ 1 → minPulsed p m y = y)

/-- Stages 1 to 4 of every run, from the words of its entry and the record of its pinned bank: medians and spreads of the
low 12 bits, the three phase currents, the five findings; iβ; the electrical angle; the two speeds, 0 without history or
with the count mark, the revolutions and the angle taken as wrapped 16-bit differences; id and iq. Rounding adds half and
takes the floor. The sine table: its quarter points, no value outside ±32767, the low four bits of the angle ignored, the second half
the negative of the first. -/
def Obligations.StagesOneToFour : Prop :=
  (∀ x : Run,
    let r := x.bank.record x.entry.chan
    let w := x.entry.words
    let f := x.front
    let z := f.cond
    let own := x.entry.strobe.own
    let sat : Int → Int := fun y => max (-32768) (min 32767 y)
    let top := fun a b c : Word => max (max (a.toNat % 4096) (b.toNat % 4096)) (c.toNat % 4096)
    let low := fun a b c : Word => min (min (a.toNat % 4096) (b.toNat % 4096)) (c.toNat % 4096)
    let mid : Word → Word → Word → Int := fun a b c =>
      (a.toNat % 4096 : Nat) + (b.toNat % 4096 : Nat) + (c.toNat % 4096 : Nat) - (top a b c : Int) - (low a b c : Int)
    let beta := sat (((z.iA + 2 * z.iB) * 18919 + 16384) / 32768)
    z.iA = sat ((mid w.a1 w.a2 w.a3 - r.offsetA) * 16) ∧ z.iB = sat ((mid w.b1 w.b2 w.b3 - r.offsetB) * 16) ∧
    z.iC = sat (-(z.iA + z.iB)) ∧ z.dc = w.dc.toNat % 4096 ∧ z.temp = w.temp.toNat % 4096 ∧
    (z.disagree = true ↔ low w.a1 w.a2 w.a3 + r.disagreeWindow < top w.a1 w.a2 w.a3 ∨
      low w.b1 w.b2 w.b3 + r.disagreeWindow < top w.b1 w.b2 w.b3) ∧
    (z.overcurrent = true ↔ r.iTrip < z.iA.natAbs ∨ r.iTrip < z.iB.natAbs ∨ r.iTrip < z.iC.natAbs) ∧
    (z.undervolt = true ↔ z.dc < r.uUnder) ∧ (z.overvolt = true ↔ r.uOver < z.dc) ∧
    (z.overtemp = true ↔ r.tTrip ≤ z.temp) ∧
    f.theta = ((own.fine * r.polePairs % r.cpr) * 65536 / r.cpr + r.angleOffset) % 65536 ∧
    f.sin = sinOf f.theta ∧ f.cos = sinOf (f.theta + 16384) ∧
    (x.history = none ∨ x.countMark = true → f.omega = 0 ∧ f.delta = 0) ∧
    (∀ h, x.history = some h → x.countMark = false →
      let dr : Int := (own.rev - h.counts.rev).toInt
      f.omega = ((f.theta : Int) - h.theta + 32768) % 65536 - 32768 ∧
      f.delta = max (-32767) (min 32767 ((own.fine : Int) - h.counts.fine + dr * r.cpr))) ∧
    f.id = sat ((z.iA * f.cos + beta * f.sin + 16384) / 32768) ∧
    f.iq = sat ((beta * f.cos - z.iA * f.sin + 16384) / 32768)) ∧
  ((sinOf 0, sinOf 8192, sinOf 16384, sinOf 32768, sinOf 49152) = (0, 23170, 32767, 0, -32767) ∧
   ∀ a : Nat, sinOf (a % 65536) = sinOf (a / 16 * 16 % 65536) ∧ sinOf (a % 32768 + 32768) = -sinOf (a % 32768) ∧
     -32767 ≤ sinOf a ∧ sinOf a ≤ 32767)

/-- Feed-forward: with ff_enable set the terms are −((ωe × x_q rounded at 2^15) × iq rounded at 2^15) for the d axis and
((ωe × x_d rounded at 2^15) × id rounded at 2^15) + (ωe × e_bemf rounded at 2^15) for the q axis, neither saturated,
with signed coefficients; with it clear, and at speed 0, both are 0.

Stage 7: comp is min(65535, floor(u_nominal × 32768 / u_eff)) with u_eff the larger of the DC code and u_under; each axis
saturates its output, scales it and saturates it again, and is limited where a saturation changed a value. Stages 9 to 11:
the vector turned back by sine and cosine, the three phases with the common-mode injection, and each compare from P, clamped
to 0..P and then by the minimum pulse. A control run is these stages one after another on its references, and counts its
limited runs to 255. -/
def Obligations.StagesSixToEleven : Prop :=
  (∀ (k : Nat) (x : Int), roundAt k x = (x + 2 ^ (k - 1)) / 2 ^ k) ∧
  (∀ (b : Bank) (c : Chan), let r := b.record c
    r.xD = (b.recGroup c 4).w0.toInt ∧ r.xQ = (b.recGroup c 4).w1.toInt ∧ r.eBemf = (b.recGroup c 4).w2.toInt) ∧
  (∀ (r : Record) (w id iq : Int),
    (r.ffEnable = true →
      feedForwardD r w iq = -(roundAt 15 (roundAt 15 (w * r.xQ) * iq)) ∧
      feedForwardQ r w id = roundAt 15 (roundAt 15 (w * r.xD) * id) + roundAt 15 (w * r.eBemf)) ∧
    (r.ffEnable = false ∨ w = 0 → feedForwardD r w iq = 0 ∧ feedForwardQ r w id = 0)) ∧
  (∀ (r : Record) (dc : Nat), (dc ≤ r.uUnder → dcGain r dc = (min 65535 (r.uNominal * 32768 / r.uUnder) : Nat)) ∧
    (r.uUnder ≤ dc → dcGain r dc = (min 65535 (r.uNominal * 32768 / dc) : Nat))) ∧
  (∀ (ref meas acc ff comp : Int) (kp ki : Nat),
    let a := axisOf ref meas kp ki acc ff comp
    let u := max (-32768) (min 32767 a.uRaw)
    let y := (u * comp + 16384) / 32768
    a.v = max (-32768) (min 32767 y) ∧
      (a.limited = false ↔ -32768 ≤ a.uRaw ∧ a.uRaw ≤ 32767 ∧ -32768 ≤ y ∧ y ≤ 32767)) ∧
  (∀ (p m : Nat) (sn cs : Int) (v : Vector2),
    let va := max (-32768) (min 32767 ((v.d * cs - v.q * sn + 16384) / 32768))
    let vBeta := max (-32768) (min 32767 ((v.d * sn + v.q * cs + 16384) / 32768))
    let vb := (-16384 * va + 28378 * vBeta + 16384) / 32768
    let vc := -va - vb
    let o := -((max (max va vb) vc + min (min va vb) vc) / 2)
    let cmp := fun w : Int =>
      minPulsed p m (max 0 (min (p : Int) ((p / 2 : Nat) + (w * p * 18919 + 536870912) / 1073741824))).toNat
    comparesOf p m sn cs v = ⟨cmp (va + o), cmp (vb + o), cmp (vc + o)⟩) ∧
  ∀ (x : Run) (f : Front) (accD accQ : Int) (vsat : Nat),
    let k := x.controlResult f accD accQ vsat
    let r := x.bank.record x.entry.chan
    let refs := (x.stageFive f).refs
    let ad := axisOf refs.idRef f.id r.kpD r.kiD accD (feedForwardD r f.omega f.iq) (dcGain r f.cond.dc)
    let aq := axisOf refs.iqRef f.iq r.kpQ r.kiQ accQ (feedForwardQ r f.omega f.id) (dcGain r f.cond.dc)
    let v := limitVector r.vLimit ad.v aq.v
    let limD := ad.limited || decide (v.d ≠ ad.v)
    let limQ := aq.limited || decide (v.q ≠ aq.v)
    k.five = x.stageFive f ∧ k.accD = decideAcc ad limD accD ∧ k.accQ = decideAcc aq limQ accQ ∧
      k.limited = (limD || limQ) ∧ k.compares = comparesOf x.p r.minPulse f.sin f.cos v ∧
      (k.limited = false → k.vsat = 0 ∧ k.voltSat = false) ∧
      (k.limited = true → k.vsat = min 255 (vsat + 1) ∧
        (k.voltSat = true ↔ min 255 (vsat + 1) = r.vsatRuns ∧ vsat ≠ r.vsatRuns))

/-- The integer square root is exact below 2^32, and both circles of the run hold by it, the d axis served first: the limited
voltage vector is d within v_limit and q within the root of what remains of the circle, the references of a control run the
same within the composed current limit; each axis takes the nearest value within its bound, so that a value is changed
only where it lies outside.

Anti-windup of one axis: a limited axis whose error is not 0 and has the sign of its unsaturated output keeps its
integrator; in every other case the integrator takes the candidate, the old value plus k_i times the error, saturated
to 32 bits. -/
def Obligations.CirclesAndAntiWindup : Prop :=
  ((∀ x : Nat, x < 4294967296 → isqrt x * isqrt x ≤ x ∧ x < (isqrt x + 1) * (isqrt x + 1)) ∧
   (∀ (l : Nat) (vd vq : Int), l ≤ 65535 → let v := limitVector l vd vq
     let rest : Int := isqrt ((l : Int) * l - v.d * v.d).toNat
     v.d * v.d + v.q * v.q ≤ (l : Int) * l ∧ v.d = max (-(l : Int)) (min (l : Int) vd) ∧
     v.q = max (-rest) (min rest vq) ∧ (vd * vd + vq * vq ≤ (l : Int) * l → v.d = vd ∧ v.q = vq)) ∧
   ∀ (l id iq : Int), 0 ≤ l → l ≤ 65535 → let x := composeReferences l id iq
     let rest : Int := isqrt (l * l - x.idRef * x.idRef).toNat
     x.idRef * x.idRef + x.iqRef * x.iqRef ≤ l * l ∧ x.idRef = max (-l) (min l id) ∧
     x.iqRef = max (-rest) (min rest iq) ∧
     (x.limited = false ↔ id * id + iq * iq ≤ l * l) ∧ (x.limited = false → x.idRef = id ∧ x.iqRef = iq)) ∧
  (∀ (ref meas acc ff comp : Int) (kp ki : Nat) (limited : Bool),
     let a := axisOf ref meas kp ki acc ff comp
     a.err = ref - meas ∧ a.uRaw = roundAt 12 (kp * (ref - meas)) + acc / 65536 + ff ∧
     a.candidate = max (-2147483648) (min 2147483647 (acc + ki * (ref - meas))) ∧
     (limited = true → (0 < a.err ∧ 0 < a.uRaw ∨ a.err < 0 ∧ a.uRaw < 0) → decideAcc a limited acc = acc) ∧
     (limited = false ∨ a.err = 0 ∨ a.uRaw = 0 ∨ (0 < a.err ∧ a.uRaw < 0) ∨ (a.err < 0 ∧ 0 < a.uRaw) →
       decideAcc a limited acc = a.candidate))

/-- A curve with strictly ascending x: before its first point the first y, from its last point on the last y, between two
neighbouring points the segment with its quotient truncated toward zero, which stays between their y values. The points of a
channel's two curves are the first of its count, two to a group. The current limit is the smallest of i_max, the derate value
at the temperature code and an override that is not 0; the flux reference is 0, the value held, or the fw curve at the
magnitude of the speed where fw_enable is set and the count at least 2. -/
def Obligations.CurvesAndLimits : Prop :=
  (∀ (l : List (Int × Int)) (x : Int), (l.map (·.1)).Pairwise (· < ·) →
    (∀ p a, l = p :: a → x < p.1 → curveAt l x = p.2) ∧
    (∀ a p, l = a ++ [p] → p.1 ≤ x → curveAt l x = p.2) ∧
    (∀ a p q b, l = a ++ p :: q :: b → p.1 ≤ x → x < q.1 →
      curveAt l x = p.2 + ((q.2 - p.2) * (x - p.1)).tdiv (q.1 - p.1) ∧
      min p.2 q.2 ≤ curveAt l x ∧ curveAt l x ≤ max p.2 q.2)) ∧
  (∀ (b : Bank) (c : Chan),
    (b.deratePoints c).length = (b.record c).derateCount ∧ (b.fwPoints c).length = (b.record c).fwCount ∧
    (∀ k, k < (b.record c).derateCount → (b.deratePoints c)[k]? =
      let g := b.group 1 (c.val * 4 + k / 2)
      some (if k % 2 = 0 then ((g.w0.toNat : Int), (g.w1.toNat : Int)) else ((g.w2.toNat : Int), (g.w3.toNat : Int)))) ∧
    ∀ k, k < (b.record c).fwCount → (b.fwPoints c)[k]? =
      let g := b.group 2 (c.val * 8 + k / 2)
      some (if k % 2 = 0 then ((g.w0.toNat : Int), g.w1.toInt) else ((g.w2.toNat : Int), g.w3.toInt))) ∧
  ∀ (b : Bank) (c : Chan) (temp limit : Nat) (held delta : Int),
    let r := b.record c
    let d := curveAt (b.deratePoints c) temp
    currentLimit b c temp limit = (if limit = 0 then min (r.iMax : Int) d else min (min (r.iMax : Int) d) limit) ∧
    idRefRaw b c .zero held delta = 0 ∧ idRefRaw b c .given held delta = held ∧
    (r.fwEnable = true → 2 ≤ r.fwCount → idRefRaw b c .auto held delta = curveAt (b.fwPoints c) delta.natAbs) ∧
    (r.fwEnable = false ∨ r.fwCount < 2 → idRefRaw b c .auto held delta = 0)

/-- The reference stage: a tracking ramp reaches its target in N runs without overshoot and stays there, a step takes it
at once; a holding run moves the reference by decay_step toward 0 and never past it; a take starts the ramp from the
reference reached. The reference of a run is these: take and ramp or step where it tracks, decay where it holds. -/
def Obligations.ReferenceFollowsTheSetpoint : Prop :=
  (∀ x : Run, let r := x.bank.record x.entry.chan
    (x.tracking = true → ∀ p, x.taken = some p → x.reference = (x.ref.take p).track r.ramp x.n) ∧
    (x.tracking = true → x.taken = none → x.reference = x.ref.track r.ramp x.n) ∧
    (x.tracking = false → x.reference = x.ref.decayed r.decayStep)) ∧
  (∀ (f : RefState) (n : Nat), 0 < n → n ≤ f.step + 1 → (f.track true n).raw = f.target ∧ (f.track true n).step = n) ∧
  (∀ (f : RefState) (n : Nat), f.step + 1 < n → let g := f.track true n
    g.step = f.step + 1 ∧ g.raw = f.base + ((f.target - f.base) * (f.step + 1 : Nat)).tdiv n ∧
    min f.base f.target ≤ g.raw ∧ g.raw ≤ max f.base f.target) ∧
  (∀ (f : RefState) (n : Nat), (f.track false n).raw = f.target ∧ (f.track false n).step = n) ∧
  (∀ (f : RefState) (p : Payload), let g := f.take p
    g.raw = f.raw ∧ g.base = f.raw ∧ g.target = p.iq ∧ g.step = 0 ∧ g.mode = p.mode ∧ g.idHeld = p.id ∧
    g.limit = p.limit ∧ g.takenCycle = some p.cycle) ∧
  ∀ (f : RefState) (d : Nat), let g := f.decayed d
    (f.raw.natAbs ≤ d → g.raw = 0) ∧ (d < f.raw.natAbs → g.raw.natAbs + d = f.raw.natAbs ∧ (0 < g.raw ↔ 0 < f.raw)) ∧
    (f.mode = .given → f.idHeld.natAbs ≤ d → g.idHeld = 0) ∧
    (f.mode = .given → d < f.idHeld.natAbs → g.idHeld.natAbs + d = f.idHeld.natAbs ∧ (0 < g.idHeld ↔ 0 < f.idHeld)) ∧
    (f.mode ≠ .given → g.idHeld = f.idHeld) ∧
    g = { f with raw := g.raw, idHeld := g.idHeld }

/-- The shares of a leader's control run: the two add up to the pair setpoint, the leader's is the split part of it plus
the skew correction, which stays within skew_max; the skew is that of the counts latched at one valley, the revolutions
taken as a wrapped 16-bit difference, less the offset; a follower takes its stored share, and 0 where none has been
written. Counts missing from a strobe record are free values (log 15). -/
def Obligations.PairSharesAddUp : Prop :=
  (∀ (e : PairEntry) (cpr : Nat) (l f : Counts),
    pairSkew e cpr l f = (l.rev - f.rev).toInt * cpr + ((l.fine : Int) - f.fine) - e.skewOffset) ∧
  (∀ (x : Run) (f : Front) (slot : Fin 4) (p : Chan), x.bank.role x.entry.chan = .leader slot p →
    let e := x.bank.pairEntry slot
    let d := pairSkew e (x.bank.record x.entry.chan).cpr x.entry.strobe.own x.followerCounts
    let corr : Int := max (-e.skewMax) (min e.skewMax (roundAt 8 (d * e.skewGain)))
    (∀ y, x.entry.strobe.follower = some y → x.followerCounts = y) ∧
    ∃ y, (x.stageFive f).pair = some (slot, y) ∧ y.shareL + y.shareF = x.reference.raw ∧
      y.shareL = roundAt 15 (x.reference.raw * e.split) + corr ∧ y.written = true ∧
      y.mode = x.reference.mode ∧ y.idValue = x.reference.idHeld ∧ y.limit = x.reference.limit ∧
      (x.stageFive f).ref = some x.reference ∧
      (x.stageFive f).skew = decide (d.natAbs > e.skewTrip) ∧
      (x.stageFive f).refs = composeReferences (currentLimit x.bank x.entry.chan f.cond.temp x.reference.limit)
        (idRefRaw x.bank x.entry.chan x.reference.mode x.reference.idHeld f.delta) y.shareL) ∧
  (∀ (x : Run) (f : Front) (slot : Fin 4) (p : Chan), x.bank.role x.entry.chan = .follower slot p →
    (x.stageFive f).ref = none ∧ (x.stageFive f).pair = none ∧ (x.stageFive f).skew = false ∧
    (x.pair.written = false → (x.stageFive f).refs =
      composeReferences (currentLimit x.bank x.entry.chan f.cond.temp 0) 0 0) ∧
    (x.pair.written = true → (x.stageFive f).refs =
      composeReferences (currentLimit x.bank x.entry.chan f.cond.temp x.pair.limit)
        (idRefRaw x.bank x.entry.chan x.pair.mode x.pair.idValue f.delta) x.pair.shareF)) ∧
  (∀ (x : Run) (f : Front), x.bank.role x.entry.chan = .lone →
    (x.stageFive f).ref = some x.reference ∧ (x.stageFive f).pair = none ∧ (x.stageFive f).skew = false ∧
    (x.stageFive f).refs = composeReferences (currentLimit x.bank x.entry.chan f.cond.temp x.reference.limit)
      (idRefRaw x.bank x.entry.chan x.reference.mode x.reference.idHeld f.delta) x.reference.raw) ∧
  ∀ (e : PairEntry) (t corr : Int), (e.split = 32768 → leaderShare e t corr = t + corr) ∧
    (e.split = 0 → leaderShare e t corr = corr)

/-! ### Position counters -/

/-- FILTERED_CHANGE of a decoded encoder: a change of one of A and B is a step, up where A leads (A changes to a level
other than B's, or B to A's) and down otherwise, and the counts carry at 0 and cpr; a change of both at one tick
leaves the counts and raises ENCODER_FAULT where the record is in use; each new pair is what the next change is
decoded from.

An index edge (filtered Z from low to high, A and B still): in CAPTURE mode with the mark armed, and in CHECK mode
always, the counts are captured and the capture count rises; CAPTURE clears the mark; CHECK raises INDEX_MISMATCH
exactly where the distance around the revolution exceeds the tolerance; in OFF mode, in CAPTURE with the mark clear,
and for a record not in use, nothing but the level changes. The counts themselves never change. -/
def Obligations.FilteredChangesCountAndCapture : Prop :=
  (∀ (c : Chan) (s : State) (a b : Bool) (first : Bool),
     let p := s.pos.get c
     let cpr := if (s.record c).inUse = true then (s.record c).cpr else 16777216
     let up : Counts := if p.fine + 1 = cpr then ⟨0, p.rev + 1⟩ else ⟨p.fine + 1, p.rev⟩
     let down : Counts := if p.fine = 0 then ⟨cpr - 1, p.rev - 1⟩ else ⟨p.fine - 1, p.rev⟩
     p.fa.level = some a → p.fb.level = some b → p.dec = some (a, b) →
     (∃ t, exec (.filteredChange c (some !a) none none first) s = .next t ∧ t = { s with pos := t.pos } ∧
       (∀ d, d ≠ c → t.pos.get d = s.pos.get d) ∧
       (let q := t.pos.get c;
         ⟨q.fine, q.rev⟩ = (if a = b then up else down) ∧ q.dec = some (!a, b) ∧ q.fa.level = some !a ∧
         q.fb = p.fb ∧ q.fz = p.fz ∧ (q.latched, q.captured, q.captures, q.armed) = (p.latched, p.captured, p.captures, p.armed))) ∧
     (∃ t, exec (.filteredChange c none (some !b) none first) s = .next t ∧ t = { s with pos := t.pos } ∧
       (∀ d, d ≠ c → t.pos.get d = s.pos.get d) ∧
       (let q := t.pos.get c;
         ⟨q.fine, q.rev⟩ = (if a = b then down else up) ∧ q.dec = some (a, !b) ∧ q.fb.level = some !b ∧
         q.fa = p.fa ∧ q.fz = p.fz ∧ (q.latched, q.captured, q.captures, q.armed) = (p.latched, p.captured, p.captures, p.armed))) ∧
     ∃ t, exec (.filteredChange c (some !a) (some !b) none first) s = .next t ∧
       t = { s with pos := t.pos, sup := t.sup, mods := t.mods, router := t.router } ∧
       (let q := t.pos.get c;
         (q.fine, q.rev) = (p.fine, p.rev) ∧ q.dec = some (!a, !b)) ∧
       ((s.record c).inUse = true → t.chanFlag c .encoderFault =
         { isSet := true, count := min 65535 ((s.chanFlag c .encoderFault).count + 1) }) ∧
       ((s.record c).inUse = false → t.sup = s.sup ∧ t.mods = s.mods ∧ t.router = s.router)) ∧
  (∀ (c : Chan) (s : State) (first : Bool), let p := s.pos.get c
     let r := s.record c
     let now : Counts := ⟨p.fine, p.rev⟩
     let x : Int := ((p.fine : Int) - r.indexExpect) % r.cpr
     p.fz.level = some false → p.fa.level.isSome = true → p.fb.level.isSome = true → p.dec.isSome = true →
     ∃ t, exec (.filteredChange c none none (some true) first) s = .next t ∧
       t = { s with pos := t.pos, sup := t.sup, mods := t.mods, router := t.router } ∧
       (t.pos.get c).fz.level = some true ∧ (t.pos.get c).fine = p.fine ∧ (t.pos.get c).rev = p.rev ∧
       (r.inUse = true → r.indexMode = 1 → p.armed = true →
         t.router = s.router ∧ t.sup = s.sup ∧ (t.pos.get c).captured = some now ∧
         (t.pos.get c).captures = min 255 (p.captures + 1) ∧ (t.pos.get c).armed = false) ∧
       (r.inUse = true → r.indexMode = 2 →
         (t.pos.get c).captured = some now ∧ (t.pos.get c).captures = min 255 (p.captures + 1) ∧
         (t.pos.get c).armed = p.armed ∧
         (min x (r.cpr - x) ≤ r.indexTolerance → t.router = s.router ∧ t.sup = s.sup) ∧
         (r.indexTolerance < min x (r.cpr - x) → t.chanFlag c .indexMismatch =
           { isSet := true, count := min 65535 ((s.chanFlag c .indexMismatch).count + 1) })) ∧
       (r.inUse = false ∨ r.indexMode = 0 ∨ (r.indexMode = 1 ∧ p.armed = false) →
         t = { s with pos := s.pos.set c { p with fz := (t.pos.get c).fz } }))

/-- The input filter. RAW_SAMPLE_CHANGE: the level at the pin changes, and no level, count or flag. A tick samples the pin: a
sample other than the last one starts the number of equal samples at 1, an equal one counts on to 3. The third equal sample
changes the level, and a pulse of two ticks does not. Three ticks with no command between them, short of a turning point,
bring every input of every encoder and INH_N to the level at its pin, from whatever they were, unknown after power-on
among them. STARTING_LEVEL of an unknown encoder input: the level is taken, with no count, no index edge and nothing raised;
A and B become known to the decoder together. That a command sets the level at a pin and the next tick samples it is the
model's choice (log 34). -/
def Obligations.InputFilterTakesThreeSamples : Prop :=
  (∀ (c : Chan) (l : EncLine) (v : Bool) (s : State), let p := s.pos.get c
    ∃ t, exec (.rawSampleChange (.enc c l) v) s = .next t ∧ t = { s with pos := t.pos } ∧
      (∀ d, d ≠ c → t.pos.get d = s.pos.get d) ∧
      (t.pos.get c).filter l = { p.filter l with pin := v } ∧
      (∀ k, k ≠ l → (t.pos.get c).filter k = p.filter k) ∧
      t.pos.get c = { p with fa := (t.pos.get c).fa, fb := (t.pos.get c).fb, fz := (t.pos.get c).fz }) ∧
  (∀ (v : Bool) (s : State), exec (.rawSampleChange .inhN v) s =
    .next { s with tb := { s.tb with inh := { s.tb.inh with pin := v } } }) ∧
  (∀ (f : Filter) (n : Nat),
    (f.raw ≠ some f.pin → f.aged 1 = { f with raw := some f.pin, count := 1 }) ∧
    (f.raw = some f.pin → f.aged 1 = { f with count := min 3 (f.count + 1) }) ∧
    f.aged (n + 1) = (f.aged n).aged 1 ∧
    (f.raw ≠ some f.pin → f.level ≠ some f.pin →
      (f.aged 1).taken.level = f.level ∧ (f.aged 2).taken.level = f.level ∧ (f.aged 3).taken.level = some f.pin ∧
      (((f.aged 2).drive !f.pin).aged 1).taken.level = f.level)) ∧
  (∀ s : State, s.pending = [] → 3 < s.tb.left → ∃ t1 t2 t3, step s = .next t1 ∧ step t1 = .next t2 ∧
    step t2 = .next t3 ∧ t3.tb.inh.level = some s.tb.inh.pin ∧
    ∀ c l, ((t3.pos.get c).filter l).level = some ((s.pos.get c).filter l).pin) ∧
  ∀ (c : Chan) (l : EncLine) (v : Bool) (s : State), let p := s.pos.get c
    (p.filter l).level = none →
    ∃ t, exec (.startingLevel (.enc c l) v) s = .next t ∧ t = { s with pos := t.pos } ∧
      (∀ d, d ≠ c → t.pos.get d = s.pos.get d) ∧ ((t.pos.get c).filter l).level = some v ∧
      (∀ k, k ≠ l → (t.pos.get c).filter k = p.filter k) ∧
      (let q := t.pos.get c;
        q.fine = p.fine ∧ q.rev = p.rev ∧
        (q.latched, q.captured, q.captures, q.armed) = (p.latched, p.captured, p.captures, p.armed) ∧
        (p.dec.isSome = true → q.dec = p.dec) ∧
        (p.dec = none → ∀ a b, q.fa.level = some a → q.fb.level = some b → q.dec = some (a, b)) ∧
        (p.dec = none → q.fa.level = none ∨ q.fb.level = none → q.dec = none))

/-! ### The inhibit input -/

/-- INH_N_LOW, from high or as the starting level, and STARTING_LEVEL taken low: every gate line of every channel is off
at once, whatever its state; with the condition absent before, EXT_INHIBIT is set and counted and every channel in use
is in TRIP via ALL with cause 21, or, where it was in TRIP already, keeps its record's cause; with the condition kept
present, no channel changes state.

INH_N_HIGH from low: the EXT_INHIBIT condition is absent, its flag and every channel state stay, and the gate lines
are driven again from the gate states: a channel in INHIBIT stays dark, one in DRIVE has the gate of its commanded
side on where its partner has been off for the dead time; that the side is high at the compare value itself on the way down is
the model's reading (log 32). A starting level taken high, by STARTING_LEVEL or INH_N_HIGH, changes the level alone. That
the level at the pin is the new one after INH_N_LOW and INH_N_HIGH is the model's choice (log 34). -/
def Obligations.InhibitInput : Prop :=
  (∀ (s : State), s.tb.inh.level ≠ some false →
     ∃ t, exec .inhNLow s = .next t ∧
       t = { s with tb := t.tb, sup := t.sup, mods := t.mods, router := t.router } ∧
       t.tb = { s.tb with inh := { pin := false, raw := some false, count := 3, level := some false } } ∧
       (s.tb.inh.level = none → exec (.startingLevel .inhN false) s = .next t) ∧
       (∀ c, (t.mods.get c).dark) ∧ t.router.devKept.extInhibit = true ∧
       (s.router.devKept.extInhibit = true → t.sup = s.sup ∧ t.router = s.router) ∧
       (s.router.devKept.extInhibit = false →
         t.devFlag .extInhibit = { isSet := true, count := min 65535 ((s.devFlag .extInhibit).count + 1) } ∧
         t.router.lines = t.linesNow ∧
         ∀ c,
           ((s.record c).inUse = true → s.st c ≠ .trip → s.trippedTo t c 21 .all) ∧
           (s.st c = .trip → t.sup.get c = s.sup.get c ∧
             (t.router.trips.get c).map (·.cause) = (s.router.trips.get c).map (·.cause)))) ∧
  ((∀ (s : State), s.tb.inh.level = some false →
     ∃ t, exec .inhNHigh s = .next t ∧ t = { s with tb := t.tb, mods := t.mods, router := t.router } ∧
       t.tb = { s.tb with inh := { pin := true, raw := some true, count := 3, level := some true } } ∧
       t.router = { s.router with devKept := { s.router.devKept with extInhibit := false } } ∧
       ∀ c,
         t.mods.get c = { s.mods.get c with
           pa := (t.mods.get c).pa, pb := (t.mods.get c).pb, pc := (t.mods.get c).pc } ∧
         ((s.mods.get c).drive = false → (t.mods.get c).dark) ∧
         ((s.mods.get c).drive = true → (s.mods.get c).dark → ∀ ph,
           let q := (s.mods.get c).phase ph
           let high := sideHigh (s.tb.chanUp c) s.tb.set.p (s.tb.chanCounter c) ((s.mods.get c).active.get ph)
           ((t.mods.get c).phase ph).hi = (high && decide ((s.mods.get c).deadTime ≤ q.loOff)) ∧
           ((t.mods.get c).phase ph).lo = (!high && decide ((s.mods.get c).deadTime ≤ q.hiOff)))) ∧
   ∀ (s : State), s.tb.inh.level = none → exec (.startingLevel .inhN true) s = exec .inhNHigh s ∧ exec .inhNHigh s =
     .next { s with tb := { s.tb with inh := { pin := true, raw := some true, count := 3, level := some true } } })

/-! ### Raises -/

/-- One raise of a channel kind, by the routes of the active bank: its flag alone is set and counted; every channel it
names for a trip, and the pair partner of one, that is not in TRIP and has a record in use is in TRIP with a new trip
record of this kind, via SELF, ALL or PARTNER; one already in TRIP gains a secondary cause and changes no more; of the
others, one in RUN or HOLD that a hold names, itself or through its partner, is in HOLD with the causes, and any other
channel that the trip does not reach is as it was; one reached whose record is not in use keeps gates and record; the fault
lines are judged: line n is asserted exactly where a set flag of a channel or of the device has line n in the mask of its
route in the active bank.

One raise of a device kind: the same, its self names every channel, and its trips reach them via ALL. -/
def Obligations.RaiseAppliesFixedAndRoutedActions : Prop :=
  (∀ (k : ChanKind) (c : Chan) (s : State),
    let t := s.raiseChan k c
    let r := s.bank.route k.code
    let self : Bool := k = .overcurrent ∨ k = .bridgeFault ∨ k = .comparesStale ∨ r.tripSelf = true
    let named := fun d : Chan => (d = c ∧ self = true) ∨ r.tripAll = true
    let held := fun d : Chan => (d = c ∧ (k = .setpointStale ∨ r.holdSelf = true)) ∨ r.holdAll = true
    let reached := fun d : Chan => named d ∨ ∃ p, (s.role d).partner = some p ∧ named p
    t = { s with sup := t.sup, mods := t.mods, router := t.router } ∧
    t.router.kept = s.router.kept ∧ t.router.devKept = s.router.devKept ∧ t.router.dev = s.router.dev ∧
    t.router.lines = t.linesNow ∧
    t.chanFlag c k = { isSet := true, count := min 65535 ((s.chanFlag c k).count + 1) } ∧
    (∀ d j, (d, j) ≠ (c, k) → t.chanFlag d j = s.chanFlag d j) ∧
    ∀ d,
      (reached d → s.st d ≠ .trip → (s.record d).inUse = true →
        (d = c → self = true → s.trippedTo t d k.code .self) ∧
        (named d → ¬(d = c ∧ self = true) → s.trippedTo t d k.code .all) ∧
        (∀ p, ¬named d → (s.role d).partner = some p → s.trippedTo t d k.code (.partner p))) ∧
      (reached d → s.st d = .trip → t.sup.get d = s.sup.get d ∧ t.mods.get d = s.mods.get d ∧
        ∀ x, s.router.trips.get d = some x →
          (x.secondary.length < 3 → t.router.trips.get d =
            some { x with secondary := x.secondary ++ [⟨k.code, s.ring.lastCycle⟩] }) ∧
          (3 ≤ x.secondary.length → t.router.trips.get d =
            some { x with overflow := min 255 (x.overflow + 1) })) ∧
      (reached d → s.st d ≠ .trip → (s.record d).inUse = false →
        t.mods.get d = s.mods.get d ∧ t.router.trips.get d = s.router.trips.get d) ∧
      (¬reached d → t.mods.get d = s.mods.get d ∧ t.router.trips.get d = s.router.trips.get d ∧
        (s.st d = .run ∨ s.st d = .hold →
          (held d ∨ ∃ p, (s.role d).partner = some p ∧ held p) → t.st d = .hold) ∧
        (held d → s.st d = .run ∨ s.st d = .hold → r.holdSelf = true ∨ r.holdAll = true →
          (t.sup.get d).causes.routed = true) ∧
        (s.st d ≠ .run → s.st d ≠ .hold → t.sup.get d = s.sup.get d) ∧
        (¬held d → (∀ p, (s.role d).partner = some p → ¬held p) → t.sup.get d = s.sup.get d))) ∧
  (∀ (s : State) (n : Fin 4), s.linesNow.getLsbD n = true ↔
    (∃ (c : Chan) (k : ChanKind), (s.chanFlag c k).isSet = true ∧ (s.bank.route k.code).lines.getLsbD n = true) ∨
      ∃ k : DevKind, (s.devFlag k).isSet = true ∧ (s.bank.route k.code).lines.getLsbD n = true) ∧
  ∀ (k : DevKind) (s : State),
    let t := s.raiseDev k
    let r := s.bank.route k.code
    let trips : Prop := k = .extInhibit ∨ r.tripSelf = true ∨ r.tripAll = true
    let holds : Prop := k = .ringLoss ∨ r.holdSelf = true ∨ r.holdAll = true
    t = { s with sup := t.sup, mods := t.mods, router := t.router } ∧
    t.router.kept = s.router.kept ∧ t.router.devKept = s.router.devKept ∧ t.router.flags = s.router.flags ∧
    t.router.lines = t.linesNow ∧
    t.devFlag k = { isSet := true, count := min 65535 ((s.devFlag k).count + 1) } ∧
    (∀ j, j ≠ k → t.devFlag j = s.devFlag j) ∧
    ∀ d,
      (trips → s.st d ≠ .trip → (s.record d).inUse = true → s.trippedTo t d k.code .all) ∧
      (trips → s.st d = .trip → t.sup.get d = s.sup.get d ∧ t.mods.get d = s.mods.get d ∧
        ∀ x, s.router.trips.get d = some x →
          (x.secondary.length < 3 → t.router.trips.get d =
            some { x with secondary := x.secondary ++ [⟨k.code, s.ring.lastCycle⟩] }) ∧
          (3 ≤ x.secondary.length → t.router.trips.get d =
            some { x with overflow := min 255 (x.overflow + 1) })) ∧
      (trips → s.st d ≠ .trip → (s.record d).inUse = false →
        t.mods.get d = s.mods.get d ∧ t.router.trips.get d = s.router.trips.get d) ∧
      (¬trips → t.mods.get d = s.mods.get d ∧ t.router.trips.get d = s.router.trips.get d ∧
        (holds → s.st d = .run ∨ s.st d = .hold → t.sup.get d = { s.sup.get d with
          st := .hold
          causes := { (s.sup.get d).causes with
            ring := decide (k = .ringLoss) || (s.sup.get d).causes.ring
            routed := (r.holdSelf || r.holdAll) || (s.sup.get d).causes.routed } }) ∧
        (¬holds ∨ (s.st d ≠ .run ∧ s.st d ≠ .hold) → t.sup.get d = s.sup.get d))

/-- A level condition, delivered present while its kept condition is absent, is one raise and is kept; delivered present
again, or absent, it raises nothing; delivered absent it is kept absent. So a condition that comes, stays and goes is
raised once. Each level condition is that of the kind of its name, and is kept under its own. -/
def Obligations.LevelConditionsRaiseOnce : Prop :=
  (([ChanLevel.bridgeFault, .undervolt, .overvolt, .overtemp, .pairSkew].map ChanLevel.kind =
      [.bridgeFault, .undervolt, .overvolt, .overtemp, .pairSkew]) ∧
    [DevLevel.ringLoss, .extInhibit].map DevLevel.kind = [.ringLoss, .extInhibit] ∧
    (∀ k : Kept, [ChanLevel.bridgeFault, .undervolt, .overvolt, .overtemp, .pairSkew].map k.get =
      [k.bridgeFault, k.undervolt, k.overvolt, k.overtemp, k.pairSkew]) ∧
    ∀ k : DevKept, [DevLevel.ringLoss, .extInhibit].map k.get = [k.ringLoss, k.extInhibit]) ∧
  (∀ (l : ChanLevel) (c : Chan) (s : State),
    let on := s.deliverChan l c true
    ((on.router.kept.get c).get l = true) ∧
    ((s.router.kept.get c).get l = false → (on.chanFlag c l.kind).isSet = true ∧
      (on.chanFlag c l.kind).count = min 65535 ((s.chanFlag c l.kind).count + 1)) ∧
    ((s.router.kept.get c).get l = true → on = s) ∧
    on.deliverChan l c true = on ∧
    (let off := on.deliverChan l c false;
      off.router.flags = on.router.flags ∧ off.sup = on.sup ∧ off.mods = on.mods ∧
      off.router.trips = on.router.trips ∧ (off.router.kept.get c).get l = false)) ∧
  ∀ (l : DevLevel) (s : State),
    let on := s.deliverDev l true
    (on.router.devKept.get l = true) ∧
    (s.router.devKept.get l = false → (on.devFlag l.kind).isSet = true ∧
      (on.devFlag l.kind).count = min 65535 ((s.devFlag l.kind).count + 1)) ∧
    (s.router.devKept.get l = true → on = s) ∧
    on.deliverDev l true = on ∧
    (let off := on.deliverDev l false;
      off.router.dev = on.router.dev ∧ off.sup = on.sup ∧ off.mods = on.mods ∧
      off.router.trips = on.router.trips ∧ off.router.devKept.get l = false)

end
end

