-- ==== Sys2Proof/Laws/State.lean ====
section
/-! SUPPORT. What each update of the state leaves as it was: one lemma per field per update, true by unfolding. -/

namespace Sys2Proof.Machine

variable (s : State)

@[simp] theorem State.keepChan_pending (l : ChanLevel) (c : Chan) (x : Bool) : (s.keepChan l c x).pending = s.pending := rfl
@[simp] theorem State.keepChan_free (l : ChanLevel) (c : Chan) (x : Bool) : (s.keepChan l c x).free = s.free := rfl
@[simp] theorem State.keepChan_ring (l : ChanLevel) (c : Chan) (x : Bool) : (s.keepChan l c x).ring = s.ring := rfl
@[simp] theorem State.keepChan_tb (l : ChanLevel) (c : Chan) (x : Bool) : (s.keepChan l c x).tb = s.tb := rfl
@[simp] theorem State.keepChan_lanes (l : ChanLevel) (c : Chan) (x : Bool) : (s.keepChan l c x).lanes = s.lanes := rfl
@[simp] theorem State.keepChan_engine (l : ChanLevel) (c : Chan) (x : Bool) : (s.keepChan l c x).engine = s.engine := rfl
@[simp] theorem State.keepChan_loop (l : ChanLevel) (c : Chan) (x : Bool) : (s.keepChan l c x).loop = s.loop := rfl
@[simp] theorem State.keepChan_refs (l : ChanLevel) (c : Chan) (x : Bool) : (s.keepChan l c x).refs = s.refs := rfl
@[simp] theorem State.keepChan_pairs (l : ChanLevel) (c : Chan) (x : Bool) : (s.keepChan l c x).pairs = s.pairs := rfl
@[simp] theorem State.keepChan_mods (l : ChanLevel) (c : Chan) (x : Bool) : (s.keepChan l c x).mods = s.mods := rfl
@[simp] theorem State.keepChan_pos (l : ChanLevel) (c : Chan) (x : Bool) : (s.keepChan l c x).pos = s.pos := rfl
@[simp] theorem State.keepChan_store (l : ChanLevel) (c : Chan) (x : Bool) : (s.keepChan l c x).store = s.store := rfl
@[simp] theorem State.keepChan_sup (l : ChanLevel) (c : Chan) (x : Bool) : (s.keepChan l c x).sup = s.sup := rfl

@[simp] theorem State.keepDev_pending (l : DevLevel) (x : Bool) : (s.keepDev l x).pending = s.pending := rfl
@[simp] theorem State.keepDev_free (l : DevLevel) (x : Bool) : (s.keepDev l x).free = s.free := rfl
@[simp] theorem State.keepDev_ring (l : DevLevel) (x : Bool) : (s.keepDev l x).ring = s.ring := rfl
@[simp] theorem State.keepDev_tb (l : DevLevel) (x : Bool) : (s.keepDev l x).tb = s.tb := rfl
@[simp] theorem State.keepDev_lanes (l : DevLevel) (x : Bool) : (s.keepDev l x).lanes = s.lanes := rfl
@[simp] theorem State.keepDev_engine (l : DevLevel) (x : Bool) : (s.keepDev l x).engine = s.engine := rfl
@[simp] theorem State.keepDev_loop (l : DevLevel) (x : Bool) : (s.keepDev l x).loop = s.loop := rfl
@[simp] theorem State.keepDev_refs (l : DevLevel) (x : Bool) : (s.keepDev l x).refs = s.refs := rfl
@[simp] theorem State.keepDev_pairs (l : DevLevel) (x : Bool) : (s.keepDev l x).pairs = s.pairs := rfl
@[simp] theorem State.keepDev_mods (l : DevLevel) (x : Bool) : (s.keepDev l x).mods = s.mods := rfl
@[simp] theorem State.keepDev_pos (l : DevLevel) (x : Bool) : (s.keepDev l x).pos = s.pos := rfl
@[simp] theorem State.keepDev_store (l : DevLevel) (x : Bool) : (s.keepDev l x).store = s.store := rfl
@[simp] theorem State.keepDev_sup (l : DevLevel) (x : Bool) : (s.keepDev l x).sup = s.sup := rfl

@[simp] theorem State.setChanFlag_pending (k : ChanKind) (c : Chan) : (s.setChanFlag k c).pending = s.pending := rfl
@[simp] theorem State.setChanFlag_free (k : ChanKind) (c : Chan) : (s.setChanFlag k c).free = s.free := rfl
@[simp] theorem State.setChanFlag_ring (k : ChanKind) (c : Chan) : (s.setChanFlag k c).ring = s.ring := rfl
@[simp] theorem State.setChanFlag_tb (k : ChanKind) (c : Chan) : (s.setChanFlag k c).tb = s.tb := rfl
@[simp] theorem State.setChanFlag_lanes (k : ChanKind) (c : Chan) : (s.setChanFlag k c).lanes = s.lanes := rfl
@[simp] theorem State.setChanFlag_engine (k : ChanKind) (c : Chan) : (s.setChanFlag k c).engine = s.engine := rfl
@[simp] theorem State.setChanFlag_loop (k : ChanKind) (c : Chan) : (s.setChanFlag k c).loop = s.loop := rfl
@[simp] theorem State.setChanFlag_refs (k : ChanKind) (c : Chan) : (s.setChanFlag k c).refs = s.refs := rfl
@[simp] theorem State.setChanFlag_pairs (k : ChanKind) (c : Chan) : (s.setChanFlag k c).pairs = s.pairs := rfl
@[simp] theorem State.setChanFlag_mods (k : ChanKind) (c : Chan) : (s.setChanFlag k c).mods = s.mods := rfl
@[simp] theorem State.setChanFlag_pos (k : ChanKind) (c : Chan) : (s.setChanFlag k c).pos = s.pos := rfl
@[simp] theorem State.setChanFlag_store (k : ChanKind) (c : Chan) : (s.setChanFlag k c).store = s.store := rfl
@[simp] theorem State.setChanFlag_sup (k : ChanKind) (c : Chan) : (s.setChanFlag k c).sup = s.sup := rfl

@[simp] theorem State.setDevFlag_pending (k : DevKind) : (s.setDevFlag k).pending = s.pending := rfl
@[simp] theorem State.setDevFlag_free (k : DevKind) : (s.setDevFlag k).free = s.free := rfl
@[simp] theorem State.setDevFlag_ring (k : DevKind) : (s.setDevFlag k).ring = s.ring := rfl
@[simp] theorem State.setDevFlag_tb (k : DevKind) : (s.setDevFlag k).tb = s.tb := rfl
@[simp] theorem State.setDevFlag_lanes (k : DevKind) : (s.setDevFlag k).lanes = s.lanes := rfl
@[simp] theorem State.setDevFlag_engine (k : DevKind) : (s.setDevFlag k).engine = s.engine := rfl
@[simp] theorem State.setDevFlag_loop (k : DevKind) : (s.setDevFlag k).loop = s.loop := rfl
@[simp] theorem State.setDevFlag_refs (k : DevKind) : (s.setDevFlag k).refs = s.refs := rfl
@[simp] theorem State.setDevFlag_pairs (k : DevKind) : (s.setDevFlag k).pairs = s.pairs := rfl
@[simp] theorem State.setDevFlag_mods (k : DevKind) : (s.setDevFlag k).mods = s.mods := rfl
@[simp] theorem State.setDevFlag_pos (k : DevKind) : (s.setDevFlag k).pos = s.pos := rfl
@[simp] theorem State.setDevFlag_store (k : DevKind) : (s.setDevFlag k).store = s.store := rfl
@[simp] theorem State.setDevFlag_sup (k : DevKind) : (s.setDevFlag k).sup = s.sup := rfl

@[simp] theorem State.tripAction_pending (n : Nat) (f : Chan → Option Via) : (s.tripAction n f).pending = s.pending := rfl
@[simp] theorem State.tripAction_free (n : Nat) (f : Chan → Option Via) : (s.tripAction n f).free = s.free := rfl
@[simp] theorem State.tripAction_ring (n : Nat) (f : Chan → Option Via) : (s.tripAction n f).ring = s.ring := rfl
@[simp] theorem State.tripAction_tb (n : Nat) (f : Chan → Option Via) : (s.tripAction n f).tb = s.tb := rfl
@[simp] theorem State.tripAction_lanes (n : Nat) (f : Chan → Option Via) : (s.tripAction n f).lanes = s.lanes := rfl
@[simp] theorem State.tripAction_engine (n : Nat) (f : Chan → Option Via) : (s.tripAction n f).engine = s.engine := rfl
@[simp] theorem State.tripAction_loop (n : Nat) (f : Chan → Option Via) : (s.tripAction n f).loop = s.loop := rfl
@[simp] theorem State.tripAction_refs (n : Nat) (f : Chan → Option Via) : (s.tripAction n f).refs = s.refs := rfl
@[simp] theorem State.tripAction_pairs (n : Nat) (f : Chan → Option Via) : (s.tripAction n f).pairs = s.pairs := rfl
@[simp] theorem State.tripAction_pos (n : Nat) (f : Chan → Option Via) : (s.tripAction n f).pos = s.pos := rfl
@[simp] theorem State.tripAction_store (n : Nat) (f : Chan → Option Via) : (s.tripAction n f).store = s.store := rfl

@[simp] theorem State.holdAction_pending (f : Chan → Causes) : (s.holdAction f).pending = s.pending := rfl
@[simp] theorem State.holdAction_free (f : Chan → Causes) : (s.holdAction f).free = s.free := rfl
@[simp] theorem State.holdAction_ring (f : Chan → Causes) : (s.holdAction f).ring = s.ring := rfl
@[simp] theorem State.holdAction_tb (f : Chan → Causes) : (s.holdAction f).tb = s.tb := rfl
@[simp] theorem State.holdAction_lanes (f : Chan → Causes) : (s.holdAction f).lanes = s.lanes := rfl
@[simp] theorem State.holdAction_engine (f : Chan → Causes) : (s.holdAction f).engine = s.engine := rfl
@[simp] theorem State.holdAction_loop (f : Chan → Causes) : (s.holdAction f).loop = s.loop := rfl
@[simp] theorem State.holdAction_refs (f : Chan → Causes) : (s.holdAction f).refs = s.refs := rfl
@[simp] theorem State.holdAction_pairs (f : Chan → Causes) : (s.holdAction f).pairs = s.pairs := rfl
@[simp] theorem State.holdAction_mods (f : Chan → Causes) : (s.holdAction f).mods = s.mods := rfl
@[simp] theorem State.holdAction_pos (f : Chan → Causes) : (s.holdAction f).pos = s.pos := rfl
@[simp] theorem State.holdAction_store (f : Chan → Causes) : (s.holdAction f).store = s.store := rfl
@[simp] theorem State.holdAction_router (f : Chan → Causes) : (s.holdAction f).router = s.router := rfl

@[simp] theorem State.judgeLines_pending : (s.judgeLines).pending = s.pending := rfl
@[simp] theorem State.judgeLines_free : (s.judgeLines).free = s.free := rfl
@[simp] theorem State.judgeLines_ring : (s.judgeLines).ring = s.ring := rfl
@[simp] theorem State.judgeLines_tb : (s.judgeLines).tb = s.tb := rfl
@[simp] theorem State.judgeLines_lanes : (s.judgeLines).lanes = s.lanes := rfl
@[simp] theorem State.judgeLines_engine : (s.judgeLines).engine = s.engine := rfl
@[simp] theorem State.judgeLines_loop : (s.judgeLines).loop = s.loop := rfl
@[simp] theorem State.judgeLines_refs : (s.judgeLines).refs = s.refs := rfl
@[simp] theorem State.judgeLines_pairs : (s.judgeLines).pairs = s.pairs := rfl
@[simp] theorem State.judgeLines_mods : (s.judgeLines).mods = s.mods := rfl
@[simp] theorem State.judgeLines_pos : (s.judgeLines).pos = s.pos := rfl
@[simp] theorem State.judgeLines_store : (s.judgeLines).store = s.store := rfl
@[simp] theorem State.judgeLines_sup : (s.judgeLines).sup = s.sup := rfl

@[simp] theorem State.ackChan_pending (c : Chan) (f : ChanKind → Bool) : (s.ackChan c f).pending = s.pending := rfl
@[simp] theorem State.ackChan_free (c : Chan) (f : ChanKind → Bool) : (s.ackChan c f).free = s.free := rfl
@[simp] theorem State.ackChan_ring (c : Chan) (f : ChanKind → Bool) : (s.ackChan c f).ring = s.ring := rfl
@[simp] theorem State.ackChan_tb (c : Chan) (f : ChanKind → Bool) : (s.ackChan c f).tb = s.tb := rfl
@[simp] theorem State.ackChan_lanes (c : Chan) (f : ChanKind → Bool) : (s.ackChan c f).lanes = s.lanes := rfl
@[simp] theorem State.ackChan_engine (c : Chan) (f : ChanKind → Bool) : (s.ackChan c f).engine = s.engine := rfl
@[simp] theorem State.ackChan_loop (c : Chan) (f : ChanKind → Bool) : (s.ackChan c f).loop = s.loop := rfl
@[simp] theorem State.ackChan_refs (c : Chan) (f : ChanKind → Bool) : (s.ackChan c f).refs = s.refs := rfl
@[simp] theorem State.ackChan_pairs (c : Chan) (f : ChanKind → Bool) : (s.ackChan c f).pairs = s.pairs := rfl
@[simp] theorem State.ackChan_mods (c : Chan) (f : ChanKind → Bool) : (s.ackChan c f).mods = s.mods := rfl
@[simp] theorem State.ackChan_pos (c : Chan) (f : ChanKind → Bool) : (s.ackChan c f).pos = s.pos := rfl
@[simp] theorem State.ackChan_store (c : Chan) (f : ChanKind → Bool) : (s.ackChan c f).store = s.store := rfl
@[simp] theorem State.ackChan_sup (c : Chan) (f : ChanKind → Bool) : (s.ackChan c f).sup = s.sup := rfl

@[simp] theorem State.ackDev_pending (f : DevKind → Bool) : (s.ackDev f).pending = s.pending := rfl
@[simp] theorem State.ackDev_free (f : DevKind → Bool) : (s.ackDev f).free = s.free := rfl
@[simp] theorem State.ackDev_ring (f : DevKind → Bool) : (s.ackDev f).ring = s.ring := rfl
@[simp] theorem State.ackDev_tb (f : DevKind → Bool) : (s.ackDev f).tb = s.tb := rfl
@[simp] theorem State.ackDev_lanes (f : DevKind → Bool) : (s.ackDev f).lanes = s.lanes := rfl
@[simp] theorem State.ackDev_engine (f : DevKind → Bool) : (s.ackDev f).engine = s.engine := rfl
@[simp] theorem State.ackDev_loop (f : DevKind → Bool) : (s.ackDev f).loop = s.loop := rfl
@[simp] theorem State.ackDev_refs (f : DevKind → Bool) : (s.ackDev f).refs = s.refs := rfl
@[simp] theorem State.ackDev_pairs (f : DevKind → Bool) : (s.ackDev f).pairs = s.pairs := rfl
@[simp] theorem State.ackDev_mods (f : DevKind → Bool) : (s.ackDev f).mods = s.mods := rfl
@[simp] theorem State.ackDev_pos (f : DevKind → Bool) : (s.ackDev f).pos = s.pos := rfl
@[simp] theorem State.ackDev_store (f : DevKind → Bool) : (s.ackDev f).store = s.store := rfl
@[simp] theorem State.ackDev_sup (f : DevKind → Bool) : (s.ackDev f).sup = s.sup := rfl

@[simp] theorem State.judgeExit_pending : (s.judgeExit).pending = s.pending := rfl
@[simp] theorem State.judgeExit_free : (s.judgeExit).free = s.free := rfl
@[simp] theorem State.judgeExit_ring : (s.judgeExit).ring = s.ring := rfl
@[simp] theorem State.judgeExit_tb : (s.judgeExit).tb = s.tb := rfl
@[simp] theorem State.judgeExit_lanes : (s.judgeExit).lanes = s.lanes := rfl
@[simp] theorem State.judgeExit_engine : (s.judgeExit).engine = s.engine := rfl
@[simp] theorem State.judgeExit_loop : (s.judgeExit).loop = s.loop := rfl
@[simp] theorem State.judgeExit_refs : (s.judgeExit).refs = s.refs := rfl
@[simp] theorem State.judgeExit_pairs : (s.judgeExit).pairs = s.pairs := rfl
@[simp] theorem State.judgeExit_mods : (s.judgeExit).mods = s.mods := rfl
@[simp] theorem State.judgeExit_pos : (s.judgeExit).pos = s.pos := rfl
@[simp] theorem State.judgeExit_store : (s.judgeExit).store = s.store := rfl

@[simp] theorem State.judgeRouted_pending : (s.judgeRouted).pending = s.pending := rfl
@[simp] theorem State.judgeRouted_free : (s.judgeRouted).free = s.free := rfl
@[simp] theorem State.judgeRouted_ring : (s.judgeRouted).ring = s.ring := rfl
@[simp] theorem State.judgeRouted_tb : (s.judgeRouted).tb = s.tb := rfl
@[simp] theorem State.judgeRouted_lanes : (s.judgeRouted).lanes = s.lanes := rfl
@[simp] theorem State.judgeRouted_engine : (s.judgeRouted).engine = s.engine := rfl
@[simp] theorem State.judgeRouted_loop : (s.judgeRouted).loop = s.loop := rfl
@[simp] theorem State.judgeRouted_refs : (s.judgeRouted).refs = s.refs := rfl
@[simp] theorem State.judgeRouted_pairs : (s.judgeRouted).pairs = s.pairs := rfl
@[simp] theorem State.judgeRouted_mods : (s.judgeRouted).mods = s.mods := rfl
@[simp] theorem State.judgeRouted_pos : (s.judgeRouted).pos = s.pos := rfl
@[simp] theorem State.judgeRouted_store : (s.judgeRouted).store = s.store := rfl
@[simp] theorem State.judgeRouted_router : (s.judgeRouted).router = s.router := rfl

@[simp] theorem State.unitSup_pending (c : Chan) (f : Supervisor → Supervisor) : (s.unitSup c f).pending = s.pending := rfl
@[simp] theorem State.unitSup_free (c : Chan) (f : Supervisor → Supervisor) : (s.unitSup c f).free = s.free := rfl
@[simp] theorem State.unitSup_ring (c : Chan) (f : Supervisor → Supervisor) : (s.unitSup c f).ring = s.ring := rfl
@[simp] theorem State.unitSup_tb (c : Chan) (f : Supervisor → Supervisor) : (s.unitSup c f).tb = s.tb := rfl
@[simp] theorem State.unitSup_lanes (c : Chan) (f : Supervisor → Supervisor) : (s.unitSup c f).lanes = s.lanes := rfl
@[simp] theorem State.unitSup_engine (c : Chan) (f : Supervisor → Supervisor) : (s.unitSup c f).engine = s.engine := rfl
@[simp] theorem State.unitSup_loop (c : Chan) (f : Supervisor → Supervisor) : (s.unitSup c f).loop = s.loop := rfl
@[simp] theorem State.unitSup_refs (c : Chan) (f : Supervisor → Supervisor) : (s.unitSup c f).refs = s.refs := rfl
@[simp] theorem State.unitSup_pairs (c : Chan) (f : Supervisor → Supervisor) : (s.unitSup c f).pairs = s.pairs := rfl
@[simp] theorem State.unitSup_mods (c : Chan) (f : Supervisor → Supervisor) : (s.unitSup c f).mods = s.mods := rfl
@[simp] theorem State.unitSup_pos (c : Chan) (f : Supervisor → Supervisor) : (s.unitSup c f).pos = s.pos := rfl
@[simp] theorem State.unitSup_store (c : Chan) (f : Supervisor → Supervisor) : (s.unitSup c f).store = s.store := rfl
@[simp] theorem State.unitSup_router (c : Chan) (f : Supervisor → Supervisor) : (s.unitSup c f).router = s.router := rfl

@[simp] theorem State.unitMods_pending (c : Chan) (f : Modulator → Modulator) : (s.unitMods c f).pending = s.pending := rfl
@[simp] theorem State.unitMods_free (c : Chan) (f : Modulator → Modulator) : (s.unitMods c f).free = s.free := rfl
@[simp] theorem State.unitMods_ring (c : Chan) (f : Modulator → Modulator) : (s.unitMods c f).ring = s.ring := rfl
@[simp] theorem State.unitMods_tb (c : Chan) (f : Modulator → Modulator) : (s.unitMods c f).tb = s.tb := rfl
@[simp] theorem State.unitMods_lanes (c : Chan) (f : Modulator → Modulator) : (s.unitMods c f).lanes = s.lanes := rfl
@[simp] theorem State.unitMods_engine (c : Chan) (f : Modulator → Modulator) : (s.unitMods c f).engine = s.engine := rfl
@[simp] theorem State.unitMods_loop (c : Chan) (f : Modulator → Modulator) : (s.unitMods c f).loop = s.loop := rfl
@[simp] theorem State.unitMods_refs (c : Chan) (f : Modulator → Modulator) : (s.unitMods c f).refs = s.refs := rfl
@[simp] theorem State.unitMods_pairs (c : Chan) (f : Modulator → Modulator) : (s.unitMods c f).pairs = s.pairs := rfl
@[simp] theorem State.unitMods_pos (c : Chan) (f : Modulator → Modulator) : (s.unitMods c f).pos = s.pos := rfl
@[simp] theorem State.unitMods_store (c : Chan) (f : Modulator → Modulator) : (s.unitMods c f).store = s.store := rfl
@[simp] theorem State.unitMods_sup (c : Chan) (f : Modulator → Modulator) : (s.unitMods c f).sup = s.sup := rfl
@[simp] theorem State.unitMods_router (c : Chan) (f : Modulator → Modulator) : (s.unitMods c f).router = s.router := rfl

@[simp] theorem State.settleGates_pending : (s.settleGates).pending = s.pending := rfl
@[simp] theorem State.settleGates_free : (s.settleGates).free = s.free := rfl
@[simp] theorem State.settleGates_ring : (s.settleGates).ring = s.ring := rfl
@[simp] theorem State.settleGates_tb : (s.settleGates).tb = s.tb := rfl
@[simp] theorem State.settleGates_lanes : (s.settleGates).lanes = s.lanes := rfl
@[simp] theorem State.settleGates_engine : (s.settleGates).engine = s.engine := rfl
@[simp] theorem State.settleGates_loop : (s.settleGates).loop = s.loop := rfl
@[simp] theorem State.settleGates_refs : (s.settleGates).refs = s.refs := rfl
@[simp] theorem State.settleGates_pairs : (s.settleGates).pairs = s.pairs := rfl
@[simp] theorem State.settleGates_pos : (s.settleGates).pos = s.pos := rfl
@[simp] theorem State.settleGates_store : (s.settleGates).store = s.store := rfl
@[simp] theorem State.settleGates_sup : (s.settleGates).sup = s.sup := rfl
@[simp] theorem State.settleGates_router : (s.settleGates).router = s.router := rfl

@[simp] theorem State.enterCharge_pending (c : Chan) : (s.enterCharge c).pending = s.pending := rfl
@[simp] theorem State.enterCharge_free (c : Chan) : (s.enterCharge c).free = s.free := rfl
@[simp] theorem State.enterCharge_ring (c : Chan) : (s.enterCharge c).ring = s.ring := rfl
@[simp] theorem State.enterCharge_tb (c : Chan) : (s.enterCharge c).tb = s.tb := rfl
@[simp] theorem State.enterCharge_lanes (c : Chan) : (s.enterCharge c).lanes = s.lanes := rfl
@[simp] theorem State.enterCharge_pairs (c : Chan) : (s.enterCharge c).pairs = s.pairs := rfl
@[simp] theorem State.enterCharge_pos (c : Chan) : (s.enterCharge c).pos = s.pos := rfl
@[simp] theorem State.enterCharge_store (c : Chan) : (s.enterCharge c).store = s.store := rfl
@[simp] theorem State.enterCharge_router (c : Chan) : (s.enterCharge c).router = s.router := rfl

@[simp] theorem State.enterStopping_pending (c : Chan) : (s.enterStopping c).pending = s.pending := rfl
@[simp] theorem State.enterStopping_free (c : Chan) : (s.enterStopping c).free = s.free := rfl
@[simp] theorem State.enterStopping_ring (c : Chan) : (s.enterStopping c).ring = s.ring := rfl
@[simp] theorem State.enterStopping_tb (c : Chan) : (s.enterStopping c).tb = s.tb := rfl
@[simp] theorem State.enterStopping_lanes (c : Chan) : (s.enterStopping c).lanes = s.lanes := rfl
@[simp] theorem State.enterStopping_engine (c : Chan) : (s.enterStopping c).engine = s.engine := rfl
@[simp] theorem State.enterStopping_loop (c : Chan) : (s.enterStopping c).loop = s.loop := rfl
@[simp] theorem State.enterStopping_refs (c : Chan) : (s.enterStopping c).refs = s.refs := rfl
@[simp] theorem State.enterStopping_pairs (c : Chan) : (s.enterStopping c).pairs = s.pairs := rfl
@[simp] theorem State.enterStopping_pos (c : Chan) : (s.enterStopping c).pos = s.pos := rfl
@[simp] theorem State.enterStopping_store (c : Chan) : (s.enterStopping c).store = s.store := rfl
@[simp] theorem State.enterStopping_router (c : Chan) : (s.enterStopping c).router = s.router := rfl

@[simp] theorem State.enterOff_pending (c : Chan) : (s.enterOff c).pending = s.pending := rfl
@[simp] theorem State.enterOff_free (c : Chan) : (s.enterOff c).free = s.free := rfl
@[simp] theorem State.enterOff_ring (c : Chan) : (s.enterOff c).ring = s.ring := rfl
@[simp] theorem State.enterOff_tb (c : Chan) : (s.enterOff c).tb = s.tb := rfl
@[simp] theorem State.enterOff_lanes (c : Chan) : (s.enterOff c).lanes = s.lanes := rfl
@[simp] theorem State.enterOff_engine (c : Chan) : (s.enterOff c).engine = s.engine := rfl
@[simp] theorem State.enterOff_loop (c : Chan) : (s.enterOff c).loop = s.loop := rfl
@[simp] theorem State.enterOff_refs (c : Chan) : (s.enterOff c).refs = s.refs := rfl
@[simp] theorem State.enterOff_pairs (c : Chan) : (s.enterOff c).pairs = s.pairs := rfl
@[simp] theorem State.enterOff_pos (c : Chan) : (s.enterOff c).pos = s.pos := rfl
@[simp] theorem State.enterOff_store (c : Chan) : (s.enterOff c).store = s.store := rfl
@[simp] theorem State.enterOff_router (c : Chan) : (s.enterOff c).router = s.router := rfl

@[simp] theorem State.setPos_pending (c : Chan) (p : Position) : (s.setPos c p).pending = s.pending := rfl
@[simp] theorem State.setPos_free (c : Chan) (p : Position) : (s.setPos c p).free = s.free := rfl
@[simp] theorem State.setPos_ring (c : Chan) (p : Position) : (s.setPos c p).ring = s.ring := rfl
@[simp] theorem State.setPos_tb (c : Chan) (p : Position) : (s.setPos c p).tb = s.tb := rfl
@[simp] theorem State.setPos_lanes (c : Chan) (p : Position) : (s.setPos c p).lanes = s.lanes := rfl
@[simp] theorem State.setPos_engine (c : Chan) (p : Position) : (s.setPos c p).engine = s.engine := rfl
@[simp] theorem State.setPos_loop (c : Chan) (p : Position) : (s.setPos c p).loop = s.loop := rfl
@[simp] theorem State.setPos_refs (c : Chan) (p : Position) : (s.setPos c p).refs = s.refs := rfl
@[simp] theorem State.setPos_pairs (c : Chan) (p : Position) : (s.setPos c p).pairs = s.pairs := rfl
@[simp] theorem State.setPos_mods (c : Chan) (p : Position) : (s.setPos c p).mods = s.mods := rfl
@[simp] theorem State.setPos_store (c : Chan) (p : Position) : (s.setPos c p).store = s.store := rfl
@[simp] theorem State.setPos_sup (c : Chan) (p : Position) : (s.setPos c p).sup = s.sup := rfl
@[simp] theorem State.setPos_router (c : Chan) (p : Position) : (s.setPos c p).router = s.router := rfl

@[simp] theorem State.setInh_pending (f : Filter) : (s.setInh f).pending = s.pending := rfl
@[simp] theorem State.setInh_free (f : Filter) : (s.setInh f).free = s.free := rfl
@[simp] theorem State.setInh_ring (f : Filter) : (s.setInh f).ring = s.ring := rfl
@[simp] theorem State.setInh_lanes (f : Filter) : (s.setInh f).lanes = s.lanes := rfl
@[simp] theorem State.setInh_engine (f : Filter) : (s.setInh f).engine = s.engine := rfl
@[simp] theorem State.setInh_loop (f : Filter) : (s.setInh f).loop = s.loop := rfl
@[simp] theorem State.setInh_refs (f : Filter) : (s.setInh f).refs = s.refs := rfl
@[simp] theorem State.setInh_pairs (f : Filter) : (s.setInh f).pairs = s.pairs := rfl
@[simp] theorem State.setInh_mods (f : Filter) : (s.setInh f).mods = s.mods := rfl
@[simp] theorem State.setInh_pos (f : Filter) : (s.setInh f).pos = s.pos := rfl
@[simp] theorem State.setInh_store (f : Filter) : (s.setInh f).store = s.store := rfl
@[simp] theorem State.setInh_sup (f : Filter) : (s.setInh f).sup = s.sup := rfl
@[simp] theorem State.setInh_router (f : Filter) : (s.setInh f).router = s.router := rfl

@[simp] theorem State.allLinesOff_pending : (s.allLinesOff).pending = s.pending := rfl
@[simp] theorem State.allLinesOff_free : (s.allLinesOff).free = s.free := rfl
@[simp] theorem State.allLinesOff_ring : (s.allLinesOff).ring = s.ring := rfl
@[simp] theorem State.allLinesOff_tb : (s.allLinesOff).tb = s.tb := rfl
@[simp] theorem State.allLinesOff_lanes : (s.allLinesOff).lanes = s.lanes := rfl
@[simp] theorem State.allLinesOff_engine : (s.allLinesOff).engine = s.engine := rfl
@[simp] theorem State.allLinesOff_loop : (s.allLinesOff).loop = s.loop := rfl
@[simp] theorem State.allLinesOff_refs : (s.allLinesOff).refs = s.refs := rfl
@[simp] theorem State.allLinesOff_pairs : (s.allLinesOff).pairs = s.pairs := rfl
@[simp] theorem State.allLinesOff_pos : (s.allLinesOff).pos = s.pos := rfl
@[simp] theorem State.allLinesOff_store : (s.allLinesOff).store = s.store := rfl
@[simp] theorem State.allLinesOff_sup : (s.allLinesOff).sup = s.sup := rfl
@[simp] theorem State.allLinesOff_router : (s.allLinesOff).router = s.router := rfl

@[simp] theorem State.writeCount_pending (c : Chan) (n : Nat) (w : Word) : (s.writeCount c n w).pending = s.pending := rfl
@[simp] theorem State.writeCount_free (c : Chan) (n : Nat) (w : Word) : (s.writeCount c n w).free = s.free := rfl
@[simp] theorem State.writeCount_ring (c : Chan) (n : Nat) (w : Word) : (s.writeCount c n w).ring = s.ring := rfl
@[simp] theorem State.writeCount_tb (c : Chan) (n : Nat) (w : Word) : (s.writeCount c n w).tb = s.tb := rfl
@[simp] theorem State.writeCount_refs (c : Chan) (n : Nat) (w : Word) : (s.writeCount c n w).refs = s.refs := rfl
@[simp] theorem State.writeCount_pairs (c : Chan) (n : Nat) (w : Word) : (s.writeCount c n w).pairs = s.pairs := rfl
@[simp] theorem State.writeCount_mods (c : Chan) (n : Nat) (w : Word) : (s.writeCount c n w).mods = s.mods := rfl
@[simp] theorem State.writeCount_store (c : Chan) (n : Nat) (w : Word) : (s.writeCount c n w).store = s.store := rfl
@[simp] theorem State.writeCount_sup (c : Chan) (n : Nat) (w : Word) : (s.writeCount c n w).sup = s.sup := rfl
@[simp] theorem State.writeCount_router (c : Chan) (n : Nat) (w : Word) : (s.writeCount c n w).router = s.router := rfl

@[simp] theorem State.glide_pending (n : Nat) : (s.glide n).pending = s.pending := rfl
@[simp] theorem State.glide_free (n : Nat) : (s.glide n).free = s.free := rfl
@[simp] theorem State.glide_ring (n : Nat) : (s.glide n).ring = s.ring := rfl
@[simp] theorem State.glide_lanes (n : Nat) : (s.glide n).lanes = s.lanes := rfl
@[simp] theorem State.glide_engine (n : Nat) : (s.glide n).engine = s.engine := rfl
@[simp] theorem State.glide_loop (n : Nat) : (s.glide n).loop = s.loop := rfl
@[simp] theorem State.glide_refs (n : Nat) : (s.glide n).refs = s.refs := rfl
@[simp] theorem State.glide_pairs (n : Nat) : (s.glide n).pairs = s.pairs := rfl
@[simp] theorem State.glide_store (n : Nat) : (s.glide n).store = s.store := rfl
@[simp] theorem State.glide_sup (n : Nat) : (s.glide n).sup = s.sup := rfl
@[simp] theorem State.glide_router (n : Nat) : (s.glide n).router = s.router := rfl

@[simp] theorem State.take_pending (c : Chan) : (s.take c).pending = s.pending := rfl
@[simp] theorem State.take_free (c : Chan) : (s.take c).free = s.free := rfl
@[simp] theorem State.take_ring (c : Chan) : (s.take c).ring = s.ring := rfl
@[simp] theorem State.take_tb (c : Chan) : (s.take c).tb = s.tb := rfl
@[simp] theorem State.take_lanes (c : Chan) : (s.take c).lanes = s.lanes := rfl
@[simp] theorem State.take_engine (c : Chan) : (s.take c).engine = s.engine := rfl
@[simp] theorem State.take_loop (c : Chan) : (s.take c).loop = s.loop := rfl
@[simp] theorem State.take_pairs (c : Chan) : (s.take c).pairs = s.pairs := rfl
@[simp] theorem State.take_mods (c : Chan) : (s.take c).mods = s.mods := rfl
@[simp] theorem State.take_pos (c : Chan) : (s.take c).pos = s.pos := rfl
@[simp] theorem State.take_store (c : Chan) : (s.take c).store = s.store := rfl
@[simp] theorem State.take_router (c : Chan) : (s.take c).router = s.router := rfl

@[simp] theorem State.writeRun_pending (x : Run) (f : Front) (k : Option ControlResult) : (s.writeRun x f k).pending = s.pending := rfl
@[simp] theorem State.writeRun_free (x : Run) (f : Front) (k : Option ControlResult) : (s.writeRun x f k).free = s.free := rfl
@[simp] theorem State.writeRun_ring (x : Run) (f : Front) (k : Option ControlResult) : (s.writeRun x f k).ring = s.ring := rfl
@[simp] theorem State.writeRun_tb (x : Run) (f : Front) (k : Option ControlResult) : (s.writeRun x f k).tb = s.tb := rfl
@[simp] theorem State.writeRun_lanes (x : Run) (f : Front) (k : Option ControlResult) : (s.writeRun x f k).lanes = s.lanes := rfl
@[simp] theorem State.writeRun_pos (x : Run) (f : Front) (k : Option ControlResult) : (s.writeRun x f k).pos = s.pos := rfl
@[simp] theorem State.writeRun_store (x : Run) (f : Front) (k : Option ControlResult) : (s.writeRun x f k).store = s.store := rfl
@[simp] theorem State.writeRun_sup (x : Run) (f : Front) (k : Option ControlResult) : (s.writeRun x f k).sup = s.sup := rfl
@[simp] theorem State.writeRun_router (x : Run) (f : Front) (k : Option ControlResult) : (s.writeRun x f k).router = s.router := rfl

@[simp] theorem State.mapTb_pending (f : Timebase → Timebase) : (s.mapTb f).pending = s.pending := rfl
@[simp] theorem State.mapTb_free (f : Timebase → Timebase) : (s.mapTb f).free = s.free := rfl
@[simp] theorem State.mapTb_ring (f : Timebase → Timebase) : (s.mapTb f).ring = s.ring := rfl
@[simp] theorem State.mapTb_lanes (f : Timebase → Timebase) : (s.mapTb f).lanes = s.lanes := rfl
@[simp] theorem State.mapTb_engine (f : Timebase → Timebase) : (s.mapTb f).engine = s.engine := rfl
@[simp] theorem State.mapTb_loop (f : Timebase → Timebase) : (s.mapTb f).loop = s.loop := rfl
@[simp] theorem State.mapTb_refs (f : Timebase → Timebase) : (s.mapTb f).refs = s.refs := rfl
@[simp] theorem State.mapTb_pairs (f : Timebase → Timebase) : (s.mapTb f).pairs = s.pairs := rfl
@[simp] theorem State.mapTb_mods (f : Timebase → Timebase) : (s.mapTb f).mods = s.mods := rfl
@[simp] theorem State.mapTb_pos (f : Timebase → Timebase) : (s.mapTb f).pos = s.pos := rfl
@[simp] theorem State.mapTb_store (f : Timebase → Timebase) : (s.mapTb f).store = s.store := rfl
@[simp] theorem State.mapTb_sup (f : Timebase → Timebase) : (s.mapTb f).sup = s.sup := rfl
@[simp] theorem State.mapTb_router (f : Timebase → Timebase) : (s.mapTb f).router = s.router := rfl

@[simp] theorem State.clearExpected_pending : (s.clearExpected).pending = s.pending := rfl
@[simp] theorem State.clearExpected_free : (s.clearExpected).free = s.free := rfl
@[simp] theorem State.clearExpected_ring : (s.clearExpected).ring = s.ring := rfl
@[simp] theorem State.clearExpected_tb : (s.clearExpected).tb = s.tb := rfl
@[simp] theorem State.clearExpected_engine : (s.clearExpected).engine = s.engine := rfl
@[simp] theorem State.clearExpected_loop : (s.clearExpected).loop = s.loop := rfl
@[simp] theorem State.clearExpected_refs : (s.clearExpected).refs = s.refs := rfl
@[simp] theorem State.clearExpected_pairs : (s.clearExpected).pairs = s.pairs := rfl
@[simp] theorem State.clearExpected_mods : (s.clearExpected).mods = s.mods := rfl
@[simp] theorem State.clearExpected_pos : (s.clearExpected).pos = s.pos := rfl
@[simp] theorem State.clearExpected_store : (s.clearExpected).store = s.store := rfl
@[simp] theorem State.clearExpected_sup : (s.clearExpected).sup = s.sup := rfl
@[simp] theorem State.clearExpected_router : (s.clearExpected).router = s.router := rfl

@[simp] theorem State.markArrived_pending (c : Chan) : (s.markArrived c).pending = s.pending := rfl
@[simp] theorem State.markArrived_free (c : Chan) : (s.markArrived c).free = s.free := rfl
@[simp] theorem State.markArrived_ring (c : Chan) : (s.markArrived c).ring = s.ring := rfl
@[simp] theorem State.markArrived_tb (c : Chan) : (s.markArrived c).tb = s.tb := rfl
@[simp] theorem State.markArrived_engine (c : Chan) : (s.markArrived c).engine = s.engine := rfl
@[simp] theorem State.markArrived_loop (c : Chan) : (s.markArrived c).loop = s.loop := rfl
@[simp] theorem State.markArrived_refs (c : Chan) : (s.markArrived c).refs = s.refs := rfl
@[simp] theorem State.markArrived_pairs (c : Chan) : (s.markArrived c).pairs = s.pairs := rfl
@[simp] theorem State.markArrived_mods (c : Chan) : (s.markArrived c).mods = s.mods := rfl
@[simp] theorem State.markArrived_pos (c : Chan) : (s.markArrived c).pos = s.pos := rfl
@[simp] theorem State.markArrived_store (c : Chan) : (s.markArrived c).store = s.store := rfl
@[simp] theorem State.markArrived_sup (c : Chan) : (s.markArrived c).sup = s.sup := rfl
@[simp] theorem State.markArrived_router (c : Chan) : (s.markArrived c).router = s.router := rfl

@[simp] theorem State.strobeAll_pending (f : Chan → Bool) : (s.strobeAll f).pending = s.pending := rfl
@[simp] theorem State.strobeAll_free (f : Chan → Bool) : (s.strobeAll f).free = s.free := rfl
@[simp] theorem State.strobeAll_ring (f : Chan → Bool) : (s.strobeAll f).ring = s.ring := rfl
@[simp] theorem State.strobeAll_tb (f : Chan → Bool) : (s.strobeAll f).tb = s.tb := rfl
@[simp] theorem State.strobeAll_loop (f : Chan → Bool) : (s.strobeAll f).loop = s.loop := rfl
@[simp] theorem State.strobeAll_refs (f : Chan → Bool) : (s.strobeAll f).refs = s.refs := rfl
@[simp] theorem State.strobeAll_pairs (f : Chan → Bool) : (s.strobeAll f).pairs = s.pairs := rfl
@[simp] theorem State.strobeAll_store (f : Chan → Bool) : (s.strobeAll f).store = s.store := rfl
@[simp] theorem State.strobeAll_sup (f : Chan → Bool) : (s.strobeAll f).sup = s.sup := rfl
@[simp] theorem State.strobeAll_router (f : Chan → Bool) : (s.strobeAll f).router = s.router := rfl

@[simp] theorem State.setCharge_pending (c : Chan) (n : Nat) : (s.setCharge c n).pending = s.pending := rfl
@[simp] theorem State.setCharge_free (c : Chan) (n : Nat) : (s.setCharge c n).free = s.free := rfl
@[simp] theorem State.setCharge_ring (c : Chan) (n : Nat) : (s.setCharge c n).ring = s.ring := rfl
@[simp] theorem State.setCharge_tb (c : Chan) (n : Nat) : (s.setCharge c n).tb = s.tb := rfl
@[simp] theorem State.setCharge_lanes (c : Chan) (n : Nat) : (s.setCharge c n).lanes = s.lanes := rfl
@[simp] theorem State.setCharge_engine (c : Chan) (n : Nat) : (s.setCharge c n).engine = s.engine := rfl
@[simp] theorem State.setCharge_loop (c : Chan) (n : Nat) : (s.setCharge c n).loop = s.loop := rfl
@[simp] theorem State.setCharge_refs (c : Chan) (n : Nat) : (s.setCharge c n).refs = s.refs := rfl
@[simp] theorem State.setCharge_pairs (c : Chan) (n : Nat) : (s.setCharge c n).pairs = s.pairs := rfl
@[simp] theorem State.setCharge_mods (c : Chan) (n : Nat) : (s.setCharge c n).mods = s.mods := rfl
@[simp] theorem State.setCharge_pos (c : Chan) (n : Nat) : (s.setCharge c n).pos = s.pos := rfl
@[simp] theorem State.setCharge_store (c : Chan) (n : Nat) : (s.setCharge c n).store = s.store := rfl
@[simp] theorem State.setCharge_router (c : Chan) (n : Nat) : (s.setCharge c n).router = s.router := rfl

@[simp] theorem State.beginCharging_pending (c : Chan) : (s.beginCharging c).pending = s.pending := rfl
@[simp] theorem State.beginCharging_free (c : Chan) : (s.beginCharging c).free = s.free := rfl
@[simp] theorem State.beginCharging_ring (c : Chan) : (s.beginCharging c).ring = s.ring := rfl
@[simp] theorem State.beginCharging_tb (c : Chan) : (s.beginCharging c).tb = s.tb := rfl
@[simp] theorem State.beginCharging_lanes (c : Chan) : (s.beginCharging c).lanes = s.lanes := rfl
@[simp] theorem State.beginCharging_engine (c : Chan) : (s.beginCharging c).engine = s.engine := rfl
@[simp] theorem State.beginCharging_loop (c : Chan) : (s.beginCharging c).loop = s.loop := rfl
@[simp] theorem State.beginCharging_refs (c : Chan) : (s.beginCharging c).refs = s.refs := rfl
@[simp] theorem State.beginCharging_pairs (c : Chan) : (s.beginCharging c).pairs = s.pairs := rfl
@[simp] theorem State.beginCharging_pos (c : Chan) : (s.beginCharging c).pos = s.pos := rfl
@[simp] theorem State.beginCharging_store (c : Chan) : (s.beginCharging c).store = s.store := rfl
@[simp] theorem State.beginCharging_sup (c : Chan) : (s.beginCharging c).sup = s.sup := rfl
@[simp] theorem State.beginCharging_router (c : Chan) : (s.beginCharging c).router = s.router := rfl

@[simp] theorem State.takeInterleave_pending : (s.takeInterleave).pending = s.pending := rfl
@[simp] theorem State.takeInterleave_free : (s.takeInterleave).free = s.free := rfl
@[simp] theorem State.takeInterleave_ring : (s.takeInterleave).ring = s.ring := rfl
@[simp] theorem State.takeInterleave_lanes : (s.takeInterleave).lanes = s.lanes := rfl
@[simp] theorem State.takeInterleave_engine : (s.takeInterleave).engine = s.engine := rfl
@[simp] theorem State.takeInterleave_loop : (s.takeInterleave).loop = s.loop := rfl
@[simp] theorem State.takeInterleave_refs : (s.takeInterleave).refs = s.refs := rfl
@[simp] theorem State.takeInterleave_pairs : (s.takeInterleave).pairs = s.pairs := rfl
@[simp] theorem State.takeInterleave_mods : (s.takeInterleave).mods = s.mods := rfl
@[simp] theorem State.takeInterleave_pos : (s.takeInterleave).pos = s.pos := rfl
@[simp] theorem State.takeInterleave_store : (s.takeInterleave).store = s.store := rfl
@[simp] theorem State.takeInterleave_sup : (s.takeInterleave).sup = s.sup := rfl
@[simp] theorem State.takeInterleave_router : (s.takeInterleave).router = s.router := rfl

@[simp] theorem State.sent_pending (o : RingOut) : (s.sent o).pending = s.pending := rfl
@[simp] theorem State.sent_free (o : RingOut) : (s.sent o).free = s.free := rfl
@[simp] theorem State.sent_tb (o : RingOut) : (s.sent o).tb = s.tb := rfl
@[simp] theorem State.sent_lanes (o : RingOut) : (s.sent o).lanes = s.lanes := rfl
@[simp] theorem State.sent_engine (o : RingOut) : (s.sent o).engine = s.engine := rfl
@[simp] theorem State.sent_loop (o : RingOut) : (s.sent o).loop = s.loop := rfl
@[simp] theorem State.sent_refs (o : RingOut) : (s.sent o).refs = s.refs := rfl
@[simp] theorem State.sent_pairs (o : RingOut) : (s.sent o).pairs = s.pairs := rfl
@[simp] theorem State.sent_mods (o : RingOut) : (s.sent o).mods = s.mods := rfl
@[simp] theorem State.sent_pos (o : RingOut) : (s.sent o).pos = s.pos := rfl
@[simp] theorem State.sent_store (o : RingOut) : (s.sent o).store = s.store := rfl
@[simp] theorem State.sent_sup (o : RingOut) : (s.sent o).sup = s.sup := rfl
@[simp] theorem State.sent_router (o : RingOut) : (s.sent o).router = s.router := rfl

@[simp] theorem State.forwarded_pending : (s.forwarded).pending = s.pending := rfl
@[simp] theorem State.forwarded_free : (s.forwarded).free = s.free := rfl
@[simp] theorem State.forwarded_tb : (s.forwarded).tb = s.tb := rfl
@[simp] theorem State.forwarded_lanes : (s.forwarded).lanes = s.lanes := rfl
@[simp] theorem State.forwarded_engine : (s.forwarded).engine = s.engine := rfl
@[simp] theorem State.forwarded_loop : (s.forwarded).loop = s.loop := rfl
@[simp] theorem State.forwarded_refs : (s.forwarded).refs = s.refs := rfl
@[simp] theorem State.forwarded_pairs : (s.forwarded).pairs = s.pairs := rfl
@[simp] theorem State.forwarded_mods : (s.forwarded).mods = s.mods := rfl
@[simp] theorem State.forwarded_pos : (s.forwarded).pos = s.pos := rfl
@[simp] theorem State.forwarded_store : (s.forwarded).store = s.store := rfl
@[simp] theorem State.forwarded_sup : (s.forwarded).sup = s.sup := rfl
@[simp] theorem State.forwarded_router : (s.forwarded).router = s.router := rfl

@[simp] theorem State.recordCycle_pending (w : Word) : (s.recordCycle w).pending = s.pending := rfl
@[simp] theorem State.recordCycle_free (w : Word) : (s.recordCycle w).free = s.free := rfl
@[simp] theorem State.recordCycle_tb (w : Word) : (s.recordCycle w).tb = s.tb := rfl
@[simp] theorem State.recordCycle_lanes (w : Word) : (s.recordCycle w).lanes = s.lanes := rfl
@[simp] theorem State.recordCycle_engine (w : Word) : (s.recordCycle w).engine = s.engine := rfl
@[simp] theorem State.recordCycle_loop (w : Word) : (s.recordCycle w).loop = s.loop := rfl
@[simp] theorem State.recordCycle_refs (w : Word) : (s.recordCycle w).refs = s.refs := rfl
@[simp] theorem State.recordCycle_pairs (w : Word) : (s.recordCycle w).pairs = s.pairs := rfl
@[simp] theorem State.recordCycle_mods (w : Word) : (s.recordCycle w).mods = s.mods := rfl
@[simp] theorem State.recordCycle_pos (w : Word) : (s.recordCycle w).pos = s.pos := rfl
@[simp] theorem State.recordCycle_store (w : Word) : (s.recordCycle w).store = s.store := rfl
@[simp] theorem State.recordCycle_sup (w : Word) : (s.recordCycle w).sup = s.sup := rfl
@[simp] theorem State.recordCycle_router (w : Word) : (s.recordCycle w).router = s.router := rfl

@[simp] theorem State.removeRing_pending : (s.removeRing).pending = s.pending := rfl
@[simp] theorem State.removeRing_free : (s.removeRing).free = s.free := rfl
@[simp] theorem State.removeRing_ring : (s.removeRing).ring = s.ring := rfl
@[simp] theorem State.removeRing_tb : (s.removeRing).tb = s.tb := rfl
@[simp] theorem State.removeRing_lanes : (s.removeRing).lanes = s.lanes := rfl
@[simp] theorem State.removeRing_engine : (s.removeRing).engine = s.engine := rfl
@[simp] theorem State.removeRing_loop : (s.removeRing).loop = s.loop := rfl
@[simp] theorem State.removeRing_refs : (s.removeRing).refs = s.refs := rfl
@[simp] theorem State.removeRing_pairs : (s.removeRing).pairs = s.pairs := rfl
@[simp] theorem State.removeRing_mods : (s.removeRing).mods = s.mods := rfl
@[simp] theorem State.removeRing_pos : (s.removeRing).pos = s.pos := rfl
@[simp] theorem State.removeRing_store : (s.removeRing).store = s.store := rfl
@[simp] theorem State.removeRing_router : (s.removeRing).router = s.router := rfl

@[simp] theorem State.fillMailbox_pending (c : Chan) (p : Payload) : (s.fillMailbox c p).pending = s.pending := rfl
@[simp] theorem State.fillMailbox_free (c : Chan) (p : Payload) : (s.fillMailbox c p).free = s.free := rfl
@[simp] theorem State.fillMailbox_ring (c : Chan) (p : Payload) : (s.fillMailbox c p).ring = s.ring := rfl
@[simp] theorem State.fillMailbox_tb (c : Chan) (p : Payload) : (s.fillMailbox c p).tb = s.tb := rfl
@[simp] theorem State.fillMailbox_lanes (c : Chan) (p : Payload) : (s.fillMailbox c p).lanes = s.lanes := rfl
@[simp] theorem State.fillMailbox_engine (c : Chan) (p : Payload) : (s.fillMailbox c p).engine = s.engine := rfl
@[simp] theorem State.fillMailbox_loop (c : Chan) (p : Payload) : (s.fillMailbox c p).loop = s.loop := rfl
@[simp] theorem State.fillMailbox_pairs (c : Chan) (p : Payload) : (s.fillMailbox c p).pairs = s.pairs := rfl
@[simp] theorem State.fillMailbox_mods (c : Chan) (p : Payload) : (s.fillMailbox c p).mods = s.mods := rfl
@[simp] theorem State.fillMailbox_pos (c : Chan) (p : Payload) : (s.fillMailbox c p).pos = s.pos := rfl
@[simp] theorem State.fillMailbox_store (c : Chan) (p : Payload) : (s.fillMailbox c p).store = s.store := rfl
@[simp] theorem State.fillMailbox_sup (c : Chan) (p : Payload) : (s.fillMailbox c p).sup = s.sup := rfl
@[simp] theorem State.fillMailbox_router (c : Chan) (p : Payload) : (s.fillMailbox c p).router = s.router := rfl

@[simp] theorem State.markSeen_pending (c : Chan) : (s.markSeen c).pending = s.pending := rfl
@[simp] theorem State.markSeen_free (c : Chan) : (s.markSeen c).free = s.free := rfl
@[simp] theorem State.markSeen_ring (c : Chan) : (s.markSeen c).ring = s.ring := rfl
@[simp] theorem State.markSeen_tb (c : Chan) : (s.markSeen c).tb = s.tb := rfl
@[simp] theorem State.markSeen_lanes (c : Chan) : (s.markSeen c).lanes = s.lanes := rfl
@[simp] theorem State.markSeen_engine (c : Chan) : (s.markSeen c).engine = s.engine := rfl
@[simp] theorem State.markSeen_loop (c : Chan) : (s.markSeen c).loop = s.loop := rfl
@[simp] theorem State.markSeen_refs (c : Chan) : (s.markSeen c).refs = s.refs := rfl
@[simp] theorem State.markSeen_pairs (c : Chan) : (s.markSeen c).pairs = s.pairs := rfl
@[simp] theorem State.markSeen_mods (c : Chan) : (s.markSeen c).mods = s.mods := rfl
@[simp] theorem State.markSeen_pos (c : Chan) : (s.markSeen c).pos = s.pos := rfl
@[simp] theorem State.markSeen_store (c : Chan) : (s.markSeen c).store = s.store := rfl
@[simp] theorem State.markSeen_router (c : Chan) : (s.markSeen c).router = s.router := rfl

@[simp] theorem State.ringWith_pending (l : Option PartialCell) (o : RingOut) : (s.ringWith l o).pending = s.pending := rfl
@[simp] theorem State.ringWith_free (l : Option PartialCell) (o : RingOut) : (s.ringWith l o).free = s.free := rfl
@[simp] theorem State.ringWith_tb (l : Option PartialCell) (o : RingOut) : (s.ringWith l o).tb = s.tb := rfl
@[simp] theorem State.ringWith_lanes (l : Option PartialCell) (o : RingOut) : (s.ringWith l o).lanes = s.lanes := rfl
@[simp] theorem State.ringWith_engine (l : Option PartialCell) (o : RingOut) : (s.ringWith l o).engine = s.engine := rfl
@[simp] theorem State.ringWith_loop (l : Option PartialCell) (o : RingOut) : (s.ringWith l o).loop = s.loop := rfl
@[simp] theorem State.ringWith_refs (l : Option PartialCell) (o : RingOut) : (s.ringWith l o).refs = s.refs := rfl
@[simp] theorem State.ringWith_pairs (l : Option PartialCell) (o : RingOut) : (s.ringWith l o).pairs = s.pairs := rfl
@[simp] theorem State.ringWith_mods (l : Option PartialCell) (o : RingOut) : (s.ringWith l o).mods = s.mods := rfl
@[simp] theorem State.ringWith_pos (l : Option PartialCell) (o : RingOut) : (s.ringWith l o).pos = s.pos := rfl
@[simp] theorem State.ringWith_store (l : Option PartialCell) (o : RingOut) : (s.ringWith l o).store = s.store := rfl
@[simp] theorem State.ringWith_sup (l : Option PartialCell) (o : RingOut) : (s.ringWith l o).sup = s.sup := rfl
@[simp] theorem State.ringWith_router (l : Option PartialCell) (o : RingOut) : (s.ringWith l o).router = s.router := rfl

@[simp] theorem State.started_pending : (s.started).pending = s.pending := rfl
@[simp] theorem State.started_free : (s.started).free = s.free := rfl
@[simp] theorem State.started_tb : (s.started).tb = s.tb := rfl
@[simp] theorem State.started_lanes : (s.started).lanes = s.lanes := rfl
@[simp] theorem State.started_engine : (s.started).engine = s.engine := rfl
@[simp] theorem State.started_loop : (s.started).loop = s.loop := rfl
@[simp] theorem State.started_refs : (s.started).refs = s.refs := rfl
@[simp] theorem State.started_pairs : (s.started).pairs = s.pairs := rfl
@[simp] theorem State.started_mods : (s.started).mods = s.mods := rfl
@[simp] theorem State.started_pos : (s.started).pos = s.pos := rfl
@[simp] theorem State.started_store : (s.started).store = s.store := rfl
@[simp] theorem State.started_sup : (s.started).sup = s.sup := rfl
@[simp] theorem State.started_router : (s.started).router = s.router := rfl

@[simp] theorem State.restartBlocks_pending : (s.restartBlocks).pending = s.pending := rfl
@[simp] theorem State.restartBlocks_ring : (s.restartBlocks).ring = s.ring := rfl
@[simp] theorem State.restartBlocks_tb : (s.restartBlocks).tb = s.tb := rfl
@[simp] theorem State.restartBlocks_lanes : (s.restartBlocks).lanes = s.lanes := rfl
@[simp] theorem State.restartBlocks_pos : (s.restartBlocks).pos = s.pos := rfl

/-! ### The fields that are written -/

@[simp] theorem State.mapTb_tb (f : Timebase → Timebase) : (s.mapTb f).tb = f s.tb := rfl
@[simp] theorem State.sent_cell (o : RingOut) : (s.sent o).ring.cell = none := rfl
@[simp] theorem State.sent_out (o : RingOut) : (s.sent o).ring.out = o := rfl
@[simp] theorem State.sent_address (o : RingOut) : (s.sent o).ring.address = s.ring.address := rfl
@[simp] theorem State.sent_lastCycle (o : RingOut) : (s.sent o).ring.lastCycle = s.ring.lastCycle := rfl
@[simp] theorem State.setPos_pos (c : Chan) (p : Position) : (s.setPos c p).pos = s.pos.set c p := rfl
@[simp] theorem State.settleGates_mods : s.settleGates.mods = PerChan.ofFn s.settledMod := rfl
@[simp] theorem State.recordCycle_ring (w : Word) : (s.recordCycle w).ring = { s.ring with lastCycle := w } := rfl
@[simp] theorem State.unitSup_sup (c : Chan) (f : Supervisor → Supervisor) : (s.unitSup c f).sup = PerChan.ofFn fun d => if s.inUnit c d then f (s.sup.get d) else s.sup.get d := rfl
@[simp] theorem State.unitMods_mods (c : Chan) (f : Modulator → Modulator) : (s.unitMods c f).mods = PerChan.ofFn fun d => if s.inUnit c d then f (s.mods.get d) else s.mods.get d := rfl

/-! ### Conditional updates -/

/-- What a function keeps, it keeps when repeated. -/
theorem repeat_keeps {α β : Type} (f : α → α) (g : α → β) (h : ∀ a, g (f a) = g a) (n : Nat) (a : α) :
    g (Nat.repeat f n a) = g a := by
  induction n with
  | zero => rfl
  | succ n ih => exact (h _).trans ih

/-- What every step of a fold keeps, the fold keeps. -/
theorem foldl_keeps {α β γ : Type} (f : α → γ → α) (g : α → β) (h : ∀ a c, g (f a c) = g a) (l : List γ)
    (a : α) : g (l.foldl f a) = g a := by
  induction l generalizing a with
  | nil => rfl
  | cons c l ih => exact (ih _).trans (h _ _)

@[simp] theorem State.raiseChan_pending (k : ChanKind) (c : Chan) : (s.raiseChan k c).pending = s.pending := by
  simp [State.raiseChan]
@[simp] theorem State.raiseChan_free (k : ChanKind) (c : Chan) : (s.raiseChan k c).free = s.free := by
  simp [State.raiseChan]
@[simp] theorem State.raiseChan_ring (k : ChanKind) (c : Chan) : (s.raiseChan k c).ring = s.ring := by
  simp [State.raiseChan]
@[simp] theorem State.raiseChan_tb (k : ChanKind) (c : Chan) : (s.raiseChan k c).tb = s.tb := by
  simp [State.raiseChan]
@[simp] theorem State.raiseChan_lanes (k : ChanKind) (c : Chan) : (s.raiseChan k c).lanes = s.lanes := by
  simp [State.raiseChan]
@[simp] theorem State.raiseChan_engine (k : ChanKind) (c : Chan) : (s.raiseChan k c).engine = s.engine := by
  simp [State.raiseChan]
@[simp] theorem State.raiseChan_loop (k : ChanKind) (c : Chan) : (s.raiseChan k c).loop = s.loop := by
  simp [State.raiseChan]
@[simp] theorem State.raiseChan_refs (k : ChanKind) (c : Chan) : (s.raiseChan k c).refs = s.refs := by
  simp [State.raiseChan]
@[simp] theorem State.raiseChan_pairs (k : ChanKind) (c : Chan) : (s.raiseChan k c).pairs = s.pairs := by
  simp [State.raiseChan]
@[simp] theorem State.raiseChan_pos (k : ChanKind) (c : Chan) : (s.raiseChan k c).pos = s.pos := by
  simp [State.raiseChan]
@[simp] theorem State.raiseChan_store (k : ChanKind) (c : Chan) : (s.raiseChan k c).store = s.store := by
  simp [State.raiseChan]

@[simp] theorem State.raiseDev_pending (k : DevKind) : (s.raiseDev k).pending = s.pending := by
  simp [State.raiseDev]
@[simp] theorem State.raiseDev_free (k : DevKind) : (s.raiseDev k).free = s.free := by
  simp [State.raiseDev]
@[simp] theorem State.raiseDev_ring (k : DevKind) : (s.raiseDev k).ring = s.ring := by
  simp [State.raiseDev]
@[simp] theorem State.raiseDev_tb (k : DevKind) : (s.raiseDev k).tb = s.tb := by
  simp [State.raiseDev]
@[simp] theorem State.raiseDev_lanes (k : DevKind) : (s.raiseDev k).lanes = s.lanes := by
  simp [State.raiseDev]
@[simp] theorem State.raiseDev_engine (k : DevKind) : (s.raiseDev k).engine = s.engine := by
  simp [State.raiseDev]
@[simp] theorem State.raiseDev_loop (k : DevKind) : (s.raiseDev k).loop = s.loop := by
  simp [State.raiseDev]
@[simp] theorem State.raiseDev_refs (k : DevKind) : (s.raiseDev k).refs = s.refs := by
  simp [State.raiseDev]
@[simp] theorem State.raiseDev_pairs (k : DevKind) : (s.raiseDev k).pairs = s.pairs := by
  simp [State.raiseDev]
@[simp] theorem State.raiseDev_pos (k : DevKind) : (s.raiseDev k).pos = s.pos := by
  simp [State.raiseDev]
@[simp] theorem State.raiseDev_store (k : DevKind) : (s.raiseDev k).store = s.store := by
  simp [State.raiseDev]

@[simp] theorem State.swapEffect_pending : (s.swapEffect).pending = s.pending := by
  simp [State.swapEffect]
@[simp] theorem State.swapEffect_free : (s.swapEffect).free = s.free := by
  simp [State.swapEffect]
@[simp] theorem State.swapEffect_ring : (s.swapEffect).ring = s.ring := by
  simp [State.swapEffect]
@[simp] theorem State.swapEffect_tb : (s.swapEffect).tb = s.tb := by
  simp [State.swapEffect]
@[simp] theorem State.swapEffect_lanes : (s.swapEffect).lanes = s.lanes := by
  simp [State.swapEffect]
@[simp] theorem State.swapEffect_engine : (s.swapEffect).engine = s.engine := by
  simp [State.swapEffect]
@[simp] theorem State.swapEffect_loop : (s.swapEffect).loop = s.loop := by
  simp [State.swapEffect]
@[simp] theorem State.swapEffect_refs : (s.swapEffect).refs = s.refs := by
  simp [State.swapEffect]
@[simp] theorem State.swapEffect_pairs : (s.swapEffect).pairs = s.pairs := by
  simp [State.swapEffect]

@[simp] theorem State.raiseChanIf_pending (b : Bool) (k : ChanKind) (c : Chan) : (s.raiseChanIf b k c).pending = s.pending := by
  unfold State.raiseChanIf; split <;> simp
@[simp] theorem State.raiseChanIf_free (b : Bool) (k : ChanKind) (c : Chan) : (s.raiseChanIf b k c).free = s.free := by
  unfold State.raiseChanIf; split <;> simp
@[simp] theorem State.raiseChanIf_ring (b : Bool) (k : ChanKind) (c : Chan) : (s.raiseChanIf b k c).ring = s.ring := by
  unfold State.raiseChanIf; split <;> simp
@[simp] theorem State.raiseChanIf_tb (b : Bool) (k : ChanKind) (c : Chan) : (s.raiseChanIf b k c).tb = s.tb := by
  unfold State.raiseChanIf; split <;> simp
@[simp] theorem State.raiseChanIf_lanes (b : Bool) (k : ChanKind) (c : Chan) : (s.raiseChanIf b k c).lanes = s.lanes := by
  unfold State.raiseChanIf; split <;> simp
@[simp] theorem State.raiseChanIf_engine (b : Bool) (k : ChanKind) (c : Chan) : (s.raiseChanIf b k c).engine = s.engine := by
  unfold State.raiseChanIf; split <;> simp
@[simp] theorem State.raiseChanIf_loop (b : Bool) (k : ChanKind) (c : Chan) : (s.raiseChanIf b k c).loop = s.loop := by
  unfold State.raiseChanIf; split <;> simp
@[simp] theorem State.raiseChanIf_refs (b : Bool) (k : ChanKind) (c : Chan) : (s.raiseChanIf b k c).refs = s.refs := by
  unfold State.raiseChanIf; split <;> simp
@[simp] theorem State.raiseChanIf_pairs (b : Bool) (k : ChanKind) (c : Chan) : (s.raiseChanIf b k c).pairs = s.pairs := by
  unfold State.raiseChanIf; split <;> simp
@[simp] theorem State.raiseChanIf_pos (b : Bool) (k : ChanKind) (c : Chan) : (s.raiseChanIf b k c).pos = s.pos := by
  unfold State.raiseChanIf; split <;> simp
@[simp] theorem State.raiseChanIf_store (b : Bool) (k : ChanKind) (c : Chan) : (s.raiseChanIf b k c).store = s.store := by
  unfold State.raiseChanIf; split <;> simp

@[simp] theorem State.deliverChan_pending (l : ChanLevel) (c : Chan) (b : Bool) : (s.deliverChan l c b).pending = s.pending := by
  unfold State.deliverChan; dsimp only; split <;> simp
@[simp] theorem State.deliverChan_free (l : ChanLevel) (c : Chan) (b : Bool) : (s.deliverChan l c b).free = s.free := by
  unfold State.deliverChan; dsimp only; split <;> simp
@[simp] theorem State.deliverChan_ring (l : ChanLevel) (c : Chan) (b : Bool) : (s.deliverChan l c b).ring = s.ring := by
  unfold State.deliverChan; dsimp only; split <;> simp
@[simp] theorem State.deliverChan_tb (l : ChanLevel) (c : Chan) (b : Bool) : (s.deliverChan l c b).tb = s.tb := by
  unfold State.deliverChan; dsimp only; split <;> simp
@[simp] theorem State.deliverChan_lanes (l : ChanLevel) (c : Chan) (b : Bool) : (s.deliverChan l c b).lanes = s.lanes := by
  unfold State.deliverChan; dsimp only; split <;> simp
@[simp] theorem State.deliverChan_engine (l : ChanLevel) (c : Chan) (b : Bool) : (s.deliverChan l c b).engine = s.engine := by
  unfold State.deliverChan; dsimp only; split <;> simp
@[simp] theorem State.deliverChan_loop (l : ChanLevel) (c : Chan) (b : Bool) : (s.deliverChan l c b).loop = s.loop := by
  unfold State.deliverChan; dsimp only; split <;> simp
@[simp] theorem State.deliverChan_refs (l : ChanLevel) (c : Chan) (b : Bool) : (s.deliverChan l c b).refs = s.refs := by
  unfold State.deliverChan; dsimp only; split <;> simp
@[simp] theorem State.deliverChan_pairs (l : ChanLevel) (c : Chan) (b : Bool) : (s.deliverChan l c b).pairs = s.pairs := by
  unfold State.deliverChan; dsimp only; split <;> simp
@[simp] theorem State.deliverChan_pos (l : ChanLevel) (c : Chan) (b : Bool) : (s.deliverChan l c b).pos = s.pos := by
  unfold State.deliverChan; dsimp only; split <;> simp
@[simp] theorem State.deliverChan_store (l : ChanLevel) (c : Chan) (b : Bool) : (s.deliverChan l c b).store = s.store := by
  unfold State.deliverChan; dsimp only; split <;> simp

@[simp] theorem State.deliverDev_pending (l : DevLevel) (b : Bool) : (s.deliverDev l b).pending = s.pending := by
  unfold State.deliverDev; dsimp only; split <;> simp
@[simp] theorem State.deliverDev_free (l : DevLevel) (b : Bool) : (s.deliverDev l b).free = s.free := by
  unfold State.deliverDev; dsimp only; split <;> simp
@[simp] theorem State.deliverDev_ring (l : DevLevel) (b : Bool) : (s.deliverDev l b).ring = s.ring := by
  unfold State.deliverDev; dsimp only; split <;> simp
@[simp] theorem State.deliverDev_tb (l : DevLevel) (b : Bool) : (s.deliverDev l b).tb = s.tb := by
  unfold State.deliverDev; dsimp only; split <;> simp
@[simp] theorem State.deliverDev_lanes (l : DevLevel) (b : Bool) : (s.deliverDev l b).lanes = s.lanes := by
  unfold State.deliverDev; dsimp only; split <;> simp
@[simp] theorem State.deliverDev_engine (l : DevLevel) (b : Bool) : (s.deliverDev l b).engine = s.engine := by
  unfold State.deliverDev; dsimp only; split <;> simp
@[simp] theorem State.deliverDev_loop (l : DevLevel) (b : Bool) : (s.deliverDev l b).loop = s.loop := by
  unfold State.deliverDev; dsimp only; split <;> simp
@[simp] theorem State.deliverDev_refs (l : DevLevel) (b : Bool) : (s.deliverDev l b).refs = s.refs := by
  unfold State.deliverDev; dsimp only; split <;> simp
@[simp] theorem State.deliverDev_pairs (l : DevLevel) (b : Bool) : (s.deliverDev l b).pairs = s.pairs := by
  unfold State.deliverDev; dsimp only; split <;> simp
@[simp] theorem State.deliverDev_pos (l : DevLevel) (b : Bool) : (s.deliverDev l b).pos = s.pos := by
  unfold State.deliverDev; dsimp only; split <;> simp
@[simp] theorem State.deliverDev_store (l : DevLevel) (b : Bool) : (s.deliverDev l b).store = s.store := by
  unfold State.deliverDev; dsimp only; split <;> simp

@[simp] theorem State.clearPair_pending (c : Chan) : (s.clearPair c).pending = s.pending := by
  unfold State.clearPair; split <;> rfl
@[simp] theorem State.clearPair_free (c : Chan) : (s.clearPair c).free = s.free := by
  unfold State.clearPair; split <;> rfl
@[simp] theorem State.clearPair_ring (c : Chan) : (s.clearPair c).ring = s.ring := by
  unfold State.clearPair; split <;> rfl
@[simp] theorem State.clearPair_tb (c : Chan) : (s.clearPair c).tb = s.tb := by
  unfold State.clearPair; split <;> rfl
@[simp] theorem State.clearPair_lanes (c : Chan) : (s.clearPair c).lanes = s.lanes := by
  unfold State.clearPair; split <;> rfl
@[simp] theorem State.clearPair_engine (c : Chan) : (s.clearPair c).engine = s.engine := by
  unfold State.clearPair; split <;> rfl
@[simp] theorem State.clearPair_loop (c : Chan) : (s.clearPair c).loop = s.loop := by
  unfold State.clearPair; split <;> rfl
@[simp] theorem State.clearPair_refs (c : Chan) : (s.clearPair c).refs = s.refs := by
  unfold State.clearPair; split <;> rfl
@[simp] theorem State.clearPair_mods (c : Chan) : (s.clearPair c).mods = s.mods := by
  unfold State.clearPair; split <;> rfl
@[simp] theorem State.clearPair_pos (c : Chan) : (s.clearPair c).pos = s.pos := by
  unfold State.clearPair; split <;> rfl
@[simp] theorem State.clearPair_store (c : Chan) : (s.clearPair c).store = s.store := by
  unfold State.clearPair; split <;> rfl
@[simp] theorem State.clearPair_sup (c : Chan) : (s.clearPair c).sup = s.sup := by
  unfold State.clearPair; split <;> rfl
@[simp] theorem State.clearPair_router (c : Chan) : (s.clearPair c).router = s.router := by
  unfold State.clearPair; split <;> rfl

@[simp] theorem State.enterRun_pending (c : Chan) : (s.enterRun c).pending = s.pending := by
  simp [State.enterRun]
@[simp] theorem State.enterRun_free (c : Chan) : (s.enterRun c).free = s.free := by
  simp [State.enterRun]
@[simp] theorem State.enterRun_ring (c : Chan) : (s.enterRun c).ring = s.ring := by
  simp [State.enterRun]
@[simp] theorem State.enterRun_tb (c : Chan) : (s.enterRun c).tb = s.tb := by
  simp [State.enterRun]
@[simp] theorem State.enterRun_lanes (c : Chan) : (s.enterRun c).lanes = s.lanes := by
  simp [State.enterRun]
@[simp] theorem State.enterRun_engine (c : Chan) : (s.enterRun c).engine = s.engine := by
  simp [State.enterRun]
@[simp] theorem State.enterRun_loop (c : Chan) : (s.enterRun c).loop = s.loop := by
  simp [State.enterRun]
@[simp] theorem State.enterRun_refs (c : Chan) : (s.enterRun c).refs = s.refs := by
  simp [State.enterRun]
@[simp] theorem State.enterRun_pos (c : Chan) : (s.enterRun c).pos = s.pos := by
  simp [State.enterRun]
@[simp] theorem State.enterRun_store (c : Chan) : (s.enterRun c).store = s.store := by
  simp [State.enterRun]
@[simp] theorem State.enterRun_router (c : Chan) : (s.enterRun c).router = s.router := by
  simp [State.enterRun]

@[simp] theorem State.countCharge_pending (c : Chan) : (s.countCharge c).pending = s.pending := by
  unfold State.countCharge; dsimp only; split <;> simp
@[simp] theorem State.countCharge_free (c : Chan) : (s.countCharge c).free = s.free := by
  unfold State.countCharge; dsimp only; split <;> simp
@[simp] theorem State.countCharge_ring (c : Chan) : (s.countCharge c).ring = s.ring := by
  unfold State.countCharge; dsimp only; split <;> simp
@[simp] theorem State.countCharge_tb (c : Chan) : (s.countCharge c).tb = s.tb := by
  unfold State.countCharge; dsimp only; split <;> simp
@[simp] theorem State.countCharge_lanes (c : Chan) : (s.countCharge c).lanes = s.lanes := by
  unfold State.countCharge; dsimp only; split <;> simp
@[simp] theorem State.countCharge_engine (c : Chan) : (s.countCharge c).engine = s.engine := by
  unfold State.countCharge; dsimp only; split <;> simp
@[simp] theorem State.countCharge_loop (c : Chan) : (s.countCharge c).loop = s.loop := by
  unfold State.countCharge; dsimp only; split <;> simp
@[simp] theorem State.countCharge_refs (c : Chan) : (s.countCharge c).refs = s.refs := by
  unfold State.countCharge; dsimp only; split <;> simp
@[simp] theorem State.countCharge_pos (c : Chan) : (s.countCharge c).pos = s.pos := by
  unfold State.countCharge; dsimp only; split <;> simp
@[simp] theorem State.countCharge_store (c : Chan) : (s.countCharge c).store = s.store := by
  unfold State.countCharge; dsimp only; split <;> simp
@[simp] theorem State.countCharge_router (c : Chan) : (s.countCharge c).router = s.router := by
  unfold State.countCharge; dsimp only; split <;> simp

@[simp] theorem State.superviseOne_pending (c : Chan) : (s.superviseOne c).pending = s.pending := by
  unfold State.superviseOne; split <;> (try split) <;> simp
@[simp] theorem State.superviseOne_free (c : Chan) : (s.superviseOne c).free = s.free := by
  unfold State.superviseOne; split <;> (try split) <;> simp
@[simp] theorem State.superviseOne_ring (c : Chan) : (s.superviseOne c).ring = s.ring := by
  unfold State.superviseOne; split <;> (try split) <;> simp
@[simp] theorem State.superviseOne_tb (c : Chan) : (s.superviseOne c).tb = s.tb := by
  unfold State.superviseOne; split <;> (try split) <;> simp
@[simp] theorem State.superviseOne_lanes (c : Chan) : (s.superviseOne c).lanes = s.lanes := by
  unfold State.superviseOne; split <;> (try split) <;> simp
@[simp] theorem State.superviseOne_engine (c : Chan) : (s.superviseOne c).engine = s.engine := by
  unfold State.superviseOne; split <;> (try split) <;> simp
@[simp] theorem State.superviseOne_loop (c : Chan) : (s.superviseOne c).loop = s.loop := by
  unfold State.superviseOne; split <;> (try split) <;> simp
@[simp] theorem State.superviseOne_refs (c : Chan) : (s.superviseOne c).refs = s.refs := by
  unfold State.superviseOne; split <;> (try split) <;> simp
@[simp] theorem State.superviseOne_pos (c : Chan) : (s.superviseOne c).pos = s.pos := by
  unfold State.superviseOne; split <;> (try split) <;> simp
@[simp] theorem State.superviseOne_store (c : Chan) : (s.superviseOne c).store = s.store := by
  unfold State.superviseOne; split <;> (try split) <;> simp
@[simp] theorem State.superviseOne_router (c : Chan) : (s.superviseOne c).router = s.router := by
  unfold State.superviseOne; split <;> (try split) <;> simp

@[simp] theorem State.deliverRun_pending (x : Run) (f : Front) (k : Option ControlResult) : (s.deliverRun x f k).pending = s.pending := by
  simp [State.deliverRun]
@[simp] theorem State.deliverRun_free (x : Run) (f : Front) (k : Option ControlResult) : (s.deliverRun x f k).free = s.free := by
  simp [State.deliverRun]
@[simp] theorem State.deliverRun_ring (x : Run) (f : Front) (k : Option ControlResult) : (s.deliverRun x f k).ring = s.ring := by
  simp [State.deliverRun]
@[simp] theorem State.deliverRun_tb (x : Run) (f : Front) (k : Option ControlResult) : (s.deliverRun x f k).tb = s.tb := by
  simp [State.deliverRun]
@[simp] theorem State.deliverRun_lanes (x : Run) (f : Front) (k : Option ControlResult) : (s.deliverRun x f k).lanes = s.lanes := by
  simp [State.deliverRun]
@[simp] theorem State.deliverRun_engine (x : Run) (f : Front) (k : Option ControlResult) : (s.deliverRun x f k).engine = s.engine := by
  simp [State.deliverRun]
@[simp] theorem State.deliverRun_loop (x : Run) (f : Front) (k : Option ControlResult) : (s.deliverRun x f k).loop = s.loop := by
  simp [State.deliverRun]
@[simp] theorem State.deliverRun_refs (x : Run) (f : Front) (k : Option ControlResult) : (s.deliverRun x f k).refs = s.refs := by
  simp [State.deliverRun]
@[simp] theorem State.deliverRun_pairs (x : Run) (f : Front) (k : Option ControlResult) : (s.deliverRun x f k).pairs = s.pairs := by
  simp [State.deliverRun]
@[simp] theorem State.deliverRun_pos (x : Run) (f : Front) (k : Option ControlResult) : (s.deliverRun x f k).pos = s.pos := by
  simp [State.deliverRun]
@[simp] theorem State.deliverRun_store (x : Run) (f : Front) (k : Option ControlResult) : (s.deliverRun x f k).store = s.store := by
  simp [State.deliverRun]

@[simp] theorem State.decodeStep_pending (c : Chan) (b : Bool) : (s.decodeStep c b).pending = s.pending := by
  unfold State.decodeStep; dsimp only; repeat' split
  all_goals simp
@[simp] theorem State.decodeStep_free (c : Chan) (b : Bool) : (s.decodeStep c b).free = s.free := by
  unfold State.decodeStep; dsimp only; repeat' split
  all_goals simp
@[simp] theorem State.decodeStep_ring (c : Chan) (b : Bool) : (s.decodeStep c b).ring = s.ring := by
  unfold State.decodeStep; dsimp only; repeat' split
  all_goals simp
@[simp] theorem State.decodeStep_tb (c : Chan) (b : Bool) : (s.decodeStep c b).tb = s.tb := by
  unfold State.decodeStep; dsimp only; repeat' split
  all_goals simp
@[simp] theorem State.decodeStep_lanes (c : Chan) (b : Bool) : (s.decodeStep c b).lanes = s.lanes := by
  unfold State.decodeStep; dsimp only; repeat' split
  all_goals simp
@[simp] theorem State.decodeStep_engine (c : Chan) (b : Bool) : (s.decodeStep c b).engine = s.engine := by
  unfold State.decodeStep; dsimp only; repeat' split
  all_goals simp
@[simp] theorem State.decodeStep_loop (c : Chan) (b : Bool) : (s.decodeStep c b).loop = s.loop := by
  unfold State.decodeStep; dsimp only; repeat' split
  all_goals simp
@[simp] theorem State.decodeStep_refs (c : Chan) (b : Bool) : (s.decodeStep c b).refs = s.refs := by
  unfold State.decodeStep; dsimp only; repeat' split
  all_goals simp
@[simp] theorem State.decodeStep_pairs (c : Chan) (b : Bool) : (s.decodeStep c b).pairs = s.pairs := by
  unfold State.decodeStep; dsimp only; repeat' split
  all_goals simp
@[simp] theorem State.decodeStep_store (c : Chan) (b : Bool) : (s.decodeStep c b).store = s.store := by
  unfold State.decodeStep; dsimp only; repeat' split
  all_goals simp

@[simp] theorem State.indexEdge_pending (c : Chan) : (s.indexEdge c).pending = s.pending := by
  unfold State.indexEdge; dsimp only; repeat' split
  all_goals simp
@[simp] theorem State.indexEdge_free (c : Chan) : (s.indexEdge c).free = s.free := by
  unfold State.indexEdge; dsimp only; repeat' split
  all_goals simp
@[simp] theorem State.indexEdge_ring (c : Chan) : (s.indexEdge c).ring = s.ring := by
  unfold State.indexEdge; dsimp only; repeat' split
  all_goals simp
@[simp] theorem State.indexEdge_tb (c : Chan) : (s.indexEdge c).tb = s.tb := by
  unfold State.indexEdge; dsimp only; repeat' split
  all_goals simp
@[simp] theorem State.indexEdge_lanes (c : Chan) : (s.indexEdge c).lanes = s.lanes := by
  unfold State.indexEdge; dsimp only; repeat' split
  all_goals simp
@[simp] theorem State.indexEdge_engine (c : Chan) : (s.indexEdge c).engine = s.engine := by
  unfold State.indexEdge; dsimp only; repeat' split
  all_goals simp
@[simp] theorem State.indexEdge_loop (c : Chan) : (s.indexEdge c).loop = s.loop := by
  unfold State.indexEdge; dsimp only; repeat' split
  all_goals simp
@[simp] theorem State.indexEdge_refs (c : Chan) : (s.indexEdge c).refs = s.refs := by
  unfold State.indexEdge; dsimp only; repeat' split
  all_goals simp
@[simp] theorem State.indexEdge_pairs (c : Chan) : (s.indexEdge c).pairs = s.pairs := by
  unfold State.indexEdge; dsimp only; repeat' split
  all_goals simp
@[simp] theorem State.indexEdge_store (c : Chan) : (s.indexEdge c).store = s.store := by
  unfold State.indexEdge; dsimp only; repeat' split
  all_goals simp

@[simp] theorem State.encoderTick_pending (c : Chan) (a b z : Filter) (o : Bool) : (s.encoderTick c a b z o).pending = s.pending := by
  unfold State.encoderTick; dsimp only; repeat' split
  all_goals simp
@[simp] theorem State.encoderTick_free (c : Chan) (a b z : Filter) (o : Bool) : (s.encoderTick c a b z o).free = s.free := by
  unfold State.encoderTick; dsimp only; repeat' split
  all_goals simp
@[simp] theorem State.encoderTick_ring (c : Chan) (a b z : Filter) (o : Bool) : (s.encoderTick c a b z o).ring = s.ring := by
  unfold State.encoderTick; dsimp only; repeat' split
  all_goals simp
@[simp] theorem State.encoderTick_tb (c : Chan) (a b z : Filter) (o : Bool) : (s.encoderTick c a b z o).tb = s.tb := by
  unfold State.encoderTick; dsimp only; repeat' split
  all_goals simp
@[simp] theorem State.encoderTick_lanes (c : Chan) (a b z : Filter) (o : Bool) : (s.encoderTick c a b z o).lanes = s.lanes := by
  unfold State.encoderTick; dsimp only; repeat' split
  all_goals simp
@[simp] theorem State.encoderTick_engine (c : Chan) (a b z : Filter) (o : Bool) : (s.encoderTick c a b z o).engine = s.engine := by
  unfold State.encoderTick; dsimp only; repeat' split
  all_goals simp
@[simp] theorem State.encoderTick_loop (c : Chan) (a b z : Filter) (o : Bool) : (s.encoderTick c a b z o).loop = s.loop := by
  unfold State.encoderTick; dsimp only; repeat' split
  all_goals simp
@[simp] theorem State.encoderTick_refs (c : Chan) (a b z : Filter) (o : Bool) : (s.encoderTick c a b z o).refs = s.refs := by
  unfold State.encoderTick; dsimp only; repeat' split
  all_goals simp
@[simp] theorem State.encoderTick_pairs (c : Chan) (a b z : Filter) (o : Bool) : (s.encoderTick c a b z o).pairs = s.pairs := by
  unfold State.encoderTick; dsimp only; repeat' split
  all_goals simp
@[simp] theorem State.encoderTick_store (c : Chan) (a b z : Filter) (o : Bool) : (s.encoderTick c a b z o).store = s.store := by
  unfold State.encoderTick; dsimp only; repeat' split
  all_goals simp

@[simp] theorem State.inhTick_pending (f : Filter) : (s.inhTick f).pending = s.pending := by
  unfold State.inhTick State.inhibitLow State.inhibitHigh; repeat' split
  all_goals simp
@[simp] theorem State.inhTick_free (f : Filter) : (s.inhTick f).free = s.free := by
  unfold State.inhTick State.inhibitLow State.inhibitHigh; repeat' split
  all_goals simp
@[simp] theorem State.inhTick_ring (f : Filter) : (s.inhTick f).ring = s.ring := by
  unfold State.inhTick State.inhibitLow State.inhibitHigh; repeat' split
  all_goals simp
@[simp] theorem State.inhTick_lanes (f : Filter) : (s.inhTick f).lanes = s.lanes := by
  unfold State.inhTick State.inhibitLow State.inhibitHigh; repeat' split
  all_goals simp
@[simp] theorem State.inhTick_engine (f : Filter) : (s.inhTick f).engine = s.engine := by
  unfold State.inhTick State.inhibitLow State.inhibitHigh; repeat' split
  all_goals simp
@[simp] theorem State.inhTick_loop (f : Filter) : (s.inhTick f).loop = s.loop := by
  unfold State.inhTick State.inhibitLow State.inhibitHigh; repeat' split
  all_goals simp
@[simp] theorem State.inhTick_refs (f : Filter) : (s.inhTick f).refs = s.refs := by
  unfold State.inhTick State.inhibitLow State.inhibitHigh; repeat' split
  all_goals simp
@[simp] theorem State.inhTick_pairs (f : Filter) : (s.inhTick f).pairs = s.pairs := by
  unfold State.inhTick State.inhibitLow State.inhibitHigh; repeat' split
  all_goals simp
@[simp] theorem State.inhTick_pos (f : Filter) : (s.inhTick f).pos = s.pos := by
  unfold State.inhTick State.inhibitLow State.inhibitHigh; repeat' split
  all_goals simp
@[simp] theorem State.inhTick_store (f : Filter) : (s.inhTick f).store = s.store := by
  unfold State.inhTick State.inhibitLow State.inhibitHigh; repeat' split
  all_goals simp

@[simp] theorem State.startRun_pending : (s.startRun).pending = s.pending := by
  unfold State.startRun; repeat' split
  all_goals simp
@[simp] theorem State.startRun_ring : (s.startRun).ring = s.ring := by
  unfold State.startRun; repeat' split
  all_goals simp
@[simp] theorem State.startRun_tb : (s.startRun).tb = s.tb := by
  unfold State.startRun; repeat' split
  all_goals simp
@[simp] theorem State.startRun_lanes : (s.startRun).lanes = s.lanes := by
  unfold State.startRun; repeat' split
  all_goals simp
@[simp] theorem State.startRun_loop : (s.startRun).loop = s.loop := by
  unfold State.startRun; repeat' split
  all_goals simp
@[simp] theorem State.startRun_pairs : (s.startRun).pairs = s.pairs := by
  unfold State.startRun; repeat' split
  all_goals simp
@[simp] theorem State.startRun_mods : (s.startRun).mods = s.mods := by
  unfold State.startRun; repeat' split
  all_goals simp
@[simp] theorem State.startRun_pos : (s.startRun).pos = s.pos := by
  unfold State.startRun; repeat' split
  all_goals simp
@[simp] theorem State.startRun_store : (s.startRun).store = s.store := by
  unfold State.startRun; repeat' split
  all_goals simp
@[simp] theorem State.startRun_router : (s.startRun).router = s.router := by
  unfold State.startRun; repeat' split
  all_goals simp

@[simp] theorem State.startWaiting_pending : (s.startWaiting).pending = s.pending := by
  unfold State.startWaiting; exact repeat_keeps State.startRun State.pending (fun t => t.startRun_pending) _ s
@[simp] theorem State.startWaiting_ring : (s.startWaiting).ring = s.ring := by
  unfold State.startWaiting; exact repeat_keeps State.startRun State.ring (fun t => t.startRun_ring) _ s
@[simp] theorem State.startWaiting_tb : (s.startWaiting).tb = s.tb := by
  unfold State.startWaiting; exact repeat_keeps State.startRun State.tb (fun t => t.startRun_tb) _ s
@[simp] theorem State.startWaiting_lanes : (s.startWaiting).lanes = s.lanes := by
  unfold State.startWaiting; exact repeat_keeps State.startRun State.lanes (fun t => t.startRun_lanes) _ s
@[simp] theorem State.startWaiting_loop : (s.startWaiting).loop = s.loop := by
  unfold State.startWaiting; exact repeat_keeps State.startRun State.loop (fun t => t.startRun_loop) _ s
@[simp] theorem State.startWaiting_pairs : (s.startWaiting).pairs = s.pairs := by
  unfold State.startWaiting; exact repeat_keeps State.startRun State.pairs (fun t => t.startRun_pairs) _ s
@[simp] theorem State.startWaiting_mods : (s.startWaiting).mods = s.mods := by
  unfold State.startWaiting; exact repeat_keeps State.startRun State.mods (fun t => t.startRun_mods) _ s
@[simp] theorem State.startWaiting_pos : (s.startWaiting).pos = s.pos := by
  unfold State.startWaiting; exact repeat_keeps State.startRun State.pos (fun t => t.startRun_pos) _ s
@[simp] theorem State.startWaiting_store : (s.startWaiting).store = s.store := by
  unfold State.startWaiting; exact repeat_keeps State.startRun State.store (fun t => t.startRun_store) _ s
@[simp] theorem State.startWaiting_router : (s.startWaiting).router = s.router := by
  unfold State.startWaiting; exact repeat_keeps State.startRun State.router (fun t => t.startRun_router) _ s

@[simp] theorem State.raiseAll_pending (c : Chan) (l : List ChanKind) : (s.raiseAll c l).pending = s.pending := by
  unfold State.raiseAll; exact foldl_keeps (fun t k => t.raiseChan k c) State.pending (fun t k => t.raiseChan_pending k c) l s
@[simp] theorem State.raiseAll_free (c : Chan) (l : List ChanKind) : (s.raiseAll c l).free = s.free := by
  unfold State.raiseAll; exact foldl_keeps (fun t k => t.raiseChan k c) State.free (fun t k => t.raiseChan_free k c) l s
@[simp] theorem State.raiseAll_ring (c : Chan) (l : List ChanKind) : (s.raiseAll c l).ring = s.ring := by
  unfold State.raiseAll; exact foldl_keeps (fun t k => t.raiseChan k c) State.ring (fun t k => t.raiseChan_ring k c) l s
@[simp] theorem State.raiseAll_tb (c : Chan) (l : List ChanKind) : (s.raiseAll c l).tb = s.tb := by
  unfold State.raiseAll; exact foldl_keeps (fun t k => t.raiseChan k c) State.tb (fun t k => t.raiseChan_tb k c) l s
@[simp] theorem State.raiseAll_lanes (c : Chan) (l : List ChanKind) : (s.raiseAll c l).lanes = s.lanes := by
  unfold State.raiseAll; exact foldl_keeps (fun t k => t.raiseChan k c) State.lanes (fun t k => t.raiseChan_lanes k c) l s
@[simp] theorem State.raiseAll_engine (c : Chan) (l : List ChanKind) : (s.raiseAll c l).engine = s.engine := by
  unfold State.raiseAll; exact foldl_keeps (fun t k => t.raiseChan k c) State.engine (fun t k => t.raiseChan_engine k c) l s
@[simp] theorem State.raiseAll_loop (c : Chan) (l : List ChanKind) : (s.raiseAll c l).loop = s.loop := by
  unfold State.raiseAll; exact foldl_keeps (fun t k => t.raiseChan k c) State.loop (fun t k => t.raiseChan_loop k c) l s
@[simp] theorem State.raiseAll_refs (c : Chan) (l : List ChanKind) : (s.raiseAll c l).refs = s.refs := by
  unfold State.raiseAll; exact foldl_keeps (fun t k => t.raiseChan k c) State.refs (fun t k => t.raiseChan_refs k c) l s
@[simp] theorem State.raiseAll_pairs (c : Chan) (l : List ChanKind) : (s.raiseAll c l).pairs = s.pairs := by
  unfold State.raiseAll; exact foldl_keeps (fun t k => t.raiseChan k c) State.pairs (fun t k => t.raiseChan_pairs k c) l s
@[simp] theorem State.raiseAll_pos (c : Chan) (l : List ChanKind) : (s.raiseAll c l).pos = s.pos := by
  unfold State.raiseAll; exact foldl_keeps (fun t k => t.raiseChan k c) State.pos (fun t k => t.raiseChan_pos k c) l s
@[simp] theorem State.raiseAll_store (c : Chan) (l : List ChanKind) : (s.raiseAll c l).store = s.store := by
  unfold State.raiseAll; exact foldl_keeps (fun t k => t.raiseChan k c) State.store (fun t k => t.raiseChan_store k c) l s

@[simp] theorem State.checkAll_pending (f : Chan → Bool) : (s.checkAll f).pending = s.pending := by
  unfold State.checkAll; refine (foldl_keeps (fun (t : State) (c : Chan) => if f c then t.raiseAll c (s.valleyCheck c).reports else t) State.pending (fun t c => ?_) _ _).trans rfl
  split <;> simp
@[simp] theorem State.checkAll_free (f : Chan → Bool) : (s.checkAll f).free = s.free := by
  unfold State.checkAll; refine (foldl_keeps (fun (t : State) (c : Chan) => if f c then t.raiseAll c (s.valleyCheck c).reports else t) State.free (fun t c => ?_) _ _).trans rfl
  split <;> simp
@[simp] theorem State.checkAll_ring (f : Chan → Bool) : (s.checkAll f).ring = s.ring := by
  unfold State.checkAll; refine (foldl_keeps (fun (t : State) (c : Chan) => if f c then t.raiseAll c (s.valleyCheck c).reports else t) State.ring (fun t c => ?_) _ _).trans rfl
  split <;> simp
@[simp] theorem State.checkAll_tb (f : Chan → Bool) : (s.checkAll f).tb = s.tb := by
  unfold State.checkAll; refine (foldl_keeps (fun (t : State) (c : Chan) => if f c then t.raiseAll c (s.valleyCheck c).reports else t) State.tb (fun t c => ?_) _ _).trans rfl
  split <;> simp
@[simp] theorem State.checkAll_lanes (f : Chan → Bool) : (s.checkAll f).lanes = s.lanes := by
  unfold State.checkAll; refine (foldl_keeps (fun (t : State) (c : Chan) => if f c then t.raiseAll c (s.valleyCheck c).reports else t) State.lanes (fun t c => ?_) _ _).trans rfl
  split <;> simp
@[simp] theorem State.checkAll_loop (f : Chan → Bool) : (s.checkAll f).loop = s.loop := by
  unfold State.checkAll; refine (foldl_keeps (fun (t : State) (c : Chan) => if f c then t.raiseAll c (s.valleyCheck c).reports else t) State.loop (fun t c => ?_) _ _).trans rfl
  split <;> simp
@[simp] theorem State.checkAll_refs (f : Chan → Bool) : (s.checkAll f).refs = s.refs := by
  unfold State.checkAll; refine (foldl_keeps (fun (t : State) (c : Chan) => if f c then t.raiseAll c (s.valleyCheck c).reports else t) State.refs (fun t c => ?_) _ _).trans rfl
  split <;> simp
@[simp] theorem State.checkAll_pairs (f : Chan → Bool) : (s.checkAll f).pairs = s.pairs := by
  unfold State.checkAll; refine (foldl_keeps (fun (t : State) (c : Chan) => if f c then t.raiseAll c (s.valleyCheck c).reports else t) State.pairs (fun t c => ?_) _ _).trans rfl
  split <;> simp
@[simp] theorem State.checkAll_pos (f : Chan → Bool) : (s.checkAll f).pos = s.pos := by
  unfold State.checkAll; refine (foldl_keeps (fun (t : State) (c : Chan) => if f c then t.raiseAll c (s.valleyCheck c).reports else t) State.pos (fun t c => ?_) _ _).trans rfl
  split <;> simp
@[simp] theorem State.checkAll_store (f : Chan → Bool) : (s.checkAll f).store = s.store := by
  unfold State.checkAll; refine (foldl_keeps (fun (t : State) (c : Chan) => if f c then t.raiseAll c (s.valleyCheck c).reports else t) State.store (fun t c => ?_) _ _).trans rfl
  split <;> simp

@[simp] theorem State.supervise_pending (f : Chan → Bool) : (s.supervise f).pending = s.pending := by
  unfold State.supervise; refine foldl_keeps (fun (t : State) (c : Chan) => if f c && !(t.role c).isFollower then t.superviseOne c else t) State.pending (fun t c => ?_) _ _
  split <;> simp
@[simp] theorem State.supervise_free (f : Chan → Bool) : (s.supervise f).free = s.free := by
  unfold State.supervise; refine foldl_keeps (fun (t : State) (c : Chan) => if f c && !(t.role c).isFollower then t.superviseOne c else t) State.free (fun t c => ?_) _ _
  split <;> simp
@[simp] theorem State.supervise_ring (f : Chan → Bool) : (s.supervise f).ring = s.ring := by
  unfold State.supervise; refine foldl_keeps (fun (t : State) (c : Chan) => if f c && !(t.role c).isFollower then t.superviseOne c else t) State.ring (fun t c => ?_) _ _
  split <;> simp
@[simp] theorem State.supervise_tb (f : Chan → Bool) : (s.supervise f).tb = s.tb := by
  unfold State.supervise; refine foldl_keeps (fun (t : State) (c : Chan) => if f c && !(t.role c).isFollower then t.superviseOne c else t) State.tb (fun t c => ?_) _ _
  split <;> simp
@[simp] theorem State.supervise_lanes (f : Chan → Bool) : (s.supervise f).lanes = s.lanes := by
  unfold State.supervise; refine foldl_keeps (fun (t : State) (c : Chan) => if f c && !(t.role c).isFollower then t.superviseOne c else t) State.lanes (fun t c => ?_) _ _
  split <;> simp
@[simp] theorem State.supervise_engine (f : Chan → Bool) : (s.supervise f).engine = s.engine := by
  unfold State.supervise; refine foldl_keeps (fun (t : State) (c : Chan) => if f c && !(t.role c).isFollower then t.superviseOne c else t) State.engine (fun t c => ?_) _ _
  split <;> simp
@[simp] theorem State.supervise_loop (f : Chan → Bool) : (s.supervise f).loop = s.loop := by
  unfold State.supervise; refine foldl_keeps (fun (t : State) (c : Chan) => if f c && !(t.role c).isFollower then t.superviseOne c else t) State.loop (fun t c => ?_) _ _
  split <;> simp
@[simp] theorem State.supervise_refs (f : Chan → Bool) : (s.supervise f).refs = s.refs := by
  unfold State.supervise; refine foldl_keeps (fun (t : State) (c : Chan) => if f c && !(t.role c).isFollower then t.superviseOne c else t) State.refs (fun t c => ?_) _ _
  split <;> simp
@[simp] theorem State.supervise_pos (f : Chan → Bool) : (s.supervise f).pos = s.pos := by
  unfold State.supervise; refine foldl_keeps (fun (t : State) (c : Chan) => if f c && !(t.role c).isFollower then t.superviseOne c else t) State.pos (fun t c => ?_) _ _
  split <;> simp
@[simp] theorem State.supervise_store (f : Chan → Bool) : (s.supervise f).store = s.store := by
  unfold State.supervise; refine foldl_keeps (fun (t : State) (c : Chan) => if f c && !(t.role c).isFollower then t.superviseOne c else t) State.store (fun t c => ?_) _ _
  split <;> simp
@[simp] theorem State.supervise_router (f : Chan → Bool) : (s.supervise f).router = s.router := by
  unfold State.supervise; refine foldl_keeps (fun (t : State) (c : Chan) => if f c && !(t.role c).isFollower then t.superviseOne c else t) State.router (fun t c => ?_) _ _
  split <;> simp

@[simp] theorem State.channelValleys_pending (f : Chan → Bool) : (s.channelValleys f).pending = s.pending := by
  simp [State.channelValleys]
@[simp] theorem State.channelValleys_free (f : Chan → Bool) : (s.channelValleys f).free = s.free := by
  simp [State.channelValleys]
@[simp] theorem State.channelValleys_ring (f : Chan → Bool) : (s.channelValleys f).ring = s.ring := by
  simp [State.channelValleys]
@[simp] theorem State.channelValleys_tb (f : Chan → Bool) : (s.channelValleys f).tb = s.tb := by
  simp [State.channelValleys]
@[simp] theorem State.channelValleys_loop (f : Chan → Bool) : (s.channelValleys f).loop = s.loop := by
  simp [State.channelValleys]
@[simp] theorem State.channelValleys_refs (f : Chan → Bool) : (s.channelValleys f).refs = s.refs := by
  simp [State.channelValleys]
@[simp] theorem State.channelValleys_store (f : Chan → Bool) : (s.channelValleys f).store = s.store := by
  simp [State.channelValleys]

@[simp] theorem State.takeInputs_pending : (s.takeInputs).pending = s.pending := by
  unfold State.takeInputs; dsimp only; refine (foldl_keeps _ State.pending (fun (t : State) c => ?_) _ _).trans ?_
  · split <;> simp
  · split <;> simp
@[simp] theorem State.takeInputs_ring : (s.takeInputs).ring = s.ring := by
  unfold State.takeInputs; dsimp only; refine (foldl_keeps _ State.ring (fun (t : State) c => ?_) _ _).trans ?_
  · split <;> simp
  · split <;> simp
@[simp] theorem State.takeInputs_lanes : (s.takeInputs).lanes = s.lanes := by
  unfold State.takeInputs; dsimp only; refine (foldl_keeps _ State.lanes (fun (t : State) c => ?_) _ _).trans ?_
  · split <;> simp
  · split <;> simp
@[simp] theorem State.takeInputs_engine : (s.takeInputs).engine = s.engine := by
  unfold State.takeInputs; dsimp only; refine (foldl_keeps _ State.engine (fun (t : State) c => ?_) _ _).trans ?_
  · split <;> simp
  · split <;> simp
@[simp] theorem State.takeInputs_loop : (s.takeInputs).loop = s.loop := by
  unfold State.takeInputs; dsimp only; refine (foldl_keeps _ State.loop (fun (t : State) c => ?_) _ _).trans ?_
  · split <;> simp
  · split <;> simp
@[simp] theorem State.takeInputs_refs : (s.takeInputs).refs = s.refs := by
  unfold State.takeInputs; dsimp only; refine (foldl_keeps _ State.refs (fun (t : State) c => ?_) _ _).trans ?_
  · split <;> simp
  · split <;> simp
@[simp] theorem State.takeInputs_pairs : (s.takeInputs).pairs = s.pairs := by
  unfold State.takeInputs; dsimp only; refine (foldl_keeps _ State.pairs (fun (t : State) c => ?_) _ _).trans ?_
  · split <;> simp
  · split <;> simp
@[simp] theorem State.takeInputs_store : (s.takeInputs).store = s.store := by
  unfold State.takeInputs; dsimp only; refine (foldl_keeps _ State.store (fun (t : State) c => ?_) _ _).trans ?_
  · split <;> simp
  · split <;> simp

@[simp] theorem State.tick_pending : (s.tick).pending = s.pending := by
  simp [State.tick]
@[simp] theorem State.tick_ring : (s.tick).ring = s.ring := by
  simp [State.tick]
@[simp] theorem State.tick_lanes : (s.tick).lanes = s.lanes := by
  simp [State.tick]
@[simp] theorem State.tick_engine : (s.tick).engine = s.engine := by
  simp [State.tick]
@[simp] theorem State.tick_loop : (s.tick).loop = s.loop := by
  simp [State.tick]
@[simp] theorem State.tick_refs : (s.tick).refs = s.refs := by
  simp [State.tick]
@[simp] theorem State.tick_pairs : (s.tick).pairs = s.pairs := by
  simp [State.tick]
@[simp] theorem State.tick_store : (s.tick).store = s.store := by
  simp [State.tick]

@[simp] theorem State.advance_pending (n : Nat) : (s.advance n).pending = s.pending := by
  unfold State.advance; split
  · rfl
  · simp only [State.glide_pending]; exact repeat_keeps State.tick State.pending (fun t => t.tick_pending) _ s
@[simp] theorem State.advance_ring (n : Nat) : (s.advance n).ring = s.ring := by
  unfold State.advance; split
  · rfl
  · simp only [State.glide_ring]; exact repeat_keeps State.tick State.ring (fun t => t.tick_ring) _ s
@[simp] theorem State.advance_lanes (n : Nat) : (s.advance n).lanes = s.lanes := by
  unfold State.advance; split
  · rfl
  · simp only [State.glide_lanes]; exact repeat_keeps State.tick State.lanes (fun t => t.tick_lanes) _ s
@[simp] theorem State.advance_engine (n : Nat) : (s.advance n).engine = s.engine := by
  unfold State.advance; split
  · rfl
  · simp only [State.glide_engine]; exact repeat_keeps State.tick State.engine (fun t => t.tick_engine) _ s
@[simp] theorem State.advance_loop (n : Nat) : (s.advance n).loop = s.loop := by
  unfold State.advance; split
  · rfl
  · simp only [State.glide_loop]; exact repeat_keeps State.tick State.loop (fun t => t.tick_loop) _ s
@[simp] theorem State.advance_refs (n : Nat) : (s.advance n).refs = s.refs := by
  unfold State.advance; split
  · rfl
  · simp only [State.glide_refs]; exact repeat_keeps State.tick State.refs (fun t => t.tick_refs) _ s
@[simp] theorem State.advance_pairs (n : Nat) : (s.advance n).pairs = s.pairs := by
  unfold State.advance; split
  · rfl
  · simp only [State.glide_pairs]; exact repeat_keeps State.tick State.pairs (fun t => t.tick_pairs) _ s
@[simp] theorem State.advance_store (n : Nat) : (s.advance n).store = s.store := by
  unfold State.advance; split
  · rfl
  · simp only [State.glide_store]; exact repeat_keeps State.tick State.store (fun t => t.tick_store) _ s

@[simp] theorem State.toTurn_pending : (s.toTurn).pending = s.pending := by
  simp [State.toTurn]
@[simp] theorem State.toTurn_ring : (s.toTurn).ring = s.ring := by
  simp [State.toTurn]
@[simp] theorem State.toTurn_lanes : (s.toTurn).lanes = s.lanes := by
  simp [State.toTurn]
@[simp] theorem State.toTurn_engine : (s.toTurn).engine = s.engine := by
  simp [State.toTurn]
@[simp] theorem State.toTurn_loop : (s.toTurn).loop = s.loop := by
  simp [State.toTurn]
@[simp] theorem State.toTurn_refs : (s.toTurn).refs = s.refs := by
  simp [State.toTurn]
@[simp] theorem State.toTurn_pairs : (s.toTurn).pairs = s.pairs := by
  simp [State.toTurn]
@[simp] theorem State.toTurn_store : (s.toTurn).store = s.store := by
  simp [State.toTurn]

@[simp] theorem State.deliverLoss_pending : (s.deliverLoss).pending = s.pending := by
  unfold State.deliverLoss; split <;> simp
@[simp] theorem State.deliverLoss_free : (s.deliverLoss).free = s.free := by
  unfold State.deliverLoss; split <;> simp
@[simp] theorem State.deliverLoss_ring : (s.deliverLoss).ring = s.ring := by
  unfold State.deliverLoss; split <;> simp
@[simp] theorem State.deliverLoss_tb : (s.deliverLoss).tb = s.tb := by
  unfold State.deliverLoss; split <;> simp
@[simp] theorem State.deliverLoss_lanes : (s.deliverLoss).lanes = s.lanes := by
  unfold State.deliverLoss; split <;> simp
@[simp] theorem State.deliverLoss_engine : (s.deliverLoss).engine = s.engine := by
  unfold State.deliverLoss; split <;> simp
@[simp] theorem State.deliverLoss_loop : (s.deliverLoss).loop = s.loop := by
  unfold State.deliverLoss; split <;> simp
@[simp] theorem State.deliverLoss_refs : (s.deliverLoss).refs = s.refs := by
  unfold State.deliverLoss; split <;> simp
@[simp] theorem State.deliverLoss_pairs : (s.deliverLoss).pairs = s.pairs := by
  unfold State.deliverLoss; split <;> simp
@[simp] theorem State.deliverLoss_pos : (s.deliverLoss).pos = s.pos := by
  unfold State.deliverLoss; split <;> simp
@[simp] theorem State.deliverLoss_store : (s.deliverLoss).store = s.store := by
  unfold State.deliverLoss; split <;> simp

@[simp] theorem State.masterValley_pending (b : Bool) : (s.masterValley b).pending = s.pending := by
  unfold State.masterValley; dsimp only; split <;> simp
@[simp] theorem State.masterValley_free (b : Bool) : (s.masterValley b).free = s.free := by
  unfold State.masterValley; dsimp only; split <;> simp
@[simp] theorem State.masterValley_ring (b : Bool) : (s.masterValley b).ring = s.ring := by
  unfold State.masterValley; dsimp only; split <;> simp
@[simp] theorem State.masterValley_loop (b : Bool) : (s.masterValley b).loop = s.loop := by
  unfold State.masterValley; dsimp only; split <;> simp
@[simp] theorem State.masterValley_refs (b : Bool) : (s.masterValley b).refs = s.refs := by
  unfold State.masterValley; dsimp only; split <;> simp
@[simp] theorem State.masterValley_store (b : Bool) : (s.masterValley b).store = s.store := by
  unfold State.masterValley; dsimp only; split <;> simp

@[simp] theorem State.masterCrest_pending : (s.masterCrest).pending = s.pending := by
  simp [State.masterCrest]
@[simp] theorem State.masterCrest_free : (s.masterCrest).free = s.free := by
  simp [State.masterCrest]
@[simp] theorem State.masterCrest_ring : (s.masterCrest).ring = s.ring := by
  simp [State.masterCrest]
@[simp] theorem State.masterCrest_loop : (s.masterCrest).loop = s.loop := by
  simp [State.masterCrest]
@[simp] theorem State.masterCrest_refs : (s.masterCrest).refs = s.refs := by
  simp [State.masterCrest]
@[simp] theorem State.masterCrest_store : (s.masterCrest).store = s.store := by
  simp [State.masterCrest]

@[simp] theorem State.judgeStaleness_pending : (s.judgeStaleness).pending = s.pending := by
  unfold State.judgeStaleness; exact (foldl_keeps (fun (t : State) (c : Chan) => t.raiseChanIf (s.staleFound c) .setpointStale c) State.pending (fun t c => by simp) _ _).trans rfl
@[simp] theorem State.judgeStaleness_free : (s.judgeStaleness).free = s.free := by
  unfold State.judgeStaleness; exact (foldl_keeps (fun (t : State) (c : Chan) => t.raiseChanIf (s.staleFound c) .setpointStale c) State.free (fun t c => by simp) _ _).trans rfl
@[simp] theorem State.judgeStaleness_ring : (s.judgeStaleness).ring = s.ring := by
  unfold State.judgeStaleness; exact (foldl_keeps (fun (t : State) (c : Chan) => t.raiseChanIf (s.staleFound c) .setpointStale c) State.ring (fun t c => by simp) _ _).trans rfl
@[simp] theorem State.judgeStaleness_tb : (s.judgeStaleness).tb = s.tb := by
  unfold State.judgeStaleness; exact (foldl_keeps (fun (t : State) (c : Chan) => t.raiseChanIf (s.staleFound c) .setpointStale c) State.tb (fun t c => by simp) _ _).trans rfl
@[simp] theorem State.judgeStaleness_lanes : (s.judgeStaleness).lanes = s.lanes := by
  unfold State.judgeStaleness; exact (foldl_keeps (fun (t : State) (c : Chan) => t.raiseChanIf (s.staleFound c) .setpointStale c) State.lanes (fun t c => by simp) _ _).trans rfl
@[simp] theorem State.judgeStaleness_engine : (s.judgeStaleness).engine = s.engine := by
  unfold State.judgeStaleness; exact (foldl_keeps (fun (t : State) (c : Chan) => t.raiseChanIf (s.staleFound c) .setpointStale c) State.engine (fun t c => by simp) _ _).trans rfl
@[simp] theorem State.judgeStaleness_loop : (s.judgeStaleness).loop = s.loop := by
  unfold State.judgeStaleness; exact (foldl_keeps (fun (t : State) (c : Chan) => t.raiseChanIf (s.staleFound c) .setpointStale c) State.loop (fun t c => by simp) _ _).trans rfl
@[simp] theorem State.judgeStaleness_refs : (s.judgeStaleness).refs = s.refs := by
  unfold State.judgeStaleness; exact (foldl_keeps (fun (t : State) (c : Chan) => t.raiseChanIf (s.staleFound c) .setpointStale c) State.refs (fun t c => by simp) _ _).trans rfl
@[simp] theorem State.judgeStaleness_pairs : (s.judgeStaleness).pairs = s.pairs := by
  unfold State.judgeStaleness; exact (foldl_keeps (fun (t : State) (c : Chan) => t.raiseChanIf (s.staleFound c) .setpointStale c) State.pairs (fun t c => by simp) _ _).trans rfl
@[simp] theorem State.judgeStaleness_pos : (s.judgeStaleness).pos = s.pos := by
  unfold State.judgeStaleness; exact (foldl_keeps (fun (t : State) (c : Chan) => t.raiseChanIf (s.staleFound c) .setpointStale c) State.pos (fun t c => by simp) _ _).trans rfl
@[simp] theorem State.judgeStaleness_store : (s.judgeStaleness).store = s.store := by
  unfold State.judgeStaleness; exact (foldl_keeps (fun (t : State) (c : Chan) => t.raiseChanIf (s.staleFound c) .setpointStale c) State.store (fun t c => by simp) _ _).trans rfl

@[simp] theorem State.endLoss_pending : (s.endLoss).pending = s.pending := by
  simp [State.endLoss]
@[simp] theorem State.endLoss_free : (s.endLoss).free = s.free := by
  simp [State.endLoss]
@[simp] theorem State.endLoss_ring : (s.endLoss).ring = s.ring := by
  simp [State.endLoss]
@[simp] theorem State.endLoss_lanes : (s.endLoss).lanes = s.lanes := by
  simp [State.endLoss]
@[simp] theorem State.endLoss_engine : (s.endLoss).engine = s.engine := by
  simp [State.endLoss]
@[simp] theorem State.endLoss_loop : (s.endLoss).loop = s.loop := by
  simp [State.endLoss]
@[simp] theorem State.endLoss_refs : (s.endLoss).refs = s.refs := by
  simp [State.endLoss]
@[simp] theorem State.endLoss_pairs : (s.endLoss).pairs = s.pairs := by
  simp [State.endLoss]
@[simp] theorem State.endLoss_pos : (s.endLoss).pos = s.pos := by
  simp [State.endLoss]
@[simp] theorem State.endLoss_store : (s.endLoss).store = s.store := by
  simp [State.endLoss]

@[simp] theorem State.measureLock_pending : (s.measureLock).pending = s.pending := by
  unfold State.measureLock; dsimp only; repeat' split
  all_goals simp
@[simp] theorem State.measureLock_free : (s.measureLock).free = s.free := by
  unfold State.measureLock; dsimp only; repeat' split
  all_goals simp
@[simp] theorem State.measureLock_ring : (s.measureLock).ring = s.ring := by
  unfold State.measureLock; dsimp only; repeat' split
  all_goals simp
@[simp] theorem State.measureLock_engine : (s.measureLock).engine = s.engine := by
  unfold State.measureLock; dsimp only; repeat' split
  all_goals simp
@[simp] theorem State.measureLock_loop : (s.measureLock).loop = s.loop := by
  unfold State.measureLock; dsimp only; repeat' split
  all_goals simp
@[simp] theorem State.measureLock_refs : (s.measureLock).refs = s.refs := by
  unfold State.measureLock; dsimp only; repeat' split
  all_goals simp
@[simp] theorem State.measureLock_pairs : (s.measureLock).pairs = s.pairs := by
  unfold State.measureLock; dsimp only; repeat' split
  all_goals simp
@[simp] theorem State.measureLock_pos : (s.measureLock).pos = s.pos := by
  unfold State.measureLock; dsimp only; repeat' split
  all_goals simp
@[simp] theorem State.measureLock_store : (s.measureLock).store = s.store := by
  unfold State.measureLock; dsimp only; repeat' split
  all_goals simp

@[simp] theorem State.trySwap_pending : (s.trySwap).pending = s.pending := by
  unfold State.trySwap; split <;> simp
@[simp] theorem State.trySwap_free : (s.trySwap).free = s.free := by
  unfold State.trySwap; split <;> simp
@[simp] theorem State.trySwap_ring : (s.trySwap).ring = s.ring := by
  unfold State.trySwap; split <;> simp
@[simp] theorem State.trySwap_tb : (s.trySwap).tb = s.tb := by
  unfold State.trySwap; split <;> simp
@[simp] theorem State.trySwap_lanes : (s.trySwap).lanes = s.lanes := by
  unfold State.trySwap; split <;> simp
@[simp] theorem State.trySwap_engine : (s.trySwap).engine = s.engine := by
  unfold State.trySwap; split <;> simp
@[simp] theorem State.trySwap_loop : (s.trySwap).loop = s.loop := by
  unfold State.trySwap; split <;> simp
@[simp] theorem State.trySwap_refs : (s.trySwap).refs = s.refs := by
  unfold State.trySwap; split <;> simp
@[simp] theorem State.trySwap_pairs : (s.trySwap).pairs = s.pairs := by
  unfold State.trySwap; split <;> simp

@[simp] theorem State.syncActions_pending : (s.syncActions).pending = s.pending := by
  simp [State.syncActions]
@[simp] theorem State.syncActions_free : (s.syncActions).free = s.free := by
  simp [State.syncActions]
@[simp] theorem State.syncActions_ring : (s.syncActions).ring = s.ring := by
  simp [State.syncActions]
@[simp] theorem State.syncActions_engine : (s.syncActions).engine = s.engine := by
  simp [State.syncActions]
@[simp] theorem State.syncActions_loop : (s.syncActions).loop = s.loop := by
  simp [State.syncActions]
@[simp] theorem State.syncActions_refs : (s.syncActions).refs = s.refs := by
  simp [State.syncActions]
@[simp] theorem State.syncActions_pairs : (s.syncActions).pairs = s.pairs := by
  simp [State.syncActions]
@[simp] theorem State.syncActions_pos : (s.syncActions).pos = s.pos := by
  simp [State.syncActions]
@[simp] theorem State.syncActions_store : (s.syncActions).store = s.store := by
  simp [State.syncActions]

@[simp] theorem State.cut_pending : (s.cut).pending = s.pending := by
  unfold State.cut; split <;> simp
@[simp] theorem State.cut_free : (s.cut).free = s.free := by
  unfold State.cut; split <;> simp
@[simp] theorem State.cut_tb : (s.cut).tb = s.tb := by
  unfold State.cut; split <;> simp
@[simp] theorem State.cut_lanes : (s.cut).lanes = s.lanes := by
  unfold State.cut; split <;> simp
@[simp] theorem State.cut_engine : (s.cut).engine = s.engine := by
  unfold State.cut; split <;> simp
@[simp] theorem State.cut_loop : (s.cut).loop = s.loop := by
  unfold State.cut; split <;> simp
@[simp] theorem State.cut_refs : (s.cut).refs = s.refs := by
  unfold State.cut; split <;> simp
@[simp] theorem State.cut_pairs : (s.cut).pairs = s.pairs := by
  unfold State.cut; split <;> simp
@[simp] theorem State.cut_pos : (s.cut).pos = s.pos := by
  unfold State.cut; split <;> simp
@[simp] theorem State.cut_store : (s.cut).store = s.store := by
  unfold State.cut; split <;> simp

@[simp] theorem State.cellOpened_pending : (s.cellOpened).pending = s.pending := by
  unfold State.cellOpened; repeat' split
  all_goals simp
@[simp] theorem State.cellOpened_free : (s.cellOpened).free = s.free := by
  unfold State.cellOpened; repeat' split
  all_goals simp
@[simp] theorem State.cellOpened_tb : (s.cellOpened).tb = s.tb := by
  unfold State.cellOpened; repeat' split
  all_goals simp
@[simp] theorem State.cellOpened_lanes : (s.cellOpened).lanes = s.lanes := by
  unfold State.cellOpened; repeat' split
  all_goals simp
@[simp] theorem State.cellOpened_engine : (s.cellOpened).engine = s.engine := by
  unfold State.cellOpened; repeat' split
  all_goals simp
@[simp] theorem State.cellOpened_loop : (s.cellOpened).loop = s.loop := by
  unfold State.cellOpened; repeat' split
  all_goals simp
@[simp] theorem State.cellOpened_refs : (s.cellOpened).refs = s.refs := by
  unfold State.cellOpened; repeat' split
  all_goals simp
@[simp] theorem State.cellOpened_pairs : (s.cellOpened).pairs = s.pairs := by
  unfold State.cellOpened; repeat' split
  all_goals simp
@[simp] theorem State.cellOpened_pos : (s.cellOpened).pos = s.pos := by
  unfold State.cellOpened; repeat' split
  all_goals simp
@[simp] theorem State.cellOpened_store : (s.cellOpened).store = s.store := by
  unfold State.cellOpened; repeat' split
  all_goals simp

@[simp] theorem State.syncWithSwap_pending (b : Bool) : (s.syncWithSwap b).pending = s.pending := by
  unfold State.syncWithSwap; split <;> simp
@[simp] theorem State.syncWithSwap_free (b : Bool) : (s.syncWithSwap b).free = s.free := by
  unfold State.syncWithSwap; split <;> simp
@[simp] theorem State.syncWithSwap_ring (b : Bool) : (s.syncWithSwap b).ring = s.ring := by
  unfold State.syncWithSwap; split <;> simp
@[simp] theorem State.syncWithSwap_engine (b : Bool) : (s.syncWithSwap b).engine = s.engine := by
  unfold State.syncWithSwap; split <;> simp
@[simp] theorem State.syncWithSwap_loop (b : Bool) : (s.syncWithSwap b).loop = s.loop := by
  unfold State.syncWithSwap; split <;> simp
@[simp] theorem State.syncWithSwap_refs (b : Bool) : (s.syncWithSwap b).refs = s.refs := by
  unfold State.syncWithSwap; split <;> simp
@[simp] theorem State.syncWithSwap_pairs (b : Bool) : (s.syncWithSwap b).pairs = s.pairs := by
  unfold State.syncWithSwap; split <;> simp

end Sys2Proof.Machine
end

