-- ==== Sys2Proof/Laws/Ops.lean ====
section
/-! SUPPORT. What the shared operations of `Machine/Ops.lean` and the passage of time do: units, channel-state entries, gate
lines, and one rule of induction for everything that time brings. -/

namespace Sys2Proof.Machine

variable (s : State)

/-! ### Units -/

/-- A channel of a unit is its own channel or that one's partner. -/
theorem State.inUnit_iff (c d : Chan) :
    s.inUnit c d = true ↔ d = c ∨ (s.role c).partner = some d := by
  simp [State.inUnit]

/-- A channel belongs to its own unit. -/
@[simp] theorem State.inUnit_self (c : Chan) : s.inUnit c c = true := by simp [State.inUnit]

/-- The supervisor of each channel after a change of a unit's supervisors. -/
@[simp] theorem State.unitSup_get (c d : Chan) (f : Supervisor → Supervisor) :
    (s.unitSup c f).sup.get d = if s.inUnit c d then f (s.sup.get d) else s.sup.get d := by
  simp [State.unitSup]

/-- The modulator of each channel after a change of a unit's modulators. -/
@[simp] theorem State.unitMods_get (c d : Chan) (f : Modulator → Modulator) :
    (s.unitMods c f).mods.get d = if s.inUnit c d then f (s.mods.get d) else s.mods.get d := by
  simp [State.unitMods]

/-- Entry into CHARGE, channel by channel. -/
theorem State.enterCharge_get (c d : Chan) :
    (s.enterCharge c).sup.get d = (if s.inUnit c d then (s.sup.get d).enterCharge else s.sup.get d) ∧
    (s.enterCharge c).mods.get d = (if s.inUnit c d then (s.mods.get d).enterCharge else s.mods.get d) ∧
    (s.enterCharge c).loop.get d = (if s.inUnit c d then (s.loop.get d).chargeEntry else s.loop.get d) ∧
    (s.enterCharge c).refs.get d = (if s.inUnit c d then {} else s.refs.get d) := by
  simp [State.enterCharge]

/-- Entry into STOPPING, channel by channel. -/
theorem State.enterStopping_get (c d : Chan) :
    (s.enterStopping c).sup.get d = (if s.inUnit c d then (s.sup.get d).enterStopping else s.sup.get d) ∧
    (s.enterStopping c).mods.get d =
      (if s.inUnit c d then { s.mods.get d with pending := none } else s.mods.get d) := by
  refine ⟨by simp [State.enterStopping], ?_⟩
  rw [State.enterStopping, State.unitMods_get]
  rfl

/-- Entry into OFF, channel by channel. -/
theorem State.enterOff_get (c d : Chan) :
    (s.enterOff c).sup.get d = (if s.inUnit c d then { s.sup.get d with st := .off } else s.sup.get d) ∧
    (s.enterOff c).mods.get d = (if s.inUnit c d then (s.mods.get d).inhibit else s.mods.get d) := by
  refine ⟨by simp [State.enterOff], ?_⟩
  rw [State.enterOff, State.unitMods_get]
  rfl

/-- The clearing of a pair runtime leaves every channel's supervisor and modulator. -/
theorem State.clearPair_get (c d : Chan) :
    (s.clearPair c).sup.get d = s.sup.get d ∧ (s.clearPair c).mods.get d = s.mods.get d := by
  unfold State.clearPair
  split <;> exact ⟨rfl, rfl⟩

/-- Entry into RUN, channel by channel. -/
theorem State.enterRun_get (c d : Chan) :
    (s.enterRun c).sup.get d = (if s.inUnit c d then { s.sup.get d with st := .run } else s.sup.get d) ∧
    (s.enterRun c).mods.get d =
      (if s.inUnit c d then { s.mods.get d with active := centred s.tb.set.p, drive := true }
        else s.mods.get d) := by
  unfold State.enterRun
  refine ⟨?_, ?_⟩
  · rw [(State.clearPair_get _ c d).1]; simp
  · rw [(State.clearPair_get _ c d).2, State.unitMods_get]; rfl

/-- The start of charging, channel by channel. -/
theorem State.beginCharging_get (c d : Chan) :
    (s.beginCharging c).mods.get d =
      if s.inUnit c d then (s.mods.get d).charging else s.mods.get d := by
  simp [State.beginCharging]

/-! ### Gate lines -/

/-- The gates of a channel brought to their command. -/
@[simp] theorem State.settleGates_mods_get (c : Chan) : s.settleGates.mods.get c = s.settledMod c := by
  simp [State.settleGates]

/-- `n` ticks over the gate lines of a channel. -/
@[simp] theorem State.glide_mods_get (n : Nat) (c : Chan) :
    (s.glide n).mods.get c = (s.mods.get c).mapPhases fun cmp ph =>
      ph.glide (s.enabled c) (s.mods.get c).deadTime s.tb.set.p (s.tb.chanUp c) (s.tb.chanCounter c) cmp n := by
  simp [State.glide]

/-- `n` ticks over the counter of a channel: its filters alone. -/
@[simp] theorem State.glide_pos_get (n : Nat) (c : Chan) :
    (s.glide n).pos.get c = (s.pos.get c).aged n := by
  simp [State.glide]

/-- A function over the phases leaves the rest of a modulator. -/
theorem Modulator.mapPhases_frame (m : Modulator) (f : Nat → Phase → Phase) :
    m.mapPhases f = { m with pa := (m.mapPhases f).pa, pb := (m.mapPhases f).pb, pc := (m.mapPhases f).pc } :=
  rfl

/-- Settled lines never have both gates on. -/
theorem Phase.settle_exclusive (en high : Bool) (dt : Nat) (p : Phase) :
    (p.settle en high dt).exclusive := by
  unfold Phase.settle Phase.exclusive
  cases en <;> cases high <;> simp [Phase.allOff]

/-- Lines that are not driven settle dark. -/
theorem Phase.settle_dark (high : Bool) (dt : Nat) (p : Phase) : (p.settle false high dt).dark := by
  simp [Phase.settle, Phase.allOff, Phase.dark]

/-- Ticks with one commanded side keep the gates exclusive. -/
theorem Phase.hold_exclusive (en high : Bool) (dt n : Nat) {p : Phase} (h : p.exclusive) :
    (p.hold en high dt n).exclusive := by
  unfold Phase.hold
  split
  · exact h
  · split
    · simp [Phase.exclusive]
    · split <;> simp [Phase.exclusive]

/-- Ticks over lines that are not driven keep them dark. -/
theorem Phase.hold_dark (high : Bool) (dt n : Nat) {p : Phase} (h : p.dark) :
    (p.hold false high dt n).dark := by
  unfold Phase.hold
  split
  · exact h
  · simp [Phase.dark]

/-- Ticks of one direction of the counter keep the gates exclusive. -/
theorem Phase.glide_exclusive (en : Bool) (dt p : Nat) (up : Bool) (k cmp n : Nat) {ph : Phase}
    (h : ph.exclusive) : (ph.glide en dt p up k cmp n).exclusive := by
  unfold Phase.glide
  split
  · split
    · exact Phase.hold_exclusive _ _ _ _ (Phase.hold_exclusive _ _ _ _ h)
    · exact Phase.hold_exclusive _ _ _ _ h
  · exact Phase.hold_exclusive _ _ _ _ h

/-- Ticks of one direction of the counter keep lines that are not driven dark. -/
theorem Phase.glide_dark (dt p : Nat) (up : Bool) (k cmp n : Nat) {ph : Phase} (h : ph.dark) :
    (ph.glide false dt p up k cmp n).dark := by
  unfold Phase.glide
  split
  · split
    · exact Phase.hold_dark _ _ _ (Phase.hold_dark _ _ _ h)
    · exact Phase.hold_dark _ _ _ h
  · exact Phase.hold_dark _ _ _ h

/-- A modulator in INHIBIT is dark, and its pending compares are gone. -/
theorem Modulator.inhibit_dark (m : Modulator) :
    m.inhibit.dark ∧ m.inhibit.drive = false ∧ m.inhibit.pending = none ∧ m.inhibit.active = m.active ∧
      m.inhibit.stale = m.stale ∧ m.inhibit.deadTime = m.deadTime := by
  simp [Modulator.inhibit, Modulator.linesOff, Modulator.dark, Phase.dark, Phase.allOff]

/-! ### Cells and cuts -/

/-- At a cell's boundary the start symbol of a cell cuts nothing (R178). -/
theorem State.cellOpened_boundary (h : s.atBoundary) : s.cellOpened = s.started := by
  unfold State.cellOpened
  split
  · next p hp => rw [if_pos (h p hp)]
  · rfl

/-- A cell in progress with a byte in it is cut by the start symbol of a cell (R178). -/
theorem State.cellOpened_partial {p : PartialCell} (h : s.ring.cell = some p) (hb : p.bytes ≠ []) :
    s.cellOpened = s.cut.started := by
  unfold State.cellOpened
  simp only [h, if_neg hb]

/-- What a cut leaves of the ring port: no cell in progress, the address, the last cycle number (R178). -/
theorem State.cut_ring : s.cut.ring.cell = none ∧ s.cut.ring.address = s.ring.address ∧
    s.cut.ring.lastCycle = s.ring.lastCycle ∧ s.cut.ring.waitStart = s.ring.waitStart := by
  unfold State.cut
  split <;> simp [State.ringWith]

/-- A station stays transparent or normal through the start of a cell (R179). -/
@[simp] theorem State.cellOpened_transparent : s.cellOpened.transparent = s.transparent := by
  unfold State.cellOpened
  split
  · split
    · rfl
    · simp only [State.transparent, State.started, (State.cut_ring s).2.1]
  · rfl

/-! ### The passage of time -/

/-- What each of a number of like changes keeps, all of them keep. -/
theorem repeat_invariant {α : Type} {q : α → Prop} {f : α → α} (h : ∀ x, q x → q (f x)) (n : Nat) {x : α}
    (hx : q x) : q (Nat.repeat f n x) := by
  induction n with
  | zero => exact hx
  | succ n ih => exact h _ ih

/-- What each step of a fold over channels keeps, the fold keeps. -/
theorem fold_invariant {α β : Type} {q : β → Prop} {f : β → α → β} (h : ∀ x a, q x → q (f x a)) (l : List α)
    {x : β} (hx : q x) : q (l.foldl f x) := by
  induction l generalizing x with
  | nil => exact hx
  | cons a l ih => exact ih (h _ _ hx)

/-- A promise that a tick of the inputs and a glide of any length keep is kept by the passage of ticks. -/
theorem State.advance_keeps {q : State → Prop} (glide : ∀ x n, q x → q (State.glide n x))
    (inputs : ∀ x, q x → q x.takeInputs) (n : Nat) {s : State} (h : q s) : q (s.advance n) := by
  unfold State.advance
  split
  · exact glide _ _ h
  · exact glide _ _ (repeat_invariant (fun x hx => inputs _ (glide _ _ hx)) _ h)

/-- What each run start keeps, the starts made at once keep. -/
theorem State.startWaiting_keeps {q : State → Prop} (start : ∀ x, q x → q x.startRun) {s : State} (h : q s) :
    q s.startWaiting := repeat_invariant start _ h

/-- A run start leaves a settled engine as it is (R68). -/
theorem State.startRun_settled (h : s.engineSettled) : s.startRun = s := by
  unfold State.startRun
  split
  · next e rest h1 h2 => rcases h with h | h <;> simp_all
  · rfl

/-- A run start from a free engine with entries waiting shortens the queue by its oldest entry. -/
theorem State.startRun_queue {e : Entry} {rest : List Entry} (h1 : s.engine.running = none)
    (h2 : s.engine.queue = e :: rest) : s.startRun.engine.queue = rest := by
  unfold State.startRun
  simp only [h1, h2]
  split <;> rfl

/-- After `n` run starts the engine is settled, or `n` entries have left the queue. -/
theorem State.startRun_repeat (n : Nat) :
    (Nat.repeat State.startRun n s).engineSettled ∨
      (Nat.repeat State.startRun n s).engine.queue.length + n ≤ s.engine.queue.length := by
  induction n with
  | zero => exact .inr (Nat.le_refl _)
  | succ n ih =>
    rw [Nat.repeat]
    generalize Nat.repeat State.startRun n s = x at ih ⊢
    by_cases hx : x.engineSettled
    · rw [x.startRun_settled hx]; exact .inl hx
    · obtain ⟨h1, h2⟩ := not_or.mp hx
      obtain ⟨e, rest, h2⟩ := List.exists_cons_of_ne_nil h2
      have ih := ih.resolve_left hx
      rw [x.startRun_queue (by simpa using h1) h2]
      rw [h2, List.length_cons] at ih
      exact .inr (by omega)

/-- The starts made at once leave no entry waiting before a free engine (R68). -/
theorem State.startWaiting_settled : s.startWaiting.engineSettled := by
  rcases s.startRun_repeat s.engine.queue.length with h | h
  · exact h
  · exact .inr (List.length_eq_zero_iff.mp (by unfold State.startWaiting; omega))

/-- A settled engine starts nothing (R68). -/
theorem State.startWaiting_eq (h : s.engineSettled) : s.startWaiting = s := by
  unfold State.startWaiting
  exact repeat_invariant (q := fun x => x = s) (fun x hx => hx ▸ s.startRun_settled h) _ rfl

/-- A promise that each change of INH_N and of one encoder keeps, and the count of free values too, is kept by the inputs
of a tick. -/
theorem State.takeInputs_keeps {q : State → Prop} (inh : ∀ x f, q x → q (x.inhTick f))
    (free : ∀ x : State, q x → q { x with free := x.free + 1 })
    (enc : ∀ x c fa fb fz b, q x → q (State.encoderTick c fa fb fz b x)) {s : State} (h : q s) :
    q s.takeInputs := by
  unfold State.takeInputs
  have h0 : q (if s.tb.inh.due then s.inhTick s.tb.inh.taken else s) := by
    split
    · exact inh _ _ h
    · exact h
  refine fold_invariant (fun x c hx => ?_) _ (free _ h0)
  dsimp only
  split
  · exact enc _ _ _ _ _ _ hx
  · exact hx

/-- A promise that raises and a change of the modulators and the engine keep is kept by the checks of a turning point. -/
theorem State.checkAll_keeps {q : State → Prop} (f : Chan → Bool)
    (first : q { s with mods := s.checkedMods f, engine := s.checkedEngine f })
    (raise : ∀ x k c, q x → q (x.raiseChan k c)) : q (s.checkAll f) := by
  unfold State.checkAll
  refine fold_invariant (fun x c hx => ?_) _ first
  split
  · exact fold_invariant (fun y k hy => raise y k c hy) _ hx
  · exact hx

/-- A promise that the supervisor's act on one governing channel keeps is kept by its acts at a turning point. -/
theorem State.supervise_keeps {q : State → Prop} (f : Chan → Bool) (one : ∀ x c, q x → q (x.superviseOne c))
    {s : State} (h : q s) : q (s.supervise f) := by
  unfold State.supervise
  refine fold_invariant (fun x c hx => ?_) _ h
  split
  · exact one _ _ hx
  · exact hx

/-! ### Strobe and latch (R112) -/

/-- A channel latches at its own valley. -/
theorem State.latches_own {f : Chan → Bool} {c : Chan} (h : f c = true) : s.latches f c = true := by
  simp [State.latches, h]

/-- A follower latches at its leader's valley. -/
theorem State.latches_follower {f : Chan → Bool} {c p : Chan} {k : Fin 4} (h : s.role c = .follower k p)
    (hp : f p = true) : s.latches f c = true := by
  simp [State.latches, h, hp]

/-- No other channel latches. -/
theorem State.latches_none {f : Chan → Bool} {c : Chan} (h : f c = false)
    (hp : ∀ k p, s.role c = .follower k p → f p = false) : s.latches f c = false := by
  unfold State.latches
  cases hr : s.role c <;> simp_all

/-- The counter of a channel after the strobes of the channels of `f`. -/
theorem State.strobeAll_pos_get (f : Chan → Bool) (c : Chan) :
    (s.strobeAll f).pos.get c =
      if s.latches f c then { s.pos.get c with latched := some ⟨(s.pos.get c).fine, (s.pos.get c).rev⟩ }
      else s.pos.get c := by
  simp [State.strobeAll, Position.counts]

end Sys2Proof.Machine
end

