-- ==== Sys2Proof/Laws/Router.lean ====
section
/-! SUPPORT. What a raise and its parts do: flags, trips, holds, kept conditions, fault lines. Each lemma says once what an
operation of `Machine/Flags.lean` gives for one channel, one kind or one field. -/

namespace Sys2Proof.Machine

/-- The kind at its own index of the list of kinds. -/
theorem ChanKind.all_idx (k : ChanKind) : ChanKind.all[k.idx.val]? = some k := by cases k <;> rfl

/-- The device kind at its own index of the list of kinds. -/
theorem DevKind.all_idx (k : DevKind) : DevKind.all[k.idx.val]? = some k := by cases k <;> rfl

theorem ChanKind.idx_injective {j k : ChanKind} (h : j.idx = k.idx) : j = k := by
  have := j.all_idx
  rw [h, k.all_idx] at this
  exact (Option.some.inj this).symm

theorem DevKind.idx_injective {j k : DevKind} (h : j.idx = k.idx) : j = k := by
  have := j.all_idx
  rw [h, k.all_idx] at this
  exact (Option.some.inj this).symm

theorem ChanKind.mem_all (k : ChanKind) : k ∈ ChanKind.all := by cases k <;> decide

theorem DevKind.mem_all (k : DevKind) : k ∈ DevKind.all := by cases k <;> decide

/-! ### Flags -/

variable (s : State)

/-- A channel flag depends on the router's flags alone. -/
theorem State.chanFlag_congr {s t : State} (h : t.router.flags = s.router.flags) (c : Chan) (k : ChanKind) :
    t.chanFlag c k = s.chanFlag c k := by
  simp [State.chanFlag, h]

/-- A device flag depends on the router's device flags alone. -/
theorem State.devFlag_congr {s t : State} (h : t.router.dev = s.router.dev) (k : DevKind) :
    t.devFlag k = s.devFlag k := by
  simp [State.devFlag, h]

theorem State.setChanFlag_chanFlag (k j : ChanKind) (c d : Chan) :
    (s.setChanFlag k c).chanFlag d j =
      if d = c ∧ j = k then (s.chanFlag c k).raised else s.chanFlag d j := by
  by_cases hd : d = c
  · subst hd
    by_cases hj : j = k
    · subst hj
      simp [State.chanFlag, State.setChanFlag, Vector.get_eq_getElem]
    · have : k.idx.val ≠ j.idx.val := fun h => hj (ChanKind.idx_injective (Fin.ext h.symm))
      simp [State.chanFlag, State.setChanFlag, Vector.get_eq_getElem, hj, this]
  · simp [State.chanFlag, State.setChanFlag, hd]

theorem State.setDevFlag_devFlag (k j : DevKind) :
    (s.setDevFlag k).devFlag j = if j = k then (s.devFlag k).raised else s.devFlag j := by
  by_cases hj : j = k
  · subst hj
    simp [State.devFlag, State.setDevFlag, Vector.get_eq_getElem]
  · have : k.idx.val ≠ j.idx.val := fun h => hj (DevKind.idx_injective (Fin.ext h.symm))
    simp [State.devFlag, State.setDevFlag, Vector.get_eq_getElem, hj, this]

@[simp] theorem State.tripAction_flags (code : Nat) (f : Chan → Option Via) :
    (s.tripAction code f).router.flags = s.router.flags := (rfl)
@[simp] theorem State.tripAction_dev (code : Nat) (f : Chan → Option Via) :
    (s.tripAction code f).router.dev = s.router.dev := (rfl)
@[simp] theorem State.tripAction_kept (code : Nat) (f : Chan → Option Via) :
    (s.tripAction code f).router.kept = s.router.kept := (rfl)
@[simp] theorem State.tripAction_devKept (code : Nat) (f : Chan → Option Via) :
    (s.tripAction code f).router.devKept = s.router.devKept := (rfl)

@[simp] theorem State.setChanFlag_dev (k : ChanKind) (c : Chan) :
    (s.setChanFlag k c).router.dev = s.router.dev := (rfl)
@[simp] theorem State.setChanFlag_kept (k : ChanKind) (c : Chan) :
    (s.setChanFlag k c).router.kept = s.router.kept := (rfl)
@[simp] theorem State.setChanFlag_devKept (k : ChanKind) (c : Chan) :
    (s.setChanFlag k c).router.devKept = s.router.devKept := (rfl)
@[simp] theorem State.setChanFlag_trips (k : ChanKind) (c : Chan) :
    (s.setChanFlag k c).router.trips = s.router.trips := (rfl)
@[simp] theorem State.setDevFlag_flags (k : DevKind) :
    (s.setDevFlag k).router.flags = s.router.flags := (rfl)
@[simp] theorem State.setDevFlag_kept (k : DevKind) :
    (s.setDevFlag k).router.kept = s.router.kept := (rfl)
@[simp] theorem State.setDevFlag_devKept (k : DevKind) :
    (s.setDevFlag k).router.devKept = s.router.devKept := (rfl)
@[simp] theorem State.setDevFlag_trips (k : DevKind) :
    (s.setDevFlag k).router.trips = s.router.trips := (rfl)

@[simp] theorem State.raiseChan_kept (k : ChanKind) (c : Chan) :
    (s.raiseChan k c).router.kept = s.router.kept := (rfl)
@[simp] theorem State.raiseChan_devKept (k : ChanKind) (c : Chan) :
    (s.raiseChan k c).router.devKept = s.router.devKept := (rfl)
@[simp] theorem State.raiseChan_dev (k : ChanKind) (c : Chan) :
    (s.raiseChan k c).router.dev = s.router.dev := (rfl)
@[simp] theorem State.raiseDev_kept (k : DevKind) : (s.raiseDev k).router.kept = s.router.kept := (rfl)
@[simp] theorem State.raiseDev_devKept (k : DevKind) :
    (s.raiseDev k).router.devKept = s.router.devKept := (rfl)
@[simp] theorem State.raiseDev_flags (k : DevKind) : (s.raiseDev k).router.flags = s.router.flags := (rfl)

/-- A raise of a channel kind sets and counts its own flag, and no other (R144). -/
theorem State.raiseChan_chanFlag (k j : ChanKind) (c d : Chan) :
    (s.raiseChan k c).chanFlag d j =
      if d = c ∧ j = k then (s.chanFlag c k).raised else s.chanFlag d j :=
  s.setChanFlag_chanFlag k j c d

/-- A raise of a channel kind leaves the flags of the device. -/
@[simp] theorem State.raiseChan_devFlag (k : ChanKind) (c : Chan) (j : DevKind) :
    (s.raiseChan k c).devFlag j = s.devFlag j := (rfl)

/-- A raise of a device kind sets and counts its own flag, and no other (R144). -/
theorem State.raiseDev_devFlag (k j : DevKind) :
    (s.raiseDev k).devFlag j = if j = k then (s.devFlag k).raised else s.devFlag j :=
  s.setDevFlag_devFlag k j

/-- A raise of a device kind leaves the flags of the channels. -/
@[simp] theorem State.raiseDev_chanFlag (k : DevKind) (c : Chan) (j : ChanKind) :
    (s.raiseDev k).chanFlag c j = s.chanFlag c j := (rfl)

/-! ### The active bank -/

/-- The active bank depends on the store alone. -/
theorem State.bank_congr {s t : State} (h : t.store = s.store) : t.bank = s.bank := by
  simp [State.bank, h]

/-- The role of a channel depends on the store alone. -/
theorem State.role_congr {s t : State} (h : t.store = s.store) (c : Chan) : t.role c = s.role c := by
  simp [State.role, State.bank, h]

/-- The record of a channel depends on the store alone. -/
theorem State.record_congr {s t : State} (h : t.store = s.store) (c : Chan) : t.record c = s.record c := by
  simp [State.record, State.bank, h]

@[simp] theorem State.raiseChan_bank (k : ChanKind) (c : Chan) : (s.raiseChan k c).bank = s.bank := (rfl)
@[simp] theorem State.raiseDev_bank (k : DevKind) : (s.raiseDev k).bank = s.bank := (rfl)

/-! ### Trip action (R136, R146, R150 to R152) -/

@[simp] theorem State.tripAction_sup_get (code : Nat) (f : Chan → Option Via) (c : Chan) :
    (s.tripAction code f).sup.get c =
      if (s.tripReach f c).isSome && s.tripTakes c then (s.sup.get c).enterTrip else s.sup.get c := by
  simp [State.tripAction]

@[simp] theorem State.tripAction_mods_get (code : Nat) (f : Chan → Option Via) (c : Chan) :
    (s.tripAction code f).mods.get c =
      if (s.tripReach f c).isSome && s.tripTakes c then (s.mods.get c).inhibit else s.mods.get c := by
  simp [State.tripAction]

@[simp] theorem State.tripAction_trips_get (code : Nat) (f : Chan → Option Via) (c : Chan) :
    (s.tripAction code f).router.trips.get c =
      match s.tripReach f c with
      | some v => s.tripRecordAfter code v c
      | none => s.router.trips.get c := by
  cases h : s.tripReach f c <;> simp [State.tripAction, h]

/-- A trip that names no channel reaches none. -/
theorem State.tripReach_none {f : Chan → Option Via} (h : ∀ c, f c = none) (c : Chan) :
    s.tripReach f c = none := by
  simp only [State.tripReach, h, Option.isSome_none, Bool.false_eq_true, if_false]
  cases (s.role c).partner <;> rfl

/-- A trip that names no channel changes none. -/
theorem State.tripAction_none (code : Nat) {f : Chan → Option Via} (h : ∀ c, f c = none) :
    s.tripAction code f = s := by
  have e := s.tripReach_none h
  have h1 : (s.tripAction code f).sup = s.sup := PerChan.ext_get fun c => by simp [e]
  have h2 : (s.tripAction code f).mods = s.mods := PerChan.ext_get fun c => by simp [e]
  have h3 : (s.tripAction code f).router.trips = s.router.trips := PerChan.ext_get fun c => by simp [e]
  show { s with sup := (s.tripAction code f).sup, mods := (s.tripAction code f).mods,
                router := { s.router with trips := (s.tripAction code f).router.trips } } = s
  rw [h1, h2, h3]

/-- A kind that is not trip-class names no channel for a trip (R145, R147). -/
theorem Route.chanTrip_none {b : Bank} {k : ChanKind} (h : b.chanTripClass k = false) (c d : Chan) :
    (b.route k.code).chanTrip k c d = none := by
  simp only [Bank.chanTripClass, Bool.or_eq_false_iff] at h
  simp [Route.chanTrip, h.1.1, h.1.2, h.2]

/-- A device kind that is not trip-class names no channel for a trip (R145, R147). -/
theorem Route.devTrip_none {b : Bank} {k : DevKind} (h : b.devTripClass k = false) (d : Chan) :
    (b.route k.code).devTrip k d = none := by
  simp only [Bank.devTripClass, Bool.or_eq_false_iff] at h
  simp [Route.devTrip, h.1.1, h.1.2, h.2]

/-! ### Hold action (R130) -/

@[simp] theorem State.holdAction_sup_get (f : Chan → Causes) (c : Chan) :
    (s.holdAction f).sup.get c = (s.sup.get c).addCauses (s.holdReach f c) := by
  simp [State.holdAction]

/-- Only a channel in RUN or HOLD is changed by a hold. -/
theorem Supervisor.addCauses_of_not_closing {u : Supervisor} (h : u.st.closing = false) (x : Causes) :
    u.addCauses x = u := by
  unfold Supervisor.addCauses
  split
  · rfl
  · simp [h]

theorem Supervisor.addCauses_empty (u : Supervisor) {x : Causes} (h : x.isEmpty = true) :
    u.addCauses x = u := by
  simp [Supervisor.addCauses, h]

/-- What a hold leaves of a supervisor, whatever it adds. -/
theorem Supervisor.addCauses_frame (u : Supervisor) (x : Causes) :
    u.addCauses x = { u with st := (u.addCauses x).st, causes := (u.addCauses x).causes } := by
  unfold Supervisor.addCauses
  split
  · rfl
  · split <;> rfl

/-! ### Raises (R144 to R146) -/

theorem State.raiseChan_sup_get (k : ChanKind) (c d : Chan) :
    (s.raiseChan k c).sup.get d =
      (if (s.tripReach ((s.bank.route k.code).chanTrip k c) d).isSome && s.tripTakes d then
        (s.sup.get d).enterTrip else s.sup.get d).addCauses
        (s.holdReach ((s.bank.route k.code).chanHold k c) d) := by
  have h : (s.raiseChan k c).sup.get d =
    ((((s.setChanFlag k c).tripAction k.code ((s.bank.route k.code).chanTrip k c)).holdAction
      ((s.bank.route k.code).chanHold k c)).sup.get d) := (rfl)
  rw [h, State.holdAction_sup_get, State.tripAction_sup_get]
  rfl

theorem State.raiseChan_mods_get (k : ChanKind) (c d : Chan) :
    (s.raiseChan k c).mods.get d =
      if (s.tripReach ((s.bank.route k.code).chanTrip k c) d).isSome && s.tripTakes d then
        (s.mods.get d).inhibit else s.mods.get d := by
  have h : (s.raiseChan k c).mods.get d =
    ((s.setChanFlag k c).tripAction k.code ((s.bank.route k.code).chanTrip k c)).mods.get d := (rfl)
  rw [h, State.tripAction_mods_get]
  rfl

theorem State.raiseChan_trips_get (k : ChanKind) (c d : Chan) :
    (s.raiseChan k c).router.trips.get d =
      match s.tripReach ((s.bank.route k.code).chanTrip k c) d with
      | some v => s.tripRecordAfter k.code v d
      | none => s.router.trips.get d := by
  have h : (s.raiseChan k c).router.trips.get d =
    ((s.setChanFlag k c).tripAction k.code ((s.bank.route k.code).chanTrip k c)).router.trips.get d := (rfl)
  rw [h, State.tripAction_trips_get]
  rfl

theorem State.raiseDev_sup_get (k : DevKind) (d : Chan) :
    (s.raiseDev k).sup.get d =
      (if (s.tripReach ((s.bank.route k.code).devTrip k) d).isSome && s.tripTakes d then
        (s.sup.get d).enterTrip else s.sup.get d).addCauses
        (s.holdReach ((s.bank.route k.code).devHold k) d) := by
  have h : (s.raiseDev k).sup.get d =
    ((((s.setDevFlag k).tripAction k.code ((s.bank.route k.code).devTrip k)).holdAction
      ((s.bank.route k.code).devHold k)).sup.get d) := (rfl)
  rw [h, State.holdAction_sup_get, State.tripAction_sup_get]
  rfl

theorem State.raiseDev_mods_get (k : DevKind) (d : Chan) :
    (s.raiseDev k).mods.get d =
      if (s.tripReach ((s.bank.route k.code).devTrip k) d).isSome && s.tripTakes d then
        (s.mods.get d).inhibit else s.mods.get d := by
  have h : (s.raiseDev k).mods.get d =
    ((s.setDevFlag k).tripAction k.code ((s.bank.route k.code).devTrip k)).mods.get d := (rfl)
  rw [h, State.tripAction_mods_get]
  rfl

theorem State.raiseDev_trips_get (k : DevKind) (d : Chan) :
    (s.raiseDev k).router.trips.get d =
      match s.tripReach ((s.bank.route k.code).devTrip k) d with
      | some v => s.tripRecordAfter k.code v d
      | none => s.router.trips.get d := by
  have h : (s.raiseDev k).router.trips.get d =
    ((s.setDevFlag k).tripAction k.code ((s.bank.route k.code).devTrip k)).router.trips.get d := (rfl)
  rw [h, State.tripAction_trips_get]
  rfl

/-- What a raise may do to one channel's supervisor: nothing, a hold in RUN or HOLD, or a trip. -/
theorem State.raiseChan_sup_cases (k : ChanKind) (c d : Chan) :
    (s.raiseChan k c).sup.get d = s.sup.get d ∨
      (∃ x, (s.st d).closing = true ∧
        (s.raiseChan k c).sup.get d = { s.sup.get d with st := .hold, causes := x }) ∨
      (s.st d ≠ .trip ∧ (s.raiseChan k c).sup.get d = (s.sup.get d).enterTrip) := by
  rw [State.raiseChan_sup_get]
  split
  next h =>
    right; right
    simp only [Bool.and_eq_true, State.tripTakes, decide_eq_true_eq] at h
    exact ⟨h.2.1, Supervisor.addCauses_of_not_closing rfl _⟩
  next =>
    unfold Supervisor.addCauses
    split
    · exact .inl rfl
    · split
      next hc => exact .inr (.inl ⟨_, hc, rfl⟩)
      next => exact .inl rfl

/-- What a raise of a device kind may do to one channel's supervisor. -/
theorem State.raiseDev_sup_cases (k : DevKind) (d : Chan) :
    (s.raiseDev k).sup.get d = s.sup.get d ∨
      (∃ x, (s.st d).closing = true ∧
        (s.raiseDev k).sup.get d = { s.sup.get d with st := .hold, causes := x }) ∨
      (s.st d ≠ .trip ∧ (s.raiseDev k).sup.get d = (s.sup.get d).enterTrip) := by
  rw [State.raiseDev_sup_get]
  split
  next h =>
    right; right
    simp only [Bool.and_eq_true, State.tripTakes, decide_eq_true_eq] at h
    exact ⟨h.2.1, Supervisor.addCauses_of_not_closing rfl _⟩
  next =>
    unfold Supervisor.addCauses
    split
    · exact .inl rfl
    · split
      next hc => exact .inr (.inl ⟨_, hc, rfl⟩)
      next => exact .inl rfl

/-- A raise of a kind that is not trip-class leaves modulators and trip records. -/
theorem State.raiseChan_quiet {k : ChanKind} (h : s.bank.chanTripClass k = false) (c : Chan) :
    (s.raiseChan k c).mods = s.mods ∧ (s.raiseChan k c).router.trips = s.router.trips := by
  have e := s.tripReach_none (Route.chanTrip_none h c)
  exact ⟨PerChan.ext_get fun d => by rw [State.raiseChan_mods_get]; simp [e],
    PerChan.ext_get fun d => by rw [State.raiseChan_trips_get]; simp [e]⟩

/-- A raise of a device kind that is not trip-class leaves modulators and trip records. -/
theorem State.raiseDev_quiet {k : DevKind} (h : s.bank.devTripClass k = false) :
    (s.raiseDev k).mods = s.mods ∧ (s.raiseDev k).router.trips = s.router.trips := by
  have e := s.tripReach_none (Route.devTrip_none h)
  exact ⟨PerChan.ext_get fun d => by rw [State.raiseDev_mods_get]; simp [e],
    PerChan.ext_get fun d => by rw [State.raiseDev_trips_get]; simp [e]⟩

/-! ### Fault lines (R148) -/

/-- The judged lines depend on the flags and the store alone. -/
theorem State.linesNow_congr {s t : State} (h : t.router.flags = s.router.flags)
    (hd : t.router.dev = s.router.dev) (hs : t.store = s.store) : t.linesNow = s.linesNow := by
  simp [State.linesNow, State.chanLines, State.devLines, State.chanFlag, State.devFlag, State.bank, h, hd, hs]

/-- After a raise of a channel kind the lines are those of its flags. -/
theorem State.raiseChan_lines (k : ChanKind) (c : Chan) :
    (s.raiseChan k c).router.lines = (s.raiseChan k c).linesNow := (rfl)

/-- After a raise of a device kind the lines are those of its flags. -/
theorem State.raiseDev_lines (k : DevKind) : (s.raiseDev k).router.lines = (s.raiseDev k).linesNow := (rfl)

end Sys2Proof.Machine
end

