-- ==== Sys2Proof/Tests/Slice0.lean ====
section
/-! SUPPORT. Tests: ill-formed terms refused, and the worked examples of the spec. Expected values are the spec's own, by
the section named in each comment. -/

namespace Sys2Proof.Tests

-- The tests elaborate one after another: side by side, their kernel evaluations take more memory than a check is given.
set_option Elab.async false

open Sys2Proof Machine

/-! ### Well-formedness -/

theorem test_badKind_known_refused : (Instr.badKind 7 {}).wellFormed = false := by decide

theorem test_cutCell_whole_refused : (Instr.cutCell 16 .startSymbol).wellFormed = false := by decide

theorem test_filteredChange_nothing_refused :
    (Instr.filteredChange 0 none none none true).wellFormed = false := by decide

theorem test_enable_wellFormed : (Instr.enable {}).wellFormed = true := by decide

/-! ### A bank and states to test on -/

/-- The groups of the channel record of 1-11, in STEP interpolation, lone and aligned, hold_after 2, charge_periods 3. -/
def demoGroups : List Group :=
  [⟨0x0201, 3, 0x0001, 40⟩, ⟨2048, 2048, 64, 30000⟩, ⟨30000, 25000, 800, 200⟩,
    ⟨6144, 2000, 6144, 2000⟩, ⟨0, 0, 0, 100⟩, ⟨3000, 2400, 3600, 3500⟩, ⟨16, 0, 4, 1000⟩,
    ⟨0, 10, 8, 0⟩]

/-- A bank with groups put one after another into a table. -/
def putAll (b : Bank) (t i : Nat) : List Group → Bank
  | [] => b
  | g :: l => putAll (b.put t i g) t (i + 1) l

/-- A bank with the record of 1-11 for channel `c`, its derate curve one point of 32767. -/
def withRecord (b : Bank) (c : Chan) : Bank :=
  putAll (putAll b 0 (c.val * 8) demoGroups) 1 (c.val * 4) [⟨0, 32767, 0, 0⟩]

/-- Channels 0, 2 and 3 in use, 2 leading 3 in slot 0 by the pair entry of 2-5-6. -/
def demoBank : Bank :=
  putAll (withRecord (withRecord (withRecord {} 0) 2) 3) 3 0 [⟨0x8203, 16384, 512, 500⟩, ⟨0, 0, 0, 1500⟩]

/-- The power-on part with the demo bank active. -/
def demo : State := { State.reset with store := { a := demoBank, stA := .valid } }

/-- The demo part with channels 0, 2 and 3 in RUN. -/
def demoRun : State :=
  { demo with
    sup := PerChan.ofFn fun c => if c = 0 ∨ c = 2 ∨ c = 3 then { st := .run } else {}
    mods := PerChan.ofFn fun c => if c = 0 ∨ c = 2 ∨ c = 3 then { drive := true } else {} }

/-- The state of a step's answer. -/
def after (x : Host.Outcome State Fault Refusal) : State :=
  match x with
  | .next s => s
  | .fault _ => State.reset
  | .refused _ => State.reset

/-! ### The control run of 1-11 -/

/-- The entry of 1-11. -/
def demoEntry : Entry :=
  { chan := 0
    words := ⟨2610, 2604, 2607, 1630, 1625, 1700, 3150, 2900⟩
    strobe := { st := .run, own := ⟨28768, 0⟩ } }

/-- The part of 1-11 before the run. -/
def demoBefore : State :=
  { demoRun with
    engine := { queue := [demoEntry] }
    loop := demoRun.loop.set 0
      { accD := -20000000, accQ := 1500000000, history := some ⟨8188, 28753, 0⟩ }
    refs := demoRun.refs.set 0 { ref := { raw := -6000, target := -6000, step := 4 } } }

/-- The part after the run of 1-11. -/
def demoAfter : State := after (execRunCompletion (after (execRunStart demoBefore)))

theorem test_control_run_compares :
    (demoAfter.mods.get 0).pending = some ⟨1482, 11018, 6343⟩ := by decide +kernel

theorem test_control_run_loop :
    demoAfter.loop.get 0 =
      { accD := -29030000, accQ := 1500000000, history := some ⟨8192, 28768, 0⟩, vsat := 1
        last :=
          { completed := true, control := true, iA := 8944, iB := -6688, id := 4515, iq := -8134,
            theta := 8192, dc := 3150, temp := 2900, fine := 28768, delta := 15,
            voltageLimited := true } } := by decide +kernel

theorem test_control_run_events :
    (demoAfter.chanFlag 0 .sampleDisagree, demoAfter.chanFlag 0 .overcurrent) =
      ({ isSet := true, count := 1 }, {}) := by decide +kernel

/-! ### Worked values of the spec -/

/-- The check value of the CRC-16 of 9-1-3. -/
theorem test_crc16_check :
    crc16 [0x31, 0x32, 0x33, 0x34, 0x35, 0x36, 0x37, 0x38, 0x39] = 0x29B1 := by decide +kernel

/-- The check value of the CRC-8 of the lanes. -/
theorem test_crc8_check : crc8 [0x31, 0x32, 0x33, 0x34, 0x35, 0x36, 0x37, 0x38, 0x39] = 0xF4 := by
  decide +kernel

/-- The four compares of 1-12-1. -/
theorem test_minimum_pulse : [130, 90, 12400, 12460].map (minPulsed 12500 200) = [200, 0, 12300, 12500] := by decide

/-- The feed-forward of 1-12-2. -/
theorem test_feed_forward :
    feedForwardD (((({} : Bank).put 0 0 ⟨4, 0, 0, 0⟩).put 0 4 ⟨0, 4000, 0, 0⟩).record 0) 300 (-8134) = 9 := by
  decide +kernel

/-- The bank of 2-4-1. -/
def limitBank : Bank :=
  ((({} : Bank).put 0 0 ⟨0x0003, 0, 0x0202, 0⟩).put 0 2 ⟨20000, 0, 0, 0⟩).put 1 0 ⟨2800, 20000, 3000, 16000⟩
    |>.put 2 0 ⟨1000, 0, 2000, 0xE0C0⟩

/-- Limit composition of 2-4-1, without and with an override of 15000. -/
theorem test_limit_composition :
    composeReferences (currentLimit limitBank 0 2900 0) (idRefRaw limitBank 0 .auto 0 (-1500)) 19000 =
        ⟨-4000, 17549, true⟩ ∧
      composeReferences (currentLimit limitBank 0 2900 15000) (-4000) 19000 = ⟨-4000, 14456, true⟩ := by
  decide +kernel

/-- Control run 11 of 2-4-2, whose quotient truncates, and holding run 15. -/
theorem test_ramp_and_decay :
    (({ base := 6000, target := 1999, step := 2, raw := 4000 } : RefState).track true 4).raw = 3000 ∧
      (let f := ({ raw := 399, mode := .given, idHeld := -1400 } : RefState).decayed 800
       (f.raw, f.idHeld) = (0, -600)) := by decide

/-- The shares of 2-5-6: first valley, wrapped revolutions, clamped correction, negative tie. -/
theorem test_pair_shares :
    let e := demoBank.pairEntry 0
    let share := fun (t : Int) (l f : Counts) => leaderShare e t (skewCorrection e (pairSkew e 1048576 l f))
    share 10000 ⟨100040, 3⟩ ⟨100000, 3⟩ = 5080 ∧ share 10000 ⟨20, 0x8000⟩ ⟨1048556, 0x7FFF⟩ = 5080 ∧
      share 10000 ⟨102000, 3⟩ ⟨100000, 3⟩ = 5500 ∧ share (-10001) ⟨100040, 3⟩ ⟨100000, 3⟩ = -4920 := by
  decide +kernel

/-- S3 and S5 of 4-13: an error of 50 slews by 6, and the fourth arrival within the window locks. -/
theorem test_lock_slews :
    (let t := (after (exec (.syncArrival 3 0 {})
        { State.reset with tb := { pos := 50, lock := .acquire, acquire := 1 } })).tb
     (t.corr, t.corrLeft, t.lock, t.acquire) = (6, 4, .acquire, 2)) ∧
    (let t := (after (exec (.syncArrival 5 0 {})
        { State.reset with tb := { pos := 42, lock := .acquire, acquire := 3 } })).tb
     (t.corr, t.lock, t.acquire) = (5, .locked, 0)) := by decide +kernel

/-- The encoder of 5-10 at given levels and counts. -/
def demoShaft (inputA inputB : Bool) (fine : Nat) (rev : Word) : State :=
  { demo with
    store := { a := demoBank.put 0 6 ⟨0, 1000, 4, 0⟩, stA := .valid }
    pos := demo.pos.set 0
      { fa := .settled inputA, fb := .settled inputB, dec := some (inputA, inputB), fine := fine, rev := rev } }

/-- Rows 2, 4 and 6 of 5-10: carry with the wrap of the revolutions, an illegal change, carry back. -/
theorem test_quadrature :
    (let p := (after (exec (.filteredChange 0 none (some true) none true) (demoShaft true false 999 32767))).pos.get 0
     (p.fine, p.rev) = (0, 0x8000)) ∧
    (let s := after (exec (.filteredChange 0 (some true) (some false) none true) (demoShaft false true 1 0x8000))
     ((s.pos.get 0).fine, (s.pos.get 0).dec, s.chanFlag 0 .encoderFault) =
       (1, some (true, false), { isSet := true, count := 1 })) ∧
    (let p := (after (exec (.filteredChange 0 none (some true) none true) (demoShaft false false 0 0x8000))).pos.get 0
     (p.fine, p.rev) = (999, 32767)) := by decide +kernel

/-- Row 1 of 3-8-1: a burst that finds queue and engine empty starts its run at once. -/
theorem test_burst_starts_at_once :
    let e := (after (exec (.burst 0 { bytes := (List.replicate 18 0) ++ [0, crc8 (List.replicate 18 0)] })
      { demoRun with lanes := demoRun.lanes.set 0 { expected := true, strobe := some { st := .run } } })).engine
    (e.queue = [] ∧ e.running.isSome = true) := by decide +kernel

/-- A level that stands for two ticks is filtered away (R107), one that stands for three is not. -/
theorem test_two_tick_pulse :
    let pin := fun v s => after (exec (.rawSampleChange (.enc 0 .z) v) s)
    let tick := fun s => after (step s)
    let low := tick (tick (tick demo))
    ((low.pos.get 0).fz.level, ((tick (pin false (tick (tick (pin true low))))).pos.get 0).fz.level,
      ((tick (tick (tick (pin true low)))).pos.get 0).fz.level) = (some false, some false, some true) := by
  decide +kernel

/-! ### Witnesses: states and operands that meet the hypotheses of the statements

One theorem for each statement with hypotheses, a value at the edge of each clause's range. -/

/-- The demo part with a state for each channel, gate states to match. -/
def demoAs (f : Chan → ChanState) : State :=
  { demo with
    sup := PerChan.ofFn fun c => { st := f c }
    mods := PerChan.ofFn fun c => { drive := decide (f c = .run ∨ f c = .hold) } }

/-- The demo part with both banks alike and a swap pending. -/
def demoSwap : State :=
  { demo with store := { a := demoBank, b := demoBank, stA := .valid, stB := .valid, swapPending := true } }

/-- A part in the middle of its work: channel 0 in TRIP with a full secondary list, the pair 2 and 3 in HOLD with a gate
on, a swap pending, counts at their tops, a run going on, two waiting entries, fifteen bytes of a cell and a command. -/
def demoLive : State :=
  { demoSwap with
    pending := [.setArrival 2 ⟨1, 2, 3, 1, 4⟩]
    tb := { counter := 12500, crest := 12516, index := 3, pos := 99000, corr := 16, corrLeft := 4,
            lock := .acquire, acquire := 3, lossCount := 255, pend := some ⟨255, 32767, 8⟩ }
    ring := { lastCycle := 0, waitStart := false, cell := some { bytes := List.replicate 15 0, bad := true } }
    engine := { queue := [demoEntry, { demoEntry with chan := 2 }], running := some { entry := { demoEntry with chan := 3 } } }
    pos := PerChan.ofFn fun _ => { fine := 15 }
    sup := PerChan.ofFn fun c =>
      if c = 0 then { st := .trip } else if c = 2 ∨ c = 3 then { st := .hold, causes := { stale := true } } else {}
    mods := PerChan.ofFn fun c => if c = 2 ∨ c = 3 then { drive := true, pa := { hi := true } } else {}
    router :=
      { flags := (PerChan.const (Vector.replicate 17 ({} : Flag))).set 0 ((Vector.replicate 17 ({} : Flag)).set 0 ⟨true, 65535⟩)
        trips := (PerChan.const none).set 0 (some
          { cause := 1, via := .self, cycle := 0, before := .run,
            secondary := [⟨2, 0⟩, ⟨3, 0⟩, ⟨4, 0⟩], overflow := 255 }) } }

theorem witness_steps_answer : ∃ t, step demoLive = .next t := ⟨_, rfl⟩

theorem witness_StepKeepsGatesSafe_exclusive : demoLive.gatesExclusive := by
  unfold State.gatesExclusive Phase.exclusive; decide +kernel

theorem witness_StepKeepsGatesSafe_dark : demoLive.darkUnlessEnabled := by
  unfold State.darkUnlessEnabled Modulator.dark Phase.dark; decide +kernel

theorem witness_StepKeepsFlagsAndQueueSound : demoLive.flagsCounted ∧ demoLive.queueSound ∧ demoLive.engineSettled ∧
    demoLive.cellSound := by
  unfold State.flagsCounted State.queueSound State.engineSettled Flag.counted
  refine ⟨by decide +kernel, by decide +kernel, by decide +kernel, ?_⟩
  intro x h
  cases (show some ({ bytes := List.replicate 15 0, bad := true } : PartialCell) = some x from h)
  exact ⟨by decide, rfl⟩

theorem witness_StepKeepsTimebaseSound : demoLive.tb.sound := by
  unfold Timebase.sound Settings.sound PendingSettings.sound
  refine ⟨by decide +kernel, ?_, by decide +kernel⟩
  intro x h
  cases (show some (⟨255, 32767, 8⟩ : PendingSettings) = some x from h)
  decide

theorem witness_StepKeepsBanksChecked : demoLive.banksChecked := by
  unfold State.banksChecked Bank.checked; decide +kernel

theorem witness_StepKeepsPairsAlike : demoLive.pairsAlike := by
  refine ⟨by decide +kernel, ?_⟩
  have h : ∀ c, (demoLive.role c).partner = none ∨
      ∃ p, (demoLive.role c).partner = some p ∧ demoLive.st p = demoLive.st c ∧
        (demoLive.sup.get p).causes = (demoLive.sup.get c).causes ∧
        (demoLive.sup.get p).chargeCount = (demoLive.sup.get c).chargeCount := by decide +kernel
  intro c p hp
  rcases h c with h | ⟨q, hq, h⟩
  · simp [hp] at h
  · cases hp.symm.trans hq; exact h

theorem witness_StepKeepsTripsAndGateStates : demoLive.tripsRecorded ∧ demoLive.gateStateFollows := by
  refine ⟨fun c => ⟨by revert c; decide +kernel, ?_⟩, by unfold State.gateStateFollows; decide +kernel⟩
  have h : ∀ c, ((demoLive.router.trips.get c).map fun t =>
      decide (t.secondary.length ≤ 3) && decide (t.overflow ≤ 255)).getD true = true := by decide +kernel
  intro t ht
  have := h c
  rw [Option.mem_def.mp ht] at this
  simpa using this

theorem witness_StepKeepsBanksChecked_counts : demoLive.countsBelowCpr := by
  unfold State.countsBelowCpr; decide +kernel

/-- One state that meets every invariant at once, and from which a step goes on. -/
theorem witness_StepKeeps_together : demoLive.gatesExclusive ∧ demoLive.darkUnlessEnabled ∧
    demoLive.gateStateFollows ∧ demoLive.flagsCounted ∧ demoLive.tripsRecorded ∧ demoLive.queueSound ∧
    demoLive.engineSettled ∧ demoLive.cellSound ∧ demoLive.tb.sound ∧ demoLive.banksChecked ∧ demoLive.pairsAlike ∧ demoLive.countsBelowCpr ∧
    ∃ t, step demoLive = .next t :=
  ⟨witness_StepKeepsGatesSafe_exclusive, witness_StepKeepsGatesSafe_dark, witness_StepKeepsTripsAndGateStates.2,
    witness_StepKeepsFlagsAndQueueSound.1, witness_StepKeepsTripsAndGateStates.1,
    witness_StepKeepsFlagsAndQueueSound.2.1, witness_StepKeepsFlagsAndQueueSound.2.2.1,
    witness_StepKeepsFlagsAndQueueSound.2.2.2, witness_StepKeepsTimebaseSound, witness_StepKeepsBanksChecked,
    witness_StepKeepsPairsAlike, witness_StepKeepsBanksChecked_counts, witness_steps_answer⟩

theorem demo_ready : demo.ready := by unfold State.ready State.atBoundary; decide

/-- An empty open cell, as a start symbol leaves it, is no hindrance to the next cell. -/
theorem witness_ready_station : demo.ready ∧ demoRun.ready ∧
    ({ demo with ring := { demo.ring with cell := some {}, waitStart := false } } : State).ready := by
  refine ⟨demo_ready, by unfold State.ready State.atBoundary; decide, by decide +kernel, ?_⟩
  intro x h
  cases (show some ({} : PartialCell) = some x from h)
  rfl

theorem witness_BadKindAndReplyFields : demo.ready ∧ ((0 : Byte) = 0 ∨ 13 ≤ (0 : Byte).toNat) ∧
    ((13 : Byte) = 0 ∨ 13 ≤ (13 : Byte).toNat) ∧ ((255 : Byte) = 0 ∨ 13 ≤ (255 : Byte).toNat) :=
  ⟨demo_ready, by decide⟩

/-- A request to a target, of an index. -/
def ask (target index : Byte) (w0 w1 w2 w3 : Word) : Request :=
  { target := target, index := index, w0 := w0, w1 := w1, w2 := w2, w3 := w3 }

theorem witness_TargetTest : demo.ready ∧ (7 < (ask 8 0 0 0 0 0).target.toNat) ∧
    (7 < (ask 254 0 0 0 0 0).target.toNat ∧ (ask 254 0 0 0 0 0).target.toNat ≠ 255) ∧
    (ask 0 0 0 0 0 0).target.toNat ≠ 255 ∧ (ask 7 7 0 0 0 0).target.toNat ≤ 7 ∧
    (ask 7 7 0 0 0 0).groupIndex ≤ 7 ∧ (ask 255 0 0 0 0 0).target.toNat = 255 ∧
    validIndex (ask 0 63 0 0 0 0).table (ask 0 63 0 0 0 0).groupIndex = true ∧
    validIndex (ask 132 22 0 0 0 0).table (ask 132 22 0 0 0 0).groupIndex = true := ⟨demo_ready, by decide⟩

theorem witness_FieldLayoutsAndRanges : (∀ k : Fin 8, k.val % 8 = k.val ∧ (k.val + 56) % 8 = k.val) ∧
    ((∀ k, (demoBank.pairEntry k).active = true ↔ k = 0) ∧ (demoBank.pairEntry 0).leader = 2 ∧
      (demoBank.pairEntry 0).follower = 3) ∧
    wordsInRange 0 6 ⟨256, 0, 64, 0⟩ = [true, true, true, true] ∧
    wordsInRange 0 6 ⟨256, 1, 65, 0⟩ = [false, true, false, true] := by decide +kernel

/-- A write of the last group of the record of channel 7, its two-word field whole. -/
def lastWrite : Request := ask 128 63 0x0100 0 0 0

theorem witness_WriteEntry_done : demo.ready ∧
    validIndex lastWrite.table lastWrite.groupIndex = true ∧
    lastWrite.bank ≠ demo.store.active ∧ demo.store.swapPending = false ∧ demo.store.copy = none ∧
    (∀ ok ∈ wordsInRange lastWrite.table lastWrite.groupIndex
      ⟨lastWrite.w0, lastWrite.w1, lastWrite.w2, lastWrite.w3⟩, ok = true) ∧
    (∃ g i, validIndex g i = true ∧ (g, i) ≠ (lastWrite.table, lastWrite.groupIndex)) :=
  ⟨demo_ready, by decide +kernel, by decide +kernel, rfl, rfl, by decide +kernel, 4, 22, by decide +kernel⟩

theorem witness_WriteEntry_refused :
    validIndex (ask 132 0 0 0 0 0).table (ask 132 0 0 0 0 0).groupIndex = false ∧
    validIndex (ask 132 23 0 0 0 0).table (ask 132 23 0 0 0 0).groupIndex = false ∧
    (ask 0 0 0 0 0 0).bank = demo.store.active ∧ lastWrite.bank ≠ demoSwap.store.active ∧
    demoSwap.store.swapPending = true ∧ { demo.store with copy := some 0 }.copy ≠ none ∧
    (wordsInRange 0 1 (ask 128 1 4096 0 0 0).words)[0]? = some false ∧
    (wordsInRange 0 1 (ask 128 1 4095 4095 4095 32768).words)[3]? = some false ∧
    (∀ j : Fin 4, j < 3 →
      (wordsInRange 0 1 (ask 128 1 4095 4095 4095 32768).words)[j.val]? = some true) := by
  decide +kernel

theorem witness_CopyMakesTheShadowEqual : demo.ready ∧ demo.store.copy = none ∧
    demo.store.swapPending = false ∧ demoSwap.store.copy = none ∧ demoSwap.store.swapPending = true ∧
    { demo.store with copy := some 0 }.copy ≠ none := by unfold State.ready State.atBoundary; decide +kernel

/-- The demo part with a shadow like the active bank. -/
def demoShadow : State := { demo with store := { a := demoBank, b := demoBank, stA := .valid, stB := .valid } }

theorem witness_SwapBanks_asked : demo.ready ∧ demoShadow.store.copy = none ∧ demoShadow.store.swapPending = false ∧
    { demo.store with copy := some 0 }.copy ≠ none ∧ (demoSwap.store.copy = none ∧ demoSwap.store.swapPending = true) :=
  ⟨demo_ready, rfl, rfl, by decide, rfl, rfl⟩

/-- Every condition of an accepted swap stands at this state. -/
theorem witness_SwapBanks_good :
    (∀ c, (demoBank.record c).inUse = true →
      ((demoBank.deratePoints c).map (·.1)).Pairwise (· < ·) ∧
      ((demoBank.fwPoints c).map (·.1)).Pairwise (· < ·) ∧
      (∀ x ∈ (demoBank.record c).groupsInUse, x = true) ∧
      (∀ p ∈ demoBank.deratePoints c, 1 ≤ p.2 ∧ p.2 ≤ 32767) ∧
      (demoBank.record c).iMax ≤ (demoBank.record c).iTrip ∧
      (demoBank.record c).uUnder < (demoBank.record c).uNominal ∧
      (demoBank.record c).uNominal < (demoBank.record c).uOver ∧
      (demoBank.record c).indexExpect < (demoBank.record c).cpr) ∧
    (∀ k, (demoBank.pairEntry k).active = true →
      (demoBank.pairEntry k).leader ≠ (demoBank.pairEntry k).follower ∧
      (demoBank.record (demoBank.pairEntry k).leader).inUse = true ∧
      (demoBank.record (demoBank.pairEntry k).follower).inUse = true ∧
      (demoBank.record (demoBank.pairEntry k).leader).cpr =
        (demoBank.record (demoBank.pairEntry k).follower).cpr ∧
      (demoBank.record (demoBank.pairEntry k).leader).shifted =
        (demoBank.record (demoBank.pairEntry k).follower).shifted ∧
      ∀ j < k, (demoBank.pairEntry j).active = false) ∧
    (∀ c, demoShadow.st c = .off) ∧ demoShadow.shadow = demoBank := by decide +kernel

/-- A shadow with one group changed for each failure of a check: an x that only equals its predecessor's, on either curve, and
below each of the five limits tests at the edge of its range. -/
theorem witness_SwapBanks_curves :
    (let b := (demoBank.put 0 0 ⟨0x0201, 3, 0x0002, 40⟩).put 1 0 ⟨10, 32767, 10, 32767⟩
     let xs := (b.deratePoints 0).map (·.1)
     (b.record 0).inUse = true ∧ (xs.take 1).Pairwise (· < ·) ∧ ¬(xs.take 2).Pairwise (· < ·)) ∧
    (let b := (demoBank.put 0 0 ⟨0x0201, 3, 0x0201, 40⟩).put 2 0 ⟨10, 0, 10, 0⟩
     let xs := (b.fwPoints 0).map (·.1)
     ((b.deratePoints 0).map (·.1)).Pairwise (· < ·) ∧ (xs.take 1).Pairwise (· < ·) ∧ ¬(xs.take 2).Pairwise (· < ·)) := by decide +kernel

theorem witness_SwapBanks_limits :
    ((demoBank.put 0 0 ⟨0x0201, 0, 0x0001, 40⟩).record 0).groupsInUse[0]? = some false ∧
    ((demoBank.put 1 0 ⟨0, 0, 0, 0⟩).deratePoints 0).take 1 = [(0, 0)] ∧
    ((demoBank.put 1 0 ⟨0, 32768, 0, 0⟩).deratePoints 0).take 1 = [(0, 32768)] ∧
    (let b := demoBank.put 0 2 ⟨30001, 25000, 800, 200⟩
     (b.record 0).iTrip < (b.record 0).iMax ∧ ∀ y ∈ (b.record 0).groupsInUse, y = true) ∧
    (let b := demoBank.put 0 5 ⟨2400, 2400, 3600, 3500⟩
     ¬((b.record 0).uUnder < (b.record 0).uNominal) ∧ ∀ y ∈ (b.record 0).groupsInUse, y = true) ∧
    (let b := demoBank.put 0 7 ⟨16, 0, 8, 0⟩
     (b.record 0).cpr ≤ (b.record 0).indexExpect ∧ ∀ y ∈ (b.record 0).groupsInUse, y = true) := by decide +kernel

/-- A swap refused for an index_expect not below cpr names table 0 and group 7 (R171), and a copy in progress goes first (R169). -/
theorem test_swap_names_the_group :
    (demoShadow.swapReply.status = .accepted) ∧
    (let s := { demoShadow with store := { demoShadow.store with b := demoBank.put 0 7 ⟨16, 0, 8, 0⟩ } }
     s.swapReply = ⟨.limits, { w1 := 7 }⟩ ∧ { s with store := { s.store with copy := some 0 } }.swapReply = ⟨.busy, {}⟩) := by
  decide +kernel

/-- A second slot with a member of the first, and each difference of structure of a channel in RUN. -/
theorem witness_SwapBanks_pairs_structure :
    (let b := demoBank.put 3 2 ⟨0x8002, 0, 0, 0⟩
     (b.pairEntry 1).active = true ∧ (b.pairEntry 1).leader ≠ (b.pairEntry 1).follower ∧
      (b.pairEntry 0).active = true ∧ (b.pairEntry 0).leader = (b.pairEntry 1).follower) ∧
    demoRun.st 0 ≠ .off ∧ demoRun.st 2 ≠ .off ∧
    ((demoBank.put 0 0 ⟨0x0221, 3, 1, 40⟩).record 0).indexMode ≠ (demoBank.record 0).indexMode ∧
    ((demoBank.put 0 6 ⟨0, 16, 4, 1000⟩).record 0).cpr ≠ (demoBank.record 0).cpr ∧
    (demoBank.put 3 0 ⟨0x0203, 0, 0, 0⟩).role 2 = .lone ∧ (demoBank.role 2).slot = some 0 ∧
    ((Bank.role {} 2).slot = none) := by decide +kernel

/-- A pending swap that changes the cpr of channel 0 in OFF, and of no other channel. -/
def demoSwapCpr : State :=
  { demoSwap with store := { demoSwap.store with b := demoBank.put 0 6 ⟨0, 16, 4, 1000⟩ } }

/-- The same swap pending with channel 0 in TRIP since the request: STRUCTURE fails afresh. -/
def demoSwapHeld : State := { demoSwapCpr with sup := PerChan.ofFn fun c => if c = 0 then { st := .trip } else {} }

theorem test_held_swap_stays_pending : after (exec .swapEffect demoSwapHeld) = demoSwapHeld := by
  decide +kernel

theorem witness_SwapEffectExchangesBanks : demoSwapCpr.store.swapPending = true ∧
    demoSwapCpr.structureFault = none ∧ demoSwapCpr.shadow.devTripClass .bankSwapDone = false ∧
    ((demoSwapCpr.record 2).inUse = true ∧ (demoSwapCpr.record 2).cpr = (demoSwapCpr.shadow.record 2).cpr ∧
      (demoSwapCpr.shadow.record 2).inUse = true) ∧
    ((demoSwapCpr.record 0).inUse = true ∧ (demoSwapCpr.record 0).cpr ≠ (demoSwapCpr.shadow.record 0).cpr ∧
      (demoSwapCpr.shadow.record 0).inUse = true) ∧
    demoSwapCpr.shadow.role 3 = .follower 0 2 ∧ (demoSwapCpr.shadow.role 2).isFollower = false ∧
    (demoSwapHeld.store.swapPending = true ∧ demoSwapHeld.st 0 ≠ .off ∧
      (demoSwapHeld.shadow.record 0).cpr ≠ (demoSwapHeld.record 0).cpr) ∧
    demo.store.swapPending = false := by decide +kernel

/-- The settings request at the lower end of its ranges. -/
def configureLow : Request := ask 255 1 2000 0 0x0001 0x0002

/-- The settings request at the upper end of its ranges. -/
def configureHigh : Request := ask 255 8 32767 65535 0x83E8 0xFFFF

theorem witness_ConfigureWritesSettings : demo.ready ∧ demoRun.ready ∧
    configureLow.target = 255 ∧ configureHigh.target = 255 ∧
    (∃ c, demoRun.st c = .charge ∨ demoRun.st c = .run ∨ demoRun.st c = .hold ∨ demoRun.st c = .stopping) ∧
    ¬(∃ c, demo.st c = .charge ∨ demo.st c = .run ∨ demo.st c = .hold ∨ demo.st c = .stopping) ∧
    ¬(2000 ≤ (ask 255 1 1999 0 1 2).w0.toNat) ∧
    (2000 ≤ configureLow.w0.toNat ∧ 1 ≤ configureLow.index.toNat ∧ 1 ≤ configureLow.w2.toNat % 1024 ∧
      2 ≤ configureLow.w3.toNat % 256) ∧
    (configureHigh.w0.toNat ≤ 32767 ∧ configureHigh.index.toNat ≤ 8 ∧
      configureHigh.w2.toNat % 1024 ≤ 1000 ∧ configureHigh.w2.toNat / 2048 ≤ 16) ∧
    configureHigh.w1.toNat ≠ demo.tb.set.qt ∧ configureLow.w1.toNat = demo.tb.set.qt ∧
    configureHigh.w0.toNat ≠ demo.tb.set.p ∧
    ((ask 255 4 12500 0 1 2).w0.toNat = demo.tb.set.p ∧ (ask 255 4 12500 0 1 2).index.toNat = demo.tb.set.n ∧
      (ask 255 4 12500 0 1 2).w3.toNat / 256 = demo.tb.set.d) := by
  unfold State.ready State.atBoundary; decide +kernel

theorem witness_ReadStatusChangesNothing : demo.ready ∧
    (ask 7 16 0 0 0 0).target.toNat = (7 : Chan).val ∧ (ask 7 16 0 0 0 0).index.toNat ≤ 16 ∧
    16 < (ask 7 17 0 0 0 0).index.toNat ∧ (ask 0 12 0 0 0 0).index.toNat = 12 ∧
    (ask 255 7 0 0 0 0).target.toNat = 255 ∧ (ask 255 7 0 0 0 0).index.toNat ≤ 7 ∧
    7 < (ask 255 8 0 0 0 0).index.toNat ∧ (ask 255 5 0 0 0 0).index.toNat = 5 := ⟨demo_ready, by decide⟩

theorem witness_StatusGroupLayout : demoLive.router.trips.get 0 ≠ none ∧ demoLive.router.trips.get 1 = none ∧
    (7 ≤ 7 ∧ 11 ≤ 11) ∧ demoLive.tb.pend = some ⟨255, 32767, 8⟩ ∧ demo.tb.pend = none ∧
    (demo.pos.get 0).latched = none ∧ ({ latched := some ⟨1048575, 0⟩ } : Position).latched = some ⟨1048575, 0⟩ ∧
    (demo.pos.get 0).captured = none ∧ ({ captured := some ⟨0, 0xFFFF⟩ } : Position).captured = some ⟨0, 0xFFFF⟩ := by
  decide +kernel

/-- With no swap pending, and with one pending for which the pair agrees in both banks. -/
theorem witness_Enable_done : ∀ s ∈ [demo, demoSwap], s.ready ∧ (ask 2 0 0 0 0 0).target.toNat = (2 : Chan).val ∧
    (s.role 2).isFollower = false ∧ (s.role 2).partner = some 3 ∧ s.st 2 = .off ∧ s.router = {} ∧
    ((s.record 2).inUse = true ∧ (s.record 3).inUse = true) ∧
    (s.store.swapPending = true → s.shadow = s.bank) := by
  unfold State.ready State.atBoundary; decide +kernel

theorem witness_Enable_no_flag_near : (∀ c k, (State.reset.chanFlag c k).isSet = false) ∧
    ∀ k, (State.reset.devFlag k).isSet = false :=
  ⟨by intro c k; cases k <;> revert c <;> decide +kernel, by intro k; cases k <;> rfl⟩

/-- The demo part with OVERCURRENT set on channel 3. -/
def demoFlag : State := demo.setChanFlag .overcurrent 3

/-- NO_PARAMS for a record not in use, and with a swap pending for a channel not in use in the shadow, one whose follower
differs there, and one whose own cpr does; FLAGS for a flag of the partner, and of the device. -/
theorem witness_Enable_refused : (demo.role 3).isFollower = true ∧
    ((demoRun.role 0).isFollower = false ∧ demoRun.st 0 ≠ .off) ∧
    ((demo.role 7).isFollower = false ∧ demo.st 7 = .off ∧ (demo.record 7).inUse = false) ∧
    (let s : State := { demoSwap with store := { demoSwap.store with b := {} } }
     (s.role 0).isFollower = false ∧ s.st 0 = .off ∧ s.store.swapPending = true ∧ (s.shadow.record 0).inUse = false) ∧
    (let s : State := { demoSwap with store := { demoSwap.store with b := demoBank.put 0 30 ⟨0, 16, 4, 1001⟩ } }
     (s.role 2).isFollower = false ∧ (s.role 2).partner = some 3 ∧ s.st 2 = .off ∧
      (s.shadow.record 3).angleOffset ≠ (s.record 3).angleOffset) ∧
    (demoSwapCpr.st 0 = .off ∧ (demoSwapCpr.shadow.record 0).cpr ≠ (demoSwapCpr.record 0).cpr) ∧
    ((demoFlag.role 2).isFollower = false ∧ demoFlag.st 2 = .off ∧ (demoFlag.record 2).inUse = true ∧
      (demoFlag.role 2).partner = some 3 ∧ (demoFlag.chanFlag 3 .overcurrent).isSet = true) ∧
    (demo.setDevFlag .extInhibit |>.devFlag .extInhibit).isSet = true := by decide +kernel

/-- The run executing for a channel that enters CHARGE is marked, another channel's is not; RESTART marks it in either case. -/
theorem test_enable_and_restart_mark_the_run :
    let run : Chan → State := fun c => { demo with engine := { running := some { entry := { demoEntry with chan := c } } } }
    let mark := fun t : State => t.engine.running.map fun x => (x.chargeEntered, x.restarted)
    mark (after (exec (.enable (ask 2 0 0 0 0 0)) (run 3))) = some (true, false) ∧
      mark (after (exec (.enable (ask 2 0 0 0 0 0)) (run 0))) = some (false, false) ∧
      mark (after (exec (.restart (ask 255 0 0 0 0 0)) (run 0))) = some (false, true) := by decide +kernel

theorem witness_DisableEntersStopping : demo.ready ∧ (demo.role 3).isFollower = true ∧
    ((demo.role 2).isFollower = false ∧ demo.st 2 = .off) ∧
    (demoAs fun _ => .stopping).st 2 = .stopping ∧ (demoAs fun _ => .trip).st 2 = .trip ∧
    (demoAs fun _ => .charge).st 2 = .charge ∧ demoRun.st 2 = .run ∧ demoLive.st 2 = .hold ∧
    (demoLive.role 2).isFollower = false := by unfold State.ready State.atBoundary; decide +kernel

/-- BRIDGE_FAULT set and held on channel 0, OVERCURRENT set there. -/
def demoHeld : State :=
  { (demo.setChanFlag .bridgeFault 0).setChanFlag .overcurrent 0 with
    router :=
      { ((demo.setChanFlag .bridgeFault 0).setChanFlag .overcurrent 0).router with
        kept := (PerChan.const ({} : Kept)).set 0 { bridgeFault := true }
        dev := (Vector.replicate 5 ({} : Flag)).set 0 ⟨true, 1⟩
        devKept := { extInhibit := true } } }

theorem witness_AckClearsNamedFlags : demoHeld.ready ∧ (ask 0 0 3 0 0 0).target.toNat = (0 : Chan).val ∧
    ((ask 0 0 3 0 0 0).ackNames ChanKind.bridgeFault.code = true ∧
      (demoHeld.chanFlag 0 .bridgeFault).isSet = true ∧ demoHeld.chanHeld 0 .bridgeFault = true) ∧
    ((ask 0 0 3 0 0 0).ackNames ChanKind.overcurrent.code = true ∧
      (demoHeld.chanFlag 0 .overcurrent).isSet = true ∧ demoHeld.chanHeld 0 .overcurrent = false) ∧
    (ask 0 0 3 0 0 0).ackNames ChanKind.pairSkew.code = false ∧
    ((ask 0 0 0 1 0 0).ackNames ChanKind.pairSkew.code = true ∧ demoHeld.chanFlag 0 .pairSkew = {}) ∧
    (ask 255 0 0 2 0 0).target.toNat = 255 ∧
    ((ask 255 0 0 2 0 0).ackNames DevKind.ringLoss.code = true ∧
      (demoHeld.devFlag .ringLoss).isSet = true ∧ demoHeld.devHeld .ringLoss = false) ∧
    (ask 255 0 0 2 0 0).ackNames DevKind.bankSwapDone.code = false ∧
    ((ask 255 0 0 32 0 0).ackNames DevKind.bankSwapDone.code = true ∧
      demoHeld.devFlag .bankSwapDone = {}) := by unfold State.ready State.atBoundary; decide +kernel

/-- Channel 0 in TRIP by OVERCURRENT, channels 2 and 3 in HOLD, SETPOINT_STALE set on channel 2 where the route of its
kind holds. -/
def demoAck : State :=
  { demoLive with
    ring := demo.ring
    store := { demoSwap.store with a := demoBank.put 4 15 ⟨2, 0, 0, 0⟩ } }.setChanFlag .setpointStale 2

theorem witness_AckReleasesChannels : demoAck.ready ∧ (ask 7 0 0 0 0 0).target.toNat < 8 ∧
    (ask 255 0 0 0 0 0).target.toNat = 255 ∧ demoAck.st 0 = .trip ∧ demoAck.st 2 = .hold ∧ demoAck.st 7 = .off ∧
    (after (exec (.ack (ask 0 0 1 0 0 0)) demoAck)).tripFlagNear 0 = false ∧
    (after (exec (.ack (ask 7 0 1 0 0 0)) demoAck)).tripFlagNear 0 = true ∧
    (after (exec (.ack (ask 2 0 0x4000 0 0 0)) demoAck)).flagHoldsUnit 2 = false ∧
    (after (exec (.ack (ask 7 0 0x4000 0 0 0)) demoAck)).flagHoldsUnit 2 = true := by
  unfold State.ready State.atBoundary; decide +kernel

theorem witness_SetCountAndArmIndex_count : demo.ready ∧ demoRun.ready ∧
    (ask 0 0 15 65535 0 0).target.toNat = (0 : Chan).val ∧ demoRun.st 0 ≠ .off ∧ demo.st 0 = .off ∧
    (demo.record 0).inUse = true ∧ (demo.record 7).inUse = false ∧
    (demo.record 0).cpr ≤ (ask 0 0 16 0 0 0).w0.toNat * 65536 + (ask 0 0 16 0 0 0).w1.toNat ∧
    (ask 0 0 15 65535 0 0).w0.toNat * 65536 + (ask 0 0 15 65535 0 0).w1.toNat < (demo.record 0).cpr ∧
    (demo.lanes.get 0).arrived = false ∧ ({ arrived := true } : Lane).arrived = true := by
  unfold State.ready State.atBoundary; decide +kernel

theorem witness_SetCountAndArmIndex_arm : demo.ready ∧ (ask 7 0 1 0 0 0).target.toNat = (7 : Chan).val ∧
    (ask 7 0 1 0 0 0).w0.toNat = 1 ∧ (ask 7 0 0 0 0 0).w0.toNat = 0 ∧ 1 < (ask 7 0 2 0 0 0).w0.toNat :=
  ⟨demo_ready, by decide⟩

/-- The demo part in RUN with INH_N filtered low. -/
def demoInh : State := { demoRun with tb := { inh := .settled false } }

theorem witness_RestartClearsBlocks : demo.ready ∧ demoInh.ready ∧ (ask 255 0 0 0 0 0).target.toNat = 255 ∧
    demo.store.copy = none ∧ { demo.store with copy := some 0 }.copy ≠ none ∧
    demo.tb.inh.level ≠ some false ∧ demoInh.tb.inh.level = some false ∧
    (demoInh.record 0).inUse = true ∧ (demoInh.record 1).inUse = false := by
  unfold State.ready State.atBoundary; decide +kernel

/-- A part in RUN whose channel 0 holds a full mailbox. -/
def demoFull : State := { demoRun with refs := demoRun.refs.set 0 { mailbox := some {} } }

theorem witness_SetFillsTheMailbox : demoRun.ready ∧ demoFull.ready ∧
    (demoRun.st 0 = .run ∧ (demoRun.role 0).isFollower = false ∧ (demoRun.refs.get 0).mailbox = none) ∧
    (demoFull.st 0 = .run ∧ (demoFull.role 0).isFollower = false ∧ (demoFull.refs.get 0).mailbox ≠ none) ∧
    (demoLive.st 2 = .hold ∧ (demoLive.role 2).isFollower = false) ∧
    (demo.st 0 ≠ .run ∧ demo.st 0 ≠ .hold) ∧ (demoRun.role 3).isFollower = true := by
  unfold State.ready State.atBoundary; decide +kernel

theorem witness_RetCarriesTheChannel : demo.ready ∧ demoAfter.transparent = false ∧
    (demo.loop.get 0).last.completed = false ∧ (demoAfter.loop.get 0).last.completed = true := by
  unfold State.ready State.atBoundary; decide +kernel

/-- A good cell of kind 3, the RET of another station. -/
def goodCell : Cell := Cell.sealed ⟨headerByte 3 1 false true, 2, 0, 0, 0, 0, 0, 0, 0⟩

theorem witness_BadCellsRaiseCellCrc : demo.ready ∧ { goodCell with crc := goodCell.crc + 1 }.good = false ∧
    demo.bank.devTripClass .cellCrc = false ∧ (1 : BitVec 16) ≠ 0 ∧ (0x8000 : BitVec 16) ≠ 0 := by
  unfold State.ready State.atBoundary; decide +kernel

/-- The demo part, its station address and the bytes of a cell in progress given. -/
def demoPart (address : BitVec 5) (bytes : List Byte) : State :=
  { demo with ring := { demo.ring with address := address, cell := some { bytes := bytes }, waitStart := false } }

theorem witness_CutCellsAndStrayBytes : demo.transparent = false ∧ demo.ring.cell = none ∧ 15 < 16 ∧
    (demoPart 31 [1]).transparent = true ∧ demo.bank.devTripClass .cellCrc = false ∧
    (demoPart 1 [1]).ring.cell = some { bytes := [1] } ∧ (List.replicate 14 (0 : Byte)).length < 15 ∧
    (demoPart 1 (goodCell.bytes.take 15)).ring.waitStart = false ∧
    (goodCell.received 0).bytes = goodCell.bytes.take 15 ++ [(some (goodCell.bytes.getLastD 0)).getD 0] ∧
    ((0 : BitVec 16) ≠ 0 ↔ false = true ∨ some (goodCell.bytes.getLastD 0) = none) ∧
    ({ goodCell with crc := 0x1200 }.received 0x8000).bytes =
      ({ goodCell with crc := 0x1200 } : Cell).bytes.take 15 ++ [(none : Option Byte).getD 0] ∧
    ((0x8000 : BitVec 16) ≠ 0 ↔ false = true ∨ (none : Option Byte) = none) ∧
    ∃ v, exec (.cutCell 0 .idleSymbol) (demoPart 1 [1]) = .next v := by
  refine ⟨by decide +kernel, by decide +kernel, by decide, by decide +kernel, by decide +kernel, rfl, by decide,
    rfl, by decide +kernel, by decide +kernel, by decide +kernel, by decide +kernel, _, rfl⟩

theorem witness_CellsForwardedUnchanged : demo.ready ∧ goodCell.good = true ∧
    (goodCell.kind ≠ 1 ∧ goodCell.kind ≠ 2 ∧ goodCell.kind ≠ 4) ∧
    ((Cell.sealed { goodCell with header := headerByte 1 0 true false }).good = true ∧
      (Cell.sealed { goodCell with header := headerByte 1 0 true false }).damaged = true) ∧
    ((setCell 2 0 ⟨0, 0, 0, 0, 0⟩).good = true ∧ (setCell 2 0 ⟨0, 0, 0, 0, 0⟩).kind ≠ 1 ∧
      (setCell 2 0 ⟨0, 0, 0, 0, 0⟩).station ≠ demo.ring.address.setWidth 8) ∧
    { demo.ring with address := 0 }.address = 0 ∧ { demo.ring with address := 31 }.address = 31 := by
  unfold State.ready State.atBoundary; decide +kernel

theorem witness_CellsCarryTheirCommands : demo.ready ∧ 13 ≤ (13 : Byte).toNat := ⟨demo_ready, by decide⟩

/-- The state a SYNC arrival with no tick before it finds. -/
def met (s : State) : State := s.advance (min 0 s.tb.left)

/-- The demo part at a ring-cycle position, in a lock state with an ACQUIRE count. -/
def demoLock (pos : Nat) (lock : Lock) (acquire : Nat) : State :=
  { demo with tb := { pos := pos, lock := lock, acquire := acquire } }

/-- The demo part with settings pending. -/
def demoPend : State := { demo with tb := { pend := some ⟨0, 2000, 1⟩, up := false, corrLeft := 1 } }

theorem witness_SyncArrivalActs : demo.ready ∧ demoSwap.ready ∧ (met demo).store.swapPending = false ∧
    ((met demoSwapHeld).store.swapPending = true ∧ (met demoSwapHeld).structureFault ≠ none) ∧
    (met demoSwap).store.swapPending = true ∧ (met demoSwap).structureFault = none ∧
    (∀ c, (met demoSwap).st c = .off ∨ (met demoSwap).st c = .trip) ∧ (met demoSwap).tb.lock ≠ .locked := by
  unfold State.ready State.atBoundary; decide +kernel

/-- Errors of 50 and −50, the ends of the window, and of 51. -/
theorem witness_LockMeasurement : demo.ready ∧
    ((met demoPend).tb.pend ≠ none ∧ (met demoPend).store.swapPending = false) ∧
    ((met demoRun).tb.lock = .free ∧ (met demoRun).st 0 = .run ∧ (met demoRun).tb.pend = none) ∧
    (met demoSwapHeld).structureFault ≠ none ∧
    ((met (demoLock 50 .acquire 2)).tb.lock = .acquire ∧ (met (demoLock 50 .acquire 2)).tb.lockError = 50 ∧
      (met (demoLock 50 .acquire 2)).tb.acquire < 3) ∧
    ((met (demoLock 99950 .acquire 3)).tb.lockError = -50 ∧ (met (demoLock 99950 .acquire 3)).tb.acquire = 3) ∧
    (met (demoLock 51 .acquire 3)).tb.lockError = 51 ∧
    ((met (demoLock 50 .locked 0)).tb.lock = .locked ∧ (met (demoLock 51 .locked 0)).tb.lock = .locked) ∧
    ((demoLock 0 .acquire 3).tb.lock = .acquire ∧ (demoLock 0 .acquire 3).tb.acquire = 3) := by
  unfold State.ready State.atBoundary; decide +kernel

theorem witness_HardRealignSetsTheTarget : demo.ready ∧ (met demo).tb.set.sound ∧ (met demo).tb = {} ∧
    ({} : Timebase).counter ≤ ({} : Timebase).crest ∧ (∀ c, (met demo).st c = .off ∨ (met demo).st c = .trip) ∧
    ((0 : Nat) < 12500 ∧ 12500 ≤ 12500) := by
  unfold State.ready State.atBoundary Settings.sound; decide +kernel

/-- The demo part in RUN, its channels at one less missed SET than hold_after. -/
def demoMissed : State :=
  { demoRun with sup := PerChan.ofFn fun c => { (demoRun.sup.get c) with missed := 1 } }

theorem witness_StalenessCountsAndHolds : demoMissed.ready ∧ (met demoMissed).store.swapPending = false ∧
    (met demoMissed).tb.lock ≠ .locked ∧ (met demoMissed).st 0 = .run ∧ (met demoMissed).st 1 = .off ∧
    demoMissed.st 2 = .run ∧ (demoMissed.role 2).isFollower = false ∧
    (demoMissed.sup.get 2).setSeen = false ∧ (demoMissed.sup.get 2).causes.stale = false ∧
    (demoMissed.sup.get 2).missed < 15 ∧
    (demoMissed.record 2).holdAfter ≤ (demoMissed.sup.get 2).missed + 1 ∧
    demoMissed.bank.chanTripClass .setpointStale = false ∧ (demoMissed.role 2).partner = some 3 ∧
    (demoMissed.role 3).partner = some 2 ∧ demoMissed.st 3 = .run ∧
    (demoMissed.bank.route 15).holdAll = false ∧ (demoMissed.role 0).partner ≠ some 2 := by
  unfold State.ready State.atBoundary; decide +kernel

/-- At the arrival: one count below hold_after and at it, in FREE and at both ends of the window in LOCKED, by a route that
trips, and with a swap that takes effect there, routed to nothing. -/
theorem witness_StalenessCountsAndHolds_arrival :
    (((demoRun.sup.get 2).missed + 1 < (demoRun.record 2).holdAfter) ∧
      ((met demoMissed).record 2).holdAfter = ((met demoMissed).sup.get 2).missed + 1 ∧
      ((met demoMissed).sup.get 2).setSeen = false ∧ (demoBank.route 15).holdAll = false) ∧
    (∀ x ∈ [50, 99950], let s : State := { demoMissed with tb := { pos := x, lock := .locked } }
      (met s).tb.lock = .locked ∧ -(met s).tb.set.lockWindow ≤ (met s).tb.lockError ∧
        (met s).tb.lockError ≤ (met s).tb.set.lockWindow) ∧
    (demoBank.put 4 15 ⟨1, 0, 0, 0⟩).chanTripClass .setpointStale = true ∧ ((met demoMissed).record 2).inUse = true ∧
    (let s : State := { demoMissed with store := demoSwap.store }
     (met s).store.swapPending = true ∧ (met s).structureFault = none ∧
      (met s).shadow.devTripClass .bankSwapDone = false ∧ ((met s).shadow.route 22).holdSelf = false ∧
      ((met s).shadow.route 22).holdAll = false ∧
      ((met s).shadow.record 0).holdAfter = ((met s).sup.get 0).missed + 1) := by
  decide +kernel

/-- The demo part in RUN one valley before its ring-loss limit. -/
def demoLoss : State := { demoRun with tb := { lossCount := 11, up := false, counter := 1 } }

theorem witness_MasterValleyParts_loss : demoLoss.tb.lossMark = false ∧
    demoLoss.tb.set.lossLimit ≤ min 255 (demoLoss.tb.lossCount + 1) ∧
    demoLoss.router.devKept.ringLoss = false ∧ demoLoss.bank.devTripClass .ringLoss = false ∧
    demoLoss.st 0 = .run ∧ (demoLoss.st 1 ≠ .run ∧ demoLoss.st 1 ≠ .hold) ∧
    ({ demoLoss.router with devKept := { ringLoss := true } } : Router).devKept.ringLoss = true := by
  decide +kernel

theorem witness_MasterValleyParts : demoLive.tb.set.n ≤ demoLive.tb.index + 1 ∧
    (demoPend.tb.corrLeft ≤ 1 ∧ demo.tb.corrLeft ≤ 1) ∧ demoPend.tb.pend = some ⟨0, 2000, 1⟩ := by
  decide +kernel

theorem witness_TurningPointsStrobeChannels : demoLoss.tb.up = false ∧ demo.tb.up = true ∧
    demoLoss.toTurn.tb.pend = none ∧ demoLoss.toTurn.tb.index + 1 < demoLoss.toTurn.tb.set.n ∧
    { demoLoss.toTurn.tb with index := 3 }.set.n ≤ 3 + 1 ∧
    (let s : State := { demo with tb := { up := false, corr := -8, corrLeft := 2 } }
     s.toTurn.tb.corrLeft = 2 ∧ s.toTurn.tb.pend = none ∧ s.toTurn.tb.lossMark = false ∧
      ¬(s.toTurn.tb.set.lossLimit ≤ min 255 (s.toTurn.tb.lossCount + 1))) ∧
    (demoLoss.toTurn.tb.lossMark = false ∧ demoLoss.toTurn.tb.set.lossLimit ≤ min 255 (demoLoss.toTurn.tb.lossCount + 1)) ∧
    demoPend.toTurn.tb.pend = some ⟨0, 2000, 1⟩ ∧ demoLoss.toTurn.tb.corrLeft = 0 ∧
    demoPend.toTurn.tb.corrLeft = 1 ∧ (demoLoss.toTurn.record 0).shifted = false ∧
    (({} : Bank).put 0 0 ⟨0x0011, 0, 0, 0⟩ |>.record 0).shifted = true ∧
    (demo.tb.shifted.get 0 = false ∧ { demo.tb with shifted := PerChan.const true }.shifted.get 0 = true) := by
  decide +kernel

/-- The pair 2 and 3 in a bank where its leader is aligned and its follower shifted, before a swap's interleave is taken. -/
def demoLatch : State :=
  { demo with
    store := { demo.store with a := demoBank.put 0 24 ⟨0x0211, 3, 1, 40⟩ }
    tb := { counter := 1, up := false }
    pos := PerChan.const { fine := 9 } }

theorem witness_TurningPoints_latch : demoLatch.tb.up = false ∧
    (let u := demoLatch.advance demoLatch.tb.left
     u.role 3 = .follower 0 2 ∧ (u.record 2).shifted = false ∧ (u.record 3).shifted = true) ∧
    (let s : State := { demoLatch with tb := { shifted := PerChan.ofFn fun c => decide (c = 2) } }
     s.tb.up = true ∧ s.role 3 = .follower 0 2 ∧ s.tb.shifted.get 2 = true ∧ s.tb.shifted.get 3 = false) := by
  decide +kernel

/-- R112: the follower's counter latches at its leader's valley; it strobes at its own. -/
theorem test_follower_latches_with_its_leader :
    let t := after (exec (.masterValley true) demoLatch)
    (t.pos.get 3).latched = some ⟨9, 0⟩ ∧ (t.lanes.get 3).seq = 0 ∧ (t.lanes.get 2).seq = 1 ∧
      (t.lanes.get 2).strobe.bind (·.follower) = some ⟨9, 0⟩ := by decide +kernel

/-- One tick before a crest and before a valley, and far from both with every input settled. -/
theorem witness_IdleStepIsATick :
    (let s : State := { demo with tb := { counter := 12499 } }
     s.pending = [] ∧ s.tb.left ≤ 1 ∧ s.tb.up = true) ∧
    (demoLoss.pending = [] ∧ demoLoss.tb.left ≤ 1 ∧ demoLoss.tb.up = false) ∧
    (let s : State := { demo with tb := { counter := 12498, inh := .settled true }
                                  pos := PerChan.const { fa := .settled false, fb := .settled true, fz := .settled false } }
     s.pending = [] ∧ 1 < s.tb.left ∧ s.quiet = true) ∧ (1 < demo.tb.left ∧ demo.quiet = false) := by decide +kernel

/-- Channel 0 alone in use, in a state, its gate state given, with pending compares or without. -/
def demoLone (st : ChanState) (drive : Bool) (pending : Option Compares) (count : Nat) : State :=
  { demo with
    store := { a := withRecord {} 0, stA := .valid }
    sup := demo.sup.set 0 { st := st, chargeCount := count }
    mods := demo.mods.set 0 { drive := drive, pending := pending } }

/-- No report trips or holds: every state of a lone channel, at the edges of its charge count. -/
theorem witness_ChannelValleys_quiet :
    (∀ x ∈ [demoLone .run true (some ⟨1, 199, 12499⟩) 0, demoLone .hold true none 0,
        demoLone .charge false none 0, demoLone .charge true none 1, demoLone .charge true none 2,
        demoLone .stopping true none 0, demoLone .off false none 0, demoLone .trip false none 0],
      (∀ d, (x.lanes.get d).expected = false ∧ (x.lanes.get d).arrived = false ∧ (x.mods.get d).stale ≠ 3) ∧
      ∀ d, x.role d = .lone) ∧
    (min 255 (1 + 1) < ((demoLone .charge true none 1).record 0).chargePeriods) ∧
    ((demoLone .charge true none 2).record 0).chargePeriods ≤ min 255 (2 + 1) := by decide +kernel

/-- The pair 2 and 3 in CHARGE, at its first valley, at a count below the end and at the end, beside a channel in OFF. -/
theorem witness_ChannelValleys_pair : ∀ x ∈ [(false, 0), (true, 1), (true, 2)],
    let s : State := { demo with
      sup := PerChan.ofFn fun c => if c = 2 ∨ c = 3 then { st := .charge, chargeCount := x.2 } else {}
      mods := PerChan.ofFn fun c => if c = 2 ∨ c = 3 then { drive := x.1 } else {} }
    (∀ d, (s.lanes.get d).expected = false ∧ (s.lanes.get d).arrived = false ∧ (s.mods.get d).stale ≠ 3) ∧
      s.bank.pairFault = none ∧ s.role 2 = .leader 0 3 ∧
      s.st 3 = s.st 2 ∧ s.st 2 = .charge ∧ (s.mods.get 3).drive = (s.mods.get 2).drive ∧ (s.role 2).slot = some 0 ∧
      (s.record 2).chargePeriods = 3 := by decide +kernel

/-- Channel 0 alone, in a state and at a stale count, its lane expected, its burst come or not, its run waiting or not. -/
def demoValley (st : ChanState) (stale : Nat) (arrived : Bool) (q : List Entry) : State :=
  { demoLone st true none 0 with
    mods := (demoLone st true none 0).mods.set 0 { drive := true, stale := stale }
    lanes := (demoLone st true none 0).lanes.set 0 { expected := true, arrived := arrived }
    engine := { queue := q } }

/-- SAMPLE_MISSING in CHARGE and in RUN, LOOP_LATE of a waiting run, COMPARES_STALE behind them, at a count of 3; the routes
that let the first two trip or hold. -/
theorem witness_ChannelValleys_reports :
    ((demoValley .charge 3 false []).st 0 = .charge ∧ (demoValley .run 2 false []).st 0 = .run ∧
      ((demoValley .run 2 false []).mods.get 0).pending = none ∧
      ((demoValley .run 2 false []).lanes.get 0).expected = true ∧
      ((demoValley .run 2 false []).lanes.get 0).arrived = false) ∧
    (((demoValley .run 3 true [demoEntry]).lanes.get 0).arrived = true ∧
      (demoValley .run 3 true [demoEntry]).engine.queue.any (fun e => decide (e.chan = 0) && e.current) = true ∧
      ((demoValley .run 3 true [demoEntry]).mods.get 0).stale = 3) ∧
    ((demoValley .run 3 false []).role 0 = .lone ∧ ((demoValley .run 3 false []).record 0).inUse = true ∧
      ((demoValley .run 3 false []).bank.route 3).tripAll = false) ∧
    (∀ k ∈ [5, 7], ((demoBank.put 4 k ⟨1, 0, 0, 0⟩).route k).tripSelf = true ∧
      ((demoBank.put 4 k ⟨2, 0, 0, 0⟩).route k).holdSelf = true ∧
      (demoBank.put 4 k ⟨2, 0, 0, 0⟩).chanTripClass .sampleMissing = false ∧
      (demoBank.put 4 k ⟨2, 0, 0, 0⟩).chanTripClass .loopLate = false ∧ (demoBank.route k).tripAll = false) := by
  decide +kernel

/-- Channel 0 in RUN with pending compares at the ends of the minimum pulse, channel 2 three valleys stale. -/
def demoCompares : State :=
  { demoRun with
    mods := (demoRun.mods.set 0 { drive := true, pending := some ⟨1, 199, 12301⟩ }).set 2 { drive := true, stale := 3 } }

theorem witness_ChannelValleyParts_compares : demoCompares.st 0 = .run ∧
    (demoCompares.mods.get 0).pending = some ⟨1, 199, 12301⟩ ∧ demoCompares.st 2 = .run ∧
    (demoCompares.mods.get 2).pending = none ∧ (demoCompares.mods.get 2).stale = 3 ∧
    (demoCompares.record 2).inUse = true ∧ (demoCompares.bank.route 3).tripAll = false ∧
    (demoCompares.bank.route 3).holdAll = false ∧ (demoCompares.role 0).partner ≠ some 2 := by decide +kernel

theorem witness_ChannelValleyParts_units :
    ((demo.role 2).isFollower = false ∧ (demoAs fun _ => .charge).st 2 = .charge ∧
      ((demoAs fun _ => .charge).mods.get 2).drive = false) ∧
    ((demoLone .charge true none 2).st 0 = .charge ∧ ((demoLone .charge true none 2).mods.get 0).drive = true ∧
      ((demoLone .charge true none 2).record 0).chargePeriods ≤ min 255 (2 + 1) ∧
      ((demoLone .charge true none 2).role 0).isFollower = false) ∧
    (demoAs fun _ => .stopping).st 2 = .stopping := by decide +kernel

/-- The demo part in RUN one tick before the compare of phase A of channel 0, its gates off for 99 of 100 ticks. -/
def demoGate : State :=
  { demoRun with
    tb := { counter := 999, inh := .settled true }
    pos := PerChan.const { fa := .settled false, fb := .settled true, fz := .settled false }
    mods := demoRun.mods.set 0
      { drive := true, active := ⟨1000, 6000, 12500⟩, deadTime := 100, pb := { loOff := 99 }, pa := { loOff := 100 } } }

theorem witness_ComparePassageAndDeadTime : demoGate.quiet = true ∧ demoGate.engine.queue = [] ∧
    demoGate.tb.counter ≤ demoGate.tb.crest ∧ 0 < (demoGate.mods.get 0).active.a ∧
    (demoGate.mods.get 0).active.a ≠ demoGate.tb.set.p ∧ demoGate.tb.chanUp 0 = true ∧
    demoGate.tb.chanCounter 0 + 1 = (demoGate.mods.get 0).active.a ∧ 1 ≤ demoGate.tb.left ∧
    (demoGate.mods.get 0).drive = true ∧ demoGate.tb.inh.level ≠ some false ∧
    (demoGate.mods.get 0).pb.hi = false ∧ (demoGate.mods.get 0).pb.lo = false ∧
    (demoGate.mods.get 0).deadTime ≤ 255 ∧
    sideHigh true 12500 (demoGate.tb.chanCounter 0) ((demoGate.mods.get 0).active.get .b) = true ∧
    demoGate.commandStands 0 .b ((demoGate.mods.get 0).deadTime - (demoGate.mods.get 0).pb.loOff) = true := by
  decide +kernel

/-- A frame of a word 0 and eight words of 0, with its CRC. -/
def frameOf (w : Word) : Frame :=
  { bytes := [w.hi, w.lo] ++ List.replicate 16 0 ++ [0, crc8 ([w.hi, w.lo] ++ List.replicate 16 0)] }

/-- The demo part in RUN with the lane of channel 0 waiting for number 15, an entry of channel 0 waiting or not. -/
def demoLane (q : List Entry) : State :=
  { demoRun with
    engine := { queue := q }
    lanes := demoRun.lanes.set 0 { seq := 15, expected := true, strobe := some { st := .run } } }

theorem witness_BurstAcceptance :
    { frameOf 15 with lineError := true }.intact = false ∧ (demo.lanes.get 0).expected = false ∧
    (frameOf 14).word 0 ≠ 15 ∧ (frameOf 15).intact = true ∧ ((demoLane []).lanes.get 0).expected = true ∧
    ((demoLane []).lanes.get 0).arrived = false ∧
    ((frameOf 15).word 0).toNat % 16 = ((demoLane []).lanes.get 0).seq.toNat ∧
    ((frameOf 0x400F).intact = true ∧ 16384 ≤ ((frameOf 0x400F).word 0).toNat ∧
      ((frameOf 0x400F).word 0).toNat % 16 = 15) ∧
    ((frameOf 0x3FFF).intact = true ∧ ¬16384 ≤ ((frameOf 0x3FFF).word 0).toNat) ∧
    ((demoLane []).lanes.get 0).strobe = some { st := .run } ∧
    (∀ y ∈ (demoLane []).engine.queue, y.chan ≠ 0) ∧ (∃ y ∈ (demoLane [demoEntry]).engine.queue, y.chan = 0) ∧
    ((demoLane []).router.kept.get 0).bridgeFault = false ∧ (demoLane []).st 0 ≠ .trip ∧
    ((demoLane []).record 0).inUse = true ∧ (demoLane []).engine.running = none ∧
    demoLive.engine.running ≠ none := by decide +kernel

/-- The part of 1-11 with a full mailbox, its channel in HOLD by STALE alone. -/
def demoTake : State :=
  { demoBefore with
    sup := demoBefore.sup.set 0 { st := .hold, causes := { stale := true } }
    refs := demoBefore.refs.set 0 { mailbox := some {} } }

theorem witness_RunStartPinsAndTakes : demo.engine.queue = [] ∧ demoBefore.engine.running = none ∧
    demoBefore.engine.queue = demoEntry :: [] ∧ (demoBefore.record demoEntry.chan).inUse = true ∧
    (demoBefore.record { demoEntry with chan := 7 }.chan).inUse = false ∧
    (demoBefore.refs.get 0).mailbox = none ∧
    (demoTake.engine.running = none ∧ demoTake.engine.queue = [demoEntry] ∧ demoTake.st 0 = .hold ∧
      demoEntry.strobe.st = .run ∧ (demoTake.role 0).isFollower = false ∧ (demoTake.refs.get 0).mailbox ≠ none) := by
  decide +kernel

/-- The run of 1-11. -/
def demoX : Run := ((after (execRunStart demoBefore)).engine.running).getD { entry := demoEntry }

theorem witness_RunCompletionWritesResults :
    (after (execRunStart demoBefore)).engine.running = some demoX ∧ demoX.control = true ∧
    demoX.restarted = false ∧ demoX.chargeEntered = false ∧ demoX.entry.late = false ∧
    { demoX with control := false }.control = false ∧ { demoX with restarted := true }.restarted = true := by
  decide +kernel

/-- The run of 1-11 with phase A samples one step above i_trip. -/
def demoOver : State :=
  { demoRun with
    engine := { running := some { demoX with entry := { demoEntry with words := ⟨4095, 4095, 4095, 0, 0, 0, 0, 0⟩ } } } }

theorem witness_OvercurrentAndVoltSat_trip : ∃ x, demoOver.engine.running = some x ∧ x.restarted = false ∧
    x.front.cond.iA.natAbs > (x.bank.record x.entry.chan).iTrip ∧ demoOver.st x.entry.chan ≠ .trip ∧
    (demoOver.record x.entry.chan).inUse = true ∧ demoOver.bank.chanTripClass .sampleDisagree = false :=
  ⟨_, rfl, by decide +kernel⟩

theorem witness_OvercurrentAndVoltSat_volt :
    let x := { demoX with vsat := 39 }
    let s := { demoRun with engine := { running := some x } }
    (s.engine.running = some x ∧ x.control = true ∧ x.restarted = false ∧ x.chargeEntered = false ∧
      x.voltSatDone = false) ∧ (x.controlResult x.front x.accD x.accQ x.vsat).limited = true ∧ x.vsat < 255 ∧
    x.vsat + 1 = (x.bank.record x.entry.chan).vsatRuns ∧
    (s.bank.route 8).tripSelf = false ∧ (s.bank.route 8).tripAll = false ∧ (s.bank.route 8).holdSelf = false ∧
    (s.bank.route 8).holdAll = false ∧ demo.engine.running = none ∧ x.entry.chan ≠ 1 ∧
    (let y := { x with entry := { demoEntry with words := ⟨2048, 2048, 2048, 2048, 2048, 2048, 3150, 2900⟩ }, accD := 0
                       accQ := 0, ref := {} }
     (y.controlResult y.front y.accD y.accQ y.vsat).limited = false) := by decide +kernel

/-- Compares 1, T − 1, P − T + 1, P − 1, T and P − T for P 12500 and T 200, each in its one clause. -/
theorem witness_MinimumPulse : min 200 (12500 / 4) = 200 ∧ (1 ≤ 1 ∧ 1 < 200 ∧ 2 * 1 < 200) ∧
    (199 < 200 ∧ ¬2 * 199 < 200) ∧ (12500 - 200 < 12301 ∧ 12301 < 12500) ∧ (12500 - 200 < 12499 ∧ 12499 < 12500) ∧
    (200 ≤ 200 ∧ 200 ≤ 12500 - 200) ∧ (200 ≤ 12300 ∧ 12300 ≤ 12500 - 200) := by decide

theorem witness_StagesSixToEleven : ((({} : Bank).put 0 0 ⟨4, 0, 0, 0⟩).record 0).ffEnable = true ∧
    (({} : Bank).record 0).ffEnable = false ∧ (2400 ≤ ((demoBank.record 0).uUnder) ∧ (demoBank.record 0).uUnder ≤ 2401) ∧
    (axisOf 0 0 0 0 (32767 * 65536) 0 65535).limited = true ∧ (axisOf 0 0 0 0 0 0 32768).limited = false := by
  decide +kernel

theorem witness_StagesOneToFour : (∃ h, demoX.history = some h) ∧ demoX.countMark = false ∧
    ({ demoX with history := none } : Run).history = none ∧ ({ demoX with countMark := true } : Run).countMark = true :=
  ⟨Option.isSome_iff_exists.mp (by decide +kernel), by decide +kernel, rfl, rfl⟩

theorem witness_CurvesAndLimits :
    (let l : List (Int × Int) := [(1000, 0), (2000, -8000)]
     (l.map (·.1)).Pairwise (· < ·) ∧ l = (1000, 0) :: [(2000, -8000)] ∧ (999 : Int) < 1000 ∧
      l = [(1000, 0)] ++ [(2000, -8000)] ∧ (2000 : Int) ≤ 2000 ∧ l = [] ++ (1000, 0) :: (2000, -8000) :: [] ∧
      (1000 : Int) ≤ 1000 ∧ (1999 : Int) < 2000) ∧
    (1 < (limitBank.record 0).derateCount ∧ 1 < (limitBank.record 0).fwCount) ∧
    ((limitBank.record 0).fwEnable = true ∧ 2 ≤ (limitBank.record 0).fwCount) ∧
    (({} : Bank).record 0).fwEnable = false := by decide +kernel

theorem witness_CirclesAndAntiWindup : (4294967295 < 4294967296) ∧ (65535 ≤ 65535) ∧ ((0 : Int) ≤ 0) ∧
    (let a := axisOf 100 0 4096 16 0 0 0
     0 < a.err ∧ 0 < a.uRaw) ∧ (let a := axisOf (-1) 0 4096 16 0 0 0
     a.err < 0 ∧ a.uRaw < 0) ∧ (axisOf 0 0 4096 16 0 0 0).err = 0 ∧
    (let a := axisOf 1 0 0 16 (-2147483648) 0 0
     0 < a.err ∧ a.uRaw < 0) := by decide +kernel

theorem witness_ReferenceFollowsTheSetpoint : (0 < 4 ∧ 4 ≤ { ({} : RefState) with step := 3 }.step + 1) ∧
    { ({} : RefState) with step := 2 }.step + 1 < 4 ∧ ({ raw := -64 } : RefState).raw.natAbs ≤ 64 ∧
    64 < ({ raw := -65 } : RefState).raw.natAbs ∧ ({ mode := .given, idHeld := 65 } : RefState).mode = .given ∧
    64 < ({ mode := .given, idHeld := 65 } : RefState).idHeld.natAbs ∧ ({} : RefState).mode ≠ .given := by decide

theorem witness_PairSharesAddUp : demoBank.role 2 = .leader 0 3 ∧ demoBank.role 3 = .follower 0 2 ∧
    ({} : PairRuntime).written = false ∧ ({ written := true } : PairRuntime).written = true ∧
    ({ demoBank.pairEntry 0 with split := 32768 } : PairEntry).split = 32768 ∧
    (({} : Bank).pairEntry 0).split = 0 := by decide +kernel

/-- A counter of the demo part with known inputs, one count below its carry. -/
def demoPos (mode : Nat) (inputA inputB armed : Bool) : State :=
  { demo with
    store := { a := demoBank.put 0 0 ⟨BitVec.ofNat 16 (0x0201 + 32 * mode), 3, 0x0001, 40⟩, stA := .valid }
    pos := demo.pos.set 0
      { fa := .settled inputA, fb := .settled inputB, fz := .settled false
        dec := some (inputA, inputB), fine := 1048575, armed := armed } }

theorem witness_FilteredChangesCountAndCapture :
    (((demoPos 0 true true false).pos.get 0).fa.level = some true ∧
      ((demoPos 0 true true false).pos.get 0).fb.level = some true ∧
      ((demoPos 0 true true false).pos.get 0).dec = some (true, true) ∧
      ((demoPos 0 true true false).pos.get 0).fine + 1 = ((demoPos 0 true true false).record 0).effectiveCpr) ∧
    ((demoPos 0 true false false).pos.get 0).dec = some (true, false) ∧
    ((demoPos 0 true true false).pos.get 0).fz.level = some false ∧
    ((demoPos 0 true true false).record 0).indexMode = 0 ∧
    (((demoPos 1 true true true).record 0).indexMode = 1 ∧ ((demoPos 1 true true true).pos.get 0).armed = true ∧
      ((demoPos 1 true true true).record 0).inUse = true) ∧
    (((demoPos 1 true true false).record 0).indexMode = 1 ∧ ((demoPos 1 true true false).pos.get 0).armed = false) ∧
    (((demoPos 2 true true false).record 0).indexMode = 2 ∧
      (let r := (demoPos 2 true true false).record 0
       let x : Int := ((1048575 : Int) - r.indexExpect) % r.cpr
       min x (r.cpr - x) = 11 ∧ (r.indexTolerance : Int) = 8)) ∧
    (demo.record 7).inUse = false := by decide +kernel

/-- Index distances at the tolerance of 8 and one above it. -/
theorem witness_index_tolerance :
    min (((18 : Int) - 10) % 1048576) (1048576 - ((18 : Int) - 10) % 1048576) = 8 ∧
    min (((1 : Int) - 10) % 1048576) (1048576 - ((1 : Int) - 10) % 1048576) = 9 := by decide

theorem witness_InputFilterTakesThreeSamples :
    ((demoPos 0 true true false).pos.get 0).dec.isSome = true ∧
    (let f : Filter := { Filter.settled true with pin := false }
     f.raw ≠ some f.pin ∧ f.level ≠ some f.pin) ∧ (Filter.settled true).raw = some (Filter.settled true).pin ∧
    (demo.pending = [] ∧ 3 < demo.tb.left) ∧
    ((demo.pos.get 0).filter .z).level = none ∧ (demo.pos.get 0).dec = none ∧
    ((demo.pos.get 0).fa.level = none ∨ (demo.pos.get 0).fb.level = none) := by decide +kernel

theorem witness_InhibitInput : demo.tb.inh.level ≠ some false ∧ demo.tb.inh.level = none ∧
    demo.router.devKept.extInhibit = false ∧ demoHeld.router.devKept.extInhibit = true ∧
    (demoRun.record 0).inUse = true ∧ demoRun.st 0 ≠ .trip ∧ demoLive.st 0 = .trip ∧
    demoInh.tb.inh.level = some false ∧ (demoInh.mods.get 0).drive = true ∧ (demoInh.mods.get 1).drive = false ∧
    ((demoInh.mods.get 0).pa.hi = false ∧ (demoInh.mods.get 0).pa.lo = false) := by decide +kernel

/-- The routes that the raises below meet: CURRENT_LIMIT trips its own channel, INDEX_MISMATCH holds it. -/
def routedBank : Bank := (demoBank.put 4 9 ⟨1, 0, 0, 0⟩).put 4 14 ⟨2, 0, 0, 0⟩

theorem witness_RaiseAppliesFixedAndRoutedActions :
    (routedBank.route ChanKind.currentLimit.code).tripSelf = true ∧
    (routedBank.route ChanKind.indexMismatch.code).holdSelf = true ∧
    (demoBank.put 4 9 ⟨4, 0, 0, 0⟩ |>.route ChanKind.currentLimit.code).tripAll = true ∧
    demoRun.st 2 ≠ .trip ∧ (demoRun.record 2).inUse = true ∧ (demoRun.role 3).partner = some 2 ∧
    demoLive.st 0 = .trip ∧ (demoLive.router.trips.get 0).map (·.secondary.length) = some 3 ∧
    demoRun.st 1 = .off ∧ (demoRun.role 1).partner = none := by decide +kernel

/-- R148: a set flag asserts the lines of its route's mask, bit 4 for FL0 to bit 7 for FL3. -/
theorem test_fault_lines :
    ({ demo with store := { demo.store with a := demoBank.put 4 13 ⟨0x0090, 0, 0, 0⟩ } }.raiseChan .encoderFault 0
      ).router.lines = 0b1001 := by decide +kernel

theorem witness_RaiseApplies_device : (demoBank.route DevKind.extInhibit.code).tripSelf = false ∧
    (demoBank.route DevKind.cellCrc.code).holdAll = false ∧
    (demoBank.put 4 19 ⟨8, 0, 0, 0⟩ |>.route DevKind.cellCrc.code).holdAll = true := by decide +kernel

theorem witness_LevelConditionsRaiseOnce : (demo.router.kept.get 0).get .bridgeFault = false ∧
    (demoHeld.router.kept.get 0).get .bridgeFault = true ∧ demo.router.devKept.get .extInhibit = false ∧
    demoHeld.router.devKept.get .extInhibit = true := by decide +kernel

end Sys2Proof.Tests
end

