-- ==== Sys2Proof/Proofs/MinimumPulse.lean ====
section
/-! The minimum pulse of a compare and the compares of stage 11 (R28, R29). -/

namespace Sys2Proof.Machine

/-! ### The three bands of a compare -/

section

variable {p m y : Nat}

/-- A compare in 1..T − 1: its low pulse is shorter than T. -/
theorem minPulsed_of_short_low (h1 : 1 ≤ y) (ht : y < min m (p / 4)) :
    minPulsed p m y = if 2 * y < min m (p / 4) then 0 else min m (p / 4) :=
  if_pos ⟨h1, ht⟩

/-- A compare in P − T + 1..P − 1: its rest up to P is shorter than T. It is outside the low band, as 4 T is at most P. -/
theorem minPulsed_of_short_high (ht : p - min m (p / 4) < y) (hp : y < p) :
    minPulsed p m y = if 2 * (p - y) < min m (p / 4) then p else p - min m (p / 4) :=
  (if_neg (by omega)).trans (if_pos ⟨ht, hp⟩)

/-- A compare outside both bands stays. -/
theorem minPulsed_of_not_short (h : y = 0 ∨ y = p ∨ (min m (p / 4) ≤ y ∧ y ≤ p - min m (p / 4))) :
    minPulsed p m y = y :=
  (if_neg (by omega)).trans (if_neg (by omega))

/-- A minimum pulse of 0 or 1 leaves both bands empty. -/
theorem minPulsed_of_le_one (hy : y ≤ p) (hm : m ≤ 1) : minPulsed p m y = y :=
  minPulsed_of_not_short (by omega)

/-- Every compare up to P lies in one of the two bands or outside both. -/
theorem compare_bands (m : Nat) (hy : y ≤ p) :
    (1 ≤ y ∧ y < min m (p / 4)) ∨ (p - min m (p / 4) < y ∧ y < p) ∨
      (y = 0 ∨ y = p ∨ (min m (p / 4) ≤ y ∧ y ≤ p - min m (p / 4))) := by
  omega

/-- What the minimum pulse leaves of a compare up to P is 0, P or within T..P − T. -/
theorem minPulsed_zero_or_full_or_within (m : Nat) (hy : y ≤ p) :
    minPulsed p m y = 0 ∨ minPulsed p m y = p ∨
      (min m (p / 4) ≤ minPulsed p m y ∧ minPulsed p m y + min m (p / 4) ≤ p) := by
  obtain ⟨h1, ht⟩ | ⟨ht, hp⟩ | h := compare_bands m hy
  · rw [minPulsed_of_short_low h1 ht]
    split <;> omega
  · rw [minPulsed_of_short_high ht hp]
    split <;> omega
  · rw [minPulsed_of_not_short h]
    omega

end

/-! ### The compares of stage 11 -/

/-- A compare before the minimum pulse is at most P (R28). -/
theorem rawCompare_le (p : Nat) (w : Int) : rawCompare p w ≤ p :=
  Int.toNat_le.mpr (max_le (Int.natCast_nonneg p) (min_le_left _ _))

/-- Each of the three compares of a run is what the minimum pulse leaves of a compare up to P. -/
theorem comparesOf_eq_minPulsed (p m : Nat) (sn cs : Int) (v : Vector2) :
    ∀ z ∈ [(comparesOf p m sn cs v).a, (comparesOf p m sn cs v).b, (comparesOf p m sn cs v).c],
      ∃ y ≤ p, z = minPulsed p m y := by
  have limited : ∀ w, ∃ y ≤ p, minPulsed p m (rawCompare p w) = minPulsed p m y :=
    fun w => ⟨rawCompare p w, rawCompare_le p w, rfl⟩
  simp only [List.forall_mem_cons]
  exact ⟨limited _, limited _, limited _, List.forall_mem_nil _⟩

/-- Settles O49, by the three bands of a compare up to P. -/
theorem minimumPulse : Obligations.MinimumPulse := by
  unfold Obligations.MinimumPulse
  constructor
  · intro p m sn cs v z hz
    obtain ⟨y, hy, rfl⟩ := comparesOf_eq_minPulsed p m sn cs v z hz
    exact ⟨⟨y, hy, rfl⟩, minPulsed_zero_or_full_or_within m hy⟩
  · intro p m y hy
    exact ⟨minPulsed_of_short_low, minPulsed_of_short_high, minPulsed_of_not_short, minPulsed_of_le_one hy⟩

end Sys2Proof.Machine
end

