-- ==== Sys2Proof/Proofs/ManagementRequests.lean ====
section
/-! The management requests: what each owner answers, and the decoder's target test (R189 to R191). The answers that carry data
words are READ_ENTRY's and READ_STATUS's OK, WRITE_ENTRY's RANGE and the failed checks of SWAP_BANKS; every other answer is
plain. -/

namespace Sys2Proof.Machine

variable (s : State) (r : Request)

/-! ### Answers -/

/-- The statuses that are no refusal: only with these may a request have changed the part (R191). -/
abbrev Status.Done (x : Status) : Prop := x = .ok ∨ x = .accepted ∨ x = .stillActive

/-- An answer to a request met in state `s` that keeps to R191: its status is one of `l`, it has data words of 0, and a
refusal leaves the part as it was. -/
structure Answer.Plain (s : State) (l : List Status) (a : Answer) : Prop where
  status_mem : a.reply.status ∈ l
  refusal_keeps : a.reply.status.Done ∨ a.after = s
  data_zero : a.reply.data = {}

/-- An answer to a request of kind byte `k`, met in state `s`, that keeps to R191 with the data words its owner gives. -/
structure Answer.FitsTable (k : Byte) (s : State) (a : Answer) : Prop where
  status_mem : a.reply.status ∈ statusesOf k
  refusal_keeps : a.reply.status.Done ∨ a.after = s
  data_owned : a.reply.data = {} ∨
    ((k = 1 ∨ k = 6) ∧ a.reply.status = .ok) ∨
    (k = 2 ∧ a.reply.status = .range ∧ a.reply.data.w1 = 0 ∧ a.reply.data.w2 = 0 ∧ a.reply.data.w3 = 0) ∨
    (k = 4 ∧ a.reply.status ∈ [Status.curveOrder, .limits, .pairConflict, .structure'] ∧
      a.reply.data.w2 = 0 ∧ a.reply.data.w3 = 0)

variable {s r} {a : Answer} {k : Byte} {l : List Status} {x : Status}

/-- A plain answer fits the table where the table lists its statuses. -/
theorem Answer.Plain.fitsTable (h : a.Plain s l) (hl : l ⊆ statusesOf k) : a.FitsTable k s :=
  ⟨hl h.status_mem, h.refusal_keeps, .inl h.data_zero⟩

/-- A status outside the list of a plain answer is not its status. -/
theorem Answer.Plain.status_ne (h : a.Plain s l) (hx : x ∉ l) : a.reply.status ≠ x :=
  fun he => hx (he ▸ h.status_mem)

/-- A status that the table does not list is not the status of an answer that fits it. -/
theorem Answer.FitsTable.status_ne (h : a.FitsTable k s) (hx : x ∉ statusesOf k) : a.reply.status ≠ x :=
  fun he => hx (he ▸ h.status_mem)

/-- A reply of a status alone is plain where a refusal keeps the state. -/
theorem Answer.plain_of_reply (hr : a.reply = ⟨x, {}⟩) (hx : x ∈ l) (hk : ¬x.Done → a.after = s) : a.Plain s l := by
  refine ⟨?_, ?_, ?_⟩ <;> rw [hr]
  · exact hx
  · exact (em x.Done).imp_right hk

/-- A refusal is plain. -/
theorem State.refuse_plain (hx : x ∈ l) : (s.refuse x).Plain s l := Answer.plain_of_reply rfl hx fun _ => rfl

/-- An answer without data words whose status is no refusal is plain, whatever it did. -/
theorem Answer.plain_of_done {t : State} (hx : x ∈ l) (hd : x.Done) : Answer.Plain s l ⟨⟨x, {}⟩, t⟩ :=
  Answer.plain_of_reply rfl hx (absurd hd)

/-! ### Targets (R190) -/

/-- A target byte above 7 names no channel. -/
theorem chanOf_eq_none {t : Byte} (h : ¬t.toNat ≤ 7) : chanOf t = none := dif_neg (by omega)

/-- A target byte up to 7 names a channel. -/
theorem chanOf_eq_some {t : Byte} (h : t.toNat ≤ 7) : ∃ c, chanOf t = some c := ⟨_, dif_pos (by omega)⟩

/-- The device target by its value. -/
theorem target_eq_device_iff {t : Byte} : t = 255 ↔ t.toNat = 255 := BitVec.toNat_eq

/-- The bank that a target byte names, by its value: bit 7 is the 128. -/
theorem request_bank_eq (r : Request) : r.bank = if 128 ≤ r.target.toNat then .b else .a := by
  have hbit : r.target.getLsbD 7 = decide (128 ≤ r.target.toNat) := BitVec.msb_eq_decide r.target
  rw [Request.bank, hbit]
  simp only [decide_eq_true_eq]

/-- The table that a target byte names, by its value. -/
theorem request_table_eq (r : Request) : r.table = r.target.toNat % 8 := by
  simp [Request.table]

/-! ### Parameter store -/

/-- READ_ENTRY refuses an index that names no group, and answers a valid one with BUSY or a group. -/
theorem Store.readEntry_cases (st : Store) (r : Request) :
    (validIndex r.table r.groupIndex = false ∧ st.readEntry r = ⟨.badTarget, {}⟩) ∨
      (validIndex r.table r.groupIndex = true ∧
        (st.readEntry r = ⟨.busy, {}⟩ ∨ ∃ g, st.readEntry r = ⟨.ok, g⟩)) := by
  unfold Store.readEntry
  split
  · next hv =>
    split
    · exact .inr ⟨hv, .inl rfl⟩
    · exact .inr ⟨hv, .inr ⟨_, rfl⟩⟩
  · next hv => exact .inl ⟨Bool.eq_false_of_not_eq_true hv, rfl⟩

/-- WRITE_ENTRY refuses an index that names no group, and answers a valid one without data words or with the word that is out
of range. -/
theorem Store.writeReply_cases (st : Store) (r : Request) :
    (validIndex r.table r.groupIndex = false ∧ st.writeReply r = ⟨.badTarget, {}⟩) ∨
      (validIndex r.table r.groupIndex = true ∧
        ((∃ x ∈ [Status.ok, .activeBank, .swapPending, .busy], st.writeReply r = ⟨x, {}⟩) ∨
          ∃ w, st.writeReply r = ⟨.range, { w0 := w }⟩)) := by
  unfold Store.writeReply
  split
  · next hv => exact .inl ⟨by simpa using hv, rfl⟩
  · next hv =>
    refine .inr ⟨by simpa using hv, ?_⟩
    split
    · exact .inl ⟨.activeBank, by decide, rfl⟩
    split
    · exact .inl ⟨.swapPending, by decide, rfl⟩
    split
    · exact .inl ⟨.busy, by decide, rfl⟩
    split
    · exact .inr ⟨_, rfl⟩
    · exact .inl ⟨.ok, by decide, rfl⟩

/-- COPY_BANK is answered without data words. -/
theorem Store.copyReply_cases (st : Store) :
    ∃ x ∈ [Status.accepted, .swapPending, .busy], st.copyReply = ⟨x, {}⟩ := by
  unfold Store.copyReply
  split
  · exact ⟨.busy, by decide, rfl⟩
  split
  · exact ⟨.swapPending, by decide, rfl⟩
  · exact ⟨.accepted, by decide, rfl⟩

/-- The four checks of a swap pass, or one of them is named with its table and index. -/
theorem State.swapChecks_cases (s : State) :
    s.swapChecks = ⟨.accepted, {}⟩ ∨
      ∃ x ∈ [Status.curveOrder, .limits, .pairConflict, .structure'], ∃ g, s.swapChecks = refuseSwap x g := by
  unfold State.swapChecks
  split
  · exact .inr ⟨.curveOrder, by decide, _, rfl⟩
  split
  · exact .inr ⟨.limits, by decide, _, rfl⟩
  split
  · exact .inr ⟨.pairConflict, by decide, _, rfl⟩
  split
  · exact .inr ⟨.structure', by decide, _, rfl⟩
  · exact .inl rfl

/-- SWAP_BANKS is answered without data words, or with the table and index of a failed check. -/
theorem State.swapReply_cases (s : State) :
    (∃ x ∈ [Status.accepted, .swapPending, .busy], s.swapReply = ⟨x, {}⟩) ∨
      ∃ x ∈ [Status.curveOrder, .limits, .pairConflict, .structure'], ∃ g, s.swapReply = refuseSwap x g := by
  unfold State.swapReply
  split
  · exact .inl ⟨.busy, by decide, rfl⟩
  split
  · exact .inl ⟨.swapPending, by decide, rfl⟩
  · exact s.swapChecks_cases.imp_left fun h => ⟨.accepted, by decide, h⟩

/-- A WRITE_ENTRY that is not answered OK writes nothing (R164). -/
theorem State.onWriteEntry_keeps (h : (s.store.writeReply r).status ≠ .ok) : (s.onWriteEntry r).after = s := by
  rw [State.onWriteEntry, Store.writeEntry, if_neg h]

/-- A COPY_BANK that is not accepted copies nothing (R166). -/
theorem State.onCopyBank_keeps (h : s.store.copyReply.status ≠ .accepted) : s.onCopyBank.after = s := by
  rw [State.onCopyBank, Store.copyBank, if_neg h]

/-- A SWAP_BANKS that is not accepted sets no mark (R169). -/
theorem State.onSwapBanks_keeps (h : s.swapReply.status ≠ .accepted) : s.onSwapBanks.after = s := if_neg h

/-- What READ_ENTRY answers fits the table. -/
theorem State.onReadEntry_fitsTable (s : State) (r : Request) : (s.onReadEntry r).FitsTable 1 s := by
  unfold State.onReadEntry
  obtain ⟨-, h⟩ | ⟨-, h | ⟨g, h⟩⟩ := s.store.readEntry_cases r <;> rw [h]
  · exact (State.refuse_plain (List.mem_singleton_self _)).fitsTable (by decide)
  · exact (State.refuse_plain (List.mem_singleton_self _)).fitsTable (by decide)
  · exact ⟨List.mem_cons_self, .inr rfl, .inr (.inl ⟨.inl rfl, rfl⟩)⟩

/-- What WRITE_ENTRY answers fits the table. -/
theorem State.onWriteEntry_fitsTable (s : State) (r : Request) : (s.onWriteEntry r).FitsTable 2 s := by
  have plain {x : Status} (hx : x ∈ statusesOf 2) (h : s.store.writeReply r = ⟨x, {}⟩) :
      (s.onWriteEntry r).FitsTable 2 s :=
    (Answer.plain_of_reply h hx fun hd => State.onWriteEntry_keeps (by rw [h]; exact fun he => hd (.inl he))).fitsTable
      (List.Subset.refl _)
  obtain ⟨-, h⟩ | ⟨-, ⟨x, hx, h⟩ | ⟨w, h⟩⟩ := s.store.writeReply_cases r
  · exact plain (by decide) h
  · exact plain ((by decide : [Status.ok, .activeBank, .swapPending, .busy] ⊆ statusesOf 2) hx) h
  · have hr : (s.onWriteEntry r).reply = ⟨.range, { w0 := w }⟩ := h
    refine ⟨?_, .inr (State.onWriteEntry_keeps (by rw [h]; exact Status.noConfusion)), ?_⟩ <;> rw [hr]
    · exact (by decide : Status.range ∈ statusesOf 2)
    · exact .inr (.inr (.inl ⟨rfl, rfl, rfl, rfl, rfl⟩))

/-- What COPY_BANK answers is plain. -/
theorem State.onCopyBank_plain (s : State) : s.onCopyBank.Plain s [.accepted, .swapPending, .busy] := by
  obtain ⟨x, hx, h⟩ := s.store.copyReply_cases
  exact Answer.plain_of_reply h hx fun hd => State.onCopyBank_keeps (by rw [h]; exact fun he => hd (.inr (.inl he)))

/-- What SWAP_BANKS answers fits the table. -/
theorem State.onSwapBanks_fitsTable (s : State) : s.onSwapBanks.FitsTable 4 s := by
  obtain ⟨x, hx, h⟩ | ⟨x, hx, g, h⟩ := s.swapReply_cases
  · have hp : s.onSwapBanks.Plain s [.accepted, .swapPending, .busy] :=
      Answer.plain_of_reply h hx fun hd =>
        State.onSwapBanks_keeps (by rw [h]; exact fun he => hd (.inr (.inl he)))
    exact hp.fitsTable (by decide)
  · have hr : s.onSwapBanks.reply = refuseSwap x g := h
    have hne : x ≠ .accepted := fun he => absurd (he ▸ hx) (by decide)
    refine ⟨?_, .inr (State.onSwapBanks_keeps (by rw [h]; exact hne)), ?_⟩ <;> rw [hr]
    · exact (by decide : [Status.curveOrder, .limits, .pairConflict, .structure'] ⊆ statusesOf 4) hx
    · exact .inr (.inr (.inr ⟨rfl, hx, rfl, rfl⟩))

/-! ### Status groups -/

/-- The groups 0 to 7 are groups of every channel. -/
theorem State.chanGroup_some (s : State) (c : Chan) {i : Nat} (h : i ≤ 7) : ∃ g, s.chanGroup c i = some g := by
  interval_cases i <;> exact ⟨_, rfl⟩

/-- The groups 0 to 7 are groups of the device. -/
theorem State.devGroup_some (s : State) {i : Nat} (h : i ≤ 7) : ∃ g, s.devGroup i = some g := by
  interval_cases i <;> exact ⟨_, rfl⟩

/-- READ_STATUS answers OK with a group, or refuses the target. -/
theorem State.onReadStatus_cases (s : State) (r : Request) :
    (∃ g, s.onReadStatus r = ⟨⟨.ok, g⟩, s⟩) ∨ s.onReadStatus r = s.refuse .badTarget := by
  unfold State.onReadStatus State.statusReply
  dsimp only
  split
  · exact .inl ⟨_, rfl⟩
  · exact .inr rfl

/-- What READ_STATUS answers fits the table. -/
theorem State.onReadStatus_fitsTable (s : State) (r : Request) : (s.onReadStatus r).FitsTable 6 s := by
  obtain ⟨g, h⟩ | h := s.onReadStatus_cases r <;> rw [h]
  · exact ⟨List.mem_cons_self, .inl (.inl rfl), .inr (.inl ⟨.inr rfl, rfl⟩)⟩
  · exact (State.refuse_plain (List.mem_singleton_self _)).fitsTable (by decide)

/-- READ_STATUS refuses a target that is neither a channel nor the device (R190). -/
theorem State.onReadStatus_refused (s : State) (h : ¬(r.target.toNat ≤ 7 ∨ r.target.toNat = 255)) :
    s.onReadStatus r = s.refuse .badTarget := by
  obtain ⟨hc, hd⟩ := not_or.mp h
  rw [State.onReadStatus, State.statusReply, if_neg (mt target_eq_device_iff.mp hd), chanOf_eq_none hc]
  rfl

/-- READ_STATUS of a channel or the device answers a group that both have. -/
theorem State.onReadStatus_status (s : State) (h : r.target.toNat ≤ 7 ∨ r.target.toNat = 255)
    (hi : r.groupIndex ≤ 7) : (s.onReadStatus r).reply.status = .ok := by
  unfold State.onReadStatus State.statusReply
  obtain h | h := h
  · obtain ⟨c, hc⟩ := chanOf_eq_some h
    obtain ⟨g, hg⟩ := s.chanGroup_some c hi
    rw [if_neg (mt target_eq_device_iff.mp (by omega)), hc, Option.bind_some, hg]
  · obtain ⟨g, hg⟩ := s.devGroup_some hi
    rw [if_pos (target_eq_device_iff.mpr h), hg]

/-! ### Requests to the device -/

/-- CONFIGURE refuses every target but the device (R190). -/
theorem State.onConfigure_refused (s : State) (h : r.target.toNat ≠ 255) : s.onConfigure r = s.refuse .badTarget :=
  if_pos (mt target_eq_device_iff.mp h)

/-- What CONFIGURE answers to the device target is plain. -/
theorem State.onConfigure_plain (s : State) (h : r.target.toNat = 255) :
    (s.onConfigure r).Plain s [.ok, .range, .state] := by
  rw [State.onConfigure, if_neg (not_not_intro (target_eq_device_iff.mpr h))]
  split
  · exact State.refuse_plain (by decide)
  split
  · exact State.refuse_plain (by decide)
  · exact Answer.plain_of_done (by decide) (by decide)

/-- RESTART refuses every target but the device (R190). -/
theorem State.onRestart_refused (s : State) (h : r.target.toNat ≠ 255) : s.onRestart r = s.refuse .badTarget :=
  if_pos (mt target_eq_device_iff.mp h)

/-- What RESTART answers to the device target is plain. -/
theorem State.onRestart_plain (s : State) (h : r.target.toNat = 255) : (s.onRestart r).Plain s [.ok] := by
  rw [State.onRestart, if_neg (not_not_intro (target_eq_device_iff.mpr h))]
  exact Answer.plain_of_done (by decide) (by decide)

/-! ### Requests to a channel -/

/-- ENABLE refuses a target that is no channel (R190). -/
theorem State.onEnable_refused (s : State) (h : ¬r.target.toNat ≤ 7) : s.onEnable r = s.refuse .badTarget := by
  rw [State.onEnable, chanOf_eq_none h]

/-- What ENABLE answers to a channel target is plain. -/
theorem State.onEnable_plain (s : State) (h : r.target.toNat ≤ 7) :
    (s.onEnable r).Plain s [.accepted, .state, .noParams, .paired, .flags] := by
  obtain ⟨c, hc⟩ := chanOf_eq_some h
  simp only [State.onEnable, hc]
  split
  · exact State.refuse_plain (by decide)
  split
  · exact State.refuse_plain (by decide)
  split
  · exact State.refuse_plain (by decide)
  split
  · exact State.refuse_plain (by decide)
  · exact Answer.plain_of_done (by decide) (by decide)

/-- DISABLE refuses a target that is no channel (R190). -/
theorem State.onDisable_refused (s : State) (h : ¬r.target.toNat ≤ 7) : s.onDisable r = s.refuse .badTarget := by
  rw [State.onDisable, chanOf_eq_none h]

/-- What DISABLE answers to a channel target is plain. -/
theorem State.onDisable_plain (s : State) (h : r.target.toNat ≤ 7) :
    (s.onDisable r).Plain s [.ok, .accepted, .state, .paired] := by
  obtain ⟨c, hc⟩ := chanOf_eq_some h
  simp only [State.onDisable, hc]
  split
  · exact State.refuse_plain (by decide)
  cases s.st c with
  | charge | run | hold => exact Answer.plain_of_done (by decide) (by decide)
  | off | stopping | trip => exact State.refuse_plain (by decide)

/-- ACK refuses a target that is neither a channel nor the device (R190). -/
theorem State.onAck_refused (s : State) (h : ¬(r.target.toNat ≤ 7 ∨ r.target.toNat = 255)) :
    s.onAck r = s.refuse .badTarget := by
  obtain ⟨hc, hd⟩ := not_or.mp h
  rw [State.onAck, if_neg (mt target_eq_device_iff.mp hd), chanOf_eq_none hc]

/-- The status of an ACK is no refusal. -/
theorem ackStatus_cases (still : Bool) : ackStatus still = .ok ∨ ackStatus still = .stillActive := by
  cases still
  · exact .inl rfl
  · exact .inr rfl

/-- An answer with the status of an ACK is plain. -/
theorem ackStatus_plain (still : Bool) (t : State) :
    Answer.Plain s [.ok, .stillActive] ⟨⟨ackStatus still, {}⟩, t⟩ := by
  obtain h | h := ackStatus_cases still <;> rw [h] <;> exact Answer.plain_of_done (by decide) (by decide)

/-- What ACK answers to a channel or the device is plain. -/
theorem State.onAck_plain (s : State) (h : r.target.toNat ≤ 7 ∨ r.target.toNat = 255) :
    (s.onAck r).Plain s [.ok, .stillActive] := by
  unfold State.onAck
  split
  · exact ackStatus_plain _ _
  · next hd =>
    obtain ⟨c, hc⟩ := chanOf_eq_some (h.resolve_right (mt target_eq_device_iff.mpr hd))
    simp only [hc]
    exact ackStatus_plain _ _

/-- SET_COUNT refuses a target that is no channel (R190). -/
theorem State.onSetCount_refused (s : State) (h : ¬r.target.toNat ≤ 7) : s.onSetCount r = s.refuse .badTarget := by
  rw [State.onSetCount, chanOf_eq_none h]

/-- What SET_COUNT answers to a channel target is plain. -/
theorem State.onSetCount_plain (s : State) (h : r.target.toNat ≤ 7) :
    (s.onSetCount r).Plain s [.ok, .range, .state] := by
  obtain ⟨c, hc⟩ := chanOf_eq_some h
  simp only [State.onSetCount, hc]
  split
  · exact State.refuse_plain (by decide)
  split
  · exact State.refuse_plain (by decide)
  · exact Answer.plain_of_done (by decide) (by decide)

/-- ARM_INDEX refuses a target that is no channel (R190). -/
theorem State.onArmIndex_refused (s : State) (h : ¬r.target.toNat ≤ 7) : s.onArmIndex r = s.refuse .badTarget := by
  rw [State.onArmIndex, chanOf_eq_none h]

/-- What ARM_INDEX answers to a channel target is plain. -/
theorem State.onArmIndex_plain (s : State) (h : r.target.toNat ≤ 7) : (s.onArmIndex r).Plain s [.ok, .range] := by
  obtain ⟨c, hc⟩ := chanOf_eq_some h
  simp only [State.onArmIndex, hc]
  split
  · exact State.refuse_plain (by decide)
  · exact Answer.plain_of_done (by decide) (by decide)

/-! ### The decoder (R189, R191) -/

/-- An owner that refuses the targets outside its range and answers the others plainly fits the table. -/
theorem Answer.fitsTable_of_target {inside : Prop} (hin : inside → a.Plain s l) (hout : ¬inside → a = s.refuse .badTarget)
    (hl : l ⊆ statusesOf k) (ht : .badTarget ∈ statusesOf k) : a.FitsTable k s := by
  by_cases h : inside
  · exact (hin h).fitsTable hl
  · rw [hout h]
    exact (State.refuse_plain ht).fitsTable (List.Subset.refl _)

/-- The table gives a kind outside 1..12 the status BAD_KIND alone. -/
theorem badKind_mem_statusesOf (h : k.toNat = 0 ∨ 12 < k.toNat) : .badKind ∈ statusesOf k := by
  unfold statusesOf
  obtain h | h := h
  · rw [h]
    exact List.mem_singleton_self _
  · obtain ⟨n, hn⟩ : ∃ n, k.toNat = n + 13 := ⟨k.toNat - 13, by omega⟩
    rw [hn]
    exact List.mem_singleton_self _

/-- Every answer of the decoder fits the table: each kind's owner answers by it, and a kind without owner is BAD_KIND. -/
theorem State.onRequest_fitsTable (s : State) (k : Byte) (r : Request) : (s.onRequest k r).FitsTable k s := by
  unfold State.onRequest
  split
  · next hk =>
    obtain rfl : k = 1 := BitVec.eq_of_toNat_eq hk
    exact s.onReadEntry_fitsTable r
  · next hk =>
    obtain rfl : k = 2 := BitVec.eq_of_toNat_eq hk
    exact s.onWriteEntry_fitsTable r
  · next hk =>
    obtain rfl : k = 3 := BitVec.eq_of_toNat_eq hk
    exact s.onCopyBank_plain.fitsTable (by decide)
  · next hk =>
    obtain rfl : k = 4 := BitVec.eq_of_toNat_eq hk
    exact s.onSwapBanks_fitsTable
  · next hk =>
    obtain rfl : k = 5 := BitVec.eq_of_toNat_eq hk
    exact Answer.fitsTable_of_target s.onConfigure_plain s.onConfigure_refused (by decide) (by decide)
  · next hk =>
    obtain rfl : k = 6 := BitVec.eq_of_toNat_eq hk
    exact s.onReadStatus_fitsTable r
  · next hk =>
    obtain rfl : k = 7 := BitVec.eq_of_toNat_eq hk
    exact Answer.fitsTable_of_target s.onEnable_plain s.onEnable_refused (by decide) (by decide)
  · next hk =>
    obtain rfl : k = 8 := BitVec.eq_of_toNat_eq hk
    exact Answer.fitsTable_of_target s.onDisable_plain s.onDisable_refused (by decide) (by decide)
  · next hk =>
    obtain rfl : k = 9 := BitVec.eq_of_toNat_eq hk
    exact Answer.fitsTable_of_target s.onAck_plain s.onAck_refused (by decide) (by decide)
  · next hk =>
    obtain rfl : k = 10 := BitVec.eq_of_toNat_eq hk
    exact Answer.fitsTable_of_target s.onSetCount_plain s.onSetCount_refused (by decide) (by decide)
  · next hk =>
    obtain rfl : k = 11 := BitVec.eq_of_toNat_eq hk
    exact Answer.fitsTable_of_target s.onArmIndex_plain s.onArmIndex_refused (by decide) (by decide)
  · next hk =>
    obtain rfl : k = 12 := BitVec.eq_of_toNat_eq hk
    exact Answer.fitsTable_of_target s.onRestart_plain s.onRestart_refused (by decide) (by decide)
  · refine (State.refuse_plain (badKind_mem_statusesOf ?_)).fitsTable (List.Subset.refl _)
    simp only [imp_false] at *
    omega

/-- Settles O11, by the answer of each owner. -/
theorem repliesFollowTheStatusTable : Obligations.RepliesFollowTheStatusTable := by
  unfold Obligations.RepliesFollowTheStatusTable
  refine ⟨by decide, fun k r s => ?_⟩
  obtain ⟨status_mem, refusal_keeps, data_owned⟩ := s.onRequest_fitsTable k r
  exact ⟨status_mem, by simpa only [or_assoc] using refusal_keeps, data_owned⟩

/-! ### The target test (R190) -/

/-- A request at a station ready for its cell: its owner decides and acts, and the reply leaves in its slot (R180, R186). -/
theorem State.requested_of_ready (h : s.ready) (f : State → Answer) :
    s.cellOpened.requested k r f =
      (f s.started).after.sent (.cell (replyCell s.ring.address k r (f s.started).reply)) := by
  obtain ⟨normal, boundary⟩ := h
  have started_normal : ¬s.started.transparent = true := by
    rw [← State.cellOpened_boundary s boundary, State.cellOpened_transparent, normal]
    exact Bool.false_ne_true
  rw [State.cellOpened_boundary s boundary, State.requested, State.answered, if_neg started_normal]
  rfl

/-- A refused request at a station ready for its cell changes nothing but the ring port's slot (R190, R191). -/
theorem State.requested_of_refused {f : State → Answer} (h : s.ready) (hf : f s.started = s.started.refuse x) :
    s.cellOpened.requested k r f = { s with ring := s.repliedRing k r ⟨x, {}⟩ } := by
  rw [State.requested_of_ready h, hf]
  rfl

/-- The request to a station ready for its cell that its owner refuses for its target. -/
theorem outcome_of_badTarget {f : State → Answer} (h : s.ready) (hf : f s.started = s.started.refuse .badTarget) :
    (.next (s.cellOpened.requested k r f) : Host.Outcome State Fault Refusal) =
      .next { s with ring := s.repliedRing k r ⟨.badTarget, {}⟩ } :=
  congrArg _ (State.requested_of_refused h hf)

/-- READ_ENTRY of a valid group is not answered BAD_TARGET. -/
theorem State.onReadEntry_status_ne (s : State) (hv : validIndex r.table r.groupIndex = true) :
    (s.onReadEntry r).reply.status ≠ .badTarget := by
  unfold State.onReadEntry
  obtain ⟨hi, -⟩ | ⟨-, h | ⟨g, h⟩⟩ := s.store.readEntry_cases r
  · exact absurd (hv.symm.trans hi) (by decide)
  all_goals
    rw [h]
    exact Status.noConfusion

/-- WRITE_ENTRY of a valid group is not answered BAD_TARGET. -/
theorem State.onWriteEntry_status_ne (s : State) (hv : validIndex r.table r.groupIndex = true) :
    (s.onWriteEntry r).reply.status ≠ .badTarget := by
  unfold State.onWriteEntry
  obtain ⟨hi, -⟩ | ⟨-, ⟨x, hx, h⟩ | ⟨w, h⟩⟩ := s.store.writeReply_cases r
  · exact absurd (hv.symm.trans hi) (by decide)
  · rw [h]
    exact fun he => absurd (show x = .badTarget from he) (ne_of_mem_of_not_mem hx (by decide))
  · rw [h]
    exact Status.noConfusion

/-- Settles O12: each owner refuses the targets outside its range, and its plain answers to the others have no BAD_TARGET. -/
theorem targetTest : Obligations.TargetTest := by
  unfold Obligations.TargetTest
  intro r s ready
  refine ⟨fun h => ⟨?_, ?_, ?_, ?_⟩, fun h hd => ⟨?_, ?_⟩, fun h => ⟨?_, ?_⟩, fun h => ⟨?_, ?_, ?_, ?_⟩,
    fun h => ⟨?_, fun hi => ?_⟩, fun h => ⟨?_, ?_⟩, fun x => ⟨?_, ?_, rfl, rfl⟩, request_bank_eq r, request_table_eq r,
    fun hv => ⟨s.onReadEntry_status_ne hv, s.onWriteEntry_status_ne hv⟩⟩
  · exact outcome_of_badTarget ready (State.onEnable_refused _ (not_le.mpr h))
  · exact outcome_of_badTarget ready (State.onDisable_refused _ (not_le.mpr h))
  · exact outcome_of_badTarget ready (State.onSetCount_refused _ (not_le.mpr h))
  · exact outcome_of_badTarget ready (State.onArmIndex_refused _ (not_le.mpr h))
  · exact outcome_of_badTarget ready (State.onReadStatus_refused _ (not_or.mpr ⟨not_le.mpr h, hd⟩))
  · exact outcome_of_badTarget ready (State.onAck_refused _ (not_or.mpr ⟨not_le.mpr h, hd⟩))
  · exact outcome_of_badTarget ready (State.onConfigure_refused _ h)
  · exact outcome_of_badTarget ready (State.onRestart_refused _ h)
  · exact (s.onEnable_plain h).status_ne (by decide)
  · exact (s.onDisable_plain h).status_ne (by decide)
  · exact (s.onSetCount_plain h).status_ne (by decide)
  · exact (s.onArmIndex_plain h).status_ne (by decide)
  · exact (s.onAck_plain h).status_ne (by decide)
  · rw [s.onReadStatus_status h hi]
    exact Status.noConfusion
  · exact (s.onConfigure_plain h).status_ne (by decide)
  · exact (s.onRestart_plain h).status_ne (by decide)
  · exact s.onCopyBank_plain.status_ne (by decide)
  · exact s.onSwapBanks_fitsTable.status_ne (by decide)

end Sys2Proof.Machine
end

