-- ==== Sys2Proof/Proofs/TimebaseRanges.lean ====
section
/-! The ranges of the timebase through each of its own changes (R77, R78, R81, R82, R97 to R102). -/

namespace Sys2Proof.Machine

/-- The ranges of the settings as bounds (4-3). -/
theorem Settings.sound_iff (x : Settings) : x.sound ↔
    x.d ≤ 255 ∧ (2000 ≤ x.p ∧ x.p ≤ 32767) ∧ (1 ≤ x.n ∧ x.n ≤ 8) ∧ x.qt ≤ 65535 ∧
      (1 ≤ x.lockWindow ∧ x.lockWindow ≤ 1000) ∧ x.slewMax ≤ 16 ∧ 2 ≤ x.lossLimit ∧ x.lossLimit ≤ 255 := by
  simp [Settings.sound, Settings.inRange, Machine.inRange, and_assoc]

/-- A value clamped to a limit is no larger than the limit. -/
theorem clampTo_natAbs_le (l : Nat) (x : Int) : (clampTo l x).natAbs ≤ l := by
  unfold clampTo clampIn
  omega

namespace Timebase

variable {t : Timebase}

/-- Settings that pass CONFIGURE's ranges leave the timebase sound (R82, R83). -/
theorem configured_sound (h : t.sound) {x : Settings} (hx : x.sound) : (t.configured x).sound := by
  obtain ⟨set, pend, counter, low, high, index, corr, left, acquire, loss⟩ := h
  rw [Settings.sound_iff] at set hx
  have newSet : Settings.sound
      { t.set with qt := x.qt, lockWindow := x.lockWindow, slewMax := x.slewMax, lossLimit := x.lossLimit } :=
    (Settings.sound_iff _).mpr (by dsimp only; omega)
  have newPend : ∀ y ∈ (if x.d = t.set.d ∧ x.p = t.set.p ∧ x.n = t.set.n then none
      else some (⟨x.d, x.p, x.n⟩ : PendingSettings)), y.sound := by
    intro y hy
    split at hy
    · cases hy
    · cases hy
      unfold PendingSettings.sound
      dsimp only
      omega
  unfold configured
  dsimp only
  split
  · exact ⟨newSet, newPend, counter, low, high, index, corr, left, acquire, loss⟩
  · exact ⟨newSet, newPend, counter, low, high, index, corr, left, Nat.zero_le _, loss⟩

/-- Pending settings in effect (R82). -/
theorem applyPending_sound (h : t.sound) {x : PendingSettings} (hx : x.sound) : (t.atValley.applyPending x).sound := by
  obtain ⟨set, pend, counter, low, high, index, corr, left, acquire, loss⟩ := h
  rw [Settings.sound_iff] at set
  unfold PendingSettings.sound at hx
  refine ⟨(Settings.sound_iff _).mpr ?_, ?_, ?_⟩ <;> simp [applyPending, atValley] <;> omega

/-- The next period of the ring cycle (R77). -/
theorem nextPeriod_sound (h : t.sound) : t.atValley.nextPeriod.sound := by
  obtain ⟨set, pend, counter, low, high, index, corr, left, acquire, loss⟩ := h
  have n_pos := ((Settings.sound_iff _).mp set).2.2.1
  unfold nextPeriod
  split
  · next hn => exact ⟨set, pend, Nat.zero_le _, low, high, hn, corr, left, acquire, loss⟩
  · exact ⟨set, pend, Nat.zero_le _, low, high, n_pos.1, corr, left, acquire, loss⟩

/-- The ring-loss count and mark (R102). -/
theorem lossAtValley_sound (h : t.sound) : t.lossAtValley.sound := by
  obtain ⟨set, pend, counter, low, high, index, corr, left, acquire, loss⟩ := h
  have risen : satSucc 255 t.lossCount ≤ 255 := Nat.min_le_left _ _
  unfold lossAtValley
  dsimp only
  split
  · exact ⟨set, pend, counter, low, high, index, Nat.zero_le _, Nat.zero_le _, Nat.zero_le _, risen⟩
  · exact ⟨set, pend, counter, low, high, index, corr, left, acquire, risen⟩

/-- The crest value of the period that a valley opens (R78). -/
theorem openPeriod_sound (h : t.sound) (hc : t.counter = 0) : t.openPeriod.sound := by
  obtain ⟨set, pend, counter, low, high, index, corr, left, acquire, loss⟩ := h
  have p_range := ((Settings.sound_iff _).mp set).2.1
  unfold openPeriod
  split
  · refine ⟨set, pend, ?_, ?_, ?_, index, ?_, ?_, acquire, loss⟩ <;> dsimp only
    all_goals omega
  · exact ⟨set, pend, hc ▸ Nat.zero_le _, Nat.le_add_right _ _, Nat.le_add_right _ _, index, corr, left, acquire, loss⟩

/-- The counter stands at 0 from a valley on, whatever the valley does besides. -/
theorem lossAtValley_counter : t.lossAtValley.counter = t.counter := by
  unfold lossAtValley
  dsimp only
  split <;> rfl

/-- A master valley (R77, R78, R82, R102). -/
theorem valley_sound (h : t.sound) : t.valley.sound := by
  unfold valley
  dsimp only
  split
  · next x hx =>
    exact openPeriod_sound (lossAtValley_sound (applyPending_sound h (h.2.1 x hx))) lossAtValley_counter
  · refine openPeriod_sound (lossAtValley_sound (nextPeriod_sound h)) (lossAtValley_counter.trans ?_)
    unfold nextPeriod
    split <;> rfl

/-- A slew stays within the slew limit (R100). -/
theorem slew_sound (h : t.sound) (e : Int) : (t.slew e).sound := by
  obtain ⟨set, pend, counter, low, high, index, corr, left, acquire, loss⟩ := h
  have ranges := (Settings.sound_iff _).mp set
  have bound := clampTo_natAbs_le t.set.slewMax (truncDiv e (2 * t.set.n))
  exact ⟨set, pend, counter, low, high, index, by dsimp only [slew]; omega, by dsimp only [slew]; omega, acquire, loss⟩

/-- The ACQUIRE count judged (R101). -/
theorem acquireJudged_sound (h : t.sound) (within : Bool) : (t.acquireJudged within).sound := by
  obtain ⟨set, pend, counter, low, high, index, corr, left, acquire, loss⟩ := h
  unfold acquireJudged
  split
  · split
    · next ha => exact ⟨set, pend, counter, low, high, index, corr, left, Nat.le_of_lt_succ ha, loss⟩
    · exact ⟨set, pend, counter, low, high, index, corr, left, Nat.zero_le _, loss⟩
  · exact ⟨set, pend, counter, low, high, index, corr, left, Nat.zero_le _, loss⟩

/-- Another lock state with its count at 0 (R97). -/
theorem relocked_sound (h : t.sound) (l : Lock) : ({ t with lock := l, acquire := 0 } : Timebase).sound := by
  obtain ⟨set, pend, counter, low, high, index, corr, left, acquire, loss⟩ := h
  exact ⟨set, pend, counter, low, high, index, corr, left, Nat.zero_le _, loss⟩

/-- The target lies in the ring cycle (R81). -/
theorem target_lt (h : t.set.sound) : t.set.target < 2 * t.set.p * t.set.n := by
  have ranges := (Settings.sound_iff _).mp h
  have length : t.set.cycleLength = 2 * t.set.p * t.set.n := Nat.mul_right_comm 2 t.set.n t.set.p
  exact length ▸ Nat.mod_lt _ (length ▸ Nat.mul_pos (by omega) (by omega))

/-- A hard realign (R99). -/
theorem realign_sound (h : t.sound) : t.realign.sound := by
  obtain ⟨set, pend, counter, low, high, index, corr, left, acquire, loss⟩ := h
  have ranges := (Settings.sound_iff _).mp set
  have x_lt : t.set.target % (2 * t.set.p) < 2 * t.set.p := Nat.mod_lt _ (by omega)
  refine ⟨set, pend, ?_, Nat.le_add_right _ _, Nat.le_add_right _ _, ?_, Nat.zero_le _, Nat.zero_le _, acquire, loss⟩
  · dsimp only [realign]
    split <;> omega
  · exact Nat.div_lt_of_lt_mul (target_lt set)

/-- The correction dropped (R78). -/
theorem uncorrected_sound (h : t.sound) : ({ t with corrLeft := 0, corr := 0 } : Timebase).sound := by
  obtain ⟨set, pend, counter, low, high, index, corr, left, acquire, loss⟩ := h
  exact ⟨set, pend, counter, low, high, index, Nat.zero_le _, Nat.zero_le _, acquire, loss⟩

/-- The first period of a ring cycle (R77). -/
theorem cycleStart_sound (h : t.sound) : ({ t.atValley with index := 0, pos := 0 } : Timebase).sound := by
  obtain ⟨set, pend, counter, low, high, index, corr, left, acquire, loss⟩ := h
  exact ⟨set, pend, Nat.zero_le _, low, high, Nat.zero_lt_of_lt index, corr, left, acquire, loss⟩

/-- The crest taken (R77). -/
theorem atCrest_sound (h : t.sound) : t.atCrest.sound := by
  obtain ⟨set, pend, counter, low, high, index, corr, left, acquire, loss⟩ := h
  exact ⟨set, pend, Nat.le_refl _, low, high, index, corr, left, acquire, loss⟩

/-- The ring loss ended (R102). -/
theorem lossEnded_sound (h : t.sound) : ({ t with lossCount := 0, lossMark := false } : Timebase).sound := by
  obtain ⟨set, pend, counter, low, high, index, corr, left, acquire, loss⟩ := h
  exact ⟨set, pend, counter, low, high, index, corr, left, acquire, Nat.zero_le _⟩

/-- Ticks short of the turning point (R77). -/
theorem moved_sound (h : t.sound) {n : Nat} (hn : n ≤ t.left) : (t.moved n).sound := by
  obtain ⟨set, pend, counter, low, high, index, corr, left, acquire, loss⟩ := h
  refine ⟨set, pend, ?_, low, high, index, corr, left, acquire, loss⟩
  unfold Timebase.left at hn
  dsimp only [moved]
  split <;> simp_all <;> omega

end Timebase

end Sys2Proof.Machine
end

