-- ==== Sys2Proof/Proofs/StepChanges.lean ====
section
/-! What a step can do: one relation of small changes of the part, and the proof that every command and every tick is a run of
them. An invariant of the part is proved of each change once, and so holds of every step. -/

namespace Sys2Proof.Machine

/-! ### The changes -/

/-- The part after POWER_ON with these strap levels. -/
def State.poweredOn (straps : BitVec 5) (s : State) : State :=
  { State.reset with
    pending := s.pending
    free := s.free
    ring := { address := straps }
    tb := { inh := s.tb.inh.poweredOn }
    pos := PerChan.ofFn fun c => (s.pos.get c).poweredOn }

/-- A pending swap takes the shadow for the active bank; BANK_SWAP_DONE is still to be raised (R111, R124, R175). -/
def State.exchanged (s : State) : State :=
  { s with
    store := s.store.swapped
    sup := PerChan.ofFn (s.pairedSup s.shadow)
    pos := PerChan.ofFn fun c =>
      (s.pos.get c).newCpr (s.record c).effectiveCpr (s.shadow.record c).effectiveCpr }

/-- One of the small changes that steps are made of. A change with a condition says what the blocks it writes keep; with
`a` (for "arbitrating") clear, no change frees the engine before a waiting entry or lets one wait before a free engine. -/
inductive Change (a : Bool) (s : State) : State → Prop
  /-- The number of the free values, the lanes, the loop state, the references and the pair runtimes. -/
  | beside (n : Nat) (la : PerChan Lane) (lo : PerChan LoopChan) (re : PerChan Reference)
      (pa : Vector PairRuntime 4) :
      Change a s { s with free := n, lanes := la, loop := lo, refs := re, pairs := pa }
  | ring (r : RingPort) (h : s.cellSound → State.cellSound { s with ring := r }) : Change a s { s with ring := r }
  | engine (e : Engine) (h : s.queueSound → State.queueSound { s with engine := e })
      (hs : a = false → s.engineSettled → State.engineSettled { s with engine := e }) : Change a s { s with engine := e }
  | timebase (f : Timebase → Timebase) (hi : (f s.tb).inh = s.tb.inh) (hs : s.tb.sound → (f s.tb).sound) :
      Change a s (s.mapTb f)
  | glide (n : Nat) (h : n ≤ s.tb.left) : Change a s (s.glide n)
  /-- INH_N has another filter, but has not gone low. -/
  | inhibit (f : Filter) (h : f.level = some false → s.tb.inh.level = some false) : Change a s (s.setInh f)
  /-- INH_N has gone low and darkens every gate. -/
  | inhibitLow (f : Filter) : Change a s (s.setInh f).allLinesOff
  | settle : Change a s s.settleGates
  | raiseChan (k : ChanKind) (c : Chan) : Change a s (s.raiseChan k c)
  | raiseDev (k : DevKind) : Change a s (s.raiseDev k)
  | keepChan (l : ChanLevel) (c : Chan) (x : Bool) : Change a s (s.keepChan l c x)
  | keepDev (l : DevLevel) (x : Bool) : Change a s (s.keepDev l x)
  | ackChan (c : Chan) (f : ChanKind → Bool) : Change a s (s.ackChan c f)
  | ackDev (f : DevKind → Bool) : Change a s (s.ackDev f)
  | judgeLines : Change a s s.judgeLines
  | judgeExit : Change a s s.judgeExit
  | judgeRouted : Change a s s.judgeRouted
  | position (v : PerChan Position)
      (h : ∀ c, (s.pos.get c).fine < (s.record c).effectiveCpr → (v.get c).fine < (s.record c).effectiveCpr) :
      Change a s { s with pos := v }
  /-- Modulators change, but no gate state and no gate line. -/
  | modulators (v : PerChan Modulator)
      (h : ∀ c, (v.get c).drive = (s.mods.get c).drive ∧ (v.get c).pa = (s.mods.get c).pa ∧
        (v.get c).pb = (s.mods.get c).pb ∧ (v.get c).pc = (s.mods.get c).pc) : Change a s { s with mods := v }
  /-- Marks and missed counts of supervisors change, and causes alike in every channel. -/
  | supervisors (v : PerChan Supervisor) (g : Causes → Causes) (hg : g {} = {})
      (h : ∀ c, (v.get c).st = s.st c ∧ (v.get c).causes = g (s.sup.get c).causes ∧
        (v.get c).chargeCount = (s.sup.get c).chargeCount) : Change a s { s with sup := v }
  | enterCharge (c : Chan) (h : s.st c = .off) : Change a s (s.enterCharge c)
  | enterStopping (c : Chan) (h : s.st c = .charge ∨ s.st c = .run ∨ s.st c = .hold) : Change a s (s.enterStopping c)
  | supervise (c : Chan) : Change a s (s.superviseOne c)
  | takeReported (c : Chan) : Change a s (s.unitSup c Supervisor.takeReported)
  | store (x : Store) (hb : State.bank { s with store := x } = s.bank)
      (hc : s.banksChecked → State.banksChecked { s with store := x }) : Change a s { s with store := x }
  | swap (hp : s.store.swapPending = true) (hs : s.structureFault = none) : Change a s s.exchanged
  | restart : Change a s s.restartBlocks
  | powerOn (straps : BitVec 5) : Change a s (s.poweredOn straps)

/-- A run of small changes. -/
abbrev Changes (a : Bool) : State → State → Prop := Relation.ReflTransGen (Change a)

/-- What every small change keeps, a run of them keeps. -/
theorem Changes.keep {a : Bool} {q : State → Prop} (h : ∀ s t, Change a s t → q s → q t) {s t : State} (hc : Changes a s t) (hs : q s) :
    q t := by
  induction hc with
  | refl => exact hs
  | tail _ last ih => exact h _ _ last ih

variable {a : Bool} {s t u : State}

theorem Change.one (h : Change a s t) : Changes a s t := Relation.ReflTransGen.single h

theorem Changes.rfl : Changes a s s := Relation.ReflTransGen.refl

/-- A choice between two runs of changes is a run of changes. -/
theorem Changes.ite {p : Prop} [Decidable p] (h1 : p → Changes a s t) (h2 : ¬p → Changes a s u) :
    Changes a s (if p then t else u) := by
  split
  · next h => exact h1 h
  · next h => exact h2 h

/-- A fold of runs of changes is a run of changes. -/
theorem Changes.fold {α : Type} {f : State → α → State} (h : ∀ x y, Changes a x (f x y)) (l : List α) (s : State) :
    Changes a s (l.foldl f s) :=
  fold_invariant (q := Changes a s) (fun x y hx => hx.trans (h x y)) l .refl

/-- A repeated run of changes is a run of changes. -/
theorem Changes.repeat {f : State → State} (h : ∀ x, Changes a x (f x)) (n : Nat) (s : State) : Changes a s (Nat.repeat f n s) :=
  repeat_invariant (q := Changes a s) (fun x hx => hx.trans (h x)) n .refl

/-! ### Raises, conditions and acknowledgement -/

variable (s : State)

theorem changes_raiseChanIf (b : Bool) (k : ChanKind) (c : Chan) : Changes a s (s.raiseChanIf b k c) :=
  .ite (fun _ => (Change.raiseChan k c).one) fun _ => .rfl

theorem changes_deliverChan (l : ChanLevel) (c : Chan) (x : Bool) : Changes a s (s.deliverChan l c x) :=
  have kept := (Change.keepChan (a := a) (s := s) l c x).one
  .ite (fun _ => kept.tail (.raiseChan l.kind c)) fun _ => kept

theorem changes_deliverDev (l : DevLevel) (x : Bool) : Changes a s (s.deliverDev l x) :=
  have kept := (Change.keepDev (a := a) (s := s) l x).one
  .ite (fun _ => kept.tail (.raiseDev l.kind)) fun _ => kept

theorem changes_afterAck : Changes a s s.afterAck :=
  ((Change.judgeLines (a := a) (s := s)).one.tail .judgeExit).tail .judgeRouted

/-! ### Inputs and ticks -/

theorem changes_inhTick (f : Filter) : Changes a s (s.inhTick f) := by
  unfold State.inhTick
  split
  · next h => exact (Change.inhibit f h.symm.trans).one
  · split
    · exact (Change.inhibitLow (a := a) (s := s) f).one.trans (changes_deliverDev _ _ _)
    · next hl _ =>
      have up := (Change.inhibit (a := a) (s := s) f fun hf => by simp [hl] at hf).one
      exact (up.trans (changes_deliverDev _ _ _)).tail .settle
    · next hl _ => exact (Change.inhibit f fun hf => (hl hf).elim).one

/-- A position counter written whose fine count stays below the effective cpr. -/
theorem changes_setPos (c : Chan) (p : Position)
    (h : (s.pos.get c).fine < (s.record c).effectiveCpr → p.fine < (s.record c).effectiveCpr) : Changes a s (s.setPos c p) := by
  refine (Change.position (a := a) (s := s) (s.pos.set c p) fun d hd => ?_).one
  rw [PerChan.get_set]
  split
  · next e => subst e; exact h hd
  · exact hd

/-- A position counter written with its fine count as it was. -/
theorem changes_setPos_of_fine (c : Chan) {p : Position} (h : p.fine = (s.pos.get c).fine) : Changes a s (s.setPos c p) :=
  changes_setPos s c p fun hp => h ▸ hp

/-- A step up stays below the cpr (R110). -/
theorem Position.stepUp_lt {p : Position} {cpr : Nat} (h : p.fine < cpr) : (p.stepUp cpr).fine < cpr := by
  unfold Position.stepUp
  split <;> dsimp only <;> omega

/-- A step down stays below the cpr (R110). -/
theorem Position.stepDown_lt {p : Position} {cpr : Nat} (h : p.fine < cpr) : (p.stepDown cpr).fine < cpr := by
  unfold Position.stepDown
  split <;> dsimp only <;> omega

theorem changes_decodeStep (c : Chan) (changed : Bool) : Changes a s (s.decodeStep c changed) := by
  unfold State.decodeStep
  dsimp only
  split
  · split
    · exact changes_setPos_of_fine s c (rfl)
    · split
      · split
        · exact changes_setPos s c _ fun h => Position.stepUp_lt h
        · exact changes_setPos s c _ fun h => Position.stepDown_lt h
        · exact changes_setPos_of_fine s c (rfl)
        · refine .trans ?_ (changes_raiseChanIf _ _ _ _)
          exact changes_setPos_of_fine s c (rfl)
      · exact .rfl
  · exact .rfl

theorem changes_indexEdge (c : Chan) : Changes a s (s.indexEdge c) := by
  unfold State.indexEdge
  dsimp only
  split
  · exact .rfl
  · split
    · exact .ite (fun _ => changes_setPos_of_fine s c (rfl)) fun _ => .rfl
    · refine .trans ?_ (changes_raiseChanIf _ _ _ _)
      exact changes_setPos_of_fine s c (rfl)
    · exact .rfl

theorem changes_encoderTick (c : Chan) (fa fb fz : Filter) (b : Bool) : Changes a s (s.encoderTick c fa fb fz b) := by
  have set : Changes a s (s.setPos c { s.pos.get c with fa := fa, fb := fb, fz := fz }) :=
    changes_setPos_of_fine s c (rfl)
  unfold State.encoderTick
  dsimp only
  split
  · exact .ite (fun _ => (set.trans (changes_indexEdge _ _)).trans (changes_decodeStep _ _ _))
      fun _ => (set.trans (changes_decodeStep _ _ _)).trans (changes_indexEdge _ _)
  · exact set.trans (changes_decodeStep _ _ _)

theorem changes_takeInputs : Changes a s s.takeInputs :=
  State.takeInputs_keeps (q := Changes a s) (fun x f h => h.trans (changes_inhTick x f))
    (fun x h => h.tail (.beside (x.free + 1) x.lanes x.loop x.refs x.pairs))
    (fun x c fa fb fz b h => h.trans (changes_encoderTick x c fa fb fz b)) .refl

/-- The filter of INH_N is all that a change of INH_N does to the timebase. -/
theorem State.inhTick_tb (f : Filter) : (s.inhTick f).tb = { s.tb with inh := f } := by
  unfold State.inhTick
  split
  · rfl
  · split <;> simp [State.inhibitLow, State.inhibitHigh, State.setInh]

/-- The inputs of a tick change of the timebase the filter of INH_N alone. -/
theorem State.takeInputs_tb : s.takeInputs.tb = { s.tb with inh := s.takeInputs.tb.inh } := by
  refine State.takeInputs_keeps (q := fun x => x.tb = { s.tb with inh := x.tb.inh }) (fun x f h => ?_) (fun x h => h)
    (fun x c fa fb fz b h => ?_) rfl
  · rw [State.inhTick_tb, h]
  · rw [State.encoderTick_tb, ← h]

theorem Timebase.left_congr {t u : Timebase} (h : t = { u with inh := t.inh }) : t.left = u.left := by
  rw [h]; rfl

/-- Ticks short of the turning point bring it that much nearer (R77). -/
theorem Timebase.moved_left (t : Timebase) (n : Nat) : (t.moved n).left = t.left - n := by
  cases h : t.up <;> simp [Timebase.left, Timebase.moved, h]
  omega

theorem State.tick_left : s.tick.tb.left = s.tb.left - 1 :=
  (Timebase.left_congr (State.takeInputs_tb _)).trans (s.tb.moved_left 1)

theorem State.repeat_tick_left (n : Nat) : (Nat.repeat State.tick n s).tb.left = s.tb.left - n := by
  induction n with
  | zero => rfl
  | succ n ih => rw [Nat.repeat, State.tick_left, ih]; omega

theorem changes_ticks (n : Nat) (h : n ≤ s.tb.left) : Changes a s (Nat.repeat State.tick n s) := by
  induction n with
  | zero => exact .rfl
  | succ n ih =>
    have left := s.repeat_tick_left n
    exact ((ih (by omega)).tail (.glide 1 (by omega))).trans (changes_takeInputs _)

theorem changes_advance (n : Nat) (h : n ≤ s.tb.left) : Changes a s (s.advance n) := by
  unfold State.advance
  have left := s.repeat_tick_left (min 3 n)
  exact .ite (fun _ => (Change.glide n h).one) fun _ =>
    (changes_ticks s _ (by omega)).tail (.glide _ (by omega))

/-! ### Turning points -/

theorem changes_deliverLoss : Changes a s s.deliverLoss :=
  .ite (fun _ => changes_deliverDev _ _ _) fun _ => .rfl

/-- The check of a channel changes no gate state and no gate line. -/
theorem State.valleyCheck_mod (c : Chan) : (s.valleyCheck c).mod.drive = (s.mods.get c).drive ∧
    (s.valleyCheck c).mod.pa = (s.mods.get c).pa ∧ (s.valleyCheck c).mod.pb = (s.mods.get c).pb ∧
    (s.valleyCheck c).mod.pc = (s.mods.get c).pc := by
  unfold State.valleyCheck
  dsimp only
  split
  · split <;> exact ⟨rfl, rfl, rfl, rfl⟩
  · split <;> exact ⟨rfl, rfl, rfl, rfl⟩
  all_goals exact ⟨rfl, rfl, rfl, rfl⟩

/-- Entries changed leave no entry waiting before a free engine where none waited (R68). -/
theorem Engine.mapEntries_settled (f : Entry → Entry) :
    s.engineSettled → State.engineSettled { s with engine := s.engine.mapEntries f } :=
  Or.imp (fun h => by simpa [Engine.mapEntries] using h) fun h => by simp [Engine.mapEntries, h]

/-- Entries changed without another channel keep the bounds of the queue (R67). -/
theorem Engine.mapEntries_sound {f : Entry → Entry} (h : ∀ e, (f e).chan = e.chan) :
    s.queueSound → State.queueSound { s with engine := s.engine.mapEntries f } := by
  rintro ⟨len, nodup⟩
  have chans : ((s.engine.queue.map f).map fun e => e.chan) = s.engine.queue.map fun e => e.chan := by
    simp [h]
  exact ⟨(List.length_map f).trans_le len, chans ▸ nodup⟩

theorem changes_checkAll (f : Chan → Bool) : Changes a s (s.checkAll f) := by
  refine State.checkAll_keeps (q := Changes a s) s f ?_ fun x k c hx => hx.tail (.raiseChan k c)
  have mods : Change a s { s with mods := s.checkedMods f } := by
    refine .modulators _ fun c => ?_
    rw [State.checkedMods, PerChan.get_ofFn]
    split
    · exact s.valleyCheck_mod c
    · exact ⟨rfl, rfl, rfl, rfl⟩
  refine mods.one.tail (.engine (s := { s with mods := s.checkedMods f }) (s.checkedEngine f) ?_ fun _ => ?_)
  · exact Engine.mapEntries_sound (s := { s with mods := s.checkedMods f }) fun e => by split <;> rfl
  · exact Engine.mapEntries_settled (s := { s with mods := s.checkedMods f }) _

theorem changes_supervise (f : Chan → Bool) : Changes a s (s.supervise f) :=
  State.supervise_keeps (q := Changes a s) f (fun _ c h => h.tail (.supervise c)) .refl

theorem changes_strobeAll (f : Chan → Bool) : Changes a s (s.strobeAll f) := by
  have la := (Change.beside (a := a) (s := s) s.free (s.strobeAll f).lanes s.loop s.refs s.pairs).one
  have po := la.tail (.position (s.strobeAll f).pos fun c hc => by rw [State.strobeAll_pos_get]; split <;> exact hc)
  have mo := po.tail (.modulators (s.strobeAll f).mods fun c => by
    rw [State.strobeAll, PerChan.get_ofFn]; split <;> exact ⟨rfl, rfl, rfl, rfl⟩)
  exact mo.tail (.engine (s.engine.strobed f) (Engine.mapEntries_sound _ fun e => by split <;> rfl)
    fun _ => Engine.mapEntries_settled _ _)

theorem changes_channelValleys (f : Chan → Bool) : Changes a s (s.channelValleys f) :=
  (((changes_checkAll s f).trans (changes_supervise _ f)).trans (changes_strobeAll _ f)).tail .settle

/-- The filter of INH_N is none of the business of a master valley. -/
theorem Timebase.valley_inh (t : Timebase) : t.valley.inh = t.inh := by
  have loss : ∀ u : Timebase, u.lossAtValley.inh = u.inh := fun u => by
    unfold Timebase.lossAtValley; dsimp only; split <;> rfl
  have opened : ∀ u : Timebase, u.openPeriod.inh = u.inh := fun u => by unfold Timebase.openPeriod; split <;> rfl
  have next : ∀ u : Timebase, u.nextPeriod.inh = u.inh := fun u => by unfold Timebase.nextPeriod; split <;> rfl
  unfold Timebase.valley
  rw [opened, loss]
  split
  · rfl
  · exact next _

theorem changes_masterValley (b : Bool) : Changes a s (s.masterValley b) := by
  have turned := (Change.timebase (a := a) (s := s) Timebase.valley (Timebase.valley_inh _) Timebase.valley_sound).one.tail
    (.timebase (fun t => { t with shifted := PerChan.ofFn fun c => (State.record (s.mapTb Timebase.valley) c).shifted })
      rfl id)
  unfold State.masterValley
  dsimp only
  split
  · exact (turned.trans (changes_deliverLoss _)).trans (changes_channelValleys _ _)
  · exact (turned.trans (changes_channelValleys _ _)).trans (changes_deliverLoss _)

theorem changes_masterCrest : Changes a s s.masterCrest :=
  (Change.timebase (a := a) (s := s) Timebase.atCrest rfl Timebase.atCrest_sound).one.trans (changes_channelValleys _ _)

theorem changes_toTurn : Changes a s s.toTurn := changes_advance s _ (Nat.le_refl _)

theorem changes_takeTurn : Changes a s s.takeTurn :=
  .ite (fun _ => changes_masterCrest s) fun _ => changes_masterValley s _

theorem changes_tickOrTurn : Changes a s s.tickOrTurn := by
  unfold State.tickOrTurn
  split
  · exact changes_takeTurn s
  · next h =>
    have ticked := changes_advance (a := a) s 1 (Nat.pos_of_ne_zero h)
    exact .ite (fun _ => ticked.trans (changes_takeTurn _)) fun _ => ticked

/-! ### The store -/

theorem changes_trySwap : Changes a s s.trySwap := by
  unfold State.trySwap
  split
  · next h =>
    obtain ⟨hp, hs⟩ := Bool.and_eq_true_iff.mp h
    exact (Change.swap hp (Option.isNone_iff_eq_none.mp hs)).one.tail (.raiseDev .bankSwapDone)
  · exact .rfl

/-- The active bank stays where only the shadow is written. -/
theorem Store.bank_setBank_shadow (x : Store) (b : Bank) : (x.setBank x.shadowName b).bank x.active = x.bank x.active := by
  cases h : x.active <;> simp [Store.setBank, Store.shadowName, BankName.other, Store.bank, h]

/-- What is written to a bank stands there. -/
theorem Store.bank_setBank_self (x : Store) (n : BankName) (b : Bank) : (x.setBank n b).bank n = b := by
  cases n <;> rfl

/-- The state of a bank is no matter of its contents. -/
@[simp] theorem Store.bank_setState (x : Store) (n m : BankName) (y : BankState) : (x.setState n y).bank m = x.bank m := by
  cases n <;> cases m <;> rfl

@[simp] theorem Store.active_setBank (x : Store) (n : BankName) (b : Bank) : (x.setBank n b).active = x.active := by
  cases n <;> rfl

@[simp] theorem Store.active_setState (x : Store) (n : BankName) (y : BankState) : (x.setState n y).active = x.active := by
  cases n <;> rfl

@[simp] theorem Store.swapPending_setBank (x : Store) (n : BankName) (b : Bank) :
    (x.setBank n b).swapPending = x.swapPending := by
  cases n <;> rfl

@[simp] theorem Store.swapPending_setState (x : Store) (n : BankName) (y : BankState) :
    (x.setState n y).swapPending = x.swapPending := by
  cases n <;> rfl

@[simp] theorem Store.copy_setBank (x : Store) (n : BankName) (b : Bank) : (x.setBank n b).copy = x.copy := by
  cases n <;> rfl

@[simp] theorem Store.copy_setState (x : Store) (n : BankName) (y : BankState) : (x.setState n y).copy = x.copy := by
  cases n <;> rfl

/-- A store with the active bank as it was and no swap pending keeps the banks checked. -/
theorem changes_store {x : Store} (hb : State.bank { s with store := x } = s.bank) (hp : x.swapPending = false) :
    Changes a s { s with store := x } :=
  (Change.store x hb fun h => ⟨hb.symm ▸ h.1, fun hs => absurd (hp.symm.trans hs) (by decide)⟩).one

/-- WRITE_ENTRY answered OK finds no swap pending and no copy in progress (R164). -/
theorem Store.writeReply_ok {x : Store} {r : Request} (h : (x.writeReply r).status = .ok) :
    validIndex r.table r.groupIndex = true ∧ r.bank ≠ x.active ∧ x.swapPending = false ∧ x.copy = none := by
  unfold Store.writeReply at h
  split at h
  · cases h
  next hv =>
  split at h
  · cases h
  next hb =>
  split at h
  · cases h
  next hp =>
  split at h
  · cases h
  next hc => exact ⟨by simpa using hv, hb, by simpa using hp, by simpa using hc⟩

theorem changes_writeEntry (r : Request) : Changes a s { s with store := s.store.writeEntry r } := by
  unfold Store.writeEntry
  split
  · next h =>
    obtain ⟨-, -, no_swap, -⟩ := Store.writeReply_ok h
    refine changes_store s ?_ (by simpa [Store.written] using no_swap)
    simp [State.bank, Store.written, Store.bank_setBank_shadow]
  · exact .rfl

/-- COPY_BANK is accepted with no copy in progress and no swap pending (R166). -/
theorem Store.copyReply_accepted {x : Store} (h : x.copyReply.status = .accepted) :
    x.copy = none ∧ x.swapPending = false := by
  unfold Store.copyReply at h
  split at h
  · cases h
  next hc =>
  split at h
  · cases h
  next hp => exact ⟨by simpa using hc, by simpa using hp⟩

theorem changes_copyBank : Changes a s { s with store := s.store.copyBank } := by
  unfold Store.copyBank
  split
  · next h =>
    refine changes_store s ?_ ((Store.swapPending_setState _ _ _).trans (Store.copyReply_accepted h).2)
    exact (congrArg _ (Store.active_setState _ _ _)).trans (Store.bank_setState _ _ _ _)
  · exact .rfl

/-- A swap is accepted where no copy is in progress, none is pending and all four checks pass (R169). -/
theorem State.swapReply_accepted (h : s.swapReply.status = .accepted) :
    s.store.copy = none ∧ s.store.swapPending = false ∧ s.shadow.checked ∧ s.structureFault = none := by
  unfold State.swapReply at h
  split at h
  · cases h
  next hc =>
  split at h
  · cases h
  next hp =>
  unfold State.swapChecks at h
  split at h
  · cases h
  next curves =>
  split at h
  · cases h
  next limits =>
  split at h
  · cases h
  next pairs =>
  split at h
  · cases h
  next fault => exact ⟨by simpa using hc, by simpa using hp, ⟨curves, limits, pairs⟩, fault⟩

theorem changes_onSwapBanks : Changes a s s.onSwapBanks.after := by
  unfold State.onSwapBanks
  refine .ite (fun h => ?_) fun _ => .rfl
  obtain ⟨no_copy, -, checked, -⟩ := s.swapReply_accepted h
  exact (Change.store (a := a) (s := s) { s.store with swapPending := true } rfl fun hb => ⟨hb.1, fun _ => ⟨checked, no_copy⟩⟩).one

theorem changes_copyDone (h : s.store.copy.isSome = true) : Changes a s { s with store := s.store.copyDone } := by
  have same : State.bank { s with store := s.store.copyDone } = s.bank := by
    cases ha : s.store.active <;>
      simp [State.bank, Store.copyDone, Store.bank, Store.setBank, Store.setState, Store.shadowName, BankName.other, ha]
  refine (Change.store _ same fun hb => ⟨same.symm ▸ hb.1, fun hp => ?_⟩).one
  have pending : s.store.swapPending = true := by
    rw [← hp]; simp [Store.copyDone]
  exact absurd (hb.2 pending).2 (Option.isSome_iff_ne_none.mp h)

/-! ### SYNC arrivals -/

theorem changes_measureLock : Changes a s s.measureLock := by
  have slewed (e : Int) := (Change.timebase (a := a) (s := s) (fun t => t.slew e) rfl fun h => Timebase.slew_sound h e).one
  have relocked (x : State) (l : Lock) : Change a x (x.mapTb fun t => { t with lock := l, acquire := 0 }) :=
    .timebase _ rfl fun h => Timebase.relocked_sound h l
  unfold State.measureLock
  split
  · exact .rfl
  dsimp only
  split
  · refine (Changes.ite (fun _ => slewed _) fun _ => ?_).tail (relocked _ _)
    have realigned := (Change.timebase (a := a) (s := s) Timebase.realign rfl Timebase.realign_sound).one
    exact (realigned.tail (.beside s.free (State.clearExpected s).lanes s.loop s.refs s.pairs)).tail .settle
  · have judged (w : Bool) (t : Timebase) : (t.acquireJudged w).inh = t.inh := by
      unfold Timebase.acquireJudged
      split
      · split <;> rfl
      · rfl
    exact (slewed _).tail (.timebase (fun t => t.acquireJudged _) (judged _ _) fun h => Timebase.acquireJudged_sound h _)
  · exact .ite (fun _ => slewed _) fun _ => ((slewed _).tail (relocked _ _)).tail (.raiseDev _)

theorem changes_endLoss : Changes a s s.endLoss :=
  (Change.timebase (a := a) (s := s) _ rfl Timebase.lossEnded_sound).one.trans (changes_deliverDev _ _ _)

theorem changes_removeRing : Changes a s s.removeRing :=
  (Change.supervisors _ (fun x => { x with ring := false }) rfl fun c => by rw [PerChan.get_ofFn]; exact ⟨rfl, rfl, rfl⟩).one

theorem changes_judgeStaleness : Changes a s s.judgeStaleness := by
  have judged : Change a s { s with sup := s.judgedSup } :=
    .supervisors s.judgedSup id rfl fun c => by rw [State.judgedSup, PerChan.get_ofFn]; exact ⟨rfl, rfl, rfl⟩
  exact judged.one.trans (Changes.fold (fun x c => changes_raiseChanIf _ _ _ _) _ _)

theorem changes_syncActions : Changes a s s.syncActions :=
  (((changes_measureLock s).trans (changes_endLoss _)).trans (changes_removeRing _)).trans (changes_judgeStaleness _)

/-- The ring port changed without opening a cell. -/
theorem changes_ring {r : RingPort} (h : r.cell = none) : Changes a s { s with ring := r } :=
  (Change.ring r fun _ p hp => by simp [h] at hp).one

theorem changes_recordCycle (w : Word) : Changes a s (s.recordCycle w) :=
  (Change.ring (a := a) (s := s) { s.ring with lastCycle := w } id).one

theorem changes_syncNow (w : Word) (o : SyncOrder) : Changes a s (s.syncNow w o) := by
  have swapped (x : State) : Changes a x (x.syncWithSwap o.swapFirst) :=
    .ite (fun _ => (changes_trySwap x).trans (changes_syncActions _))
      fun _ => (changes_syncActions x).trans (changes_trySwap _)
  exact .ite (fun _ => (changes_recordCycle s w).trans (swapped _)) fun _ => (swapped s).trans (changes_recordCycle _ w)

/-! ### The ring port -/

theorem changes_sent (o : RingOut) : Changes a s (s.sent o) := changes_ring s rfl

theorem changes_cut : Changes a s s.cut :=
  .ite (fun _ => changes_ring s rfl) fun _ => (Change.raiseDev (a := a) (s := s) .cellCrc).one.trans (changes_ring _ rfl)

theorem changes_started : Changes a s s.started :=
  (Change.ring (a := a) (s := s) { s.ring with waitStart := false } fun h p hp => ⟨(h p hp).1, rfl⟩).one

theorem changes_cellOpened : Changes a s s.cellOpened := by
  unfold State.cellOpened
  split
  · exact (Changes.ite (fun _ => .rfl) fun _ => changes_cut s).trans (changes_started _)
  · exact changes_started s

theorem changes_mailboxPath (c : Chan) (p : SetPayload) : Changes a s (s.mailboxPath c p) := by
  have seen : Changes a s (s.markSeen c) :=
    (Change.supervisors (a := a) (s := s) _ id rfl fun d => by rw [PerChan.get_modify]; split <;> exact ⟨rfl, rfl, rfl⟩).one
  unfold State.mailboxPath
  dsimp only
  refine .ite (fun _ => .ite (fun _ => seen.tail (.raiseChan _ _)) fun _ => ?_) fun _ => seen
  exact seen.tail (.beside s.free s.lanes s.loop ((s.markSeen c).fillMailbox c (Payload.ofSet p)).refs s.pairs)

theorem changes_setNow (c : Chan) (p : SetPayload) : Changes a s (s.setNow c p) :=
  (changes_mailboxPath s c p).trans (changes_sent _ _)

/-! ### Management requests -/

theorem changes_restartAll : Changes a s s.restartAll :=
  have blocks := (Change.restart (a := a) (s := s)).one
  .ite (fun _ => blocks.trans (changes_deliverDev _ _ _)) fun _ => blocks

theorem changes_onConfigure (r : Request) : Changes a s (s.onConfigure r).after := by
  unfold State.onConfigure
  split
  · exact .rfl
  split
  · exact .rfl
  split
  · exact .rfl
  next h =>
    have ranges : (Request.settings r).sound := by unfold Settings.sound; simpa using h
    refine (Change.timebase (a := a) (s := s) (fun t => t.configured (Request.settings r)) ?_ fun ht =>
      Timebase.configured_sound ht ranges).one
    unfold Timebase.configured
    dsimp only
    split <;> rfl

theorem changes_onRestart (r : Request) : Changes a s (s.onRestart r).after := by
  unfold State.onRestart
  split
  · exact .rfl
  · exact changes_restartAll s

theorem changes_onEnable (r : Request) : Changes a s (s.onEnable r).after := by
  unfold State.onEnable
  split
  · exact .rfl
  split
  · exact .rfl
  split
  · exact .rfl
  next c _ _ h =>
  split
  · exact .rfl
  split
  · exact .rfl
  · exact (Change.enterCharge c (not_not.mp h)).one

theorem changes_onDisable (r : Request) : Changes a s (s.onDisable r).after := by
  unfold State.onDisable
  split
  · exact .rfl
  next c _ =>
  split
  · exact .rfl
  split
  · next h => exact (Change.enterStopping c (.inl h)).one
  · next h => exact (Change.enterStopping c (.inr (.inl h))).one
  · next h => exact (Change.enterStopping c (.inr (.inr h))).one
  all_goals exact .rfl

theorem changes_onAck (r : Request) : Changes a s (s.onAck r).after := by
  unfold State.onAck
  split
  · exact (Change.ackDev (a := a) (s := s) _).one.trans (changes_afterAck _)
  · split
    · exact .rfl
    · next c _ => exact (Change.ackChan (a := a) (s := s) c _).one.trans (changes_afterAck _)

/-- Counts below the effective cpr written (R114). -/
theorem changes_writeCount (c : Chan) (fine : Nat) (rev : Word) (h : fine < (s.record c).effectiveCpr) :
    Changes a s (s.writeCount c fine rev) := by
  have la := (Change.beside (a := a) (s := s) s.free (s.writeCount c fine rev).lanes (s.writeCount c fine rev).loop
    s.refs s.pairs).one
  have po := la.tail (.position (s.writeCount c fine rev).pos fun d hd => by
    rw [State.writeCount, PerChan.get_modify]
    split
    · next e => subst e; exact h
    · exact hd)
  exact po.tail (.engine (s.engine.markCount c) (Engine.mapEntries_sound _ fun e => by split <;> rfl)
    fun _ => Engine.mapEntries_settled _ _)

theorem changes_onSetCount (r : Request) : Changes a s (s.onSetCount r).after := by
  unfold State.onSetCount
  split
  · exact .rfl
  split
  · exact .rfl
  split
  · exact .rfl
  · next h => exact changes_writeCount s _ _ _ (Nat.lt_of_not_le h)

theorem changes_onArmIndex (r : Request) : Changes a s (s.onArmIndex r).after := by
  unfold State.onArmIndex
  split
  · exact .rfl
  split
  · exact .rfl
  · refine (Change.position (a := a) (s := s) _ fun d hd => ?_).one
    rw [PerChan.get_modify]
    split
    · unfold Position.arm; split <;> exact hd
    · exact hd

theorem changes_onRequest (k : Byte) (r : Request) : Changes a s (s.onRequest k r).after := by
  unfold State.onRequest
  split
  · exact .rfl
  · exact changes_writeEntry s r
  · exact changes_copyBank s
  · exact changes_onSwapBanks s
  · exact changes_onConfigure s r
  · exact .rfl
  · exact changes_onEnable s r
  · exact changes_onDisable s r
  · exact changes_onAck s r
  · exact changes_onSetCount s r
  · exact changes_onArmIndex s r
  · exact changes_onRestart s r
  · exact .rfl

/-- A request answered at the end of a run of changes. -/
theorem changes_answered (k : Byte) (r : Request) {y : Answer} (h : Changes a s y.after) : Changes a s (s.answered k r y) :=
  .ite (fun _ => changes_sent s _) fun _ => h.trans (changes_sent _ _)

/-- A request whose owner makes changes to whatever state it meets. -/
theorem changes_requested (k : Byte) (r : Request) {f : State → Answer} (h : ∀ x, Changes a x (f x).after) :
    Changes a s (s.cellOpened.requested k r f) :=
  (changes_cellOpened s).trans (changes_answered _ k r (h _))

/-! ### Cells by their bytes -/

theorem changes_goodCell (c : Cell) : Changes a s (s.goodCell c) :=
  .ite (fun _ => changes_sent s _) fun _ =>
    .ite (fun _ => (changes_syncNow s _ _).trans (changes_sent _ _)) fun _ =>
      .ite (fun _ => changes_setNow s _ _) fun _ =>
        .ite (fun _ => changes_answered s _ _ (changes_onRequest s _ _)) fun _ => changes_sent s _

theorem changes_cellArrival (c : Cell) (bad : Bool) : Changes a s (s.cellArrival c bad) :=
  .ite (fun _ => changes_sent s _) fun _ =>
    .ite (fun _ => (Change.raiseDev (a := a) (s := s) .cellCrc).one.trans (changes_sent _ _)) fun _ => changes_goodCell s c

/-- Bytes that make no cell are not sixteen. -/
theorem Cell.ofBytes_none {l : List Byte} (h : Cell.ofBytes l = none) : l.length ≠ 16 := by
  intro hl
  obtain ⟨b0, b1, b2, b3, b4, b5, b6, b7, b8, b9, b10, b11, b12, b13, b14, b15, rfl⟩ :
      ∃ b0 b1 b2 b3 b4 b5 b6 b7 b8 b9 b10 b11 b12 b13 b14 b15,
        l = [b0, b1, b2, b3, b4, b5, b6, b7, b8, b9, b10, b11, b12, b13, b14, b15] := by
    match l, hl with
    | [b0, b1, b2, b3, b4, b5, b6, b7, b8, b9, b10, b11, b12, b13, b14, b15], _ =>
      exact ⟨b0, b1, b2, b3, b4, b5, b6, b7, b8, b9, b10, b11, b12, b13, b14, b15, rfl⟩
  cases h

/-- A byte that joins the cell in progress and does not fill it (R178). -/
theorem changes_byteJoined {p : PartialCell} (h : s.ring.cell = some p) (b : Option Byte)
    (hn : Cell.ofBytes (p.add b).bytes = none) : Changes a s (s.ringWith (some (p.add b)) s.ring.out) := by
  refine (Change.ring (a := a) (s := s) { s.ring with cell := some (p.add b), out := s.ring.out } fun sound q hq => ?_).one
  obtain rfl : p.add b = q := Option.some.inj hq
  obtain ⟨len, started⟩ := sound p h
  have not_full := Cell.ofBytes_none hn
  have longer : (p.add b).bytes.length = p.bytes.length + 1 := by simp [PartialCell.add]
  exact ⟨by omega, started⟩

/-! ### Bursts and runs -/

/-- Entries for different channels are at most eight. -/
theorem length_le_of_nodup_chans {l : List Entry} (h : (l.map fun e => e.chan).Nodup) : l.length ≤ 8 := by
  have := h.length_le_card
  simpa using this

/-- An entry put in the place of its channel's waiting one, or at the tail where there is none, keeps the bounds of the queue
(R65 to R67). -/
theorem Engine.enqueue_sound {x : Entry} :
    s.queueSound → State.queueSound { s with engine := s.engine.enqueue x } := by
  rintro ⟨-, nodup⟩
  suffices chans : ((s.engine.enqueue x).queue.map fun e => e.chan).Nodup from ⟨length_le_of_nodup_chans chans, chans⟩
  unfold Engine.enqueue Engine.waits
  dsimp only
  split
  · have same : ((s.engine.queue.map fun y => if y.chan = x.chan then x else y).map fun e => e.chan) =
        s.engine.queue.map fun e => e.chan := by
      rw [List.map_map]
      refine List.map_congr_left fun y _ => ?_
      dsimp only [Function.comp]
      split
      · next h => exact h.symm
      · rfl
    exact same ▸ nodup
  · next h =>
    rw [List.map_append, List.map_singleton]
    refine nodup.append (List.nodup_singleton _) fun c hc hx => h ?_
    obtain ⟨y, hy, rfl⟩ := List.mem_map.mp hc
    exact List.any_eq_true.mpr ⟨y, hy, by simpa using hx⟩

theorem changes_accept (c : Chan) (f : Frame) : Changes true s (s.accept c f) := by
  have arrived := (Change.beside (a := true) (s := s) s.free (s.markArrived c).lanes s.loop s.refs s.pairs).one
  have delivered := arrived.trans (changes_deliverChan (s.markArrived c) .bridgeFault c f.bridgeFault)
  unfold State.accept
  dsimp only
  refine .trans (delivered.tail (.engine (s.engine.enqueue ((s.lanes.get c).entry c f)) ?_ nofun)) (changes_raiseChanIf _ _ _ _)
  have engine : ((s.markArrived c).deliverChan .bridgeFault c f.bridgeFault).engine = s.engine := by simp
  have sound := Engine.enqueue_sound ((s.markArrived c).deliverChan .bridgeFault c f.bridgeFault)
    (x := (s.lanes.get c).entry c f)
  rwa [engine] at sound

/-- The queue without its oldest entry keeps its bounds. -/
theorem queueSound_tail {e : Entry} {l : List Entry} (h : s.engine.queue = e :: l) (x : Option Run) :
    s.queueSound → State.queueSound { s with engine := ⟨l, x⟩ } := by
  unfold State.queueSound
  rw [h]
  rintro ⟨len, nodup⟩
  exact ⟨Nat.le_of_succ_le len, (List.nodup_cons.mp nodup).2⟩

theorem changes_take (c : Chan) : Changes true s (s.take c) :=
  (Change.beside (a := true) (s := s) s.free s.lanes s.loop (s.take c).refs s.pairs).one.tail (.takeReported c)

theorem changes_startRun : Changes true s s.startRun := by
  unfold State.startRun
  split
  · next e rest _ hq =>
    dsimp only
    split
    · have taken : Changes true s (if s.takes e then s.take e.chan else s) := .ite (fun _ => changes_take s _) fun _ => .rfl
      have queue : (if s.takes e then s.take e.chan else s).engine.queue = e :: rest := by split <;> exact hq
      generalize (if s.takes e then s.take e.chan else s) = t at taken queue
      exact (taken.tail (.engine _ (queueSound_tail t queue _) nofun)).tail
        (.beside (s.free + 1) _ _ _ _)
    · exact (Change.engine (a := true) _ (queueSound_tail s hq none) nofun).one
  · exact .rfl

theorem changes_startWaiting : Changes true s s.startWaiting := .repeat changes_startRun _ s

theorem changes_deliverRun (x : Run) (f : Front) (k : Option ControlResult) : Changes a s (s.deliverRun x f k) := by
  unfold State.deliverRun
  dsimp only
  refine .trans ?_ (changes_raiseChanIf _ _ _ _)
  refine .trans ?_ (changes_deliverChan _ _ _ _)
  refine .trans ?_ (changes_raiseChanIf _ _ _ _)
  refine .trans ?_ (changes_deliverChan _ _ _ _)
  refine .trans ?_ (changes_deliverChan _ _ _ _)
  refine .trans ?_ (changes_deliverChan _ _ _ _)
  exact (changes_raiseChanIf _ _ _ _).trans (changes_raiseChanIf _ _ _ _)

/-- The results of a run touch no gate state and no gate line (R89). -/
theorem changes_writeRun (x : Run) (f : Front) (k : Option ControlResult) : Changes true s (s.writeRun x f k) := by
  have la := (Change.beside (a := true) (s := s) s.free s.lanes (s.writeRun x f k).loop (s.writeRun x f k).refs
    (s.writeRun x f k).pairs).one
  have mo := la.tail (.modulators (s.writeRun x f k).mods fun c => by
    rw [State.writeRun, PerChan.get_modify]
    split
    · unfold Run.modAfter
      split
      · split <;> exact ⟨rfl, rfl, rfl, rfl⟩
      · exact ⟨rfl, rfl, rfl, rfl⟩
    · exact ⟨rfl, rfl, rfl, rfl⟩)
  exact mo.tail (.engine { s.engine with running := none } id nofun)

theorem changes_completeRun (x : Run) : Changes true s (s.completeRun x) :=
  have written := changes_writeRun s x x.front (s.controlOf x)
  .ite (fun _ => written) fun _ => written.trans (changes_deliverRun _ _ _ _)

/-! ### Every command and every tick -/

/-- A command that answers a state reached by a run of changes. -/
def Answers (a : Bool) (s : State) (o : Host.Outcome State Fault Refusal) : Prop := ∃ t, o = .next t ∧ Changes a s t

variable {s}

theorem Answers.next {t : State} (h : Changes a s t) : Answers a s (.next t) := ⟨t, rfl, h⟩

theorem Answers.ite {p : Prop} [Decidable p] {x y : Host.Outcome State Fault Refusal} (h1 : p → Answers a s x)
    (h2 : ¬p → Answers a s y) : Answers a s (if p then x else y) := by
  split
  · next h => exact h1 h
  · next h => exact h2 h

/-- A command that may stand for no event. -/
theorem Answers.when {p : Prop} [Decidable p] {t : State} (h : p → Changes a s t) :
    Answers a s (if p then .next t else .next s) :=
  .ite (fun hp => .next (h hp)) fun _ => .next .rfl

variable (s)

theorem answers_masterValley (b : Bool) : Answers a s (execMasterValley b s) :=
  .ite
    (fun _ => .next ((((changes_toTurn s).trans (changes_masterCrest _)).trans (changes_toTurn _)).trans
      (changes_masterValley _ b)))
    fun _ => .next ((changes_toTurn s).trans (changes_masterValley _ b))

theorem answers_masterCrest : Answers a s (execMasterCrest s) :=
  .ite (fun _ => .next ((changes_toTurn s).trans (changes_masterCrest _)))
    fun _ => .next ((((changes_toTurn s).trans (changes_masterValley _ _)).trans (changes_toTurn _)).trans
      (changes_masterCrest _))

theorem answers_ringCycleStart : Answers a s (execRingCycleStart s) :=
  .ite (fun _ => .next .rfl) fun _ =>
    .next ((Change.timebase (a := a) (s := s) (fun t => { t.atValley with index := 0, pos := 0 }) rfl
      Timebase.cycleStart_sound).one.tail .settle)

theorem answers_correctionEnd : Answers a s (execCorrectionEnd s) :=
  .when fun _ => (Change.timebase (a := a) (s := s) (fun t => { t with corrLeft := 0, corr := 0 }) rfl
    Timebase.uncorrected_sound).one

theorem answers_pendingSettingsEffect : Answers a s (execPendingSettingsEffect s) := by
  unfold execPendingSettingsEffect
  split
  · next x hx =>
    exact .next ((Change.timebase (a := a) (s := s) (fun t => t.atValley.applyPending x) rfl fun h =>
      Timebase.applyPending_sound h (h.2.1 x hx)).one.tail .settle)
  · exact .next .rfl

theorem answers_ringLoss : Answers a s (execRingLoss s) := by
  have inh : s.tb.lossAtValley.inh = s.tb.inh := by unfold Timebase.lossAtValley; dsimp only; split <;> rfl
  exact .when fun _ => (Change.timebase (a := a) (s := s) _ inh Timebase.lossAtValley_sound).one.trans (changes_deliverLoss _)

theorem answers_syncArrival (w : Word) (n : Nat) (o : SyncOrder) : Answers a s (execSyncArrival w n o s) := by
  have opened := (changes_advance (a := a) s (min n s.tb.left) (Nat.min_le_right _ _)).trans (changes_cellOpened _)
  exact .ite (fun _ => .next (opened.trans (changes_sent _ _)))
    fun _ => .next ((opened.trans (changes_syncNow _ _ _)).trans (changes_sent _ _))

theorem answers_cutCell (n : Nat) (x : RingSymbol) : Answers a s (execCutCell n x s) := by
  refine .ite (fun _ => .next .rfl) fun _ => .next (((changes_cut s).trans (changes_started _)).trans ?_)
  refine (Change.ring (a := a) (s := s.cut.started) { s.cut.started.ring with cell := openedBy x } fun _ p hp => ?_).one
  cases x <;> cases hp
  exact ⟨Nat.zero_le _, rfl⟩

theorem answers_byteOutsideCell (b : Option Byte) : Answers a s (execByteOutsideCell b s) := by
  unfold execByteOutsideCell
  split
  · exact .next (changes_ring s (rfl))
  · next p hp =>
    dsimp only
    split
    · exact .next (changes_cellArrival s _ _)
    · next hn => exact .next (changes_byteJoined s hp b hn)

theorem answers_voltSat (c : Chan) : Answers a s (execVoltSat c s) := by
  unfold execVoltSat
  split
  · next x k _ =>
    have counted := (Change.beside (a := a) (s := s) s.free s.lanes
      (s.loop.modify c fun l => if x.writes then { l with vsat := k.vsat } else l) s.refs s.pairs).one
    exact .next ((counted.tail
      (.engine { s.engine with running := some { x with voltSatDone := true } } id fun _ _ => .inl rfl)).tail (.raiseChan .voltSat c))
  · exact .next .rfl

theorem answers_compareLoad (c : Chan) : Answers a s (execCompareLoad c s) := by
  unfold execCompareLoad
  split
  · refine .when fun _ => (Change.modulators (a := a) (s := s) _ fun d => ?_).one.tail .settle
    rw [PerChan.get_modify]
    split <;> exact ⟨rfl, rfl, rfl, rfl⟩
  · exact .next .rfl

theorem answers_comparesStale (c : Chan) : Answers a s (execComparesStale c s) := by
  refine .when fun _ => (Change.modulators (a := a) (s := s) _ fun d => ?_).one.tail (.raiseChan .comparesStale c)
  rw [PerChan.get_modify]
  split <;> exact ⟨rfl, rfl, rfl, rfl⟩

theorem answers_setpointStale (c : Chan) : Answers a s (execSetpointStale c s) := by
  refine .when fun _ => (Change.supervisors (a := a) (s := s) _ id (rfl) fun d => ?_).one.tail (.raiseChan .setpointStale c)
  rw [PerChan.get_modify]
  split <;> exact ⟨rfl, rfl, rfl⟩

/-- The supervisor's act on a channel in CHARGE whose gates do not drive begins charging (R127). -/
theorem State.superviseOne_beginCharging {c : Chan} (h : s.st c = .charge) (hd : (s.mods.get c).drive = false) :
    s.superviseOne c = s.beginCharging c := by
  unfold State.superviseOne
  rw [h]
  exact if_neg (by simp [hd])

/-- The supervisor's act on a channel in CHARGE whose gates drive counts (R127). -/
theorem State.superviseOne_countCharge {c : Chan} (h : s.st c = .charge) (hd : (s.mods.get c).drive = true) :
    s.superviseOne c = s.countCharge c := by
  unfold State.superviseOne
  rw [h]
  exact if_pos hd

/-- The supervisor's act on a channel in STOPPING ends it (R129). -/
theorem State.superviseOne_enterOff {c : Chan} (h : s.st c = .stopping) : s.superviseOne c = s.enterOff c := by
  unfold State.superviseOne
  rw [h]

theorem answers_chargingBegin (c : Chan) : Answers a s (execChargingBegin c s) :=
  .when fun ⟨h, hd⟩ =>
    (s.superviseOne_beginCharging h hd ▸ (Change.supervise (a := a) (s := s) (s.leadOf c))).one.tail .settle

theorem answers_endOfCharging (c : Chan) : Answers a s (execEndOfCharging c s) :=
  .when fun ⟨h, hd, _⟩ =>
    (s.superviseOne_countCharge h hd ▸ (Change.supervise (a := a) (s := s) (s.leadOf c))).one.tail .settle

theorem answers_stoppingEnd (c : Chan) : Answers a s (execStoppingEnd c s) :=
  .when fun h => (s.superviseOne_enterOff h ▸ (Change.supervise (a := a) (s := s) (s.leadOf c))).one

theorem answers_lockReached : Answers a s (execLockReached s) :=
  .when fun _ => (Change.timebase (a := a) (s := s) (fun t => { t with lock := .locked, acquire := 0 }) rfl
    fun h => Timebase.relocked_sound h _).one

theorem answers_counterPassesCompare (c : Chan) (ph : PhaseId) : Answers a s (execCounterPassesCompare c ph s) := by
  unfold execCounterPassesCompare
  split
  · exact .when fun h => changes_advance s _ h
  · exact .next .rfl

theorem answers_deadTimeElapsed (c : Chan) (ph : PhaseId) : Answers a s (execDeadTimeElapsed c ph s) := by
  unfold execDeadTimeElapsed
  split
  · refine .when fun h => (changes_advance s _ ?_).tail .settle
    exact of_decide_eq_true (Bool.and_eq_true_iff.mp h).1
  · exact .next .rfl

theorem changes_lineTick (c : Chan) (l : EncLine) (f : Filter) : Changes a s (s.lineTick c l f) := by
  cases l <;> exact changes_encoderTick s c _ _ _ true

theorem answers_startingLevel (p : Pin) (x : Bool) : Answers a s (execStartingLevel p x s) := by
  cases p with
  | enc c l => exact .next (changes_lineTick s c l _)
  | inhN => exact .next (changes_inhTick s _)

theorem answers_rawSampleChange (p : Pin) (x : Bool) : Answers a s (execRawSampleChange p x s) := by
  cases p with
  | enc c l => cases l <;> exact .next (changes_setPos_of_fine s c (rfl))
  | inhN => exact .next (Change.inhibit (a := a) (s := s) (s.tb.inh.drive x) id).one

theorem answers_powerOn (straps : BitVec 5) : Answers a s (execPowerOn straps s) := .next (Change.powerOn (a := a) (s := s) straps).one

/-- The commands that let an entry wait or free the engine, and make the run starts that follow (R68). -/
def arbitrates : Instr → Bool
  | .burst _ _ | .runStart | .runCompletion => true
  | _ => false

/-- Every command answers a state reached by a run of changes. -/
theorem exec_answers (i : Instr) : Answers (arbitrates i) s (exec i s) := by
  cases i with
  | powerOn straps => exact answers_powerOn s straps
  | restart r => exact .next (changes_requested s 12 r fun x => changes_onRestart x r)
  | masterValley b => exact answers_masterValley s b
  | masterCrest => exact answers_masterCrest s
  | ringCycleStart => exact answers_ringCycleStart s
  | correctionEnd => exact answers_correctionEnd s
  | pendingSettingsEffect => exact answers_pendingSettingsEffect s
  | ringLoss => exact answers_ringLoss s
  | syncArrival w n o => exact answers_syncArrival s w n o
  | setArrival c p => exact .next ((changes_cellOpened s).trans (Changes.ite (fun _ => changes_sent _ _) fun _ => changes_setNow _ c p))
  | damagedCell c e => exact .next ((changes_cellOpened s).trans (changes_cellArrival _ _ _))
  | cutCell n x => exact answers_cutCell s n x
  | forwardedCell c => exact .next ((changes_cellOpened s).trans (changes_cellArrival _ _ _))
  | readEntry r => exact .next (changes_requested s 1 r fun _ => .rfl)
  | writeEntry r => exact .next (changes_requested s 2 r fun x => changes_writeEntry x r)
  | copyBank r => exact .next (changes_requested s 3 r changes_copyBank)
  | swapBanks r => exact .next (changes_requested s 4 r changes_onSwapBanks)
  | configure r => exact .next (changes_requested s 5 r fun x => changes_onConfigure x r)
  | readStatus r => exact .next (changes_requested s 6 r fun _ => .rfl)
  | enable r => exact .next (changes_requested s 7 r fun x => changes_onEnable x r)
  | disable r => exact .next (changes_requested s 8 r fun x => changes_onDisable x r)
  | ack r => exact .next (changes_requested s 9 r fun x => changes_onAck x r)
  | setCount r => exact .next (changes_requested s 10 r fun x => changes_onSetCount x r)
  | armIndex r => exact .next (changes_requested s 11 r fun x => changes_onArmIndex x r)
  | badKind k r => exact .next (changes_requested s k r fun x => changes_onRequest x k r)
  | copyCompletion => exact .when (changes_copyDone s)
  | swapEffect => exact .next (changes_trySwap s)
  | burst c f => exact .when fun _ => (changes_accept s c f).trans (changes_startWaiting _)
  | runStart => exact .next (changes_startWaiting s)
  | runCompletion =>
    show Answers true s (execRunCompletion s)
    unfold execRunCompletion
    split
    · exact .next ((changes_completeRun s _).trans (changes_startWaiting _))
    · exact .next .rfl
  | chargingBegin c => exact answers_chargingBegin s c
  | endOfCharging c => exact answers_endOfCharging s c
  | stoppingEnd c => exact answers_stoppingEnd s c
  | compareLoad c => exact answers_compareLoad s c
  | comparesStale c => exact answers_comparesStale s c
  | setpointStale c => exact answers_setpointStale s c
  | voltSat c => exact answers_voltSat s c
  | lockReached => exact answers_lockReached s
  | filteredChange c a b z first => exact .next (changes_encoderTick s c _ _ _ first)
  | startingLevel p x => exact answers_startingLevel s p x
  | inhNLow => exact .ite (fun _ => .next .rfl) fun _ => .next (changes_inhTick s _)
  | inhNHigh => exact .ite (fun _ => .next .rfl) fun _ => .next (changes_inhTick s _)
  | counterPassesCompare c ph => exact answers_counterPassesCompare s c ph
  | deadTimeElapsed c ph => exact answers_deadTimeElapsed s c ph
  | rawSampleChange p x => exact answers_rawSampleChange s p x
  | byteOutsideCell b => exact answers_byteOutsideCell s b

/-- A step is a run of changes, from the state with its command taken from the queue. -/
theorem step_changes {s t : State} (h : step s = .next t) : ∃ a p, Changes a { s with pending := p } t := by
  unfold step at h
  split at h
  · next i rest _ =>
    obtain ⟨u, hu, changes⟩ := exec_answers { s with pending := rest } i
    cases hu.symm.trans h
    exact ⟨_, rest, changes⟩
  · cases h
    exact ⟨false, s.pending, changes_tickOrTurn s⟩

/-- A promise that no queue of commands matters to and every change keeps is kept by every step. -/
theorem step_keeps {q : State → Prop} (change : ∀ a s t, Change a s t → q s → q t)
    (queue : ∀ (s : State) p, q s → q { s with pending := p }) {s t : State} (hs : q s) (h : step s = .next t) : q t := by
  obtain ⟨a, p, changes⟩ := step_changes h
  exact changes.keep (change a) (queue s p hs)

/-- No change touches the queue of commands. -/
theorem Change.pending {a : Bool} {s t : State} (h : Change a s t) : t.pending = s.pending := by
  cases h with
  | supervise c => exact State.superviseOne_pending s c
  | raiseChan k c => exact State.raiseChan_pending s k c
  | raiseDev k => exact State.raiseDev_pending s k
  | _ => rfl

/-- Settles O2: every command is a run of changes, and none of them touches the queue. -/
theorem everyCommandAnswers : Obligations.EveryCommandAnswers := by
  unfold Obligations.EveryCommandAnswers
  intro i s
  obtain ⟨t, ht, changes⟩ := exec_answers s i
  exact ⟨t, ht, changes.keep (q := fun x => x.pending = s.pending) (fun _ _ h hx => h.pending.trans hx) (rfl)⟩

end Sys2Proof.Machine
end

