-- ==== Sys2Proof/Proofs/GateLines.lean ====
section
/-! No change turns both gates of a phase on together, or any gate on in INHIBIT or with INH_N low (R86, R87, R95). -/

namespace Sys2Proof.Machine

/-! ### The supervisor's act at a valley, case by case (R127, R129) -/

/-- The charge count after a valley in CHARGE (R127). -/
abbrev State.nextCharge (s : State) (c : Chan) : Nat := satSucc 255 (s.sup.get c).chargeCount

/-- What the supervisor does at the valley of a channel: it begins charging, counts, enters RUN, enters OFF, or nothing. -/
theorem State.superviseOne_cases (s : State) (c : Chan) :
    (s.st c = .charge ∧ (s.mods.get c).drive = false ∧ s.superviseOne c = s.beginCharging c) ∨
    (s.st c = .charge ∧ (s.mods.get c).drive = true ∧ s.nextCharge c < (s.record c).chargePeriods ∧
      s.superviseOne c = s.setCharge c (s.nextCharge c)) ∨
    (s.st c = .charge ∧ (s.mods.get c).drive = true ∧ (s.record c).chargePeriods ≤ s.nextCharge c ∧
      s.superviseOne c = (s.setCharge c (s.nextCharge c)).enterRun c) ∨
    (s.st c = .stopping ∧ s.superviseOne c = s.enterOff c) ∨
    (s.st c ≠ .charge ∧ s.st c ≠ .stopping ∧ s.superviseOne c = s) := by
  unfold State.superviseOne
  cases h : s.st c with
  | charge =>
    by_cases hd : (s.mods.get c).drive = true
    · by_cases hp : (s.record c).chargePeriods ≤ s.nextCharge c
      · exact .inr (.inr (.inl ⟨rfl, hd, hp, (if_pos hd).trans (if_pos hp)⟩))
      · exact .inr (.inl ⟨rfl, hd, Nat.lt_of_not_le hp, (if_pos hd).trans (if_neg hp)⟩)
    · exact .inl ⟨rfl, by simpa using hd, if_neg hd⟩
  | stopping => exact .inr (.inr (.inr (.inl ⟨rfl, rfl⟩)))
  | off | run | hold | trip => exact .inr (.inr (.inr (.inr ⟨by decide, by decide, rfl⟩)))

/-! ### The lines of one modulator -/

/-- No phase of the modulator has both its gates on. -/
abbrev Modulator.exclusive (m : Modulator) : Prop := m.pa.exclusive ∧ m.pb.exclusive ∧ m.pc.exclusive

theorem Phase.exclusive_of_dark {p : Phase} (h : p.dark) : p.exclusive := fun hp => by simp [h.1] at hp

theorem Modulator.exclusive_of_dark {m : Modulator} (h : m.dark) : m.exclusive :=
  ⟨Phase.exclusive_of_dark h.1, Phase.exclusive_of_dark h.2.1, Phase.exclusive_of_dark h.2.2⟩

theorem Modulator.mapPhases_dark {m : Modulator} {f : Nat → Phase → Phase} (h : ∀ n p, (f n p).dark) :
    (m.mapPhases f).dark :=
  ⟨h _ _, h _ _, h _ _⟩

/-- The gates of a channel must be off: it is in INHIBIT, or INH_N is low. -/
abbrev State.mustBeDark (s : State) (c : Chan) : Prop := (s.mods.get c).drive = false ∨ s.tb.inh.level = some false

theorem State.not_enabled {s : State} {c : Chan} (h : s.mustBeDark c) : s.enabled c = false := by
  unfold State.enabled Timebase.inhLow
  rcases h with h | h <;> simp [h]

/-- What a change from `s` to `t` keeps of the gates of channel `c`. -/
structure GatesKept (s t : State) (c : Chan) : Prop where
  exclusive : (s.mods.get c).exclusive → (t.mods.get c).exclusive
  dark : (s.mustBeDark c → (s.mods.get c).dark) → t.mustBeDark c → (t.mods.get c).dark

variable {s t : State} {c : Chan}

/-- Gates that are off after the change. -/
theorem GatesKept.of_dark (h : (t.mods.get c).dark) : GatesKept s t c :=
  ⟨fun _ => Modulator.exclusive_of_dark h, fun _ _ => h⟩

/-- Gate lines as they were, no longer to be off unless they had to be before. -/
theorem GatesKept.of_lines (ha : (t.mods.get c).pa = (s.mods.get c).pa) (hb : (t.mods.get c).pb = (s.mods.get c).pb)
    (hc : (t.mods.get c).pc = (s.mods.get c).pc) (hd : t.mustBeDark c → s.mustBeDark c) : GatesKept s t c := by
  refine ⟨fun h => ?_, fun h ht => ?_⟩
  · rw [Modulator.exclusive, ha, hb, hc]; exact h
  · rw [Modulator.dark, ha, hb, hc]; exact h (hd ht)

/-- The modulator and the level of INH_N as they were. -/
theorem GatesKept.of_mods (hm : t.mods.get c = s.mods.get c) (hi : t.tb.inh = s.tb.inh) : GatesKept s t c :=
  .of_lines (by rw [hm]) (by rw [hm]) (by rw [hm]) (by rw [State.mustBeDark, hm, hi]; exact id)

theorem GatesKept.glide (n : Nat) : GatesKept s (s.glide n) c := by
  have level : (s.glide n).tb.inh.level = s.tb.inh.level := by
    show (s.tb.inh.aged n).level = _
    unfold Filter.aged
    split
    · rfl
    · split <;> rfl
  refine ⟨fun ⟨a, b, d⟩ => ?_, fun h ht => ?_⟩ <;> rw [State.glide_mods_get]
  · exact ⟨Phase.glide_exclusive _ _ _ _ _ _ _ a, Phase.glide_exclusive _ _ _ _ _ _ _ b,
      Phase.glide_exclusive _ _ _ _ _ _ _ d⟩
  · have off : s.mustBeDark c := by rwa [State.mustBeDark, State.glide_mods_get, level] at ht
    obtain ⟨a, b, d⟩ := h off
    rw [State.not_enabled off]
    exact ⟨Phase.glide_dark _ _ _ _ _ _ a, Phase.glide_dark _ _ _ _ _ _ b, Phase.glide_dark _ _ _ _ _ _ d⟩

theorem GatesKept.settle : GatesKept s s.settleGates c := by
  refine ⟨fun _ => ?_, fun _ ht => ?_⟩ <;> rw [State.settleGates_mods_get]
  · exact ⟨Phase.settle_exclusive _ _ _ _, Phase.settle_exclusive _ _ _ _, Phase.settle_exclusive _ _ _ _⟩
  · have off : s.mustBeDark c := by rwa [State.mustBeDark, State.settleGates_mods_get] at ht
    unfold State.settledMod
    rw [State.not_enabled off]
    exact Modulator.mapPhases_dark fun _ _ => Phase.settle_dark _ _ _

/-- A trip inhibits a modulator or leaves it. -/
theorem GatesKept.of_inhibit_or {p : Prop} [Decidable p] (hi : t.tb.inh = s.tb.inh)
    (h : t.mods.get c = if p then (s.mods.get c).inhibit else s.mods.get c) : GatesKept s t c := by
  split at h
  · exact .of_dark (h ▸ (Modulator.inhibit_dark _).1)
  · exact .of_mods h hi

theorem GatesKept.supervise (d : Chan) : GatesKept s (s.superviseOne d) c := by
  obtain ⟨-, -, h⟩ | ⟨-, -, -, h⟩ | ⟨-, -, -, h⟩ | ⟨-, h⟩ | ⟨-, -, h⟩ := s.superviseOne_cases d <;> rw [h]
  · refine .of_lines ?_ ?_ ?_ ?_
    all_goals
      simp only [State.mustBeDark, State.beginCharging_get, State.beginCharging_tb]
      split <;> simp +contextual [Modulator.charging]
  · exact .of_mods rfl rfl
  · have mods := (State.enterRun_get (s.setCharge d (s.nextCharge d)) d c).2
    refine .of_lines ?_ ?_ ?_ ?_
    all_goals
      simp only [State.mustBeDark, mods, State.enterRun_tb, State.setCharge_tb, State.setCharge_mods]
      split <;> simp +contextual
  · exact .of_inhibit_or rfl (s.enterOff_get d c).2
  · exact .of_mods rfl rfl

/-- Every change keeps the promises of every channel's gates. -/
theorem Change.gates {a : Bool} (h : Change a s t) (c : Chan) : GatesKept s t c := by
  cases h with
  | glide n => exact .glide n
  | settle => exact .settle
  | inhibit f hf => exact .of_lines rfl rfl rfl (Or.imp_right hf)
  | inhibitLow f => exact .of_dark (by simp [State.allLinesOff, Modulator.linesOff, Modulator.dark, Phase.dark, Phase.allOff])
  | raiseChan k d => exact .of_inhibit_or (by rw [State.raiseChan_tb]) (s.raiseChan_mods_get k d c)
  | raiseDev k => exact .of_inhibit_or (by rw [State.raiseDev_tb]) (s.raiseDev_mods_get k c)
  | timebase f hi => exact .of_mods rfl hi
  | modulators v hv =>
    obtain ⟨hd, ha, hb, hc⟩ := hv c
    exact .of_lines ha hb hc (Or.imp_left hd.symm.trans)
  | enterCharge d =>
    have mods := (s.enterCharge_get d c).2.1
    split at mods
    · exact .of_dark (mods ▸ (Modulator.inhibit_dark _).1)
    · exact .of_mods mods rfl
  | enterStopping d =>
    have mods := (s.enterStopping_get d c).2
    refine .of_lines ?_ ?_ ?_ ?_
    all_goals
      simp only [State.mustBeDark, mods, State.enterStopping_tb]
      split <;> simp
  | supervise d => exact .supervise d
  | restart =>
    refine .of_dark ?_
    rw [State.restartBlocks, PerChan.get_ofFn]
    exact (Modulator.inhibit_dark _).1
  | powerOn => exact .of_dark (by simp [State.poweredOn, State.reset, Modulator.dark, Phase.dark])
  | _ => exact .of_mods rfl rfl

/-- Settles O5, by what each change keeps of the gates of one channel. -/
theorem stepKeepsGatesSafe : Obligations.StepKeepsGatesSafe := by
  unfold Obligations.StepKeepsGatesSafe
  constructor
  · intro s t hs
    exact step_keeps (fun _ _ _ h hs c => (h.gates c).exclusive (hs c)) (fun _ _ => id) hs
  · intro s t hs
    exact step_keeps (fun _ _ _ h hs c => (h.gates c).dark (hs c)) (fun _ _ => id) hs

end Sys2Proof.Machine
end

