-- ==== Sys2Proof/Proofs/Acknowledgement.lean ====
section
/-! What an acknowledgement does to the flags it names (R155). -/

namespace Sys2Proof.Machine

/-- Writes to named places of a row of flags, one for each kind of a list: a kind of the list that is named has its new flag,
any other keeps the one it had. -/
theorem foldl_set_get {κ : Type} [DecidableEq κ] {n : Nat} {idx : κ → Fin n} (inj : ∀ {j k}, idx j = idx k → j = k) (named : κ → Bool)
    (g : κ → Flag) (l : List κ) (v : Vector Flag n) (j : κ) :
    (l.foldl (fun w k => if named k then w.set (idx k).val (g k) (idx k).isLt else w) v).get (idx j) =
      if j ∈ l ∧ named j = true then g j else v.get (idx j) := by
  induction l generalizing v with
  | nil => simp
  | cons k l ih =>
    rw [List.foldl_cons, ih]
    by_cases later : j ∈ l ∧ named j = true
    · simp [later]
    by_cases hk : j = k
    · subst hk
      by_cases hn : named j = true
      · simp [hn, Vector.get_eq_getElem]
      · simp [hn]
    · have places : (idx k).val ≠ (idx j).val := fun h => hk (inj (Fin.ext h)).symm
      have other : ¬(j ∈ k :: l ∧ named j = true) := by rwa [List.mem_cons, or_iff_right hk]
      rw [if_neg later, if_neg other]
      split
      · simp [Vector.get_eq_getElem, places]
      · rfl

variable (s : State)

/-- The flag of a channel kind after an ACK of channel `c` (R155). -/
theorem State.ackChan_chanFlag (c d : Chan) (named : ChanKind → Bool) (k : ChanKind) :
    (s.ackChan c named).chanFlag d k =
      if d = c ∧ named k = true then (s.chanFlag c k).acked (s.chanHeld c k) else s.chanFlag d k := by
  unfold State.chanFlag State.ackChan
  rw [PerChan.get_modify]
  by_cases hd : d = c
  · subst hd
    rw [if_pos rfl, foldl_set_get ChanKind.idx_injective]
    simp [ChanKind.mem_all]
  · simp [hd]

/-- The flag of a device kind after an ACK of the device (R155). -/
theorem State.ackDev_devFlag (named : DevKind → Bool) (k : DevKind) :
    (s.ackDev named).devFlag k = if named k = true then (s.devFlag k).acked (s.devHeld k) else s.devFlag k := by
  unfold State.devFlag State.ackDev
  rw [foldl_set_get DevKind.idx_injective]
  simp [DevKind.mem_all]

@[simp] theorem State.ackChan_dev (c : Chan) (f : ChanKind → Bool) : (s.ackChan c f).router.dev = s.router.dev := rfl
@[simp] theorem State.ackChan_kept (c : Chan) (f : ChanKind → Bool) : (s.ackChan c f).router.kept = s.router.kept := rfl
@[simp] theorem State.ackChan_devKept (c : Chan) (f : ChanKind → Bool) :
    (s.ackChan c f).router.devKept = s.router.devKept := rfl
@[simp] theorem State.ackChan_trips (c : Chan) (f : ChanKind → Bool) : (s.ackChan c f).router.trips = s.router.trips := rfl
@[simp] theorem State.ackDev_flags (f : DevKind → Bool) : (s.ackDev f).router.flags = s.router.flags := rfl
@[simp] theorem State.ackDev_kept (f : DevKind → Bool) : (s.ackDev f).router.kept = s.router.kept := rfl
@[simp] theorem State.ackDev_devKept (f : DevKind → Bool) : (s.ackDev f).router.devKept = s.router.devKept := rfl
@[simp] theorem State.ackDev_trips (f : DevKind → Bool) : (s.ackDev f).router.trips = s.router.trips := rfl

end Sys2Proof.Machine
end

