-- ==== Sys2Proof/Proofs/CountsAndRanges.lean ====
section
/-! Flags and their counts, the run queue, the cell in progress and the timebase through every step: each promise is kept by
each small change. -/

namespace Sys2Proof.Machine

variable {a : Bool} {s t : State}

/-! ### Flags (R141, R144, R155) -/

theorem Flag.raised_counted (f : Flag) : f.raised.counted := by
  unfold Flag.raised Flag.counted satSucc
  simp

theorem Flag.acked_counted {f : Flag} (h : f.counted) (kept : Bool) : (f.acked kept).counted := by
  unfold Flag.acked
  split
  · exact h
  · simp [Flag.counted]

/-- A cleared flag is counted. -/
theorem Flag.clear_counted : ({} : Flag).counted := by simp [Flag.counted]

/-- A router with all its flags clear. -/
theorem flagsCounted_of_clear (h : s.router = {}) : s.flagsCounted := by
  refine ⟨fun c k _ => ?_, fun k _ => ?_⟩
  · rw [State.chanFlag, h, PerChan.get_const, Vector.get_eq_getElem, Vector.getElem_replicate]
    exact Flag.clear_counted
  · rw [State.devFlag, h, Vector.get_eq_getElem, Vector.getElem_replicate]
    exact Flag.clear_counted

/-- Flags as they were. -/
theorem flagsCounted_congr (hf : t.router.flags = s.router.flags) (hd : t.router.dev = s.router.dev) (h : s.flagsCounted) :
    t.flagsCounted :=
  ⟨fun c k hk => by rw [State.chanFlag_congr hf]; exact h.1 c k hk, fun k hk => by rw [State.devFlag_congr hd]; exact h.2 k hk⟩

theorem Change.flagsCounted (h : Change a s t) (hs : s.flagsCounted) : t.flagsCounted := by
  obtain ⟨chan, dev⟩ := id hs
  cases h with
  | raiseChan k c =>
    refine ⟨fun d j hj => ?_, dev⟩
    rw [State.raiseChan_chanFlag]
    split
    · exact Flag.raised_counted _
    · exact chan d j hj
  | raiseDev k =>
    refine ⟨chan, fun j hj => ?_⟩
    rw [State.raiseDev_devFlag]
    split
    · exact Flag.raised_counted _
    · exact dev j hj
  | ackChan c f =>
    refine ⟨fun d j hj => ?_, dev⟩
    rw [State.ackChan_chanFlag]
    split
    · exact Flag.acked_counted (chan c j hj) _
    · exact chan d j hj
  | ackDev f =>
    refine ⟨chan, fun j hj => ?_⟩
    rw [State.ackDev_devFlag]
    split
    · exact Flag.acked_counted (dev j hj) _
    · exact dev j hj
  | supervise c => exact flagsCounted_congr (by rw [State.superviseOne_router]) (by rw [State.superviseOne_router]) hs
  | restart => exact flagsCounted_of_clear rfl
  | powerOn => exact flagsCounted_of_clear rfl
  | _ => exact hs

/-! ### Run queue (R65 to R68) -/

theorem queueSound_congr (he : t.engine.queue = s.engine.queue) (h : s.queueSound) : t.queueSound := by
  rwa [State.queueSound, he]

theorem queueSound_of_empty (he : t.engine.queue = []) : t.queueSound := by simp [State.queueSound, he]

theorem Change.queueSound (h : Change a s t) (hs : s.queueSound) : t.queueSound := by
  cases h with
  | engine e he => exact he hs
  | supervise c => exact queueSound_congr (by rw [State.superviseOne_engine]) hs
  | raiseChan k c => exact queueSound_congr (by rw [State.raiseChan_engine]) hs
  | raiseDev k => exact queueSound_congr (by rw [State.raiseDev_engine]) hs
  | restart => exact queueSound_of_empty rfl
  | powerOn => exact queueSound_of_empty rfl
  | _ => exact hs

theorem engineSettled_congr (he : t.engine = s.engine) (h : s.engineSettled) : t.engineSettled := by
  rwa [State.engineSettled, he]

/-- A change that does not arbitrate leaves no entry waiting before a free engine. -/
theorem Change.engineSettled (h : Change false s t) (hs : s.engineSettled) : t.engineSettled := by
  cases h with
  | engine e _ he => exact he rfl hs
  | enterCharge c => exact Or.imp_left (fun h => by simpa [State.enterCharge, Engine.markCharge] using h) hs
  | supervise c => exact engineSettled_congr (State.superviseOne_engine s c) hs
  | raiseChan k c => exact engineSettled_congr (State.raiseChan_engine s k c) hs
  | raiseDev k => exact engineSettled_congr (State.raiseDev_engine s k) hs
  | restart => exact .inr rfl
  | powerOn => exact .inr rfl
  | _ => exact hs

/-- A command that arbitrates makes the run starts that follow, or changes nothing. -/
theorem exec_arbitrates_settled {i : Instr} (hi : arbitrates i = true) (hs : s.engineSettled) (h : exec i s = .next t) :
    t.engineSettled := by
  cases i with
  | burst c f =>
    change execBurst c f s = _ at h
    unfold execBurst at h
    split at h <;> cases h
    · exact State.startWaiting_settled _
    · exact hs
  | runStart =>
    cases h
    exact State.startWaiting_settled _
  | runCompletion =>
    change execRunCompletion s = _ at h
    unfold execRunCompletion at h
    split at h <;> cases h
    · exact State.startWaiting_settled _
    · exact hs
  | _ => cases hi

/-- Every step leaves no entry waiting before a free engine. -/
theorem step_engineSettled (hs : s.engineSettled) (h : step s = .next t) : t.engineSettled := by
  unfold step at h
  split at h
  · next i rest _ =>
    cases hi : arbitrates i with
    | true => exact exec_arbitrates_settled (s := { s with pending := rest }) hi hs h
    | false =>
      obtain ⟨u, hu, changes⟩ := hi ▸ exec_answers { s with pending := rest } i
      cases hu.symm.trans h
      exact changes.keep (fun _ _ => Change.engineSettled) hs
  · cases h
    exact (changes_tickOrTurn s).keep (fun _ _ => Change.engineSettled) hs

/-! ### The cell in progress (R178, R179) -/

theorem cellSound_congr (hr : t.ring = s.ring) (h : s.cellSound) : t.cellSound := by rwa [State.cellSound, hr]

theorem Change.cellSound (h : Change a s t) (hs : s.cellSound) : t.cellSound := by
  cases h with
  | ring r hr => exact hr hs
  | supervise c => exact cellSound_congr (State.superviseOne_ring s c) hs
  | raiseChan k c => exact cellSound_congr (State.raiseChan_ring s k c) hs
  | raiseDev k => exact cellSound_congr (State.raiseDev_ring s k) hs
  | powerOn => exact nofun
  | _ => exact hs

/-- Settles O6, by what each change keeps of the flags, the run queue and the ring port, and by the starts that end a command
which arbitrates. -/
theorem stepKeepsFlagsAndQueueSound : Obligations.StepKeepsFlagsAndQueueSound := by
  unfold Obligations.StepKeepsFlagsAndQueueSound
  exact ⟨fun s t => step_keeps (fun _ _ _ => Change.flagsCounted) fun _ _ => id,
    fun s t => step_keeps (fun _ _ _ => Change.queueSound) fun _ _ => id,
    fun s t => step_engineSettled,
    fun s t => step_keeps (fun _ _ _ => Change.cellSound) fun _ _ => id⟩

/-! ### The timebase -/

theorem Change.tb_sound (h : Change a s t) (hs : s.tb.sound) : t.tb.sound := by
  cases h with
  | timebase f _ hf => exact hf hs
  | glide n hn => exact Timebase.moved_sound hs hn
  | supervise c => rwa [State.superviseOne_tb]
  | raiseChan k c => rwa [State.raiseChan_tb]
  | raiseDev k => rwa [State.raiseDev_tb]
  | powerOn => simp [State.poweredOn, Timebase.sound, Settings.sound_iff]
  | _ => exact hs

/-- Settles O7, by what each change keeps of the ranges of the timebase. -/
theorem stepKeepsTimebaseSound : Obligations.StepKeepsTimebaseSound := by
  unfold Obligations.StepKeepsTimebaseSound
  exact fun s t => step_keeps (fun _ _ _ => Change.tb_sound) fun _ _ => id

end Sys2Proof.Machine
end

