-- ==== Sys2Proof/Proofs/PairRoles.lean ====
section
/-! Pair roles: the slot that names a channel gives its role, and in a bank without PAIR_CONFLICT partners name each other (R52,
R172). -/

namespace Sys2Proof.Machine

namespace Bank

variable {b : Bank} {c p : Chan} {k : Fin 4}

/-- An active slot names a channel. -/
def names (b : Bank) (k : Fin 4) (c : Chan) : Prop :=
  (b.pairEntry k).active = true ∧ ((b.pairEntry k).leader = c ∨ (b.pairEntry k).follower = c)

/-- A slot that does not name a channel gives it no role. -/
theorem roleIn_of_not_names (h : ¬b.names k c) : b.roleIn k c = .lone := by
  unfold names at h
  unfold roleIn
  dsimp only
  split
  · next ha =>
    obtain ⟨hl, hf⟩ := not_or.mp fun h' => h ⟨ha, h'⟩
    rw [if_neg hl, if_neg hf]
  · rfl

/-- The leader's role in its slot. -/
theorem roleIn_leader (ha : (b.pairEntry k).active = true) (hl : (b.pairEntry k).leader = c) :
    b.roleIn k c = .leader k (b.pairEntry k).follower := by
  unfold roleIn
  dsimp only
  rw [if_pos ha, if_pos hl]

/-- The follower's role in its slot. -/
theorem roleIn_follower (ha : (b.pairEntry k).active = true) (hl : (b.pairEntry k).leader ≠ c)
    (hf : (b.pairEntry k).follower = c) : b.roleIn k c = .follower k (b.pairEntry k).leader := by
  unfold roleIn
  dsimp only
  rw [if_pos ha, if_neg hl, if_pos hf]

/-- A channel that at most one slot names has the role this slot gives it. -/
theorem role_eq_roleIn (h : ∀ j, j ≠ k → ¬b.names j c) : b.role c = b.roleIn k c := by
  have lone : ∀ j, j ≠ k → b.roleIn j c = .lone := fun j hj => roleIn_of_not_names (h j hj)
  unfold role
  match k with
  | 0 => rw [lone 1 (by decide), lone 2 (by decide), lone 3 (by decide)]; cases b.roleIn 0 c <;> rfl
  | 1 => rw [lone 0 (by decide), lone 2 (by decide), lone 3 (by decide)]; cases b.roleIn 1 c <;> rfl
  | 2 => rw [lone 0 (by decide), lone 1 (by decide), lone 3 (by decide)]; cases b.roleIn 2 c <;> rfl
  | 3 => rw [lone 0 (by decide), lone 1 (by decide), lone 2 (by decide)]

/-- A channel that no slot names is a lone one. -/
theorem role_lone (h : ∀ k, ¬b.names k c) : b.role c = .lone :=
  (role_eq_roleIn (k := 0) fun j _ => h j).trans (roleIn_of_not_names (h 0))

/-- The role of a channel is one that some slot gives it. -/
theorem exists_role_eq_roleIn (b : Bank) (c : Chan) : ∃ k, b.role c = b.roleIn k c := by
  unfold role
  split
  · split
    · split
      · exact ⟨3, rfl⟩
      · exact ⟨2, rfl⟩
    · exact ⟨1, rfl⟩
  · exact ⟨0, rfl⟩

/-- A leader's slot is active and names it and its partner. -/
theorem pairEntry_of_leader (h : b.role c = .leader k p) :
    (b.pairEntry k).active = true ∧ (b.pairEntry k).leader = c ∧ (b.pairEntry k).follower = p := by
  obtain ⟨j, hj⟩ := b.exists_role_eq_roleIn c
  rw [h] at hj
  unfold roleIn at hj
  dsimp only at hj
  split at hj
  · next ha =>
    split at hj
    · next hl => cases hj; exact ⟨ha, hl, rfl⟩
    · split at hj <;> cases hj
  · cases hj

/-- A follower's slot is active and names it and its partner. -/
theorem pairEntry_of_follower (h : b.role c = .follower k p) :
    (b.pairEntry k).active = true ∧ (b.pairEntry k).leader = p ∧ (b.pairEntry k).follower = c := by
  obtain ⟨j, hj⟩ := b.exists_role_eq_roleIn c
  rw [h] at hj
  unfold roleIn at hj
  dsimp only at hj
  split at hj
  · next ha =>
    split at hj
    · cases hj
    · split at hj
      · next hf => cases hj; exact ⟨ha, rfl, hf⟩
      · cases hj
  · cases hj

/-! ### Banks without PAIR_CONFLICT (R172) -/

/-- What PAIR_CONFLICT asks of an active slot. -/
structure SlotSound (b : Bank) (k : Fin 4) : Prop where
  differ : (b.pairEntry k).leader ≠ (b.pairEntry k).follower
  leader_inUse : (b.record (b.pairEntry k).leader).inUse = true
  follower_inUse : (b.record (b.pairEntry k).follower).inUse = true
  earlier : ∀ j < k, ¬b.names j (b.pairEntry k).leader ∧ ¬b.names j (b.pairEntry k).follower
  cpr : (b.record (b.pairEntry k).leader).cpr = (b.record (b.pairEntry k).follower).cpr
  shifted : (b.record (b.pairEntry k).leader).shifted = (b.record (b.pairEntry k).follower).shifted

/-- A slot fails PAIR_CONFLICT exactly where it is active and not sound. -/
theorem slotConflict_eq_false_iff : b.slotConflict k = false ↔ ((b.pairEntry k).active = true → b.SlotSound k) := by
  have earlier : ((List.finRange 4).any (fun j => decide (j < k) && (b.pairEntry j).active &&
        ((b.pairEntry j).has (b.pairEntry k).leader || (b.pairEntry j).has (b.pairEntry k).follower))) = false ↔
      ∀ j < k, ¬b.names j (b.pairEntry k).leader ∧ ¬b.names j (b.pairEntry k).follower := by
    simp only [List.any_eq_false, List.mem_finRange, true_imp_iff, PairEntry.has, names, Bool.and_eq_true,
      decide_eq_true_eq, Bool.or_eq_true, not_and, and_imp]
    exact ⟨fun h j hj => ⟨fun ha hn => h j hj ha (.inl hn), fun ha hn => h j hj ha (.inr hn)⟩,
      fun h j hj ha hn => hn.elim ((h j hj).1 ha) ((h j hj).2 ha)⟩
  unfold slotConflict
  dsimp only
  cases ha : (b.pairEntry k).active with
  | false => simp
  | true =>
    simp only [Bool.true_and, Bool.or_eq_false_iff, decide_eq_false_iff_not, earlier, Bool.not_eq_eq_eq_not, Bool.not_false,
      not_not, true_imp_iff]
    exact ⟨fun ⟨⟨⟨⟨⟨d, l⟩, f⟩, e⟩, cp⟩, sh⟩ => ⟨d, l, f, e, cp, sh⟩,
      fun ⟨d, l, f, e, cp, sh⟩ => ⟨⟨⟨⟨⟨d, l⟩, f⟩, e⟩, cp⟩, sh⟩⟩

/-- A bank has no PAIR_CONFLICT exactly where each active slot is sound. -/
theorem pairFault_eq_none_iff : b.pairFault = none ↔ ∀ k, (b.pairEntry k).active = true → b.SlotSound k := by
  simp only [pairFault, List.findSome?_eq_none_iff, List.mem_finRange, true_imp_iff, ← slotConflict_eq_false_iff,
    ite_eq_right_iff, reduceCtorEq, imp_false, Bool.not_eq_true]

/-- At most one slot names a channel. -/
theorem names_unique (h : b.pairFault = none) {j : Fin 4} (hk : b.names k c) (hj : b.names j c) : j = k := by
  have apart : ∀ {i m : Fin 4}, b.names m c → i < m → ¬b.names i c := fun {i m} hm him => by
    have sound := pairFault_eq_none_iff.mp h m hm.1
    obtain ⟨hl, hf⟩ := sound.earlier i him
    rcases hm.2 with rfl | rfl
    · exact hl
    · exact hf
  rcases lt_trichotomy j k with hjk | hjk | hjk
  · exact absurd hj (apart hk hjk)
  · exact hjk
  · exact absurd hk (apart hj hjk)

/-- In a bank without PAIR_CONFLICT a slot that names a channel gives its role. -/
theorem role_of_names (h : b.pairFault = none) (hk : b.names k c) : b.role c = b.roleIn k c :=
  role_eq_roleIn fun _ hj hn => hj (names_unique h hk hn)

/-- The partner of a leader is its follower. -/
theorem role_of_leader (h : b.pairFault = none) (hr : b.role c = .leader k p) : b.role p = .follower k c ∧ p ≠ c := by
  obtain ⟨ha, rfl, rfl⟩ := pairEntry_of_leader hr
  have differ := (pairFault_eq_none_iff.mp h k ha).differ
  exact ⟨(role_of_names h ⟨ha, .inr rfl⟩).trans (roleIn_follower ha differ rfl), differ.symm⟩

/-- The partner of a follower is its leader. -/
theorem role_of_follower (h : b.pairFault = none) (hr : b.role c = .follower k p) : b.role p = .leader k c ∧ p ≠ c := by
  obtain ⟨ha, rfl, rfl⟩ := pairEntry_of_follower hr
  have differ := (pairFault_eq_none_iff.mp h k ha).differ
  exact ⟨(role_of_names h ⟨ha, .inl rfl⟩).trans (roleIn_leader ha rfl), differ⟩

/-- Partners are each other's. -/
theorem partner_symm (h : b.pairFault = none) (hr : (b.role c).partner = some p) :
    (b.role p).partner = some c ∧ p ≠ c := by
  cases hc : b.role c with
  | lone => simp [hc, Role.partner] at hr
  | leader k q =>
    obtain rfl : q = p := by simpa [hc, Role.partner] using hr
    obtain ⟨hp, hne⟩ := role_of_leader h hc
    exact ⟨by rw [hp]; rfl, hne⟩
  | follower k q =>
    obtain rfl : q = p := by simpa [hc, Role.partner] using hr
    obtain ⟨hp, hne⟩ := role_of_follower h hc
    exact ⟨by rw [hp]; rfl, hne⟩

/-- Both members of a pair have their records in use (R172). -/
theorem inUse_of_partner (h : b.pairFault = none) (hr : (b.role c).partner = some p) :
    (b.record c).inUse = true ∧ (b.record p).inUse = true := by
  cases hc : b.role c with
  | lone => simp [hc, Role.partner] at hr
  | leader k q =>
    obtain rfl : q = p := by simpa [hc, Role.partner] using hr
    obtain ⟨ha, rfl, rfl⟩ := pairEntry_of_leader hc
    have sound := pairFault_eq_none_iff.mp h k ha
    exact ⟨sound.leader_inUse, sound.follower_inUse⟩
  | follower k q =>
    obtain rfl : q = p := by simpa [hc, Role.partner] using hr
    obtain ⟨ha, rfl, rfl⟩ := pairEntry_of_follower hc
    have sound := pairFault_eq_none_iff.mp h k ha
    exact ⟨sound.follower_inUse, sound.leader_inUse⟩

end Bank

end Sys2Proof.Machine
end

