-- ==== Sys2Proof/Proofs/BankChecks.lean ====
section
/-! The banks in force through every step: the active bank has passed the checks of a swap, and fine counts stay below the
effective cpr (R106, R110, R111, R169 to R175). -/

namespace Sys2Proof.Machine

/-! ### Scans -/

/-- A scan that finds nothing finds nothing in any channel. -/
theorem scanChans_eq_none_iff {f : Chan → Option (Nat × Nat)} : scanChans f = none ↔ ∀ c, f c = none := by
  simp [scanChans]

/-- No entry is false exactly where all are true. -/
theorem firstFalse_eq_none_iff {l : List Bool} : firstFalse l = none ↔ ∀ x ∈ l, x = true := by
  induction l with
  | nil => simp [firstFalse]
  | cons x l ih => cases x <;> simp [firstFalse, ih]

/-- A record in use without a LIMITS fault has each of its fields within its in-use range (R171 test 1). -/
theorem Bank.groupsInUse_of_limits {b : Bank} {c : Chan} (h : b.limitsFault c = none) (hu : (b.record c).inUse = true) :
    ∀ x ∈ (b.record c).groupsInUse, x = true := by
  unfold Bank.limitsFault at h
  dsimp only at h
  rw [if_pos hu] at h
  split at h
  · cases h
  next hn => exact firstFalse_eq_none_iff.mp hn

/-- The effective cpr of every channel of a checked bank is above 0 (R106). -/
theorem Bank.checked.effectiveCpr_pos {b : Bank} (h : b.checked) (c : Chan) : 0 < (b.record c).effectiveCpr := by
  unfold Record.effectiveCpr
  split
  · next hu =>
    have fields := Bank.groupsInUse_of_limits (scanChans_eq_none_iff.mp h.2.1 c) hu
    have cpr := fields (inRange 16 16777216 (b.record c).cpr && inRange 1 64 (b.record c).polePairs)
      (by simp [Record.groupsInUse])
    simp only [inRange, Bool.and_eq_true, decide_eq_true_eq] at cpr
    omega
  · decide

/-- A bank without a record in use or an active slot passes every check. -/
theorem Bank.checked_of_unused {b : Bank} (hr : ∀ c, (b.record c).inUse = false) (hp : ∀ k, (b.pairEntry k).active = false) :
    b.checked := by
  refine ⟨scanChans_eq_none_iff.mpr fun c => ?_, scanChans_eq_none_iff.mpr fun c => ?_,
    Bank.pairFault_eq_none_iff.mpr fun k ha => ?_⟩
  · exact if_neg (by simp [hr])
  · exact if_neg (by simp [hr])
  · exact absurd (ha.symm.trans (hp k)) (by decide)

/-- A row of equal groups has this group at every place, and beyond its end the zeros of an absent one. -/
theorem getD_replicate_default (n i : Nat) : (Vector.replicate n ({} : Group))[i]?.getD {} = {} := by
  rw [Vector.getElem?_replicate]
  split <;> rfl

/-- Every group of an empty bank is zero. -/
theorem Bank.group_empty (t i : Nat) : Bank.group {} t i = {} := by
  unfold Bank.group
  split
  · exact getD_replicate_default _ _
  · exact getD_replicate_default _ _
  · exact getD_replicate_default _ _
  · exact getD_replicate_default _ _
  · split
    · rfl
    · exact getD_replicate_default _ _
  · rfl

/-- No record of an empty bank is in use. -/
theorem Bank.record_empty_inUse (c : Chan) : (Bank.record {} c).inUse = false := by
  show (Bank.group {} 0 _).w0.getLsbD 0 = false
  rw [Bank.group_empty]
  rfl

/-- An empty bank passes every check. -/
theorem Bank.checked_empty : Bank.checked {} :=
  Bank.checked_of_unused Bank.record_empty_inUse fun k => by
    show (Bank.group {} 3 _).w0.getLsbD 15 = false
    rw [Bank.group_empty]
    rfl

/-! ### The store through the changes -/

variable {a : Bool} {s t : State}

theorem banksChecked_congr (h : t.store = s.store) (hs : s.banksChecked) : t.banksChecked := by
  unfold State.banksChecked State.bank State.shadow at *
  rwa [h]

/-- A checked active bank with no swap pending. -/
theorem banksChecked_of_active (h : t.bank.checked) (hp : t.store.swapPending = false) : t.banksChecked :=
  ⟨h, fun ht => absurd (hp.symm.trans ht) (by decide)⟩

/-- An abandoned copy writes the shadow alone (R168). -/
theorem Store.abandonCopy_bank (x : Store) (n : Nat) :
    (x.abandonCopy n).active = x.active ∧ (x.abandonCopy n).bank x.active = x.bank x.active := by
  unfold Store.abandonCopy
  split
  · exact ⟨rfl, rfl⟩
  · dsimp only
    cases h : x.active <;> simp [Store.setBank, Store.setState, Store.shadowName, BankName.other, Store.bank, h]

theorem State.restartBlocks_bank (s : State) : s.restartBlocks.bank = s.bank := by
  obtain ⟨active, bank⟩ := s.store.abandonCopy_bank s.free
  unfold State.bank
  show (s.store.abandonCopy s.free).bank (s.store.abandonCopy s.free).active = _
  rw [active, bank]

/-- After a swap the old shadow is active (R175). -/
theorem State.exchanged_bank (s : State) : s.exchanged.bank = s.shadow := by
  unfold State.exchanged State.bank State.shadow
  cases h : s.store.active <;> simp [Store.swapped, Store.shadowName, Store.setState, Store.bank, BankName.other, h]

theorem Change.banksChecked (h : Change a s t) (hs : s.banksChecked) : t.banksChecked := by
  cases h with
  | store x _ hc => exact hc hs
  | swap hp => exact banksChecked_of_active (s.exchanged_bank ▸ (hs.2 hp).1) rfl
  | restart => exact banksChecked_of_active (s.restartBlocks_bank ▸ hs.1) rfl
  | powerOn => exact banksChecked_of_active Bank.checked_empty rfl
  | supervise c => exact banksChecked_congr (State.superviseOne_store s c) hs
  | raiseChan k c => exact banksChecked_congr (State.raiseChan_store s k c) hs
  | raiseDev k => exact banksChecked_congr (State.raiseDev_store s k) hs
  | _ => exact hs

/-! ### The counts through the changes -/

/-- Counts and effective cprs as they were. -/
theorem countsBelowCpr_congr (hp : ∀ c, (t.pos.get c).fine = (s.pos.get c).fine) (hb : t.bank = s.bank)
    (hs : s.countsBelowCpr) : t.countsBelowCpr := fun c => by
  rw [hp, State.record, hb]
  exact hs c

/-- A count reduced for a new effective cpr is below it, and the old count where the cpr stays (R111). -/
theorem Position.newCpr_lt {p : Position} {old new : Nat} (hp : p.fine < old) (hn : 0 < new) :
    (p.newCpr old new).fine < new := by
  unfold Position.newCpr
  split
  · next h => exact h ▸ hp
  · dsimp only
    split
    · exact Nat.mod_lt _ hn
    · next h => exact Nat.lt_of_not_le h

theorem Change.countsBelowCpr (h : Change a s t) (hb : s.banksChecked) (hs : s.countsBelowCpr) : t.countsBelowCpr := by
  cases h with
  | position v hv => exact fun c => hv c (hs c)
  | store x hx => exact countsBelowCpr_congr (s := s) (fun _ => rfl) hx hs
  | glide n => exact countsBelowCpr_congr (s := s) (fun c => by rw [State.glide_pos_get]; rfl) rfl hs
  | swap hp =>
    intro c
    rw [State.record, State.exchanged_bank, State.exchanged, PerChan.get_ofFn]
    exact Position.newCpr_lt (hs c) ((hb.2 hp).1.effectiveCpr_pos c)
  | restart => exact countsBelowCpr_congr (s := s) (fun _ => rfl) s.restartBlocks_bank hs
  | powerOn straps =>
    intro c
    have unused : (State.record (s.poweredOn straps) c).inUse = false := Bank.record_empty_inUse c
    rw [Record.effectiveCpr, unused, State.poweredOn, PerChan.get_ofFn]
    exact Nat.zero_lt_succ _
  | supervise c =>
    exact countsBelowCpr_congr (fun _ => by rw [State.superviseOne_pos]) (State.bank_congr (State.superviseOne_store s c)) hs
  | raiseChan k c =>
    exact countsBelowCpr_congr (fun _ => by rw [State.raiseChan_pos]) (State.bank_congr (State.raiseChan_store s k c)) hs
  | raiseDev k =>
    exact countsBelowCpr_congr (fun _ => by rw [State.raiseDev_pos]) (State.bank_congr (State.raiseDev_store s k)) hs
  | _ => exact hs

/-- Settles O8: every change keeps the banks checked, and with checked banks the counts below their cpr. -/
theorem stepKeepsBanksChecked : Obligations.StepKeepsBanksChecked := by
  unfold Obligations.StepKeepsBanksChecked
  refine ⟨fun s t => step_keeps (fun _ _ _ => Change.banksChecked) fun _ _ => id, fun s t hb hs h => ?_⟩
  exact (step_keeps (q := fun x => x.banksChecked ∧ x.countsBelowCpr)
    (fun _ _ _ h hq => ⟨h.banksChecked hq.1, h.countsBelowCpr hq.1 hq.2⟩) (fun _ _ => id) ⟨hb, hs⟩ h).2

end Sys2Proof.Machine
end

