-- ==== Sys2Proof/Proofs/PairsAlike.lean ====
section
/-! Pairs move as one: with checked banks every change treats the members of a pair alike, and leaves causes in HOLD only (R123,
R124). -/

namespace Sys2Proof.Machine

/-! ### Two supervisors, and the members of a pair -/

/-- Two supervisors share what the members of a pair share (R124). -/
structure Supervisor.Alike (u v : Supervisor) : Prop where
  st : v.st = u.st
  causes : v.causes = u.causes
  chargeCount : v.chargeCount = u.chargeCount

/-- A supervisor has causes in HOLD only (R123). -/
abbrev Supervisor.Settled (u : Supervisor) : Prop := u.st ≠ .hold → u.causes = {}

theorem State.pairsAlike_iff (s : State) : s.pairsAlike ↔
    (∀ c, (s.sup.get c).Settled) ∧ ∀ c p, (s.role c).partner = some p → (s.sup.get c).Alike (s.sup.get p) :=
  and_congr_right' ⟨fun h c p hp => ⟨(h c p hp).1, (h c p hp).2.1, (h c p hp).2.2⟩,
    fun h c p hp => ⟨(h c p hp).st, (h c p hp).causes, (h c p hp).chargeCount⟩⟩

theorem Supervisor.Alike.symm {u v : Supervisor} (h : u.Alike v) : v.Alike u := ⟨h.st.symm, h.causes.symm, h.chargeCount.symm⟩

theorem Supervisor.Alike.enterTrip {u v : Supervisor} (h : u.Alike v) : u.enterTrip.Alike v.enterTrip := ⟨rfl, rfl, h.chargeCount⟩

theorem Supervisor.Alike.takeReported {u v : Supervisor} (h : u.Alike v) : u.takeReported.Alike v.takeReported :=
  ⟨by simp [Supervisor.takeReported, h.st, h.causes], by simp [Supervisor.takeReported, h.causes], h.chargeCount⟩

theorem Supervisor.Alike.addCauses {u v : Supervisor} (h : u.Alike v) (x : Causes) : (u.addCauses x).Alike (v.addCauses x) := by
  unfold Supervisor.addCauses
  rw [h.st, h.causes]
  split
  · exact h
  · split
    · exact ⟨rfl, rfl, h.chargeCount⟩
    · exact h

theorem Causes.union_comm (x y : Causes) : x.union y = y.union x := by
  simp [Causes.union, Bool.or_comm]

theorem Causes.eq_empty_of_isEmpty {x : Causes} (h : x.isEmpty = true) : x = {} := by
  obtain ⟨stale, ring, routed⟩ := x
  simp_all [Causes.isEmpty]

/-- A take keeps causes in HOLD only. -/
theorem Supervisor.Settled.takeReported {u : Supervisor} (h : u.Settled) : u.takeReported.Settled := by
  intro out
  by_cases left : u.st = .hold ∧ Causes.isEmpty { u.causes with stale := false } = true
  · exact Causes.eq_empty_of_isEmpty left.2
  · have same : u.st ≠ .hold := by rwa [Supervisor.takeReported, if_neg left] at out
    show { u.causes with stale := false } = _
    rw [h same]

/-- A hold leaves causes in HOLD only. -/
theorem Supervisor.Settled.addCauses {u : Supervisor} (h : u.Settled) (x : Causes) : (u.addCauses x).Settled := by
  unfold Supervisor.addCauses
  split
  · exact h
  · split
    · exact fun out => absurd rfl out
    · exact h

section
variable {s t : State} {a : Bool}

/-! ### What the actions on a pair make of its members -/

/-- In a checked bank partners name each other. -/
theorem State.partner_symm (hb : s.banksChecked) {c p : Chan} (h : (s.role c).partner = some p) :
    (s.role p).partner = some c ∧ p ≠ c :=
  Bank.partner_symm hb.1.2.2 h

/-- The unit of a channel holds both members of a pair or none. -/
theorem State.inUnit_partner (hb : s.banksChecked) {c p : Chan} (h : (s.role c).partner = some p) (d : Chan) :
    s.inUnit d p = s.inUnit d c := by
  have back := (s.partner_symm hb h).1
  rw [Bool.eq_iff_iff, s.inUnit_iff, s.inUnit_iff]
  constructor
  · rintro (rfl | hd)
    · exact .inr back
    · exact .inl (Option.some_inj.mp (((s.partner_symm hb hd).1.symm.trans back).symm))
  · rintro (rfl | hd)
    · exact .inr h
    · exact .inl (Option.some_inj.mp (((s.partner_symm hb hd).1.symm.trans h).symm))

/-- The channels of a unit are in its channel's state. -/
theorem State.st_of_inUnit (hs : s.pairsAlike) {c d : Chan} (h : s.inUnit d c = true) : s.st c = s.st d := by
  rcases (s.inUnit_iff d c).mp h with rfl | hp
  · rfl
  · exact (hs.2 d c hp).1

/-- A trip reaches both members of a pair or none. -/
theorem State.tripReach_partner (hb : s.banksChecked) {c p : Chan} (h : (s.role c).partner = some p)
    (f : Chan → Option Via) : (s.tripReach f p).isSome = (s.tripReach f c).isSome := by
  have back := (s.partner_symm hb h).1
  unfold State.tripReach
  rw [h, back]
  cases hc : f c <;> cases hp : f p <;> simp [hc, hp]

/-- A trip takes both members of a pair or none. -/
theorem State.tripTakes_partner (hb : s.banksChecked) (hs : s.pairsAlike) {c p : Chan}
    (h : (s.role c).partner = some p) : s.tripTakes p = s.tripTakes c := by
  obtain ⟨hc, hp⟩ := Bank.inUse_of_partner hb.1.2.2 h
  unfold State.tripTakes State.record
  rw [hc, hp, (hs.2 c p h).1]

/-- A hold gives both members of a pair the same causes. -/
theorem State.holdReach_partner (hb : s.banksChecked) {c p : Chan} (h : (s.role c).partner = some p)
    (f : Chan → Causes) : s.holdReach f p = s.holdReach f c := by
  unfold State.holdReach
  rw [h, (s.partner_symm hb h).1]
  exact Causes.union_comm _ _

/-- A trip-class flag stands near both members of a pair or near none. -/
theorem State.tripFlagNear_partner (hb : s.banksChecked) {c p : Chan} (h : (s.role c).partner = some p) :
    s.tripFlagNear p = s.tripFlagNear c := by
  unfold State.tripFlagNear
  rw [h, (s.partner_symm hb h).1, Bool.or_right_comm, Bool.or_comm (s.chanTripFlag p), Bool.or_right_comm]

/-- A flag holds both members of a pair or none. -/
theorem State.flagHoldsUnit_partner (hb : s.banksChecked) {c p : Chan} (h : (s.role c).partner = some p) :
    s.flagHoldsUnit p = s.flagHoldsUnit c := by
  unfold State.flagHoldsUnit
  rw [h, (s.partner_symm hb h).1]
  exact Bool.or_comm _ _

/-! ### The shapes of a change of supervisors -/

/-- Pairs stay alike where roles stay and each supervisor changes by one rule for both members of a pair. -/
theorem pairsAlike_of (hr : ∀ c, t.role c = s.role c) (hs : s.pairsAlike)
    (settled : ∀ c, (s.sup.get c).Settled → (t.sup.get c).Settled)
    (alike : ∀ c p, (s.role c).partner = some p → (s.sup.get c).Alike (s.sup.get p) →
      (t.sup.get c).Alike (t.sup.get p)) : t.pairsAlike := by
  rw [State.pairsAlike_iff] at hs ⊢
  exact ⟨fun c => settled c (hs.1 c), fun c p hp => alike c p (hr c ▸ hp) (hs.2 c p (hr c ▸ hp))⟩

/-- Roles and supervisors as they were. -/
theorem pairsAlike_congr (hr : ∀ c, t.role c = s.role c) (hsup : t.sup = s.sup) (hs : s.pairsAlike) : t.pairsAlike :=
  pairsAlike_of hr hs (fun _ h => hsup ▸ h) fun _ _ _ h => hsup ▸ h

/-- The supervisors of one unit change alike. -/
theorem pairsAlike_unit (hb : s.banksChecked) (hs : s.pairsAlike) (hr : ∀ c, t.role c = s.role c) {d : Chan}
    {f : Supervisor → Supervisor}
    (hsup : ∀ c, t.sup.get c = if s.inUnit d c then f (s.sup.get c) else s.sup.get c)
    (settled : ∀ u : Supervisor, u.st = s.st d → u.Settled → (f u).Settled)
    (alike : ∀ u v : Supervisor, u.Alike v → (f u).Alike (f v)) : t.pairsAlike := by
  refine pairsAlike_of hr hs (fun c h => ?_) fun c p hp h => ?_
  · rw [hsup]
    split
    · next hu => exact settled _ (s.st_of_inUnit hs hu) h
    · exact h
  · rw [hsup, hsup, s.inUnit_partner hb hp]
    split
    · exact alike _ _ h
    · exact h

/-- A raise trips both members of a pair or none, and holds them with the same causes (R124, R136, R130). -/
theorem pairsAlike_raise (hb : s.banksChecked) (hs : s.pairsAlike) (hr : ∀ c, t.role c = s.role c)
    {f : Chan → Option Via} {g : Chan → Causes}
    (hsup : ∀ c, t.sup.get c = (if (s.tripReach f c).isSome && s.tripTakes c then (s.sup.get c).enterTrip
      else s.sup.get c).addCauses (s.holdReach g c)) : t.pairsAlike := by
  refine pairsAlike_of hr hs (fun c h => ?_) fun c p hp h => ?_
  · rw [hsup]
    have settled : (if (s.tripReach f c).isSome && s.tripTakes c then (s.sup.get c).enterTrip else s.sup.get c).Settled := by
      split
      · exact fun _ => rfl
      · exact h
    exact settled.addCauses _
  · rw [hsup, hsup, s.tripReach_partner hb hp, s.tripTakes_partner hb hs hp, s.holdReach_partner hb hp]
    split
    · exact h.enterTrip.addCauses _
    · exact h.addCauses _

/-! ### The changes -/

theorem State.superviseOne_pairsAlike (hb : s.banksChecked) (hs : s.pairsAlike) (d : Chan) : (s.superviseOne d).pairsAlike := by
  have hr : ∀ c, (s.superviseOne d).role c = s.role c := State.role_congr (State.superviseOne_store s d)
  obtain ⟨-, -, h⟩ | ⟨hc, -, -, h⟩ | ⟨hc, -, -, h⟩ | ⟨hc, h⟩ | ⟨-, -, h⟩ := s.superviseOne_cases d
  · exact pairsAlike_congr hr (by rw [h]; rfl) hs
  · exact pairsAlike_unit hb hs hr (d := d) (f := fun u => { u with chargeCount := s.nextCharge d })
      (fun c => by rw [h]; exact s.unitSup_get d c _) (fun u _ hu => hu) fun u v h => ⟨h.st, h.causes, rfl⟩
  · refine pairsAlike_unit hb hs hr (d := d) (f := fun u => { u with chargeCount := s.nextCharge d, st := .run })
      (fun c => ?_) (fun u hst hu _ => hu (by rw [hst, hc]; decide)) fun u v h => ⟨rfl, h.causes, rfl⟩
    rw [h, (State.enterRun_get _ d c).1]
    have unit : (s.setCharge d (s.nextCharge d)).inUnit d c = s.inUnit d c := rfl
    rw [unit]
    by_cases hu : s.inUnit d c = true
    · rw [if_pos hu, if_pos hu, State.setCharge, State.unitSup_get, if_pos hu]
    · rw [if_neg hu, if_neg hu, State.setCharge, State.unitSup_get, if_neg hu]
  · exact pairsAlike_unit hb hs hr (d := d) (f := fun u => { u with st := .off })
      (fun c => by rw [h]; exact (s.enterOff_get d c).1) (fun u hst hu _ => hu (by rw [hst, hc]; decide))
      fun u v h => ⟨rfl, h.causes, h.chargeCount⟩
  · exact pairsAlike_congr hr (by rw [h]) hs

/-- A role without a slot is that of a lone channel. -/
theorem Role.eq_lone {r : Role} (h : r.slot = none) : r = .lone := by
  cases r with
  | lone => rfl
  | leader | follower => cases h

/-- A channel that keeps its structure keeps its role (R173). -/
theorem structureDiff_role {x y : Bank} {c : Chan} (h : structureDiff x y c = none) : y.role c = x.role c := by
  unfold structureDiff at h
  dsimp only at h
  split at h
  · cases h
  · split at h
    · cases h
    · split at h
      · next e => exact e.symm
      · split at h
        · cases h
        · cases h
        · next hx hy =>
          rw [Role.eq_lone hx, Role.eq_lone hy]

/-- A swap takes effect where every channel not in OFF keeps its role (R173, R174). -/
theorem State.role_of_structureFault (hs : s.structureFault = none) {c : Chan} (hc : s.st c ≠ .off) :
    s.shadow.role c = s.role c := by
  have h := (scanChans_eq_none_iff.mp hs) c
  rw [if_neg hc] at h
  exact structureDiff_role h

/-- The members of a pair of the shadow are in one state when a swap takes effect, and share causes: the old pair's members
did, and new ones are in OFF. -/
theorem State.alike_in_shadow (hb : s.banksChecked) (hs : s.pairsAlike) (hp : s.store.swapPending = true)
    (hf : s.structureFault = none) {c p : Chan} (h : (s.shadow.role c).partner = some p) :
    s.st p = s.st c ∧ (s.sup.get p).causes = (s.sup.get c).causes := by
  have back := (Bank.partner_symm (hb.2 hp).1.2.2 h).1
  by_cases hc : s.st c = .off
  · by_cases ho : s.st p = .off
    · exact ⟨ho.trans hc.symm, (hs.1 p (by simp [ho])).trans (hs.1 c (by simp [hc])).symm⟩
    · obtain ⟨st, causes, -⟩ := hs.2 p c (s.role_of_structureFault hf ho ▸ back)
      exact ⟨st.symm, causes.symm⟩
  · obtain ⟨st, causes, -⟩ := hs.2 c p (s.role_of_structureFault hf hc ▸ h)
    exact ⟨st, causes⟩

/-- The state and the causes of a channel do not change at a swap. -/
theorem State.exchanged_sup_get (s : State) (c : Chan) :
    (s.exchanged.sup.get c).st = s.st c ∧ (s.exchanged.sup.get c).causes = (s.sup.get c).causes ∧
      (s.exchanged.sup.get c).chargeCount =
        match s.shadow.role c with
        | .follower _ p => (s.sup.get p).chargeCount
        | .lone | .leader _ _ => (s.sup.get c).chargeCount := by
  rw [State.exchanged, PerChan.get_ofFn, State.pairedSup]
  cases s.shadow.role c <;> exact ⟨rfl, rfl, rfl⟩

theorem State.exchanged_pairsAlike (hb : s.banksChecked) (hs : s.pairsAlike) (hp : s.store.swapPending = true)
    (hf : s.structureFault = none) : s.exchanged.pairsAlike := by
  have sup := s.exchanged_sup_get
  refine ⟨fun c hc => ?_, fun c p h => ?_⟩
  · rw [(sup c).2.1]
    exact hs.1 c ((sup c).1 ▸ hc)
  · rw [State.role, State.exchanged_bank] at h
    obtain ⟨st, causes⟩ := s.alike_in_shadow hb hs hp hf h
    refine ⟨(sup p).1.trans (st.trans (sup c).1.symm), (sup p).2.1.trans (causes.trans (sup c).2.1.symm), ?_⟩
    rw [(sup p).2.2, (sup c).2.2]
    have sound := (hb.2 hp).1.2.2
    cases hr : s.shadow.role c with
    | lone => rw [hr] at h; cases h
    | leader k q =>
      obtain rfl : q = p := by rw [hr] at h; exact Option.some_inj.mp h
      rw [(Bank.role_of_leader sound hr).1]
    | follower k q =>
      obtain rfl : q = p := by rw [hr] at h; exact Option.some_inj.mp h
      rw [(Bank.role_of_follower sound hr).1]

theorem State.pairsAlike_of_const {u : Supervisor} (h : ∀ c, t.sup.get c = u) (hu : u.Settled) : t.pairsAlike := by
  rw [State.pairsAlike_iff]
  exact ⟨fun c => h c ▸ hu, fun c p _ => by rw [h c, h p]; exact ⟨rfl, rfl, rfl⟩⟩

theorem Change.pairsAlike (h : Change a s t) (hb : s.banksChecked) (hs : s.pairsAlike) : t.pairsAlike := by
  cases h with
  | raiseChan k c => exact pairsAlike_raise hb hs (State.role_congr (State.raiseChan_store s k c)) (s.raiseChan_sup_get k c)
  | raiseDev k => exact pairsAlike_raise hb hs (State.role_congr (State.raiseDev_store s k)) (s.raiseDev_sup_get k)
  | judgeExit =>
    refine pairsAlike_of (s := s) (fun _ => rfl) hs (fun c h => ?_) fun c p hp h => ?_
    · rw [State.judgeExit, PerChan.get_ofFn]
      split
      · next hc => exact fun _ => h (by rw [show (s.sup.get c).st = _ from hc.1]; decide)
      · exact h
    · rw [State.judgeExit, PerChan.get_ofFn, PerChan.get_ofFn, s.tripFlagNear_partner hb hp, (hs.2 c p hp).1]
      split
      · exact ⟨rfl, h.causes, h.chargeCount⟩
      · exact h
  | judgeRouted =>
    refine pairsAlike_of (s := s) (fun _ => rfl) hs (fun c h => ?_) fun c p hp h => ?_
    · rw [State.judgeRouted, PerChan.get_ofFn]
      split
      · next hc => exact fun out => absurd hc.1 out
      · exact h
    · rw [State.judgeRouted, PerChan.get_ofFn, PerChan.get_ofFn, s.flagHoldsUnit_partner hb hp, (hs.2 c p hp).1]
      split
      · exact ⟨h.st, by rw [h.causes], h.chargeCount⟩
      · exact h
  | supervisors v g hg hv =>
    refine pairsAlike_of (s := s) (fun _ => rfl) hs (fun c h out => ?_) fun c p hp h => ?_
    · obtain ⟨st, causes, -⟩ := hv c
      exact causes.trans ((congrArg g (h (fun e => out (st.trans e)))).trans hg)
    · obtain ⟨st, causes, count⟩ := hv c
      obtain ⟨st', causes', count'⟩ := hv p
      exact ⟨st'.trans (h.st.trans st.symm), causes'.trans ((congrArg g h.causes).trans causes.symm),
        count'.trans (h.chargeCount.trans count.symm)⟩
  | enterCharge c =>
    exact pairsAlike_unit (s := s) hb hs (fun _ => rfl) (fun d => (s.enterCharge_get c d).1) (fun _ _ _ _ => rfl)
      fun _ _ _ => ⟨rfl, rfl, rfl⟩
  | enterStopping c =>
    exact pairsAlike_unit (s := s) hb hs (fun _ => rfl) (fun d => (s.enterStopping_get c d).1) (fun _ _ _ _ => rfl)
      fun _ _ h => ⟨rfl, rfl, h.chargeCount⟩
  | takeReported c =>
    exact pairsAlike_unit (s := s) hb hs (fun _ => rfl) (fun d => s.unitSup_get c d _) (fun _ _ h => h.takeReported)
      fun _ _ h => h.takeReported
  | supervise c => exact s.superviseOne_pairsAlike hb hs c
  | store x hx => exact pairsAlike_congr (fun c => congrArg (fun b : Bank => b.role c) hx) rfl hs
  | swap hp hf => exact s.exchanged_pairsAlike hb hs hp hf
  | restart => exact State.pairsAlike_of_const (fun c => PerChan.get_const _ c) fun _ => rfl
  | powerOn => exact State.pairsAlike_of_const (fun c => PerChan.get_const _ c) fun _ => rfl
  | _ => exact pairsAlike_congr (s := s) (fun _ => rfl) rfl hs

/-- Settles O9: every change keeps the banks checked and the members of a pair alike. -/
theorem stepKeepsPairsAlike : Obligations.StepKeepsPairsAlike := by
  unfold Obligations.StepKeepsPairsAlike
  intro s t hb hs h
  exact (step_keeps (q := fun x => x.banksChecked ∧ x.pairsAlike)
    (fun _ _ _ h hq => ⟨h.banksChecked hq.1, h.pairsAlike hq.1 hq.2⟩) (fun _ _ => id) ⟨hb, hs⟩ h).2

end

end Sys2Proof.Machine
end

