-- ==== Sys2Proof/Proofs/TripRecords.lean ====
section
/-! A trip record stands exactly in TRIP (R150), and gate states follow channel states (R87), through every change. -/

namespace Sys2Proof.Machine

variable {s t : State} {a : Bool}

/-! ### Trip records (R150, R152) -/

/-- A trip record within its bounds (R150). -/
abbrev TripRecord.Bounded (r : TripRecord) : Prop := r.secondary.length ≤ 3 ∧ r.overflow ≤ 255

theorem TripRecord.Bounded.addSecondary {r : TripRecord} (h : r.Bounded) (code : Nat) (cycle : Word) :
    (r.addSecondary code cycle).Bounded := by
  unfold TripRecord.addSecondary
  split
  · next short => exact ⟨by simpa using short, h.2⟩
  · exact ⟨h.1, Nat.min_le_left _ _⟩

/-- A channel has its trip record exactly in TRIP, within its bounds. -/
abbrev TripRecorded (r : Option TripRecord) (u : Supervisor) : Prop :=
  (r.isSome = true ↔ u.st = .trip) ∧ ∀ x ∈ r, x.Bounded

/-- A trip record and a state that stay, or a state that stays out of TRIP. -/
theorem TripRecorded.congr {r : Option TripRecord} {u v : Supervisor} (h : TripRecorded r u)
    (hv : v.st = .trip ↔ u.st = .trip) : TripRecorded r v :=
  ⟨h.1.trans hv.symm, h.2⟩

/-- A hold neither enters nor leaves TRIP. -/
theorem Supervisor.addCauses_trip_iff (u : Supervisor) (x : Causes) : (u.addCauses x).st = .trip ↔ u.st = .trip := by
  unfold Supervisor.addCauses
  split
  · rfl
  · split
    · next hc => exact ⟨fun h => (by cases h), fun h => by rw [h] at hc; cases hc⟩
    · rfl

/-- A trip record is written where a trip takes a channel, and gains secondary causes in TRIP. -/
theorem State.tripRecordAfter_recorded {c : Chan} (h : TripRecorded (s.router.trips.get c) (s.sup.get c)) (code : Nat)
    (via : Via) :
    TripRecorded (s.tripRecordAfter code via c) (if s.tripTakes c then (s.sup.get c).enterTrip else s.sup.get c) := by
  unfold State.tripRecordAfter
  split
  · exact ⟨⟨fun _ => rfl, fun _ => rfl⟩, by simp [TripRecord.Bounded]⟩
  · refine ⟨by rw [Option.isSome_map]; exact h.1, fun x hx => ?_⟩
    obtain ⟨r, hr, rfl⟩ := Option.mem_map.mp hx
    split
    · exact (h.2 r hr).addSecondary _ _
    · exact h.2 r hr

/-- A raise records the trips it causes. -/
theorem tripsRecorded_raise (hs : s.tripsRecorded) {f : Chan → Option Via} {g : Chan → Causes} {code : Nat}
    (hsup : ∀ c, t.sup.get c = (if (s.tripReach f c).isSome && s.tripTakes c then (s.sup.get c).enterTrip
      else s.sup.get c).addCauses (s.holdReach g c))
    (htrips : ∀ c, t.router.trips.get c =
      match s.tripReach f c with
      | some v => s.tripRecordAfter code v c
      | none => s.router.trips.get c) : t.tripsRecorded := by
  intro c
  show TripRecorded (t.router.trips.get c) (t.sup.get c)
  rw [hsup, htrips]
  refine TripRecorded.congr ?_ (Supervisor.addCauses_trip_iff _ _)
  cases s.tripReach f c with
  | some v => exact s.tripRecordAfter_recorded (hs c) code v
  | none => exact hs c

/-- Trip records as they were, and no channel enters or leaves TRIP. -/
theorem tripsRecorded_congr (htrips : t.router.trips = s.router.trips) (hst : ∀ c, t.st c = .trip ↔ s.st c = .trip)
    (hs : s.tripsRecorded) : t.tripsRecorded := fun c => by
  rw [htrips]
  exact TripRecorded.congr (hs c) (hst c)

/-- A unit outside TRIP changes to a state outside TRIP. -/
theorem tripsRecorded_unit (ha : s.pairsAlike) (htrips : t.router.trips = s.router.trips) {d : Chan}
    {f : Supervisor → Supervisor} (hsup : ∀ c, t.sup.get c = if s.inUnit d c then f (s.sup.get c) else s.sup.get c)
    (hf : ∀ u : Supervisor, u.st = s.st d → ((f u).st = .trip ↔ u.st = .trip)) (hs : s.tripsRecorded) :
    t.tripsRecorded := by
  refine tripsRecorded_congr htrips (fun c => ?_) hs
  rw [State.st, hsup]
  split
  · next hu => exact hf _ (s.st_of_inUnit ha hu)
  · rfl

/-- No channel in TRIP and no trip record. -/
theorem tripsRecorded_empty (hsup : ∀ c, (t.sup.get c).st = .off) (htrips : ∀ c, t.router.trips.get c = none) :
    t.tripsRecorded := fun c => by
  rw [State.st, hsup, htrips]
  simp

/-- The supervisor's act at a valley changes the state of a unit, or no state. -/
theorem State.superviseOne_st (s : State) (d c : Chan) :
    (s.superviseOne d).st c = s.st c ∨
      (s.inUnit d c = true ∧ (s.st d = .charge ∧ (s.superviseOne d).st c = .run ∨
        s.st d = .stopping ∧ (s.superviseOne d).st c = .off)) := by
  obtain ⟨-, -, h⟩ | ⟨-, -, -, h⟩ | ⟨hc, -, -, h⟩ | ⟨hc, h⟩ | ⟨-, -, h⟩ := s.superviseOne_cases d <;> rw [h]
  · exact .inl rfl
  · left
    rw [State.st, State.setCharge, State.unitSup_get]
    split <;> rfl
  · have unit : (s.setCharge d (s.nextCharge d)).inUnit d c = s.inUnit d c := rfl
    rw [State.st, (State.enterRun_get _ d c).1, unit]
    split
    · next hu => exact .inr ⟨hu, .inl ⟨hc, rfl⟩⟩
    · next hu => exact .inl (by rw [State.setCharge, State.unitSup_get, if_neg hu]; rfl)
  · rw [State.st, (s.enterOff_get d c).1]
    split
    · next hu => exact .inr ⟨hu, .inr ⟨hc, rfl⟩⟩
    · exact .inl rfl
  · exact .inl rfl

theorem State.superviseOne_trips (s : State) (d : Chan) : (s.superviseOne d).router = s.router := by
  obtain ⟨-, -, h⟩ | ⟨-, -, -, h⟩ | ⟨-, -, -, h⟩ | ⟨-, h⟩ | ⟨-, -, h⟩ := s.superviseOne_cases d <;> rw [h]
  all_goals simp

theorem Change.tripsRecorded (h : Change a s t) (ha : s.pairsAlike) (hs : s.tripsRecorded) : t.tripsRecorded := by
  cases h with
  | raiseChan k c => exact tripsRecorded_raise hs (s.raiseChan_sup_get k c) (s.raiseChan_trips_get k c)
  | raiseDev k => exact tripsRecorded_raise hs (s.raiseDev_sup_get k) (s.raiseDev_trips_get k)
  | judgeExit =>
    intro c
    rw [State.judgeExit, State.st, PerChan.get_ofFn, PerChan.get_ofFn]
    split
    · simp
    · exact hs c
  | judgeRouted =>
    refine tripsRecorded_congr (s := s) rfl (fun c => ?_) hs
    rw [State.judgeRouted, State.st, PerChan.get_ofFn]
    split <;> rfl
  | supervisors v g hg hv => exact tripsRecorded_congr (s := s) rfl (fun c => by rw [State.st, (hv c).1]) hs
  | enterCharge c ho =>
    exact tripsRecorded_unit (s := s) ha rfl (fun d => (s.enterCharge_get c d).1)
      (fun u hu => by rw [hu, ho]; exact ⟨nofun, nofun⟩) hs
  | enterStopping c ho =>
    refine tripsRecorded_unit (s := s) ha rfl (fun d => (s.enterStopping_get c d).1) (fun u hu => ?_) hs
    rw [hu]
    rcases ho with ho | ho | ho <;> rw [ho] <;> exact ⟨nofun, nofun⟩
  | takeReported c =>
    refine tripsRecorded_unit (s := s) ha rfl (fun d => s.unitSup_get c d _) (fun u _ => ?_) hs
    unfold Supervisor.takeReported
    dsimp only
    split
    · next hold => rw [hold.1]; exact ⟨nofun, nofun⟩
    · rfl
  | supervise d =>
    refine tripsRecorded_congr (by rw [s.superviseOne_trips]) (fun c => ?_) hs
    obtain h | ⟨hu, ⟨hd, h⟩ | ⟨hd, h⟩⟩ := s.superviseOne_st d c
    · rw [h]
    · rw [h, s.st_of_inUnit ha hu, hd]; exact ⟨nofun, nofun⟩
    · rw [h, s.st_of_inUnit ha hu, hd]; exact ⟨nofun, nofun⟩
  | swap => exact tripsRecorded_congr (s := s) rfl (fun c => by rw [State.st, (s.exchanged_sup_get c).1]) hs
  | restart => exact tripsRecorded_empty (fun c => by simp [State.restartBlocks]) fun c => by simp [State.restartBlocks]
  | powerOn => exact tripsRecorded_empty (fun c => by simp [State.poweredOn, State.reset]) fun c => by simp [State.poweredOn, State.reset]
  | _ => exact tripsRecorded_congr (s := s) rfl (fun _ => Iff.rfl) hs

/-! ### Gate states (R87) -/

/-- The gate state that goes with a channel state (R87). -/
abbrev Follows (drive : Bool) (st : ChanState) : Prop :=
  (st = .off ∨ st = .trip → drive = false) ∧ (st = .run ∨ st = .hold → drive = true)

/-- A channel in CHARGE or STOPPING may drive or not. -/
theorem Follows.of_passing {drive : Bool} {st : ChanState} (h : st = .charge ∨ st = .stopping) : Follows drive st := by
  rcases h with rfl | rfl <;> exact ⟨nofun, nofun⟩

/-- A dark gate state goes with a state that is neither RUN nor HOLD, a driving one with RUN and HOLD. -/
theorem Follows.of_dark {st : ChanState} (h : st.closing = false) : Follows false st :=
  ⟨fun _ => rfl, fun hc => by rcases hc with rfl | rfl <;> cases h⟩

theorem Follows.of_driving {st : ChanState} (h : st = .run ∨ st = .hold) : Follows true st :=
  ⟨fun ho => by rcases h with rfl | rfl <;> cases ho <;> contradiction, fun _ => rfl⟩

/-- States and gate states as they were. -/
theorem gateStateFollows_congr (hst : ∀ c, t.st c = s.st c) (hd : ∀ c, (t.mods.get c).drive = (s.mods.get c).drive)
    (hs : s.gateStateFollows) : t.gateStateFollows := fun c => by
  rw [hst, hd]
  exact hs c

/-- A hold changes a state among RUN and HOLD alone. -/
theorem Follows.addCauses {drive : Bool} {u : Supervisor} (h : Follows drive u.st) (x : Causes) :
    Follows drive (u.addCauses x).st := by
  unfold Supervisor.addCauses
  split
  · exact h
  · split
    · next hc =>
      have closing : u.st = .run ∨ u.st = .hold := by
        cases hu : u.st <;> simp_all [ChanState.closing]
      exact h.2 closing ▸ .of_driving (.inr rfl)
    · exact h

/-- A raise inhibits exactly the channels it trips. -/
theorem gateStateFollows_raise (hs : s.gateStateFollows) {g : Chan → Causes} {takes : Chan → Bool}
    (hsup : ∀ c, t.sup.get c = (if takes c then (s.sup.get c).enterTrip else s.sup.get c).addCauses (s.holdReach g c))
    (hmods : ∀ c, t.mods.get c = if takes c then (s.mods.get c).inhibit else s.mods.get c) : t.gateStateFollows := by
  intro c
  show Follows (t.mods.get c).drive (t.sup.get c).st
  rw [hsup, hmods]
  refine Follows.addCauses ?_ _
  split
  · exact .of_dark rfl
  · exact hs c

theorem State.superviseOne_gateStateFollows (ha : s.pairsAlike) (hs : s.gateStateFollows) (d : Chan) :
    (s.superviseOne d).gateStateFollows := by
  intro c
  have follows : Follows (s.mods.get c).drive (s.st c) := hs c
  show Follows ((s.superviseOne d).mods.get c).drive ((s.superviseOne d).sup.get c).st
  obtain ⟨hc, -, h⟩ | ⟨-, -, -, h⟩ | ⟨hc, -, -, h⟩ | ⟨hc, h⟩ | ⟨-, -, h⟩ := s.superviseOne_cases d <;> rw [h]
  · rw [State.beginCharging_get]
    split
    · next hu => exact .of_passing (.inl ((s.st_of_inUnit ha hu).trans hc))
    · exact follows
  · rw [State.setCharge, State.unitSup_get]
    split <;> exact follows
  · have unit : (s.setCharge d (s.nextCharge d)).inUnit d c = s.inUnit d c := rfl
    rw [(State.enterRun_get _ d c).1, (State.enterRun_get _ d c).2, unit]
    by_cases hu : s.inUnit d c = true
    · rw [if_pos hu, if_pos hu]
      exact .of_driving (.inl rfl)
    · rw [if_neg hu, if_neg hu, State.setCharge, State.unitSup_get, if_neg hu]
      exact follows
  · rw [(s.enterOff_get d c).1, (s.enterOff_get d c).2]
    split
    · exact .of_dark rfl
    · exact follows
  · exact follows

theorem Change.gateStateFollows (h : Change a s t) (ha : s.pairsAlike) (hs : s.gateStateFollows) : t.gateStateFollows := by
  cases h with
  | raiseChan k c => exact gateStateFollows_raise hs (s.raiseChan_sup_get k c) (s.raiseChan_mods_get k c)
  | raiseDev k => exact gateStateFollows_raise hs (s.raiseDev_sup_get k) (s.raiseDev_mods_get k)
  | glide n => exact gateStateFollows_congr (s := s) (fun _ => rfl) (fun c => by rw [State.glide_mods_get]; rfl) hs
  | settle => exact gateStateFollows_congr (s := s) (fun _ => rfl) (fun c => by rw [State.settleGates_mods_get]; rfl) hs
  | inhibitLow f =>
    exact gateStateFollows_congr (s := s) (fun _ => rfl) (fun c => by rw [State.allLinesOff, PerChan.get_ofFn]; rfl) hs
  | modulators v hv => exact gateStateFollows_congr (s := s) (fun _ => rfl) (fun c => (hv c).1) hs
  | judgeExit =>
    intro c
    rw [State.judgeExit, State.st, PerChan.get_ofFn]
    split
    · next hc => exact ⟨fun _ => (hs c).1 (.inr hc.1), nofun⟩
    · exact hs c
  | judgeRouted =>
    refine gateStateFollows_congr (s := s) (fun c => ?_) (fun _ => rfl) hs
    rw [State.judgeRouted, State.st, PerChan.get_ofFn]
    split <;> rfl
  | supervisors v g hg hv => exact gateStateFollows_congr (s := s) (fun c => (hv c).1) (fun _ => rfl) hs
  | enterCharge d =>
    intro c
    rw [State.st, (s.enterCharge_get d c).1, (s.enterCharge_get d c).2.1]
    split
    · exact Follows.of_passing (.inl rfl)
    · exact hs c
  | enterStopping d =>
    intro c
    rw [State.st, (s.enterStopping_get d c).1, (s.enterStopping_get d c).2]
    split
    · exact Follows.of_passing (.inr rfl)
    · exact hs c
  | takeReported d =>
    intro c
    show Follows (s.mods.get c).drive ((s.unitSup d _).sup.get c).st
    rw [State.unitSup_get]
    split
    · unfold Supervisor.takeReported
      dsimp only
      split
      · next hold => exact (hs c).2 (.inr hold.1) ▸ .of_driving (.inl rfl)
      · exact hs c
    · exact hs c
  | supervise d => exact s.superviseOne_gateStateFollows ha hs d
  | swap => exact gateStateFollows_congr (s := s) (fun c => (s.exchanged_sup_get c).1) (fun _ => rfl) hs
  | restart => exact fun c => by simp [State.restartBlocks, State.st, Modulator.restarted, Modulator.inhibit]
  | powerOn => exact fun c => by simp [State.poweredOn, State.reset, State.st]
  | _ => exact gateStateFollows_congr (s := s) (fun _ => rfl) (fun _ => rfl) hs

/-- Settles O10: every change keeps the banks checked, pairs alike, and trip records and gate states with the channel states. -/
theorem stepKeepsTripsAndGateStates : Obligations.StepKeepsTripsAndGateStates := by
  unfold Obligations.StepKeepsTripsAndGateStates
  refine ⟨fun s t hb ha hs h => ?_, fun s t hb ha hs h => ?_⟩
  · exact (step_keeps (q := fun x => x.banksChecked ∧ x.pairsAlike ∧ x.tripsRecorded)
      (fun _ _ _ h ⟨hb, ha, hs⟩ => ⟨h.banksChecked hb, h.pairsAlike hb ha, h.tripsRecorded ha hs⟩)
      (fun _ _ => id) ⟨hb, ha, hs⟩ h).2.2
  · exact (step_keeps (q := fun x => x.banksChecked ∧ x.pairsAlike ∧ x.gateStateFollows)
      (fun _ _ _ h ⟨hb, ha, hs⟩ => ⟨h.banksChecked hb, h.pairsAlike hb ha, h.gateStateFollows ha hs⟩)
      (fun _ _ => id) ⟨hb, ha, hs⟩ h).2.2

end Sys2Proof.Machine
end

