-- ==== Sys2Proof/Proofs/PowerOn.lean ====
section
/-! The queue of commands, and the part right after power-on and after reset (R5, R39, R53, R73, R84, R104, R106, R123, R141,
R159, R179). -/

namespace Sys2Proof.Machine

/-- Settles O1: it is the step on a queue that is not empty. -/
theorem stepRunsFrontCommand : Obligations.StepRunsFrontCommand := by
  unfold Obligations.StepRunsFrontCommand
  exact fun _ _ _ => rfl

/-! ### Power-on -/

theorem Router.chanFlag_empty (c : Chan) (k : ChanKind) : (({} : Router).flags.get c).get k.idx = {} := by
  show ((PerChan.const (Vector.replicate 17 ({} : Flag))).get c).get k.idx = {}
  rw [PerChan.get_const]
  exact Vector.getElem_replicate _

theorem Router.devFlag_empty (k : DevKind) : ({} : Router).dev.get k.idx = {} := Vector.getElem_replicate _

theorem Router.trips_empty (c : Chan) : ({} : Router).trips.get c = none := PerChan.get_const _ c

theorem Router.kept_empty (c : Chan) (l : ChanLevel) : (({} : Router).kept.get c).get l = false := by
  show ((PerChan.const ({} : Kept)).get c).get l = false
  rw [PerChan.get_const]
  cases l <;> rfl

theorem Store.bank_empty (n : BankName) : ({} : Store).bank n = {} := by cases n <;> rfl

/-- The channel blocks at power-on. -/
theorem State.poweredOn_channel (straps : BitVec 5) (s : State) (c : Chan) :
    (s.poweredOn straps).sup.get c = {} ∧ (s.poweredOn straps).mods.get c = {} ∧ (s.poweredOn straps).loop.get c = {} ∧
      (s.poweredOn straps).refs.get c = {} ∧ (s.poweredOn straps).pos.get c = (s.pos.get c).poweredOn ∧
      (s.poweredOn straps).lanes.get c = {} := by
  simp [State.poweredOn, State.reset]

/-- Settles O3, block by block. -/
theorem powerOnValues : Obligations.PowerOnValues := by
  unfold Obligations.PowerOnValues
  intro straps s
  refine ⟨s.poweredOn straps, rfl, rfl, rfl, rfl, rfl, rfl, rfl, rfl, rfl, rfl, rfl, rfl, rfl, rfl, rfl, rfl, rfl, rfl,
    rfl, rfl, rfl, rfl, rfl, rfl, fun k => Vector.getElem_replicate _, rfl, rfl, rfl, fun n g i => ?_, rfl, Router.devFlag_empty,
    fun l => by cases l <;> rfl, fun c => ?_⟩
  · exact (congrArg (fun b : Bank => b.group g i) (Store.bank_empty n)).trans (Bank.group_empty g i)
  · obtain ⟨sup, mods, loop, refs, pos, lanes⟩ := s.poweredOn_channel straps c
    rw [sup, mods, loop, refs, pos, lanes]
    exact ⟨rfl, rfl, rfl, rfl, rfl, rfl, rfl, Router.chanFlag_empty c, Router.kept_empty c, Router.trips_empty c⟩

/-! ### Reset -/

/-- The channel blocks after reset. -/
theorem State.reset_channel (c : Chan) :
    State.reset.sup.get c = {} ∧ State.reset.mods.get c = {} ∧ State.reset.pos.get c = {} := by
  simp [State.reset]

/-- The empty modulator is dark and in INHIBIT. -/
theorem Modulator.dark_empty : Modulator.dark {} := ⟨⟨rfl, rfl⟩, ⟨rfl, rfl⟩, ⟨rfl, rfl⟩⟩

theorem Flag.counted_empty : Flag.counted {} := ⟨⟨nofun, nofun⟩, Nat.zero_le _⟩

theorem State.reset_tb_sound : State.reset.tb.sound := by
  unfold Timebase.sound Settings.sound
  exact ⟨by decide, nofun, by decide⟩

theorem State.reset_countsBelowCpr : State.reset.countsBelowCpr := fun c => by
  have unused : (State.reset.record c).inUse = false := Bank.record_empty_inUse c
  rw [(State.reset_channel c).2.2, Record.effectiveCpr, unused]
  exact Nat.zero_lt_succ _

/-- Settles O4, invariant by invariant. -/
theorem resetIsSound : Obligations.ResetIsSound := by
  unfold Obligations.ResetIsSound
  have mods : ∀ c, State.reset.mods.get c = {} := fun c => (State.reset_channel c).2.1
  have sup : ∀ c, State.reset.sup.get c = {} := fun c => (State.reset_channel c).1
  refine ⟨fun c => ?_, fun c _ => ?_, fun c => ?_, ⟨fun c k _ => ?_, fun k _ => ?_⟩, ?_, ⟨Nat.zero_le _, ?_⟩, .inr rfl, nofun,
    State.reset_tb_sound, banksChecked_of_active Bank.checked_empty rfl, State.pairsAlike_of_const sup fun _ => rfl,
    State.reset_countsBelowCpr, rfl⟩
  · rw [mods]
    exact Modulator.exclusive_of_dark Modulator.dark_empty
  · rw [mods]
    exact Modulator.dark_empty
  · rw [mods, State.st, sup]
    exact Follows.of_dark rfl
  · rw [show State.reset.chanFlag c k = {} from Router.chanFlag_empty c k]
    exact Flag.counted_empty
  · rw [show State.reset.devFlag k = {} from Router.devFlag_empty k]
    exact Flag.counted_empty
  · exact tripsRecorded_empty (fun c => by rw [sup]) Router.trips_empty
  · exact List.nodup_nil

end Sys2Proof.Machine
end

