-- ==== Sys2Proof/Proofs/Cells.lean ====
section
/-! The cells of the ring (R204): the fields of a header byte, the halves of a word, and the CRC of a cell that the part makes
(R181, R183). -/

namespace Sys2Proof.Machine

/-! ### Words and headers -/

theorem Word.hi_of (h l : Byte) : (Word.of h l).hi = h := BitVec.extractLsb'_append_eq_left

theorem Word.lo_of (h l : Byte) : (Word.of h l).lo = l := BitVec.extractLsb'_append_eq_right

variable (kind chan : BitVec 3) (d t : Bool)

theorem headerByte_kind : (headerByte kind chan d t).extractLsb' 5 3 = kind := by
  revert kind chan d t
  decide

theorem headerByte_chanField : (headerByte kind chan d t).extractLsb' 2 3 = chan := by
  revert kind chan d t
  decide

theorem headerByte_damaged : (headerByte kind chan d t).getLsbD 1 = d := by
  revert kind chan d t
  decide

theorem headerByte_taken : (headerByte kind chan d t).getLsbD 0 = t := by
  revert kind chan d t
  decide

/-- A cell sealed with its CRC is good (R181). -/
theorem Cell.sealed_good (c : Cell) : c.sealed.good = true := decide_eq_true rfl

end Sys2Proof.Machine
end

