-- ==== Sys2Proof/Proofs/StoreRequests.lean ====
section
/-! Requests to the decoder and to the parameter store: BAD_KIND, READ_ENTRY, WRITE_ENTRY, COPY_BANK (R161 to R166, R189). -/

namespace Sys2Proof.Machine

variable {s t : State} {k : Byte} {r : Request} {x : Reply} {f : State → Answer}

/-- A request whose owner changes the part outside the ring port: the reply leaves in its slot, and the rest is as the owner
leaves it. -/
theorem State.requested_of_change (h : s.ready) (hf : f s.started = ⟨x, t⟩) (ht : t.ring = s.started.ring) :
    s.cellOpened.requested k r f = { t with ring := s.repliedRing k r x } := by
  rw [State.requested_of_ready h, hf]
  show { t with ring := { t.ring with cell := none, out := _ } } = _
  rw [ht]
  rfl

/-- A request that its owner answers without a change. -/
theorem State.requested_of_reply (h : s.ready) (hf : f s.started = ⟨x, s.started⟩) :
    s.cellOpened.requested k r f = { s with ring := s.repliedRing k r x } :=
  (State.requested_of_change h hf rfl).trans rfl

/-- The request of `State.requested_of_reply` as the effect of its command. -/
theorem outcome_of_reply (h : s.ready) (hf : f s.started = ⟨x, s.started⟩) :
    (.next (s.cellOpened.requested k r f) : Host.Outcome State Fault Refusal) =
      .next { s with ring := s.repliedRing k r x } :=
  congrArg _ (State.requested_of_reply h hf)

/-- The request of `State.requested_of_change` as the effect of its command. -/
theorem outcome_of_change (h : s.ready) (hf : f s.started = ⟨x, t⟩) (ht : t.ring = s.started.ring) :
    (.next (s.cellOpened.requested k r f) : Host.Outcome State Fault Refusal) =
      .next { t with ring := s.repliedRing k r x } :=
  congrArg _ (State.requested_of_change h hf ht)

/-- A channel target names its channel (R190). -/
theorem chanOf_of_val {b : Byte} {c : Chan} (h : b.toNat = c.val) : chanOf b = some c := by
  unfold chanOf
  rw [dif_pos (h ▸ c.isLt)]
  exact congrArg some (Fin.ext h)

theorem ne_device_of_val {b : Byte} {c : Chan} (h : b.toNat = c.val) : b ≠ 255 := fun e => by
  have below := c.isLt
  have device : b.toNat = 255 := target_eq_device_iff.mp e
  omega

/-! ### BAD_KIND and reply cells (R189, R204) -/

/-- A request of an unknown kind is refused. -/
theorem State.onRequest_badKind (s : State) (hk : k = 0 ∨ 13 ≤ k.toNat) : s.onRequest k r = s.refuse .badKind := by
  have unknown : k.toNat = 0 ∨ 13 ≤ k.toNat := hk.imp_left fun h => by rw [h]; rfl
  unfold State.onRequest
  split
  case h_13 => rfl
  all_goals omega

/-- Settles O13, by the fields of a header and the halves of a word. -/
theorem badKindAndReplyFields : Obligations.BadKindAndReplyFields := by
  unfold Obligations.BadKindAndReplyFields
  refine ⟨fun k r s ready hk => outcome_of_reply ready (State.onRequest_badKind _ hk), fun station kind r x => ?_⟩
  refine ⟨headerByte_kind _ _ _ _, headerByte_chanField _ _ _ _, headerByte_damaged _ _ _ _, headerByte_taken _ _ _ _, rfl,
    Word.hi_of _ _, Word.lo_of _ _, ?_, Word.lo_of _ _, rfl, Cell.sealed_good _⟩
  show (Word.of (BitVec.ofNat 8 x.status.code) r.index).hi.toNat = _
  rw [Word.hi_of]
  cases x.status <;> rfl

/-! ### READ_ENTRY (R161, R163) -/

/-- The groups of the tables (R161). -/
theorem validIndex_iff (t i : Nat) : validIndex t i = true ↔
    (t = 0 ∧ i < 64) ∨ (t = 1 ∧ i < 32) ∨ (t = 2 ∧ i < 64) ∨ (t = 3 ∧ i < 8) ∨ (t = 4 ∧ 1 ≤ i ∧ i ≤ 22) := by
  unfold validIndex
  split
  all_goals simp_all

/-- The words of a record that hold no field in some bits (R207). -/
theorem fieldMask_record (i : Nat) : fieldMask 0 i =
    (if i % 8 = 0 then ⟨0x0F7F, 0x00FF, 0x1F0F, 0x00FF⟩
      else if i % 8 = 7 then ⟨0xFFFF, 0xFFFF, 0xFFFF, 0⟩ else ⟨0xFFFF, 0xFFFF, 0xFFFF, 0xFFFF⟩) := by
  simp only [fieldMask]
  split
  · next h => rw [if_pos h]
  · next h => rw [h]; rfl
  · next h0 h7 => rw [if_neg h0, if_neg h7]

/-- Settles O14, by the branches of READ_ENTRY. -/
theorem readEntryAnswersTheGroup : Obligations.ReadEntryAnswersTheGroup := by
  unfold Obligations.ReadEntryAnswersTheGroup
  refine ⟨validIndex_iff, fun i => ⟨fieldMask_record i, rfl, rfl, rfl, rfl⟩, fun r s => ⟨rfl, fun ready => ?_⟩⟩
  refine outcome_of_reply ready (congrArg (Answer.mk · s.started) ?_)
  show s.store.readEntry r = _
  unfold Store.readEntry
  cases validIndex r.table r.groupIndex with
  | false => rfl
  | true => cases h : s.store.copy <;> simp [Group.masked]

/-! ### COPY_BANK (R166) -/

theorem BankName.other_ne (n : BankName) : n.other ≠ n := by cases n <;> decide

theorem BankName.other_other (n : BankName) : n.other.other = n := by cases n <;> rfl

theorem BankName.eq_other {n m : BankName} (h : n ≠ m) : n = m.other := by
  cases n with
  | a => cases m with
    | a => exact absurd rfl h
    | b => rfl
  | b => cases m with
    | a => rfl
    | b => exact absurd rfl h

theorem Store.bank_setBank_of_ne (st : Store) {n m : BankName} (h : m ≠ n) (b : Bank) : (st.setBank n b).bank m = st.bank m := by
  rw [BankName.eq_other h]
  cases n <;> rfl

theorem Store.stateOf_setState (st : Store) (n : BankName) (x : BankState) : (st.setState n x).stateOf n = x := by
  cases n <;> rfl

theorem Store.stateOf_setState_of_ne (st : Store) {n m : BankName} (h : m ≠ n) (x : BankState) :
    (st.setState n x).stateOf m = st.stateOf m := by
  rw [BankName.eq_other h]
  cases n <;> rfl

theorem Store.stateOf_setBank (st : Store) (n m : BankName) (b : Bank) : (st.setBank n b).stateOf m = st.stateOf m := by
  cases n <;> rfl

/-- After COPY_COMPLETION both banks are the active one (R166). -/
theorem Store.copyDone_bank (st : Store) (n : BankName) : st.copyDone.bank n = st.bank st.active := by
  unfold Store.copyDone
  show (((st.setBank st.shadowName (st.bank st.active)).setState st.shadowName .valid).bank n) = _
  rw [Store.bank_setState]
  by_cases h : n = st.shadowName
  · rw [h, Store.bank_setBank_self]
  · rw [Store.bank_setBank_of_ne _ h, BankName.eq_other h, Store.shadowName, BankName.other_other]

/-- Settles O17, from what COPY_BANK and COPY_COMPLETION do to the store. -/
theorem copyMakesTheShadowEqual : Obligations.CopyMakesTheShadowEqual := by
  unfold Obligations.CopyMakesTheShadowEqual
  refine ⟨fun r s ready hc hp => ?_, fun r s ready hc => ?_, fun r s ready hc hp => ?_, fun s hc => ?_⟩
  · have reply : s.store.copyReply = ⟨.accepted, {}⟩ := by simp [Store.copyReply, hc, hp]
    have copied : s.store.copyBank = { s.store.setState s.store.shadowName .edited with copy := some 0 } := by
      rw [Store.copyBank, reply]
      rfl
    refine ⟨{ s with ring := s.repliedRing 3 r ⟨.accepted, {}⟩, store := s.store.copyBank },
      outcome_of_change (t := { s.started with store := s.store.copyBank }) ready
        (congrArg (Answer.mk · _) reply) rfl, rfl, ?_⟩
    rw [copied]
    exact ⟨fun n => s.store.bank_setState _ n _, nofun, s.store.stateOf_setState _ _,
      s.store.stateOf_setState_of_ne (BankName.other_ne _).symm _, s.store.active_setState _ _,
      (s.store.swapPending_setState _ _).trans hp⟩
  · have reply : s.store.copyReply = ⟨.busy, {}⟩ := by simp [Store.copyReply, Option.isSome_iff_ne_none.mpr hc]
    have kept : s.store.copyBank = s.store := by rw [Store.copyBank, reply]; rfl
    exact outcome_of_reply ready (congrArg₂ (fun x st => Answer.mk x { s.started with store := st }) reply kept)
  · have reply : s.store.copyReply = ⟨.swapPending, {}⟩ := by simp [Store.copyReply, hc, hp]
    have kept : s.store.copyBank = s.store := by rw [Store.copyBank, reply]; rfl
    exact outcome_of_reply ready (congrArg₂ (fun x st => Answer.mk x { s.started with store := st }) reply kept)
  · refine ⟨{ s with store := s.store.copyDone }, if_pos (Option.isSome_iff_ne_none.mpr hc), rfl, s.store.copyDone_bank, rfl,
      Store.stateOf_setState _ _ _, ?_, ?_, ?_⟩
    · exact (Store.stateOf_setState_of_ne _ (BankName.other_ne _).symm _).trans (Store.stateOf_setBank _ _ _ _)
    · exact (Store.active_setState _ _ _).trans (Store.active_setBank _ _ _)
    · exact (Store.swapPending_setState _ _ _).trans (Store.swapPending_setBank _ _ _)

/-! ### WRITE_ENTRY (R161, R164) -/

/-- A group written stands where it was written. -/
theorem Bank.group_put_self (b : Bank) {t i : Nat} (h : validIndex t i = true) (g : Group) : (b.put t i g).group t i = g := by
  obtain ⟨rfl, hi⟩ | ⟨rfl, hi⟩ | ⟨rfl, hi⟩ | ⟨rfl, hi⟩ | ⟨rfl, h1, hi⟩ := (validIndex_iff t i).mp h
  case inr.inr.inr.inr =>
    have below : i - 1 < 22 := by omega
    simp [Bank.put, Bank.group, Nat.ne_of_gt h1, below]
  all_goals simp [Bank.put, Bank.group, hi]

/-- A group of a vector other than the one written. -/
theorem getElem?_setIfInBounds_ne {n i j : Nat} (v : Vector Group n) (g : Group) (h : i ≠ j) :
    (v.setIfInBounds i g)[j]?.getD {} = v[j]?.getD {} := by
  rw [Vector.getElem?_setIfInBounds, if_neg h]

/-- A route written. -/
theorem Bank.put_route (b : Bank) (i : Nat) (g : Group) :
    b.put 4 i g = { b with routes := if i = 0 then b.routes else b.routes.setIfInBounds (i - 1) g } := by
  simp only [Bank.put]
  split <;> rfl

/-- A group of one table written leaves the other tables. -/
theorem Bank.group_put_of_table_ne (b : Bank) {t i u j : Nat} (h : u ≠ t) (g : Group) :
    (b.put t i g).group u j = b.group u j := by
  unfold Bank.put
  split
  case h_5 => exact (congrArg (Bank.group · u j) (b.put_route i g)).trans (by simp only [Bank.group]; split <;> trivial)
  all_goals
    unfold Bank.group
    split
    all_goals trivial

/-- Every other group stays. -/
theorem Bank.group_put_of_ne (b : Bank) {t i u j : Nat} (h : (u, j) ≠ (t, i)) (hj : validIndex u j = true) (g : Group) :
    (b.put t i g).group u j = b.group u j := by
  by_cases htu : u = t
  · subst htu
    have hij : i ≠ j := fun e => h (e ▸ rfl)
    obtain ⟨rfl, -⟩ | ⟨rfl, -⟩ | ⟨rfl, -⟩ | ⟨rfl, -⟩ | ⟨rfl, h1, -⟩ := (validIndex_iff u j).mp hj
    · exact getElem?_setIfInBounds_ne _ _ hij
    · exact getElem?_setIfInBounds_ne _ _ hij
    · exact getElem?_setIfInBounds_ne _ _ hij
    · exact getElem?_setIfInBounds_ne _ _ hij
    · rw [Bank.put_route]
      by_cases h0 : i = 0
      · rw [if_pos h0]
      · simp only [if_neg h0, Bank.group, if_neg (Nat.ne_of_gt h1)]
        exact getElem?_setIfInBounds_ne _ _ (by omega)
  · exact b.group_put_of_table_ne htu g

/-- The place of the first false mark. -/
theorem firstFalse_eq_some {l : List Bool} {k : Nat} (hk : l[k]? = some false) (hj : ∀ j < k, l[j]? = some true) :
    firstFalse l = some k := by
  induction l generalizing k with
  | nil => cases hk
  | cons x l ih =>
    cases k with
    | zero =>
      obtain rfl : x = false := Option.some_inj.mp hk
      rfl
    | succ k =>
      obtain rfl : x = true := Option.some_inj.mp (hj 0 (Nat.succ_pos k))
      show (firstFalse l).map (· + 1) = _
      rw [ih hk fun j h => hj (j + 1) (Nat.succ_lt_succ h)]
      rfl

variable {st : Store}

/-- WRITE_ENTRY decides by its checks in their order (R164). -/
theorem Store.writeReply_badTarget (h : validIndex r.table r.groupIndex = false) : st.writeReply r = ⟨.badTarget, {}⟩ := by
  rw [Store.writeReply, h]
  rfl

theorem Store.writeReply_activeBank (h : validIndex r.table r.groupIndex = true) (hb : r.bank = st.active) :
    st.writeReply r = ⟨.activeBank, {}⟩ := by
  rw [Store.writeReply, h, if_pos hb]
  rfl

theorem Store.writeReply_swapPending (h : validIndex r.table r.groupIndex = true) (hb : r.bank ≠ st.active)
    (hp : st.swapPending = true) : st.writeReply r = ⟨.swapPending, {}⟩ := by
  rw [Store.writeReply, h, if_neg hb, hp]
  rfl

theorem Store.writeReply_busy (h : validIndex r.table r.groupIndex = true) (hb : r.bank ≠ st.active)
    (hp : st.swapPending = false) (hc : st.copy ≠ none) : st.writeReply r = ⟨.busy, {}⟩ := by
  rw [Store.writeReply, h, if_neg hb, hp, Option.isSome_iff_ne_none.mpr hc]
  rfl

/-- Where the words are judged, the first one out of range decides (R164). -/
theorem Store.writeReply_range (h : validIndex r.table r.groupIndex = true) (hb : r.bank ≠ st.active)
    (hp : st.swapPending = false) (hc : st.copy = none) {n : Nat}
    (hw : firstFalse (wordsInRange r.table r.groupIndex r.words) = some n) :
    st.writeReply r = ⟨.range, { w0 := wordOfNat n }⟩ := by
  rw [Store.writeReply, h, if_neg hb, hp, hc, hw]
  rfl

theorem Store.writeReply_taken (h : validIndex r.table r.groupIndex = true) (hb : r.bank ≠ st.active)
    (hp : st.swapPending = false) (hc : st.copy = none)
    (hw : firstFalse (wordsInRange r.table r.groupIndex r.words) = none) : st.writeReply r = ⟨.ok, {}⟩ := by
  rw [Store.writeReply, h, if_neg hb, hp, hc, hw]
  rfl

/-- A refused WRITE_ENTRY writes nothing. -/
theorem outcome_of_writeReply (ready : s.ready) (h : s.store.writeReply r = x) (hx : x.status ≠ .ok) :
    exec (.writeEntry r) s = .next { s with ring := s.repliedRing 2 r x } :=
  have kept : s.store.writeEntry r = s.store := by rw [Store.writeEntry, h, if_neg hx]
  outcome_of_reply ready (congrArg₂ (fun x st => Answer.mk x { s.started with store := st }) h kept)

/-- A group written in the shadow: what the store then holds (R161, R164). -/
theorem Store.written_frame (hb : r.bank ≠ st.active) {i : Nat} {n : Nat} (g : Group) :
    (st.written n i g).bank r.bank = (st.bank r.bank).put n i (g.masked n i) ∧
      (st.written n i g).bank st.active = st.bank st.active ∧ (st.written n i g).stateOf r.bank = .edited ∧
      (st.written n i g).stateOf st.active = st.stateOf st.active ∧ (st.written n i g).active = st.active ∧
      (st.written n i g).swapPending = st.swapPending ∧ (st.written n i g).copy = st.copy := by
  have shadow : r.bank = st.shadowName := BankName.eq_other hb
  have active : st.active ≠ st.shadowName := (BankName.other_ne _).symm
  rw [shadow]
  unfold Store.written
  refine ⟨?_, ?_, Store.stateOf_setState _ _ _, ?_, by simp, by simp, by simp⟩
  · rw [Store.bank_setState, Store.bank_setBank_self]
  · rw [Store.bank_setState, Store.bank_setBank_of_ne _ active]
  · rw [Store.stateOf_setState_of_ne _ active, Store.stateOf_setBank]

/-- Settles O16, by the checks of WRITE_ENTRY in their order. -/
theorem writeEntryChecksAndWrites : Obligations.WriteEntryChecksAndWrites := by
  unfold Obligations.WriteEntryChecksAndWrites
  refine ⟨fun r s ready hv hb hp hc hw => ?_, fun r s ready => ⟨fun h => ?_, fun h hb => ?_, fun h hb hp => ?_,
    fun h hb hp hc => ?_, fun h hb hp hc k hk hj => ?_⟩⟩
  · have reply : s.store.writeReply r = ⟨.ok, {}⟩ :=
      Store.writeReply_taken hv hb hp hc (firstFalse_eq_none_iff.mpr hw)
    have done : s.store.writeEntry r = s.store.written r.table r.groupIndex r.words := by
      rw [Store.writeEntry, reply]
      rfl
    obtain ⟨bank, active, edited, kept, name, pending, copy⟩ := s.store.written_frame hb (i := r.groupIndex) (n := r.table) r.words
    refine ⟨{ s with ring := s.repliedRing 2 r ⟨.ok, {}⟩, store := s.store.writeEntry r },
      outcome_of_change (t := { s.started with store := s.store.writeEntry r }) ready
        (congrArg (Answer.mk · _) reply) rfl, rfl, ?_⟩
    rw [done]
    refine ⟨?_, fun g i hi hne => ?_, active, edited, kept, name, pending.trans hp, copy.trans hc⟩
    · rw [bank, Bank.group_put_self _ hv]
      rfl
    · rw [bank, Bank.group_put_of_ne _ hne hi]
  · exact outcome_of_writeReply ready (Store.writeReply_badTarget h) (by decide)
  · exact outcome_of_writeReply ready (Store.writeReply_activeBank h hb) (by decide)
  · exact outcome_of_writeReply ready (Store.writeReply_swapPending h hb hp) (by decide)
  · exact outcome_of_writeReply ready (Store.writeReply_busy h hb hp hc) (by decide)
  · have first : firstFalse (wordsInRange r.table r.groupIndex r.words) = some k.val :=
      firstFalse_eq_some hk fun j hlt => hj ⟨j, hlt.trans k.isLt⟩ hlt
    exact outcome_of_writeReply ready (Store.writeReply_range h hb hp hc first) Status.noConfusion

end Sys2Proof.Machine
end

