-- ==== Sys2Proof/Proofs/Bits.lean ====
section
/-! Fields of words as numbers (R202, R204, R208): bit fields, bytes, marks, two's complement. -/

namespace Sys2Proof.Machine

/-- A bit field of a word as a number. -/
theorem bitsOf_eq (x : Word) (lo w : Nat) : bitsOf x lo w = x.toNat / 2 ^ lo % 2 ^ w := by
  rw [bitsOf, BitVec.extractLsb'_toNat, Nat.shiftRight_eq_div_pow]

/-- A mark of a word as a number. -/
theorem getLsbD_eq_decide (x : Word) (k : Nat) : x.getLsbD k = decide (x.toNat / 2 ^ k % 2 = 1) :=
  Nat.testBit_eq_decide_div_mod_eq

theorem Word.hi_toNat (x : Word) : x.hi.toNat = x.toNat / 256 := by
  have h : x.hi.toNat = x.toNat >>> 8 % 2 ^ 8 := BitVec.extractLsb'_toNat _ _ _
  rw [h, Nat.shiftRight_eq_div_pow]
  omega

theorem Word.lo_toNat (x : Word) : x.lo.toNat = x.toNat % 256 := by
  have h : x.lo.toNat = x.toNat >>> 0 % 2 ^ 8 := BitVec.extractLsb'_toNat _ _ _
  rw [h, Nat.shiftRight_zero]
  rfl

/-- The range test of a setting or a field. -/
theorem inRange_eq_true_iff {lo hi n : Nat} : inRange lo hi n = true ↔ lo ≤ n ∧ n ≤ hi := by simp [inRange]

/-! ### Marks -/

/-- The number whose bit `j` is the mark at place `j`. -/
def marksValue : List Bool → Nat
  | [] => 0
  | x :: l => markBit x + 2 * marksValue l

theorem marksValue_testBit (l : List Bool) (j : Nat) : (marksValue l).testBit j = l.getD j false := by
  induction l generalizing j with
  | nil => simp [marksValue]
  | cons x l ih =>
    have bit : markBit x = x.toNat := by cases x <;> rfl
    cases j with
    | zero => cases x <;> simp [marksValue, markBit]
    | succ j =>
      have half : marksValue (x :: l) / 2 = marksValue l := by
        rw [marksValue, bit]
        have := x.toNat_lt
        omega
      rw [Nat.testBit_succ, half, ih]
      rfl

/-- A word of marks. -/
theorem getLsbD_marksValue (l : List Bool) {j : Nat} (h : j < 16) :
    (BitVec.ofNat 16 (marksValue l)).getLsbD j = l.getD j false := by
  rw [BitVec.getLsbD_ofNat, marksValue_testBit, decide_eq_true h, Bool.true_and]

theorem marksValue_lt (l : List Bool) : marksValue l < 2 ^ l.length := by
  induction l with
  | nil => decide
  | cons x l ih =>
    have bit : markBit x ≤ 1 := by cases x <;> decide
    rw [marksValue, List.length_cons, Nat.pow_succ]
    omega

end Sys2Proof.Machine
end

