-- ==== Sys2Proof/Proofs/StatusGroups.lean ====
section
/-! CONFIGURE, and READ_STATUS with the words of its groups (R82, R192 to R198, R208). -/

namespace Sys2Proof.Machine

variable {s : State} {r : Request}

theorem State.anyBusy_eq_true_iff (s : State) :
    s.anyBusy = true ↔ ∃ c, s.st c = .charge ∨ s.st c = .run ∨ s.st c = .hold ∨ s.st c = .stopping := by
  have busy : ∀ x : ChanState, x.busy = true ↔ x = .charge ∨ x = .run ∨ x = .hold ∨ x = .stopping := fun x => by
    cases x <;> decide
  simp [State.anyBusy, busy]

/-- The settings of a CONFIGURE lie in their ranges (4-3). -/
theorem Request.settings_inRange_iff (r : Request) : (Request.settings r).inRange = true ↔
    2000 ≤ r.w0.toNat ∧ r.w0.toNat ≤ 32767 ∧ 1 ≤ r.index.toNat ∧ r.index.toNat ≤ 8 ∧ 1 ≤ r.w2.toNat % 1024 ∧
      r.w2.toNat % 1024 ≤ 1000 ∧ r.w2.toNat / 2048 ≤ 16 ∧ 2 ≤ r.w3.toNat % 256 := by
  have w1 := r.w1.isLt
  have w2 := r.w2.isLt
  have w3 := r.w3.isLt
  simp only [Settings.inRange, Bool.and_eq_true, inRange_eq_true_iff, Request.settings, Word.hi_toNat, Word.lo_toNat, bitsOf_eq]
  omega

theorem Request.settings_eq (r : Request) : Request.settings r =
    { d := r.w3.toNat / 256, p := r.w0.toNat, n := r.index.toNat, qt := r.w1.toNat, lockWindow := r.w2.toNat % 1024,
      slewMax := r.w2.toNat / 2048, lossLimit := r.w3.toNat % 256 } := by
  have slew : r.w2.toNat / 2048 % 32 = r.w2.toNat / 2048 := Nat.mod_eq_of_lt (by have := r.w2.isLt; omega)
  simp [Request.settings, Word.hi_toNat, Word.lo_toNat, bitsOf_eq, slew]

/-- What a CONFIGURE writes of the timebase (R82, R83). -/
theorem Timebase.configured_eq (t : Timebase) (x : Settings) : t.configured x = { t with
    set := { t.set with qt := x.qt, lockWindow := x.lockWindow, slewMax := x.slewMax, lossLimit := x.lossLimit }
    pend := if x.d = t.set.d ∧ x.p = t.set.p ∧ x.n = t.set.n then none else some ⟨x.d, x.p, x.n⟩
    lock := if x.qt = t.set.qt then t.lock else .free
    acquire := if x.qt = t.set.qt then t.acquire else 0 } := by
  unfold Timebase.configured
  by_cases hq : x.qt = t.set.qt
  · simp only [hq, if_true]
  · simp only [hq, if_false]

/-- Settles O20, by the branches of CONFIGURE. -/
theorem configureWritesSettings : Obligations.ConfigureWritesSettings := by
  unfold Obligations.ConfigureWritesSettings
  intro r s ready ht
  dsimp only
  rw [← State.anyBusy_eq_true_iff, ← Request.settings_inRange_iff]
  have asked : s.started.onConfigure r =
      if s.anyBusy then s.started.refuse .state
      else if !(Request.settings r).inRange then s.started.refuse .range
      else ⟨⟨.ok, {}⟩, s.started.mapTb fun t => t.configured (Request.settings r)⟩ :=
    if_neg (not_not_intro ht)
  refine ⟨fun hb => ?_, fun hb hr => ?_, fun hb hr => ?_⟩
  · exact outcome_of_reply ready (asked.trans (if_pos hb))
  · exact outcome_of_reply ready (asked.trans ((if_neg hb).trans (if_pos (by simpa using hr))))
  · have answer : s.started.onConfigure r = ⟨⟨.ok, {}⟩, s.started.mapTb fun t => t.configured (Request.settings r)⟩ :=
      asked.trans ((if_neg hb).trans (if_neg (by simp [hr])))
    refine ⟨{ s with ring := s.repliedRing 5 r ⟨.ok, {}⟩, tb := s.tb.configured (Request.settings r) },
      outcome_of_change (t := s.started.mapTb fun t => t.configured (Request.settings r)) ready answer rfl, rfl, ?_⟩
    rw [Request.settings_eq, Timebase.configured_eq]
    refine ⟨rfl, fun same => if_pos same, fun differ => if_neg ?_, fun same => ⟨if_pos same, if_pos same⟩,
      fun differ => ⟨if_neg differ, if_neg differ⟩⟩
    rw [not_and_or, not_and_or]
    exact differ

/-! ### READ_STATUS (R192) -/

/-- A bank whose first slot pairs channel 0 as leader with channel 1 as follower. -/
def pairedBank : Bank := ({} : Bank).put 3 0 ⟨0x8001, 0, 0, 0⟩

/-- A part whose follower's charge count has bit 15 set: no step brings it there (the count stays at 255), but no hypothesis
of the statement keeps it out, and the state group adds the count to the word whose bit 15 is the present mark. -/
def farCharged : State := { store := { a := pairedBank }, sup := PerChan.const { chargeCount := 32768 } }

theorem farCharged_ready : farCharged.ready := ⟨by decide, nofun⟩

theorem farCharged_follower : (farCharged.role 1).isFollower = true := by decide

/-- Refutes O21: the charge count of a follower is any number there, and one of 32768 stands at the place of the present mark
of the taken cycle number. -/
theorem not_readStatusChangesNothing : ¬Obligations.ReadStatusChangesNothing := by
  unfold Obligations.ReadStatusChangesNothing
  intro h
  obtain ⟨x, -, group, -, -, absent, -⟩ := h { target := 1, index := 0 } farCharged farCharged_ready
  obtain ⟨-, named⟩ := (group 1 rfl).1 (by decide)
  have shown : farCharged.stateGroup 1 = x.data := Option.some_inj.mp named
  have mark := (absent 1 rfl rfl farCharged_follower).1
  rw [← shown] at mark
  exact absurd mark (by decide)

end Sys2Proof.Machine
end

