-- ==== Sys2Proof/Proofs/StatusLayout.lean ====
section
/-! The words of the status groups, bit by bit (R193 to R198, R208). -/

namespace Sys2Proof.Machine

variable (s : State) (c : Chan)

/-- A word of fields is the sum of their values, each at its place. -/
theorem wordOfFields_eq (l : List (Nat × Nat)) : wordOfFields l = BitVec.ofNat 16 (l.map fun f => f.2 * 2 ^ f.1).sum := rfl

/-- Marks at places one after another add up to the number they are the bits of. -/
theorem sum_marks {α : Type} (place : α → Nat) (f : α → Bool) {l : List α} {n : Nat}
    (h : l.map place = List.range' n l.length) :
    (l.map fun x => markBit (f x) * 2 ^ place x).sum = 2 ^ n * marksValue (l.map f) := by
  induction l generalizing n with
  | nil => rfl
  | cons x l ih =>
    rw [List.map_cons, List.length_cons, List.range'_succ, List.cons.injEq] at h
    obtain ⟨rfl, rest⟩ := h
    rw [List.map_cons, List.map_cons, List.sum_cons, ih rest, marksValue]
    ring

/-- The marks of the channel kinds 1 to 16, first kind first. -/
theorem chanMarks_eq (f : ChanKind → Bool) : chanMarks f = BitVec.ofNat 16 (marksValue ((ChanKind.all.take 16).map f)) := by
  rw [chanMarks, wordOfFields_eq, List.map_map]
  exact congrArg _ ((sum_marks (fun k : ChanKind => k.idx.val) f (n := 0) (by decide)).trans (Nat.one_mul _))

/-- The marks of the device kinds, first kind first. -/
theorem devMarks_eq (f : DevKind → Bool) : devMarks f = BitVec.ofNat 16 (marksValue (DevKind.all.map f)) := by
  rw [devMarks, wordOfFields_eq, List.map_map]
  exact congrArg _ ((sum_marks (fun k : DevKind => k.idx.val) f (n := 0) (by decide)).trans (Nat.one_mul _))

/-- The mark of a kind stands at its place. -/
theorem getLsbD_marks {α : Type} {l : List α} {j : Nat} {x : α} (f : α → Bool) (hl : l.length ≤ 16) (h : l[j]? = some x) :
    (BitVec.ofNat 16 (marksValue (l.map f))).getLsbD j = f x := by
  have hj : j < l.length := (List.getElem?_eq_some_iff.mp h).1
  rw [getLsbD_marksValue _ (hj.trans_le hl), List.getD_eq_getElem?_getD, List.getElem?_map, h]
  rfl

theorem State.stateGroup_eq : s.chanGroup c 0 = some
    ⟨BitVec.ofNat 16 ((s.sup.get c).st.code + 16 * markBit (s.sup.get c).causes.routed + 32 * markBit (s.sup.get c).causes.ring +
        64 * markBit (s.sup.get c).causes.stale + 256 * markBit (s.sup.get c).setSeen + 4096 * (s.sup.get c).missed),
      BitVec.ofNat 16 ((s.sup.get c).chargeCount + 256 * (s.mods.get c).stale + 4096 * markBit (s.refs.get c).mailbox.isSome +
        32768 * markBit (s.takenShown c).isSome), (s.takenShown c).getD 0, 0⟩ := by
  refine congrArg some ?_
  simp only [State.stateGroup, wordOfFields_eq, List.map_cons, List.map_nil, List.sum_cons, List.sum_nil]
  congr 2 <;> ring

/-- The level codes (R208). -/
theorem levelCode_eq (x : Option Bool) : levelCode x = if x = some false then 0 else if x = some true then 1 else 2 := by
  rcases x with _ | _ | _ <;> rfl

/-- The bank code in the word of the store (R160). -/
theorem BankName.code_eq (n : BankName) : n.code = markBit (decide (n = .b)) := by cases n <;> rfl

/-- The bits of a via with its partner (R208). -/
def Via.bits : Via → Nat
  | .self => 0
  | .partner q => 64 + 8 + q.val
  | .all => 128

/-- The head of a trip record, word by word (R195). -/
theorem TripRecord.headGroup_eq (x : TripRecord) : x.headGroup =
    ⟨BitVec.ofNat 16 (x.via.bits + 256 * x.cause + 32768), x.cycle,
      BitVec.ofNat 16 (x.before.code + 16 * x.secondary.length), BitVec.ofNat 16 x.overflow⟩ := by
  have w0 : wordOfFields ([(15, 1), (8, x.cause), (6, x.via.code)] ++ x.via.partnerFields) =
      BitVec.ofNat 16 (x.via.bits + 256 * x.cause + 32768) := by
    refine congrArg (BitVec.ofNat 16) ?_
    cases x.via <;> simp [Via.partnerFields, Via.code, Via.bits] <;> ring
  have w2 : wordOfFields [(0, x.before.code), (4, x.secondary.length)] =
      BitVec.ofNat 16 (x.before.code + 16 * x.secondary.length) := by
    refine congrArg (BitVec.ofNat 16) ?_
    simp
    ring
  rw [TripRecord.headGroup, w0, w2]
  rfl

/-- The entries of a secondary list as words (R195). -/
theorem TripRecord.entryWords_eq (x : TripRecord) (j : Nat) : x.entryWords j =
    ((x.secondary[j]?.map fun e => BitVec.ofNat 16 e.code).getD 0, (x.secondary[j]?.map fun e => e.cycle).getD 0) := by
  unfold TripRecord.entryWords
  cases x.secondary[j]? <;> rfl

/-- A group of the trip record (R195). -/
theorem State.chanGroup_trip {x : TripRecord} (h : s.router.trips.get c = some x) :
    s.chanGroup c 7 = some (x.group 7) ∧ s.chanGroup c 8 = some (x.group 8) ∧ s.chanGroup c 9 = some (x.group 9) ∧
      s.chanGroup c 10 = some (x.group 10) ∧ s.chanGroup c 11 = some (x.group 11) := by
  simp [State.chanGroup, State.tripGroup, h]

theorem State.chanGroup_no_trip (h : s.router.trips.get c = none) {j : Nat} (hl : 7 ≤ j) (hu : j ≤ 11) :
    s.chanGroup c j = some ⟨0, 0, 0, 0⟩ := by
  interval_cases j <;> simp [State.chanGroup, State.tripGroup, h]

/-- Five marks make a number below 32. -/
theorem devMarks_lt (f : DevKind → Bool) : (devMarks f).toNat < 32 := by
  have below : marksValue (DevKind.all.map f) < 2 ^ 5 := marksValue_lt _
  rw [devMarks_eq, BitVec.toNat_ofNat]
  omega

/-- The levels of a position counter (R196, R208). -/
theorem levels_eq (x y z : Option Bool) : wordOfFields [(0, levelCode x), (2, levelCode y), (4, levelCode z)] =
    BitVec.ofNat 16 (levelCode x + 4 * levelCode y + 16 * levelCode z) := by
  refine congrArg (BitVec.ofNat 16) ?_
  simp
  ring

/-- The words of a group of counts that are there (R196). -/
theorem countsGroup_some (x : Counts) (b : Nat) (rest : List (Nat × Nat)) : countsGroup (some x) b rest =
    ⟨BitVec.ofNat 16 (x.fine / 65536), BitVec.ofNat 16 x.fine, x.rev, wordOfFields ((b, 1) :: rest)⟩ := rfl

/-- The word beside captured counts (R196). -/
theorem captureFields_eq (n : Nat) (armed : Bool) : wordOfFields [(0, n), (8, markBit armed)] =
    BitVec.ofNat 16 (n + 256 * markBit armed) ∧
    wordOfFields [(9, 1), (0, n), (8, markBit armed)] = BitVec.ofNat 16 (n + 256 * markBit armed + 512) := by
  refine ⟨congrArg (BitVec.ofNat 16) ?_, congrArg (BitVec.ofNat 16) ?_⟩
  · simp
    ring
  · simp
    ring

/-- The marks of a last-run record (R196). -/
theorem LastRun.marks_eq (l : LastRun) : l.marks = ⟨BitVec.ofNat 16 l.theta, BitVec.ofNat 16 l.dc, BitVec.ofNat 16 l.temp,
    BitVec.ofNat 16 (markBit l.completed + 2 * markBit l.control + 4 * markBit l.currentLimited +
      8 * markBit l.voltageLimited)⟩ := by
  refine congrArg (fun n => Group.mk _ _ _ (BitVec.ofNat 16 n)) (?_ : List.sum _ = _)
  simp
  ring

/-- The device group of lock, banks and fault lines (R197). -/
theorem State.devGroup_zero : s.devGroup 0 = some
    ⟨BitVec.ofNat 16 (s.tb.lock.code + 4 * s.tb.acquire + 32 * markBit (decide (s.store.active = .b)) + 64 * s.store.stA.code +
        256 * s.store.stB.code + 1024 * markBit s.store.swapPending + 2048 * markBit s.store.copy.isSome +
        4096 * markBit (decide (s.tb.inh.level ≠ some false))), BitVec.ofNat 16 s.router.lines.toNat, 0, 0⟩ := by
  rw [BitVec.ofNat_toNat]
  refine congrArg some (congrArg (fun n => Group.mk (BitVec.ofNat 16 n) (s.router.lines.setWidth 16) 0 0)
    (?_ : List.sum _ = _))
  simp [BankName.code_eq]
  ring

/-- Settles O22, group by group. -/
theorem statusGroupLayout : Obligations.StatusGroupLayout := by
  unfold Obligations.StatusGroupLayout
  dsimp only
  refine ⟨by decide, fun c s => ⟨s.stateGroup_eq c, ⟨_, rfl, fun j x hx => ⟨?_, ?_⟩, ?_, ?_⟩, rfl, rfl, rfl, rfl, rfl,
    fun h j => s.chanGroup_no_trip c h, fun x hx => ?_, ?_, fun h => ?_, fun x h => ?_, fun h => ?_, fun x h => ?_, rfl, ?_⟩,
    fun s => ⟨?_, ?_, ⟨_, rfl, fun j x hx => ⟨?_, ?_⟩, ?_, ?_, rfl, ?_⟩, rfl, rfl, rfl, rfl, fun h => ?_, fun x h => ?_⟩⟩
  · exact (congrArg (·.getLsbD j) (chanMarks_eq _)).trans (getLsbD_marks _ (by decide) hx)
  · exact (congrArg (·.getLsbD j) (chanMarks_eq _)).trans (getLsbD_marks _ (by decide) hx)
  · refine congrArg (BitVec.ofNat 16) ?_
    simp [markBit]
    ring
  · refine congrArg (BitVec.ofNat 16) ?_
    simp [markBit]
  · obtain ⟨g7, g8, g9, g10, g11⟩ := s.chanGroup_trip c hx
    refine ⟨g7.trans (congrArg some ?_), g8, g9, g10.trans (congrArg some ?_), g11.trans (congrArg some ?_)⟩
    · refine x.headGroup_eq.trans ?_
      cases x.via <;> rfl
    · simp only [TripRecord.group, TripRecord.entryWords_eq]
    · simp only [TripRecord.group, TripRecord.entryWords_eq]
  · refine congrArg some ?_
    rw [Position.liveGroup, levels_eq, levelCode_eq, levelCode_eq, levelCode_eq]
    rfl
  · simp only [State.chanGroup, h]
    rfl
  · simp only [State.chanGroup, h]
    rfl
  · simp only [State.chanGroup, h, countsGroup, (captureFields_eq _ _).1]
    rfl
  · simp only [State.chanGroup, h, countsGroup_some, (captureFields_eq _ _).2]
    rfl
  · exact congrArg some (LastRun.marks_eq _)
  · exact s.devGroup_zero
  · refine congrArg (fun x => some (Group.mk _ (BitVec.ofNat 16 x) _ _)) ?_
    simp
  · exact (congrArg (·.getLsbD j) (devMarks_eq _)).trans (getLsbD_marks _ (by decide) hx)
  · exact (congrArg (·.getLsbD j) (devMarks_eq _)).trans (getLsbD_marks _ (by decide) hx)
  · exact devMarks_lt _
  · exact devMarks_lt _
  · refine congrArg (BitVec.ofNat 16) ?_
    simp [markBit]
  · simp only [State.devGroup, h]
  · simp only [State.devGroup, h]
    rfl

end Sys2Proof.Machine
end

