-- ==== Sys2Proof/Proofs/FlagsNear.lean ====
section
/-! Trip-class flags near a channel, and flags that hold it (R125, R132, R137, R142, R147, R157). -/

namespace Sys2Proof.Machine

theorem ChanKind.fixedTrip_iff (k : ChanKind) : k.fixedTrip = true ↔ k = .overcurrent ∨ k = .bridgeFault ∨ k = .comparesStale := by
  cases k <;> decide

theorem Bank.chanTripClass_iff (b : Bank) (k : ChanKind) : b.chanTripClass k = true ↔
    k = .overcurrent ∨ k = .bridgeFault ∨ k = .comparesStale ∨ (b.route k.code).tripSelf = true ∨
      (b.route k.code).tripAll = true := by
  simp only [Bank.chanTripClass, Bool.or_eq_true, ChanKind.fixedTrip_iff, or_assoc]

theorem Bank.devTripClass_iff (b : Bank) (k : DevKind) : b.devTripClass k = true ↔
    k = .extInhibit ∨ (b.route k.code).tripSelf = true ∨ (b.route k.code).tripAll = true := by
  simp only [Bank.devTripClass, Bool.or_eq_true, DevKind.fixedTrip, decide_eq_true_eq, or_assoc]

variable (s : State) (c : Chan)

theorem ChanKind.any_all (f : ChanKind → Bool) : ChanKind.all.any f = true ↔ ∃ k, f k = true := by
  simp [ChanKind.mem_all]

theorem DevKind.any_all (f : DevKind → Bool) : DevKind.all.any f = true ↔ ∃ k, f k = true := by
  simp [DevKind.mem_all]

theorem State.chanTripFlag_iff : s.chanTripFlag c = true ↔
    ∃ k, (s.chanFlag c k).isSet = true ∧ s.bank.chanTripClass k = true := by
  simp only [State.chanTripFlag, ChanKind.any_all, Bool.and_eq_true]

theorem State.devTripFlag_iff : s.devTripFlag = true ↔ ∃ k, (s.devFlag k).isSet = true ∧ s.bank.devTripClass k = true := by
  simp only [State.devTripFlag, DevKind.any_all, Bool.and_eq_true]

theorem State.tripFlagNear_iff : s.tripFlagNear c = true ↔
    s.chanTripFlag c = true ∨ (∃ p, (s.role c).partner = some p ∧ s.chanTripFlag p = true) ∨ s.devTripFlag = true := by
  unfold State.tripFlagNear
  rw [Bool.or_eq_true, Bool.or_eq_true, or_assoc]
  cases (s.role c).partner <;> simp [or_comm]

theorem State.flagHolds_iff : s.flagHolds c = true ↔
    (∃ d k, (s.chanFlag d k).isSet = true ∧ ((s.bank.route k.code).holdAll = true ∨
      (d = c ∧ (s.bank.route k.code).holdSelf = true))) ∨
    ∃ k, (s.devFlag k).isSet = true ∧ ((s.bank.route k.code).holdSelf = true ∨ (s.bank.route k.code).holdAll = true) := by
  simp only [State.flagHolds, Bool.or_eq_true, List.any_eq_true, List.mem_finRange, true_and, ChanKind.mem_all, DevKind.mem_all,
    Bool.and_eq_true, decide_eq_true_eq]

theorem State.flagHoldsUnit_iff : s.flagHoldsUnit c = true ↔
    s.flagHolds c = true ∨ ∃ p, (s.role c).partner = some p ∧ s.flagHolds p = true := by
  unfold State.flagHoldsUnit
  cases (s.role c).partner <;> simp

theorem State.anyFlagNear_iff : s.anyFlagNear c = true ↔
    (∃ k, (s.chanFlag c k).isSet = true) ∨ ∃ k, (s.devFlag k).isSet = true := by
  simp only [State.anyFlagNear, Bool.or_eq_true, ChanKind.any_all, DevKind.any_all]

end Sys2Proof.Machine
end

