-- ==== Sys2Proof/Proofs/SupervisorRequests.lean ====
section
/-! ENABLE and DISABLE (R125, R126, R128), and the structure of a channel in two banks (R173). -/

namespace Sys2Proof.Machine

/-! ### Structure (R173) -/

/-- A channel keeps its structure from one bank to the other: its membership and the six fields of its record. -/
structure Bank.StructureKept (x y : Bank) (c : Chan) : Prop where
  inUse : (y.record c).inUse = (x.record c).inUse
  shifted : (y.record c).shifted = (x.record c).shifted
  indexMode : (y.record c).indexMode = (x.record c).indexMode
  cpr : (y.record c).cpr = (x.record c).cpr
  polePairs : (y.record c).polePairs = (x.record c).polePairs
  angleOffset : (y.record c).angleOffset = (x.record c).angleOffset
  role : y.role c = x.role c

/-- The fields of group 0 that STRUCTURE compares are alike. -/
abbrev Bank.HeadKept (x y : Bank) (c : Chan) : Prop := (y.record c).inUse = (x.record c).inUse ∧
  (y.record c).shifted = (x.record c).shifted ∧ (y.record c).indexMode = (x.record c).indexMode

/-- The fields of group 6 that STRUCTURE compares are alike. -/
abbrev Bank.ShaftKept (x y : Bank) (c : Chan) : Prop := (y.record c).cpr = (x.record c).cpr ∧
  (y.record c).polePairs = (x.record c).polePairs ∧ (y.record c).angleOffset = (x.record c).angleOffset

variable {x y : Bank} {c : Chan}

theorem Bank.structureKept_iff : x.StructureKept y c ↔ x.HeadKept y c ∧ x.ShaftKept y c ∧ y.role c = x.role c :=
  ⟨fun ⟨a, b, d, e, f, g, h⟩ => ⟨⟨a, b, d⟩, ⟨e, f, g⟩, h⟩, fun ⟨⟨a, b, d⟩, ⟨e, f, g⟩, h⟩ => ⟨a, b, d, e, f, g, h⟩⟩

/-- STRUCTURE names group 0 for a field there that differs. -/
theorem structureDiff_head (h : ¬x.HeadKept y c) : structureDiff x y c = some (0, c.val * 8) := by
  refine if_pos ?_
  by_contra same
  simp only [not_or, not_not] at same
  exact h ⟨same.1.symm, same.2.1.symm, same.2.2.symm⟩

theorem Bank.HeadKept.not_differ (h : x.HeadKept y c) : ¬((x.record c).inUse ≠ (y.record c).inUse ∨
    (x.record c).shifted ≠ (y.record c).shifted ∨ (x.record c).indexMode ≠ (y.record c).indexMode) := by
  obtain ⟨a, b, d⟩ := h
  simp [a, b, d]

/-- STRUCTURE names group 6 for a field there that differs, group 0 being alike. -/
theorem structureDiff_shaft (hh : x.HeadKept y c) (h : ¬x.ShaftKept y c) : structureDiff x y c = some (0, c.val * 8 + 6) := by
  refine (if_neg hh.not_differ).trans (if_pos ?_)
  by_contra same
  simp only [not_or, not_not] at same
  exact h ⟨same.1.symm, same.2.1.symm, same.2.2.symm⟩

theorem Bank.ShaftKept.not_differ (h : x.ShaftKept y c) : ¬((x.record c).cpr ≠ (y.record c).cpr ∨
    (x.record c).polePairs ≠ (y.record c).polePairs ∨ (x.record c).angleOffset ≠ (y.record c).angleOffset) := by
  obtain ⟨a, b, d⟩ := h
  simp [a, b, d]

/-- STRUCTURE finds nothing where fields and membership are alike. -/
theorem structureDiff_kept (h : x.StructureKept y c) : structureDiff x y c = none := by
  obtain ⟨head, shaft, role⟩ := Bank.structureKept_iff.mp h
  exact (if_neg head.not_differ).trans ((if_neg shaft.not_differ).trans (if_pos role.symm))

/-- STRUCTURE of one channel finds nothing exactly where it keeps its structure. -/
theorem structureDiff_eq_none_iff : structureDiff x y c = none ↔ x.StructureKept y c := by
  refine ⟨fun h => Bank.structureKept_iff.mpr ?_, structureDiff_kept⟩
  by_cases head : x.HeadKept y c
  · by_cases shaft : x.ShaftKept y c
    · exact ⟨head, shaft, structureDiff_role h⟩
    · cases (structureDiff_shaft head shaft).symm.trans h
  · cases (structureDiff_head head).symm.trans h

/-- STRUCTURE over every channel not in OFF (R173, R174). -/
theorem State.structureFault_eq_none_iff (s : State) :
    s.structureFault = none ↔ ∀ c, s.st c ≠ .off → s.bank.StructureKept s.shadow c := by
  unfold State.structureFault
  rw [scanChans_eq_none_iff]
  refine forall_congr' fun c => ?_
  by_cases h : s.st c = .off
  · simp [h]
  · simp [h, structureDiff_eq_none_iff]

/-! ### ENABLE (R125, R126) -/

variable {s : State} {r : Request}

/-- The parameters of a channel are there for an ENABLE (R125 check 4). -/
theorem State.hasParams_iff (s : State) (c : Chan) : s.hasParams c = true ↔ (s.record c).inUse = true ∧
    (s.store.swapPending = true → s.shadowServes c = true ∧ ∀ p, (s.role c).partner = some p → s.shadowServes p = true) := by
  unfold State.hasParams
  cases s.store.swapPending <;> cases (s.role c).partner <;> simp

/-- A channel that the shadow serves is in use in both banks and keeps its structure (R125 check 4, R173). -/
theorem State.shadowServes_iff (s : State) (c : Chan) : s.shadowServes c = true ↔ (s.shadow.record c).inUse = true ∧
    (s.record c).inUse = true ∧ (s.shadow.record c).shifted = (s.record c).shifted ∧
    (s.shadow.record c).indexMode = (s.record c).indexMode ∧ (s.shadow.record c).cpr = (s.record c).cpr ∧
    (s.shadow.record c).polePairs = (s.record c).polePairs ∧ (s.shadow.record c).angleOffset = (s.record c).angleOffset ∧
    s.shadow.role c = s.role c := by
  rw [State.shadowServes, Bool.and_eq_true, Option.isNone_iff_eq_none, structureDiff_eq_none_iff]
  exact ⟨fun ⟨used, kept⟩ => ⟨used, kept.inUse.symm.trans used, kept.shifted, kept.indexMode, kept.cpr, kept.polePairs,
      kept.angleOffset, kept.role⟩,
    fun ⟨used, active, a, b, d, e, f, g⟩ => ⟨used, ⟨used.trans active.symm, a, b, d, e, f, g⟩⟩⟩

/-- ENABLE of a channel, check by check (R125). -/
theorem State.onEnable_eq (hc : r.target.toNat = c.val) : s.started.onEnable r =
    if (s.role c).isFollower then s.started.refuse .paired
    else if s.st c ≠ .off then s.started.refuse .state
    else if !s.hasParams c then s.started.refuse .noParams
    else if s.tripFlagNear c then s.started.refuse .flags
    else ⟨⟨.accepted, {}⟩, s.started.enterCharge c⟩ := by
  rw [State.onEnable, chanOf_of_val hc]
  rfl

/-- The modulator at entry into CHARGE (R87, R126). -/
theorem Modulator.enterCharge_frame (m : Modulator) : m.enterCharge.drive = false ∧ m.enterCharge.pending = none ∧
    m.enterCharge.stale = 0 ∧ m.enterCharge.active = m.active ∧ m.enterCharge.deadTime = m.deadTime ∧ m.enterCharge.dark :=
  ⟨rfl, rfl, rfl, rfl, rfl, m.inhibit_dark.1⟩

/-- A channel outside a unit. -/
theorem State.inUnit_eq_false {d : Chan} (h : d ≠ c) (hp : (s.role c).partner ≠ some d) : s.inUnit c d = false := by
  rw [← Bool.not_eq_true, s.inUnit_iff]
  exact not_or.mpr ⟨h, hp⟩

/-- The run executing is marked where its channel enters CHARGE (R58). -/
theorem Engine.markCharge_eq (s : State) (c : Chan) : s.engine.markCharge (s.inUnit c) =
    { queue := s.engine.queue
      running := s.engine.running.map fun x =>
        if x.entry.chan = c ∨ (s.role c).partner = some x.entry.chan then { x with chargeEntered := true } else x } := by
  refine congrArg (Engine.mk _) (congrArg (Option.map · _) (funext fun x => ?_))
  simp only [s.inUnit_iff]

/-- Settles O23, by the checks of ENABLE and the entry into CHARGE. -/
theorem enableChecksAndEntersCharge : Obligations.EnableChecksAndEntersCharge := by
  unfold Obligations.EnableChecksAndEntersCharge
  dsimp only
  simp only [← State.shadowServes_iff, ← State.hasParams_iff, ← Bank.chanTripClass_iff, ← Bank.devTripClass_iff,
    ← State.chanTripFlag_iff, ← State.devTripFlag_iff, ← State.tripFlagNear_iff]
  refine ⟨fun r s c ready hc hf ho hp hn => ?_, fun r s c ready hc => ⟨fun hf => ?_, fun hf ho => ?_, fun hf ho hp => ?_,
    fun hf ho hp hn => ?_⟩⟩
  · have answer : s.started.onEnable r = ⟨⟨.accepted, {}⟩, s.started.enterCharge c⟩ := by
      rw [State.onEnable_eq hc]
      simp [hf, ho, hp, hn]
    refine ⟨{ s.enterCharge c with ring := s.repliedRing 7 r ⟨.accepted, {}⟩ },
      outcome_of_change (t := s.started.enterCharge c) ready answer rfl, rfl,
      Engine.markCharge_eq s c, fun d => ⟨fun hd => ?_, fun hd hp => ?_⟩⟩
    · have unit := (s.inUnit_iff c d).mpr hd
      obtain ⟨sup, mods, loop, refs⟩ := s.enterCharge_get c d
      rw [sup, mods, loop, refs, if_pos unit, if_pos unit, if_pos unit, if_pos unit]
      obtain ⟨drive, pending, stale, active, dead, dark⟩ := (s.mods.get d).enterCharge_frame
      exact ⟨rfl, drive, pending, stale, active, dead, dark, rfl, rfl⟩
    · have unit := Bool.eq_false_iff.mp (s.inUnit_eq_false hd hp)
      obtain ⟨sup, mods, loop, refs⟩ := s.enterCharge_get c d
      rw [sup, mods, loop, refs, if_neg unit, if_neg unit, if_neg unit, if_neg unit]
      exact ⟨rfl, rfl, rfl, rfl⟩
  · exact outcome_of_reply ready ((State.onEnable_eq hc).trans (if_pos hf))
  · exact outcome_of_reply ready ((State.onEnable_eq hc).trans (by simp [hf, ho, State.refuse]))
  · exact outcome_of_reply ready ((State.onEnable_eq hc).trans (by simp [hf, ho, hp, State.refuse]))
  · exact outcome_of_reply ready ((State.onEnable_eq hc).trans (by simp [hf, ho, hp, hn, State.refuse]))

/-! ### DISABLE (R128) -/

/-- DISABLE of a channel that is no follower, by its state (R128). -/
theorem State.onDisable_eq (hc : r.target.toNat = c.val) (hf : (s.role c).isFollower = false) : s.started.onDisable r =
    if s.st c = .charge ∨ s.st c = .run ∨ s.st c = .hold then ⟨⟨.accepted, {}⟩, s.started.enterStopping c⟩
    else s.started.refuse (if s.st c = .trip then .state else .ok) := by
  have lead : ¬(s.started.role c).isFollower = true := Bool.eq_false_iff.mp hf
  have st : s.started.st c = s.st c := rfl
  simp only [State.onDisable, chanOf_of_val hc, if_neg lead, st]
  cases s.st c <;> rfl

/-- Settles O24, by the state DISABLE finds. -/
theorem disableEntersStopping : Obligations.DisableEntersStopping := by
  unfold Obligations.DisableEntersStopping
  refine fun r s c ready hc => ⟨fun hf => ?_, fun hf ho => ?_, fun hf ho => ?_, fun hf ho => ?_⟩
  · refine outcome_of_reply ready ?_
    rw [State.onDisable, chanOf_of_val hc]
    exact if_pos hf
  · refine outcome_of_reply ready ((State.onDisable_eq hc hf).trans ?_)
    rcases ho with ho | ho <;> rw [ho] <;> rfl
  · refine outcome_of_reply ready ((State.onDisable_eq hc hf).trans ?_)
    rw [ho]
    rfl
  · have answer := (State.onDisable_eq hc hf).trans (if_pos ho)
    refine ⟨{ s.enterStopping c with ring := s.repliedRing 8 r ⟨.accepted, {}⟩ },
      outcome_of_change (t := s.started.enterStopping c) ready answer rfl, rfl, fun d => ⟨fun hd => ?_, fun hd hp => ?_⟩⟩
    · have unit := (s.inUnit_iff c d).mpr hd
      obtain ⟨sup, mods⟩ := s.enterStopping_get c d
      rw [sup, mods, if_pos unit, if_pos unit]
      exact ⟨rfl, rfl⟩
    · have unit := Bool.eq_false_iff.mp (s.inUnit_eq_false hd hp)
      obtain ⟨sup, mods⟩ := s.enterStopping_get c d
      rw [sup, mods, if_neg unit, if_neg unit]
      exact ⟨rfl, rfl⟩

end Sys2Proof.Machine
end

