-- ==== Sys2Proof/Proofs/AckRequests.lean ====
section
/-! ACK: the flags it clears, the channels it releases (R132, R137, R154 to R156). -/

namespace Sys2Proof.Machine

variable {s : State} {r : Request} {c : Chan}

/-! ### Masks and conditions (R142, R154, R205) -/

/-- A mask names the channel kinds 1 to 16 in word 0 and PAIR_SKEW in word 1. -/
theorem Request.ackNames_chan (r : Request) (k : ChanKind) : r.ackNames k.code =
    if k = .pairSkew then r.w1.toNat.testBit 0 else r.w0.toNat.testBit (k.code - 1) := by
  cases k <;> rfl

/-- A mask names the device kinds in word 1. -/
theorem Request.ackNames_dev (r : Request) (k : DevKind) : r.ackNames k.code = r.w1.toNat.testBit (k.code - 17) := by
  cases k <;> rfl

theorem State.chanHeld_iff (s : State) (c : Chan) (k : ChanKind) : s.chanHeld c k = true ↔
    (k = .bridgeFault ∧ (s.router.kept.get c).bridgeFault = true) ∨ (k = .undervolt ∧ (s.router.kept.get c).undervolt = true) ∨
      (k = .overvolt ∧ (s.router.kept.get c).overvolt = true) ∨ (k = .overtemp ∧ (s.router.kept.get c).overtemp = true) ∨
      (k = .pairSkew ∧ (s.router.kept.get c).pairSkew = true) := by
  cases k <;> simp [State.chanHeld, ChanKind.level, Kept.get]

theorem State.devHeld_iff (s : State) (k : DevKind) : s.devHeld k = true ↔
    (k = .ringLoss ∧ s.router.devKept.ringLoss = true) ∨ (k = .extInhibit ∧ s.router.devKept.extInhibit = true) := by
  cases k <;> simp [State.devHeld, DevKind.level, DevKept.get]

/-! ### The flags named (R154, R155) -/

/-- A flag that an ACK names stays exactly where it is set and its condition present. -/
theorem Flag.acked_isSet (f : Flag) (held : Bool) : (f.acked held).isSet = (f.isSet && held) := by
  unfold Flag.acked
  cases h : f.isSet && held with
  | false => rfl
  | true => exact (Bool.and_eq_true_iff.mp h).1

theorem Flag.acked_held {f : Flag} {held : Bool} (hf : f.isSet = true) (hh : held = true) : f.acked held = f := by
  rw [Flag.acked, hf, hh]
  rfl

theorem Flag.acked_gone {f : Flag} {held : Bool} (hh : held = false) : f.acked held = {} := by
  rw [Flag.acked, hh, Bool.and_false]
  rfl

theorem Flag.acked_empty (held : Bool) : Flag.acked {} held = {} := rfl

theorem ackStatus_eq_iff (still : Bool) : ackStatus still = .stillActive ↔ still = true := by cases still <;> decide

/-- The reply is STILL_ACTIVE exactly when a named flag of the channel stays set. -/
theorem State.chanStillActive_iff (s : State) (c : Chan) (named : ChanKind → Bool) : s.chanStillActive c named = true ↔
    ∃ k, named k = true ∧ ((s.ackChan c named).chanFlag c k).isSet = true := by
  unfold State.chanStillActive
  rw [ChanKind.any_all]
  refine exists_congr fun k => ?_
  rw [State.ackChan_chanFlag, Bool.and_assoc, Bool.and_eq_true]
  refine and_congr_right fun h => ?_
  rw [if_pos ⟨rfl, h⟩, Flag.acked_isSet]

/-- The reply is STILL_ACTIVE exactly when a named flag of the device stays set. -/
theorem State.devStillActive_iff (s : State) (named : DevKind → Bool) : s.devStillActive named = true ↔
    ∃ k, named k = true ∧ ((s.ackDev named).devFlag k).isSet = true := by
  unfold State.devStillActive
  rw [DevKind.any_all]
  refine exists_congr fun k => ?_
  rw [State.ackDev_devFlag, Bool.and_assoc, Bool.and_eq_true]
  refine and_congr_right fun h => ?_
  rw [if_pos h, Flag.acked_isSet]

/-- ACK of a channel (R154). -/
theorem State.onAck_channel (hc : r.target.toNat = c.val) : s.started.onAck r =
    ⟨⟨ackStatus (s.chanStillActive c fun k => r.ackNames k.code), {}⟩, (s.started.ackChan c fun k => r.ackNames k.code).afterAck⟩ := by
  rw [State.onAck, if_neg (ne_device_of_val hc), chanOf_of_val hc]
  rfl

/-- ACK of the device (R154). -/
theorem State.onAck_device (hd : r.target.toNat = 255) : s.started.onAck r =
    ⟨⟨ackStatus (s.devStillActive fun k => r.ackNames k.code), {}⟩, (s.started.ackDev fun k => r.ackNames k.code).afterAck⟩ :=
  if_pos (target_eq_device_iff.mpr hd)

/-- Settles O25, flag by flag. -/
theorem ackClearsNamedFlags : Obligations.AckClearsNamedFlags := by
  unfold Obligations.AckClearsNamedFlags
  refine ⟨Request.ackNames_chan, Request.ackNames_dev, State.chanHeld_iff, State.devHeld_iff, fun r s c ready hc => ?_,
    fun r s ready hd => ?_⟩
  · have flag := s.ackChan_chanFlag c (named := fun k => r.ackNames k.code)
    refine ⟨_, _, outcome_of_change ready (State.onAck_channel hc) rfl, rfl, rfl, rfl, rfl, rfl, fun k => ⟨fun hn => ?_,
      fun hn hs hh => ?_, fun hn hs hh => ?_, fun hn he => ?_⟩, fun d k hd => (flag d k).trans (if_neg fun h => hd h.1),
      ackStatus_cases _, (ackStatus_eq_iff _).trans (s.chanStillActive_iff c _)⟩
    · exact (flag c k).trans (if_neg fun h => by rw [hn] at h; cases h.2)
    · exact (flag c k).trans ((if_pos ⟨rfl, hn⟩).trans (Flag.acked_held hs hh))
    · exact (flag c k).trans ((if_pos ⟨rfl, hn⟩).trans (Flag.acked_gone hh))
    · exact (flag c k).trans ((if_pos ⟨rfl, hn⟩).trans (by rw [he, Flag.acked_empty]))
  · have flag := s.ackDev_devFlag fun k => r.ackNames k.code
    refine ⟨_, _, outcome_of_change ready (State.onAck_device hd) rfl, rfl, rfl, rfl, rfl, rfl, fun k => ⟨fun hn => ?_,
      fun hn hs hh => ?_, fun hn hs hh => ?_, fun hn he => ?_⟩, ackStatus_cases _,
      (ackStatus_eq_iff _).trans (s.devStillActive_iff _)⟩
    · exact (flag k).trans (if_neg (by rw [hn]; decide))
    · exact (flag k).trans ((if_pos hn).trans (Flag.acked_held hs hh))
    · exact (flag k).trans ((if_pos hn).trans (Flag.acked_gone hh))
    · exact (flag k).trans ((if_pos hn).trans (by rw [he, Flag.acked_empty]))

/-! ### The channels released (R132, R137, R153, R156) -/

/-- The supervisor and the trip record of a channel after the judgements of an ACK, on the flags found. -/
theorem State.afterAck_channel (t : State) (c : Chan) :
    t.afterAck.sup.get c = (if t.st c = .trip ∧ t.tripFlagNear c = false then { t.sup.get c with st := .off }
      else if t.st c = .hold ∧ t.flagHoldsUnit c = false then
        { t.sup.get c with causes := { (t.sup.get c).causes with routed := false } }
      else t.sup.get c) ∧
    t.afterAck.router.trips.get c = (if t.st c = .trip ∧ t.tripFlagNear c = false then none else t.router.trips.get c) := by
  have exit : t.judgeLines.judgeExit.sup.get c =
      if t.st c = .trip ∧ t.tripFlagNear c = false then { t.sup.get c with st := .off } else t.sup.get c := by
    rw [State.judgeExit, PerChan.get_ofFn]
    rfl
  have holds : t.judgeLines.judgeExit.flagHoldsUnit c = t.flagHoldsUnit c := rfl
  refine ⟨?_, by rw [State.afterAck, State.judgeRouted, State.judgeExit, PerChan.get_ofFn]; rfl⟩
  rw [State.afterAck, State.judgeRouted, PerChan.get_ofFn, State.st, holds, exit]
  by_cases leaves : t.st c = .trip ∧ t.tripFlagNear c = false
  · simp [leaves]
  · simp only [if_neg leaves]
    rfl

/-- What the judgements of an ACK do to a channel, from the flags as the ACK left them. -/
theorem State.afterAck_releases {t u : State} (hu : u = { t.afterAck with ring := u.ring }) (hsup : t.sup = s.sup)
    (htrips : t.router.trips = s.router.trips) (c : Chan) :
    (s.st c = .trip → u.tripFlagNear c = false →
      u.sup.get c = { s.sup.get c with st := .off } ∧ u.router.trips.get c = none) ∧
    (s.st c = .trip → u.tripFlagNear c = true →
      u.sup.get c = s.sup.get c ∧ u.router.trips.get c = s.router.trips.get c) ∧
    (s.st c = .hold → u.flagHoldsUnit c = false →
      u.sup.get c = { s.sup.get c with causes := { (s.sup.get c).causes with routed := false } }) ∧
    (s.st c = .hold → u.flagHoldsUnit c = true → u.sup.get c = s.sup.get c) ∧
    (s.st c ≠ .trip → u.router.trips.get c = s.router.trips.get c) ∧
    (s.st c ≠ .trip → s.st c ≠ .hold → u.sup.get c = s.sup.get c) := by
  have st : t.st c = s.st c := congrArg (fun v => (PerChan.get v c).st) hsup
  have near : u.tripFlagNear c = t.tripFlagNear c := by rw [hu]; rfl
  have holds : u.flagHoldsUnit c = t.flagHoldsUnit c := by rw [hu]; rfl
  obtain ⟨sup, trips⟩ := t.afterAck_channel c
  rw [hsup, st] at sup
  rw [htrips, st] at trips
  have usup : u.sup.get c = t.afterAck.sup.get c := by rw [hu]
  have utrips : u.router.trips.get c = t.afterAck.router.trips.get c := by rw [hu]
  rw [near, holds, usup, utrips, sup, trips]
  have stays : s.st c = .trip → t.tripFlagNear c = true → ¬(s.st c = .trip ∧ t.tripFlagNear c = false) :=
    fun _ n h => Bool.false_ne_true (h.2.symm.trans n)
  have out : s.st c = .hold → s.st c ≠ .trip := fun h e => ChanState.noConfusion (h.symm.trans e)
  refine ⟨fun h n => ⟨if_pos ⟨h, n⟩, if_pos ⟨h, n⟩⟩, fun h n => ⟨?_, if_neg (stays h n)⟩, fun h n => ?_, fun h n => ?_,
    fun h => if_neg fun e => h e.1, fun h h' => ?_⟩
  · exact (if_neg (stays h n)).trans (if_neg fun e => out e.1 h)
  · exact (if_neg fun e => out h e.1).trans (if_pos ⟨h, n⟩)
  · exact (if_neg fun e => out h e.1).trans (if_neg fun e => Bool.false_ne_true (e.2.symm.trans n))
  · exact (if_neg fun e => h e.1).trans (if_neg fun e => h' e.1)

/-- Settles O26, from the judgements after an ACK. -/
theorem ackReleasesChannels : Obligations.AckReleasesChannels := by
  unfold Obligations.AckReleasesChannels
  refine ⟨Bank.chanTripClass_iff, Bank.devTripClass_iff, fun s c => ⟨?_, ?_, s.anyFlagNear_iff c⟩, fun r s ready ht => ?_⟩
  · dsimp only
    simp only [s.tripFlagNear_iff, State.chanTripFlag_iff, s.devTripFlag_iff]
  · dsimp only
    simp only [s.flagHoldsUnit_iff, State.flagHolds_iff]
  · rcases ht with hc | hd
    · have answer := State.onAck_channel (s := s) (c := ⟨r.target.toNat, hc⟩) rfl
      exact ⟨_, outcome_of_change ready answer rfl, rfl, rfl, State.afterAck_releases rfl rfl rfl⟩
    · exact ⟨_, outcome_of_change ready (State.onAck_device hd) rfl, rfl, rfl, State.afterAck_releases rfl rfl rfl⟩

end Sys2Proof.Machine
end

