-- ==== Sys2Proof/Proofs/PositionRequests.lean ====
section
/-! SET_COUNT and ARM_INDEX (R114, R119). -/

namespace Sys2Proof.Machine

variable {s : State} {r : Request} {c : Chan}

/-- A change of one channel's thing replaces it. -/
theorem PerChan.modify_eq_set {α : Type} (v : PerChan α) (c : Chan) (f : α → α) : v.modify c f = v.set c (f (v.get c)) := by
  ext d
  rw [PerChan.get_modify, PerChan.get_set]
  split
  · next h => rw [h]
  · rfl

/-- SET_COUNT of a channel, check by check (R114). -/
theorem State.onSetCount_eq (hc : r.target.toNat = c.val) : s.started.onSetCount r =
    if s.st c ≠ .off then s.started.refuse .state
    else if (s.record c).effectiveCpr ≤ twoWords r.w0 r.w1 then s.started.refuse .range
    else ⟨⟨.ok, {}⟩, s.started.writeCount c (twoWords r.w0 r.w1) r.w2⟩ := by
  rw [State.onSetCount, chanOf_of_val hc]
  rfl

/-- ARM_INDEX of a channel (R119). -/
theorem State.onArmIndex_eq (hc : r.target.toNat = c.val) : s.started.onArmIndex r =
    if 1 < r.w0.toNat then s.started.refuse .range
    else ⟨⟨.ok, {}⟩, { s.started with pos := s.pos.set c ((s.pos.get c).arm (decide (r.w0 = 1))) }⟩ := by
  rw [State.onArmIndex, chanOf_of_val hc]
  simp only [PerChan.modify_eq_set]
  rfl

/-- Settles O27, by the checks of SET_COUNT and the operations of ARM_INDEX. -/
theorem setCountAndArmIndex : Obligations.SetCountAndArmIndex := by
  unfold Obligations.SetCountAndArmIndex
  refine ⟨fun r s c ready hc => ⟨fun ho => ?_, fun ho hr => ?_, fun ho hr => ?_⟩, fun r s c ready hc => ⟨fun h1 => ?_,
    fun h0 => ?_, fun hr => ?_⟩⟩
  · exact outcome_of_reply ready ((State.onSetCount_eq hc).trans (if_pos ho))
  · exact outcome_of_reply ready ((State.onSetCount_eq hc).trans ((if_neg (not_not_intro ho)).trans (if_pos hr)))
  · have answer := (State.onSetCount_eq hc).trans ((if_neg (not_not_intro ho)).trans (if_neg (not_le.mpr hr)))
    have lanes : ∀ d, (s.started.writeCount c (twoWords r.w0 r.w1) r.w2).lanes.get d =
        if d = c then (if (s.lanes.get d).arrived then s.lanes.get d else { s.lanes.get d with
          strobe := (s.lanes.get d).strobe.map fun x => { x with countMark := true } }) else s.lanes.get d :=
      fun d => PerChan.get_modify _ _ _ _
    refine ⟨_, outcome_of_change ready answer rfl, rfl,
      PerChan.modify_eq_set s.pos c fun p => p.written (twoWords r.w0 r.w1) r.w2, PerChan.modify_eq_set s.loop c fun l => { l with history := none },
      rfl, rfl, fun d hd => (lanes d).trans (if_neg hd), fun ha => ?_, fun ha => ?_⟩
    · exact (lanes c).trans ((if_pos rfl).trans (if_pos ha))
    · exact (lanes c).trans ((if_pos rfl).trans (if_neg (Bool.eq_false_iff.mp ha)))
  · have answer := (State.onArmIndex_eq (s := s) hc).trans (if_neg (by omega))
    have arms : r.w0 = 1 := BitVec.eq_of_toNat_eq h1
    rw [decide_eq_true arms] at answer
    exact outcome_of_change (t := { s.started with pos := s.pos.set c ((s.pos.get c).arm true) }) ready answer rfl
  · have answer := (State.onArmIndex_eq (s := s) hc).trans (if_neg (by omega))
    have disarms : ¬r.w0 = 1 := fun e => absurd (h0.symm.trans (congrArg BitVec.toNat e)) (by decide)
    rw [decide_eq_false disarms] at answer
    exact outcome_of_change (t := { s.started with pos := s.pos.set c ((s.pos.get c).arm false) }) ready answer rfl
  · exact outcome_of_reply ready ((State.onArmIndex_eq hc).trans (if_pos hr))

end Sys2Proof.Machine
end

