-- ==== Sys2Proof/Proofs/Restart.lean ====
section
/-! EXT_INHIBIT, which trips every channel in use (R136, R142), and RESTART (R158, R200). -/

namespace Sys2Proof.Machine

variable (s : State)

/-! ### A raise of EXT_INHIBIT -/

/-- EXT_INHIBIT reaches every channel via ALL. -/
theorem State.tripReach_extInhibit (r : Route) (c : Chan) : s.tripReach (r.devTrip .extInhibit) c = some .all := rfl

/-- A raise of EXT_INHIBIT takes every channel in use and not in TRIP into TRIP, dark. -/
theorem State.raiseDev_extInhibit_taken {c : Chan} (h : s.tripTakes c = true) :
    (s.raiseDev .extInhibit).sup.get c = (s.sup.get c).enterTrip ∧
      (s.raiseDev .extInhibit).mods.get c = (s.mods.get c).inhibit ∧
      (s.raiseDev .extInhibit).router.trips.get c = s.tripRecordAfter 21 .all c := by
  refine ⟨?_, ?_, s.raiseDev_trips_get _ c⟩
  · rw [State.raiseDev_sup_get, State.tripReach_extInhibit, h]
    exact Supervisor.addCauses_of_not_closing rfl _
  · rw [State.raiseDev_mods_get, State.tripReach_extInhibit, h]
    rfl

/-- A raise of EXT_INHIBIT leaves a channel not in use, or in TRIP, its modulator; a record of TRIP gains a cause. -/
theorem State.raiseDev_extInhibit_left {c : Chan} (h : s.tripTakes c = false) (hc : (s.st c).closing = false) :
    (s.raiseDev .extInhibit).sup.get c = s.sup.get c ∧ (s.raiseDev .extInhibit).mods.get c = s.mods.get c ∧
      (s.raiseDev .extInhibit).router.trips.get c = s.tripRecordAfter 21 .all c := by
  refine ⟨?_, ?_, s.raiseDev_trips_get _ c⟩
  · rw [State.raiseDev_sup_get, State.tripReach_extInhibit, h]
    exact Supervisor.addCauses_of_not_closing hc _
  · rw [State.raiseDev_mods_get, State.tripReach_extInhibit, h]
    rfl

/-! ### RESTART -/

/-- The channel blocks that RESTART clears (R105, R139, R200). -/
theorem State.restartBlocks_channel (c : Chan) :
    s.restartBlocks.sup.get c = {} ∧ s.restartBlocks.mods.get c = (s.mods.get c).restarted ∧
      s.restartBlocks.loop.get c = { s.loop.get c with accD := 0, accQ := 0, vsat := 0 } ∧
      s.restartBlocks.refs.get c = {} ∧ (∀ k, s.restartBlocks.chanFlag c k = {}) :=
  ⟨PerChan.get_const _ c, PerChan.get_ofFn _ c, PerChan.get_ofFn _ c, PerChan.get_const _ c, Router.chanFlag_empty c⟩

/-- A modulator after RESTART (R105). -/
theorem Modulator.restarted_frame (m : Modulator) : m.restarted.drive = false ∧ m.restarted.dark ∧ m.restarted.pending = none ∧
    m.restarted.active = ⟨0, 0, 0⟩ ∧ m.restarted.stale = 0 ∧ m.restarted.deadTime = m.deadTime :=
  ⟨rfl, m.inhibit_dark.1, rfl, rfl, rfl, rfl⟩

/-- The modulator after RESTART and one more entry into INHIBIT. -/
theorem Modulator.restarted_inhibit_frame (m : Modulator) : m.restarted.inhibit.drive = false ∧ m.restarted.inhibit.dark ∧
    m.restarted.inhibit.pending = none ∧ m.restarted.inhibit.active = ⟨0, 0, 0⟩ ∧ m.restarted.inhibit.stale = 0 ∧
    m.restarted.inhibit.deadTime = m.deadTime :=
  ⟨rfl, m.restarted.inhibit_dark.1, rfl, rfl, rfl, rfl⟩

/-- The store after RESTART: the pointer, the active bank and the states stay, an abandoned copy leaves its bank EDITED (R168). -/
theorem State.restartBlocks_store : s.restartBlocks.store.active = s.store.active ∧ s.restartBlocks.store.swapPending = false ∧
    s.restartBlocks.store.copy = none ∧
    (s.store.copy = none → s.restartBlocks.shadow = s.shadow ∧
      s.restartBlocks.store.stateOf s.store.active.other = s.store.stateOf s.store.active.other) ∧
    (s.store.copy ≠ none → s.restartBlocks.store.stateOf s.store.active.other = .edited) := by
  have same : s.store.copy = none → s.store.abandonCopy s.free = s.store := fun h => by rw [Store.abandonCopy, h]
  have copy : (s.store.abandonCopy s.free).copy = none := by
    cases h : s.store.copy with
    | none => rw [same h, h]
    | some k => rw [Store.abandonCopy, h]
  refine ⟨(s.store.abandonCopy_bank s.free).1, rfl, copy, fun h => ?_, fun h => ?_⟩
  · refine ⟨?_, ?_⟩
    · show (s.store.abandonCopy s.free).bank (s.store.abandonCopy s.free).active.other = _
      rw [same h]
      rfl
    · show (s.store.abandonCopy s.free).stateOf s.store.active.other = _
      rw [same h]
  · show (s.store.abandonCopy s.free).stateOf s.store.active.other = _
    obtain ⟨k, hk⟩ := Option.ne_none_iff_exists'.mp h
    rw [Store.abandonCopy, hk]
    exact Store.stateOf_setState _ _ _

/-- RESTART with INH_N not low leaves the blocks cleared. -/
theorem State.restartAll_of_high {s : State} (h : s.tb.inh.level ≠ some false) : s.restartAll = s.restartBlocks :=
  if_neg (by simp [Timebase.inhLow, h])

/-- RESTART with INH_N low raises EXT_INHIBIT on the cleared blocks (R158). -/
theorem State.restartAll_of_low {s : State} (h : s.tb.inh.level = some false) :
    s.restartAll = (s.restartBlocks.keepDev .extInhibit true).raiseDev .extInhibit :=
  if_pos (by simp [Timebase.inhLow, h])

/-- A channel after RESTART with INH_N low: in TRIP via ALL where it is in use, else in OFF. -/
theorem State.restartAll_low_channel {s : State} (h : s.tb.inh.level = some false) (c : Chan) :
    s.restartAll.sup.get c = (if (s.record c).inUse = true then { st := .trip } else {}) ∧
    s.restartAll.mods.get c = (if (s.record c).inUse = true then (s.mods.get c).restarted.inhibit else (s.mods.get c).restarted) ∧
    s.restartAll.router.trips.get c = (if (s.record c).inUse = true then some
      { cause := 21, via := .all, cycle := s.ring.lastCycle, before := .off, snapshot := (s.loop.get c).last.snapshot }
      else none) := by
  obtain ⟨sup, mods, loop, -, -⟩ := s.restartBlocks_channel c
  have off : (s.restartBlocks.keepDev .extInhibit true).st c = .off := by rw [State.st]; exact congrArg _ sup
  have record : (s.restartBlocks.keepDev .extInhibit true).record c = s.record c :=
    congrArg (fun b : Bank => b.record c) s.restartBlocks_bank
  have takes : (s.restartBlocks.keepDev .extInhibit true).tripTakes c = (s.record c).inUse := by
    rw [State.tripTakes, off, record]
    rfl
  rw [State.restartAll_of_low h]
  cases hu : (s.record c).inUse with
  | true =>
    obtain ⟨sup', mods', trips'⟩ := State.raiseDev_extInhibit_taken _ (takes.trans hu)
    rw [sup', mods', trips', State.tripRecordAfter, takes, hu, off]
    refine ⟨congrArg Supervisor.enterTrip sup, congrArg Modulator.inhibit mods, ?_⟩
    show some (TripRecord.mk 21 .all s.ring.lastCycle .off (s.restartBlocks.loop.get c).last.snapshot [] 0) = _
    rw [loop]
    rfl
  | false =>
    obtain ⟨sup', mods', trips'⟩ := State.raiseDev_extInhibit_left _ (takes.trans hu) (by rw [off]; rfl)
    rw [sup', mods', trips', State.tripRecordAfter, takes, hu]
    exact ⟨sup, mods, congrArg (Option.map _) (Router.trips_empty c)⟩

/-- What RESTART leaves alone, and what it clears whatever the level of INH_N. -/
theorem State.restartAll_frame : s.restartAll = { s.restartBlocks with
    sup := s.restartAll.sup, mods := s.restartAll.mods, router := s.restartAll.router } := by
  by_cases h : s.tb.inh.level = some false
  · rw [State.restartAll_of_low h]
    rfl
  · rw [State.restartAll_of_high h]

/-- The channel blocks after RESTART, with INH_N low or not. -/
theorem State.restartAll_channel (c : Chan) :
    ((s.restartAll.mods.get c).drive = false ∧ (s.restartAll.mods.get c).dark ∧ (s.restartAll.mods.get c).pending = none ∧
      (s.restartAll.mods.get c).active = ⟨0, 0, 0⟩ ∧ (s.restartAll.mods.get c).stale = 0 ∧
      (s.restartAll.mods.get c).deadTime = (s.mods.get c).deadTime) ∧
    ((s.restartAll.sup.get c).causes = {} ∧ (s.restartAll.sup.get c).chargeCount = 0 ∧
      (s.restartAll.sup.get c).missed = 0 ∧ (s.restartAll.sup.get c).setSeen = false) ∧
    ∀ k, s.restartAll.chanFlag c k = {} := by
  obtain ⟨sup, mods, -, -, flags⟩ := s.restartBlocks_channel c
  by_cases h : s.tb.inh.level = some false
  · obtain ⟨sup', mods', -⟩ := State.restartAll_low_channel h c
    have flags' : ∀ k, s.restartAll.chanFlag c k = {} := by
      rw [State.restartAll_of_low h]
      exact flags
    refine ⟨?_, ?_, flags'⟩
    · rw [mods']
      split
      · exact Modulator.restarted_inhibit_frame _
      · exact Modulator.restarted_frame _
    · rw [sup']
      split <;> exact ⟨rfl, rfl, rfl, rfl⟩
  · rw [State.restartAll_of_high h, sup, mods]
    exact ⟨Modulator.restarted_frame _, ⟨rfl, rfl, rfl, rfl⟩, flags⟩

/-- Settles O28, block by block. -/
theorem restartClearsBlocks : Obligations.RestartClearsBlocks := by
  unfold Obligations.RestartClearsBlocks
  intro r s ready hd
  have answer : s.started.onRestart r = ⟨⟨.ok, {}⟩, s.started.restartAll⟩ := if_neg (not_not_intro (target_eq_device_iff.mpr hd))
  have frame := s.started.restartAll_frame
  have ring : s.started.restartAll.ring = s.started.ring := (congrArg State.ring frame).trans rfl
  have store : s.started.restartAll.store = s.started.restartBlocks.store := (congrArg State.store frame).trans rfl
  obtain ⟨active, pending, copy, kept, edited⟩ := s.started.restartBlocks_store
  refine ⟨_, outcome_of_change ready answer ring, rfl, (congrArg State.tb frame).trans rfl, (congrArg State.lanes frame).trans rfl,
    (congrArg State.pos frame).trans rfl, (congrArg State.pending frame).trans rfl,
    (State.bank_congr store).trans s.started.restartBlocks_bank, ?_, ?_, ?_, fun h => ?_, fun h => ?_,
    (congrArg State.engine frame).trans rfl, fun k => ?_, fun c => ?_, fun high => ?_, fun low => ?_⟩
  · exact (congrArg Store.active store).trans active
  · exact (congrArg Store.swapPending store).trans pending
  · exact (congrArg Store.copy store).trans copy
  · exact ⟨(congrArg (fun x : Store => x.bank x.active.other) store).trans (kept h).1,
      (congrArg (Store.stateOf · _) store).trans (kept h).2⟩
  · exact (congrArg (Store.stateOf · _) store).trans (edited h)
  · exact (congrArg (fun x : State => x.pairs.get k) frame).trans (Vector.getElem_replicate _)
  · obtain ⟨⟨drive, dark, none, zero, stale, dead⟩, ⟨causes, charge, missed, seen⟩, flags⟩ := s.started.restartAll_channel c
    obtain ⟨-, -, loop, refs, -⟩ := s.started.restartBlocks_channel c
    exact ⟨(congrArg (fun x : State => x.loop.get c) frame).trans loop, (congrArg (fun x : State => x.refs.get c) frame).trans refs,
      drive, dark, none, zero, stale, dead, causes, charge, missed, seen, flags⟩
  · have blocks : s.started.restartAll = s.started.restartBlocks := State.restartAll_of_high high
    refine ⟨congrArg State.router blocks, fun c => ?_⟩
    exact (congrArg (fun x : State => x.st c) blocks).trans (congrArg Supervisor.st (s.started.restartBlocks_channel c).1)
  · have blocks : s.started.restartAll = (s.started.restartBlocks.keepDev .extInhibit true).raiseDev .extInhibit :=
      State.restartAll_of_low low
    have dev : ∀ k, s.started.restartAll.devFlag k = if k = .extInhibit then Flag.raised {} else {} := fun k => by
      have empty : ∀ j, (s.started.restartBlocks.keepDev .extInhibit true).devFlag j = {} := Router.devFlag_empty
      rw [blocks, State.raiseDev_devFlag, empty, empty]
    have channel := fun c => State.restartAll_low_channel (s := s.started) low c
    have lines : s.started.restartAll.router.lines = s.started.restartAll.linesNow := by
      rw [blocks]
      exact State.raiseDev_lines _ _
    have kept : s.started.restartAll.router.devKept.extInhibit = true := by
      rw [blocks]
      rfl
    refine ⟨dev .extInhibit, kept, lines, fun k hk => (dev k).trans (if_neg hk), fun c => ⟨fun hu => ⟨?_, ?_⟩, fun hu => ⟨?_, ?_⟩⟩⟩
    · exact congrArg Supervisor.st ((channel c).1.trans (if_pos hu))
    · exact (channel c).2.2.trans (if_pos hu)
    · exact congrArg Supervisor.st ((channel c).1.trans (if_neg (Bool.eq_false_iff.mp hu)))
    · exact (channel c).2.2.trans (if_neg (Bool.eq_false_iff.mp hu))

end Sys2Proof.Machine
end

