-- ==== Sys2Proof/Proofs/SetArrivals.lean ====
section
/-! A SET at its station: the mailbox path and the RET (R34, R35, R183 to R185, R204). -/

namespace Sys2Proof.Machine

variable {s : State} {c : Chan} {p : SetPayload}

/-! ### Raises and the SET-seen marks -/

theorem State.raiseChan_frame (s : State) (k : ChanKind) (c : Chan) : s.raiseChan k c =
    { s with sup := (s.raiseChan k c).sup, mods := (s.raiseChan k c).mods, router := (s.raiseChan k c).router } := rfl

theorem State.raiseDev_frame (s : State) (k : DevKind) : s.raiseDev k =
    { s with sup := (s.raiseDev k).sup, mods := (s.raiseDev k).mods, router := (s.raiseDev k).router } := rfl

theorem State.raiseChan_setSeen (s : State) (k : ChanKind) (c d : Chan) :
    ((s.raiseChan k c).sup.get d).setSeen = (s.sup.get d).setSeen := by
  obtain h | ⟨x, -, h⟩ | ⟨-, h⟩ := s.raiseChan_sup_cases k c d <;> rw [h]
  rfl

theorem State.raiseDev_setSeen (s : State) (k : DevKind) (d : Chan) :
    ((s.raiseDev k).sup.get d).setSeen = (s.sup.get d).setSeen := by
  obtain h | ⟨x, -, h⟩ | ⟨-, h⟩ := s.raiseDev_sup_cases k d <;> rw [h]
  rfl

/-- In RUN or HOLD. -/
theorem ChanState.closing_iff (x : ChanState) : x.closing = true ↔ x = .run ∨ x = .hold := by cases x <;> decide

/-! ### The mailbox path (R34, R35) -/

/-- A SET at its station: the mailbox path, then the RET (R184). -/
theorem exec_setArrival (h : s.ready) : exec (.setArrival c p) s = .next (s.started.setNow c p) := by
  obtain ⟨normal, boundary⟩ := h
  show Host.Outcome.next (s.cellOpened.setOrForward c p) = _
  have through : s.started.transparent = false := normal
  rw [State.cellOpened_boundary s boundary, State.setOrForward, if_neg (Bool.eq_false_iff.mp through)]

/-- A SET that finds its mailbox empty. -/
theorem State.mailboxPath_fill (h : (s.st c).closing = true) (hf : (s.role c).isFollower = false)
    (hm : (s.refs.get c).mailbox = none) : s.mailboxPath c p = (s.markSeen c).fillMailbox c (Payload.ofSet p) := by
  simp [State.mailboxPath, h, hf, hm]

/-- A SET that finds its mailbox full. -/
theorem State.mailboxPath_overrun (h : (s.st c).closing = true) (hf : (s.role c).isFollower = false)
    (hm : (s.refs.get c).mailbox ≠ none) : s.mailboxPath c p = (s.markSeen c).raiseChan .setpointOverrun c := by
  simp [State.mailboxPath, h, hf, Option.isSome_iff_ne_none.mpr hm]

/-- A SET that is discarded. -/
theorem State.mailboxPath_discard (h : (s.st c).closing = false ∨ (s.role c).isFollower = true) :
    s.mailboxPath c p = s.markSeen c := by
  unfold State.mailboxPath
  refine if_neg ?_
  rcases h with h | h <;> simp [h]

/-- What a SET may do to its channel. -/
theorem State.mailboxPath_cases (s : State) (c : Chan) (p : SetPayload) :
    s.mailboxPath c p = (s.markSeen c).fillMailbox c (Payload.ofSet p) ∨
      s.mailboxPath c p = (s.markSeen c).raiseChan .setpointOverrun c ∨ s.mailboxPath c p = s.markSeen c := by
  unfold State.mailboxPath
  dsimp only
  split
  · split
    · exact .inr (.inl rfl)
    · exact .inl rfl
  · exact .inr (.inr rfl)

/-- The SET-seen mark of one channel set. -/
theorem State.markSeen_sup (s : State) (c : Chan) : (s.markSeen c).sup = s.sup.set c { s.sup.get c with setSeen := true } :=
  PerChan.modify_eq_set s.sup c fun u => { u with setSeen := true }

theorem State.markSeen_setSeen (s : State) (c : Chan) : ((s.markSeen c).sup.get c).setSeen = true := by
  rw [State.markSeen_sup, PerChan.get_set, if_pos rfl]

/-- Whatever becomes of its payload, a SET leaves its mark, the reference states and the other channels' mailboxes. -/
theorem State.mailboxPath_frame (s : State) (c : Chan) (p : SetPayload) :
    ((s.mailboxPath c p).sup.get c).setSeen = true ∧ (∀ d, d ≠ c → (s.mailboxPath c p).refs.get d = s.refs.get d) ∧
      ((s.mailboxPath c p).refs.get c).ref = (s.refs.get c).ref ∧
      s.mailboxPath c p = { s with
        sup := (s.mailboxPath c p).sup, refs := (s.mailboxPath c p).refs, mods := (s.mailboxPath c p).mods,
        router := (s.mailboxPath c p).router } := by
  obtain h | h | h := s.mailboxPath_cases c p <;> rw [h]
  · refine ⟨s.markSeen_setSeen c, fun d hd => ?_, ?_, rfl⟩
    · exact (PerChan.get_modify _ _ _ _).trans (if_neg hd)
    · rw [State.fillMailbox, PerChan.get_modify, if_pos rfl]
      rfl
  · refine ⟨(State.raiseChan_setSeen _ _ _ _).trans (s.markSeen_setSeen c), fun d _ => ?_, ?_, rfl⟩
    · exact congrArg (PerChan.get · d) (State.raiseChan_refs _ _ _)
    · exact congrArg (fun v => (PerChan.get v c).ref) (State.raiseChan_refs _ _ _)
  · exact ⟨s.markSeen_setSeen c, fun _ _ => rfl, rfl, rfl⟩

/-- The payload of a SET as the mailbox keeps it (R34). -/
theorem Payload.ofSet_eq (p : SetPayload) : Payload.ofSet p = ⟨p.cycle, p.iq.toInt, p.id.toInt,
    if p.mode.toNat = 1 then .given else if p.mode.toNat = 2 then .auto else .zero,
    if p.limit.toNat ≤ 32767 then p.limit.toNat else 0⟩ := by
  have mode : IdMode.ofByte p.mode = if p.mode.toNat = 1 then .given else if p.mode.toNat = 2 then .auto else .zero := by
    simp only [IdMode.ofByte, ← BitVec.toNat_inj]
    rfl
  have limit : (if p.limit.toNat < 32768 then p.limit.toNat else 0) = if p.limit.toNat ≤ 32767 then p.limit.toNat else 0 := by
    simp only [← Nat.lt_succ_iff]
  rw [Payload.ofSet, mode, limit]

/-- What leaves in the slot of a SET changes the ring port alone. -/
theorem State.sent_frame {t : State} (o : RingOut)
    (h : t = { s with sup := t.sup, refs := t.refs, mods := t.mods, router := t.router }) :
    t.sent o = { s with
      ring := (t.sent o).ring, sup := t.sup, refs := t.refs, mods := t.mods, router := t.router } := by
  cases t
  cases h
  rfl

/-- Settles O29, by the cases of the mailbox path. -/
theorem setFillsTheMailbox : Obligations.SetFillsTheMailbox := by
  unfold Obligations.SetFillsTheMailbox
  intro c p s ready
  obtain ⟨seen, others, ref, frame⟩ := s.started.mailboxPath_frame c p
  refine ⟨_, exec_setArrival ready, seen, others, ref, ?_, fun ⟨hst, hf, hm⟩ => ?_, fun ⟨hst, hf, hm⟩ => ?_, fun h => ?_⟩
  · exact State.sent_frame (s := s.started) (.cell ((s.started.mailboxPath c p).retCell c p.cycle)) frame
  · have path : s.started.mailboxPath c p = (s.started.markSeen c).fillMailbox c (Payload.ofSet p) :=
      State.mailboxPath_fill ((ChanState.closing_iff _).mpr hst) hf hm
    have filled : ((s.started.mailboxPath c p).refs.get c).mailbox = some (Payload.ofSet p) := by
      rw [path, State.fillMailbox, PerChan.get_modify, if_pos rfl]
    refine ⟨(congrArg State.sup path).trans (s.started.markSeen_sup c), (congrArg State.mods path).trans rfl,
      (congrArg State.router path).trans rfl, Payload.ofSet p, filled, ?_⟩
    rw [Payload.ofSet_eq]
    exact ⟨rfl, rfl, rfl, rfl, rfl⟩
  · have path : s.started.mailboxPath c p = (s.started.markSeen c).raiseChan .setpointOverrun c :=
      State.mailboxPath_overrun ((ChanState.closing_iff _).mpr hst) hf hm
    refine ⟨(congrArg State.refs path).trans (State.raiseChan_refs _ _ _), ?_⟩
    refine (congrArg (fun x : State => x.chanFlag c .setpointOverrun) path).trans ?_
    exact (State.raiseChan_chanFlag _ _ _ _ _).trans (if_pos ⟨rfl, rfl⟩)
  · have path : s.started.mailboxPath c p = s.started.markSeen c := by
      refine State.mailboxPath_discard (h.imp_left fun hst => ?_)
      rw [← Bool.not_eq_true, ChanState.closing_iff]
      exact not_or.mpr hst
    exact ⟨(congrArg State.sup path).trans (s.started.markSeen_sup c), (congrArg State.mods path).trans rfl,
      (congrArg State.router path).trans rfl, (congrArg State.refs path).trans rfl⟩

/-! ### The RET (R183, R185, R204) -/

/-- A mark of a byte of marks. -/
theorem getLsbD_byte_marks (l : List Bool) {j : Nat} (h : j < 8) :
    (BitVec.ofNat 8 (marksValue l)).getLsbD j = l.getD j false := by
  rw [BitVec.getLsbD_ofNat, marksValue_testBit, decide_eq_true h, Bool.true_and]

/-- Byte 13 of a RET, its marks from bit 0 on (R204). -/
theorem State.retMarkByte_eq (t : State) (c : Chan) : t.retMarkByte c = BitVec.ofNat 8 (marksValue
    [false, false, t.store.swapPending, decide (t.store.active = .b),
      (t.loop.get c).last.completed && (t.loop.get c).last.voltageLimited,
      (t.loop.get c).last.completed && (t.loop.get c).last.currentLimited, t.anyFlagNear c, t.tripFlagNear c]) := by
  have zero : markBit false = 0 := rfl
  refine congrArg (BitVec.ofNat 8) ?_
  simp only [marksValue, BankName.code_eq, zero]
  ring

/-- Byte 12 of a RET: marks of the causes below the codes of lock and state (R204). -/
theorem State.retStateByte_eq (t : State) (c : Chan) : t.retStateByte c = BitVec.ofNat 8
    (marksValue [(t.sup.get c).causes.routed, (t.sup.get c).causes.ring, (t.sup.get c).causes.stale] +
      8 * t.tb.lock.code + 32 * (t.st c).code) := by
  refine congrArg (BitVec.ofNat 8) ?_
  simp only [marksValue, State.st]
  ring

theorem Lock.code_lt (x : Lock) : x.code < 4 := by cases x <;> decide

theorem ChanState.code_lt (x : ChanState) : x.code < 8 := by cases x <;> decide

/-- The fields of byte 12 of a RET. -/
theorem State.retStateByte_fields (t : State) (c : Chan) :
    (t.retStateByte c).toNat / 32 = (t.st c).code ∧ (t.retStateByte c).toNat / 8 % 4 = t.tb.lock.code ∧
      (t.retStateByte c).getLsbD 2 = (t.sup.get c).causes.stale ∧ (t.retStateByte c).getLsbD 1 = (t.sup.get c).causes.ring ∧
      (t.retStateByte c).getLsbD 0 = (t.sup.get c).causes.routed := by
  have lock := t.tb.lock.code_lt
  have code := (t.st c).code_lt
  have marks := marksValue_lt [(t.sup.get c).causes.routed, (t.sup.get c).causes.ring, (t.sup.get c).causes.stale]
  have bit : ∀ j < 3, (t.retStateByte c).getLsbD j =
      [(t.sup.get c).causes.routed, (t.sup.get c).causes.ring, (t.sup.get c).causes.stale].getD j false := fun j hj => by
    rw [← marksValue_testBit, State.retStateByte_eq, BitVec.getLsbD_ofNat, Nat.testBit_eq_decide_div_mod_eq,
      Nat.testBit_eq_decide_div_mod_eq, decide_eq_true (by omega : j < 8), Bool.true_and]
    congr 2
    interval_cases j <;> omega
  rw [List.length_cons, List.length_cons, List.length_cons, List.length_nil] at marks
  refine ⟨?_, ?_, bit 2 (by decide), bit 1 (by decide), bit 0 (by decide)⟩
  · rw [State.retStateByte_eq, BitVec.toNat_ofNat]
    omega
  · rw [State.retStateByte_eq, BitVec.toNat_ofNat]
    omega

/-- A field of the last run in a RET (R185). -/
theorem LastRun.shown_eq (l : LastRun) (x : Int) :
    (l.completed = false → l.shown x = 0) ∧ (l.completed = true → l.shown x = BitVec.ofInt 16 x) :=
  ⟨fun h => by rw [LastRun.shown, h]; rfl, fun h => by rw [LastRun.shown, h]; rfl⟩

/-- Settles O30, field by field of the RET. -/
theorem retCarriesTheChannel : Obligations.RetCarriesTheChannel := by
  unfold Obligations.RetCarriesTheChannel
  intro c p s ready
  obtain ⟨-, -, -, frame⟩ := s.started.mailboxPath_frame c p
  generalize ht : s.started.mailboxPath c p = t at frame
  have tb : t.tb = s.tb := (congrArg State.tb frame).trans rfl
  have store : t.store = s.store := (congrArg State.store frame).trans rfl
  have loop : t.loop = s.loop := (congrArg State.loop frame).trans rfl
  have ring : t.ring = s.started.ring := (congrArg State.ring frame).trans rfl
  have address : t.ring.address = s.ring.address := (congrArg RingPort.address ring).trans rfl
  obtain ⟨code, lock, stale, loss, routed⟩ := t.retStateByte_fields c
  have mark : ∀ j < 8, (t.retMarkByte c).getLsbD j = _ := fun j hj =>
    (congrArg (·.getLsbD j) (t.retMarkByte_eq c)).trans (getLsbD_byte_marks _ hj)
  rw [loop, store] at mark
  have hi : (t.retCell c p.cycle).p5.hi = t.retStateByte c := Word.hi_of _ _
  have lo : (t.retCell c p.cycle).p5.lo = t.retMarkByte c := Word.lo_of _ _
  have sent : s.started.setNow c p = t.sent (.cell (t.retCell c p.cycle)) := by rw [State.setNow, ht]
  refine ⟨t.sent (.cell (t.retCell c p.cycle)), t.retCell c p.cycle, (exec_setArrival ready).trans (congrArg _ sent),
    ?_, headerByte_kind _ _ _ _, ?_, headerByte_damaged _ _ _ _, headerByte_taken _ _ _ _, ?_, Cell.sealed_good _, rfl,
    fun hl => ?_, fun hl => ?_, ?_⟩
  · exact congrArg (fun x : RingPort => { x with cell := none, out := .cell (t.retCell c p.cycle) }) ring
  · exact congrArg BitVec.toNat (headerByte_chanField 3 (BitVec.ofFin c) false true)
  · exact congrArg (BitVec.setWidth 8) address
  · have zero := fun x => ((s.loop.get c).last.shown_eq x).1 hl
    have low := fun j (hj : j < 8) => (congrArg (·.getLsbD j) (lo : _ = t.retMarkByte c)).trans (mark j hj)
    rw [hl] at low
    refine ⟨?_, ?_, ?_, ?_, low 5 (by decide), low 4 (by decide)⟩
    all_goals
      show (t.loop.get c).last.shown _ = 0
      rw [loop]
      exact zero _
  · have shown := fun x => ((s.loop.get c).last.shown_eq x).2 hl
    have low := fun j (hj : j < 8) => (congrArg (·.getLsbD j) (lo : _ = t.retMarkByte c)).trans (mark j hj)
    rw [hl] at low
    have p1 : (t.retCell c p.cycle).p1 = (t.loop.get c).last.shown (t.loop.get c).last.iq := rfl
    have p2 : (t.retCell c p.cycle).p2 = (t.loop.get c).last.shown (t.loop.get c).last.id := rfl
    have p3 : (t.retCell c p.cycle).p3 = (t.loop.get c).last.shown (t.loop.get c).last.fine := rfl
    have p4 : (t.retCell c p.cycle).p4 = (t.loop.get c).last.shown (t.loop.get c).last.delta := rfl
    rw [p1, p2, p3, p4, loop]
    exact ⟨shown _, shown _, shown _, shown _, low 5 (by decide), low 4 (by decide)⟩
  · rw [hi]
    exact ⟨code, lock.trans (congrArg (fun x : Timebase => x.lock.code) tb), stale, loss, routed,
      (congrArg (·.getLsbD 7) lo).trans (mark 7 (by decide)), (congrArg (·.getLsbD 6) lo).trans (mark 6 (by decide)),
      (congrArg (·.getLsbD 3) lo).trans (mark 3 (by decide)), (congrArg (·.getLsbD 2) lo).trans (mark 2 (by decide))⟩

end Sys2Proof.Machine
end

