-- ==== Sys2Proof/Proofs/RingCells.lean ====
section
/-! Cells by their bytes (R178, R181, R204): bad cells, and the cells that carry requests and SETs. -/

namespace Sys2Proof.Machine

/-! ### Bytes of a cell (R178, R204) -/

/-- A word is made of its halves. -/
theorem Word.of_hi_lo (w : Word) : Word.of w.hi w.lo = w := by
  refine BitVec.eq_of_toNat_eq ?_
  have joined : (Word.of w.hi w.lo).toNat = w.hi.toNat <<< 8 ||| w.lo.toNat := BitVec.toNat_append _ _
  have low := w.lo.isLt
  rw [joined, ← Nat.shiftLeft_add_eq_or_of_lt low, Word.hi_toNat, Word.lo_toNat, Nat.shiftLeft_eq]
  omega

/-- The sixteen bytes of a cell give it again. -/
theorem Cell.ofBytes_bytes (c : Cell) : Cell.ofBytes c.bytes = some c := by
  show some (Cell.mk _ _ _ _ _ _ _ _ _) = _
  rw [Word.of_hi_lo, Word.of_hi_lo, Word.of_hi_lo, Word.of_hi_lo, Word.of_hi_lo, Word.of_hi_lo, Word.of_hi_lo]

/-- The cell of sixteen bytes has these bytes. -/
theorem Cell.exists_of_bytes {l : List Byte} (h : l.length = 16) : ∃ c, Cell.ofBytes l = some c ∧ c.bytes = l := by
  match l, h with
  | [b0, b1, b2, b3, b4, b5, b6, b7, b8, b9, b10, b11, b12, b13, b14, b15], _ =>
    refine ⟨_, rfl, ?_⟩
    simp only [Cell.bytes, Cell.body, Word.hi_of, Word.lo_of]
    rfl

/-- The bytes of a cell with line-code errors: 00h where there was one (R178). -/
theorem Cell.received_bytes (c : Cell) (errors : BitVec 16) : (c.received errors).bytes = blanked errors c.bytes := by
  have length : (blanked errors c.bytes).length = 16 := List.length_mapIdx
  obtain ⟨z, hz, bytes⟩ := Cell.exists_of_bytes length
  rw [Cell.received, hz]
  exact bytes

theorem blanked_getElem? (errors : BitVec 16) (l : List Byte) (k : Nat) :
    (blanked errors l)[k]? = l[k]?.map fun b => if errors.getLsbD k then 0 else b := List.getElem?_mapIdx

theorem blanked_zero (l : List Byte) : blanked 0 l = l := by
  refine List.ext_getElem? fun k => ?_
  rw [blanked_getElem?]
  simp

theorem Cell.received_zero (c : Cell) : c.received 0 = c := by
  rw [Cell.received, blanked_zero, Cell.ofBytes_bytes]
  rfl

/-! ### Bad cells (R181) -/

variable {s : State}

/-- A bad cell at a normal station. -/
theorem exec_damagedCell {x : Cell} {errors : BitVec 16} (h : s.ready) (hb : errors ≠ 0 ∨ x.good = false) :
    exec (.damagedCell x errors) s = .next (s.started.damagedNow (x.received errors)) := by
  obtain ⟨normal, boundary⟩ := h
  have through : s.started.transparent = false := normal
  show Host.Outcome.next (s.cellOpened.cellArrival _ _) = _
  rw [State.cellOpened_boundary s boundary, State.cellArrival, if_neg (Bool.eq_false_iff.mp through), if_pos]
  by_cases he : errors = 0
  · subst he
    rw [Cell.received_zero, hb.resolve_left (fun h => h rfl)]
    rfl
  · rw [decide_eq_true he]
    rfl

/-- A raise of CELL_CRC: its own flag alone, and no modulator or trip record where its route does not trip. -/
theorem State.raiseDev_cellCrc (s : State) :
    (s.raiseDev .cellCrc).devFlag .cellCrc = { isSet := true, count := min 65535 ((s.devFlag .cellCrc).count + 1) } ∧
      (∀ k, k ≠ .cellCrc → (s.raiseDev .cellCrc).devFlag k = s.devFlag k) ∧
      (s.bank.devTripClass .cellCrc = false →
        (s.raiseDev .cellCrc).router.trips = s.router.trips ∧ (s.raiseDev .cellCrc).mods = s.mods) := by
  refine ⟨?_, fun k hk => ?_, fun h => ⟨(State.raiseDev_quiet s h).2, (State.raiseDev_quiet s h).1⟩⟩
  · exact (s.raiseDev_devFlag _ _).trans (if_pos rfl)
  · exact (s.raiseDev_devFlag _ _).trans (if_neg hk)

/-- The cell sent on for a bad one has D set (R181). -/
theorem markedCell_damaged (c : Cell) : (markedCell c).damaged = true := by
  show (c.header ||| 2).getLsbD 1 = true
  rw [BitVec.getLsbD_or, Bool.or_eq_true]
  exact .inr rfl

/-- A raise changes supervisors, modulators and the router, and a cell sent then the ring port. -/
theorem State.sent_after_raise {t : State} (o : RingOut)
    (h : t = { s.started with sup := t.sup, mods := t.mods, router := t.router }) :
    (t.sent o).ring = s.slotRing o ∧
      t.sent o = { s with ring := (t.sent o).ring, sup := (t.sent o).sup, mods := (t.sent o).mods,
                          router := (t.sent o).router } := by
  cases t
  cases h
  exact ⟨rfl, rfl⟩

/-- Settles O31, from the raise of CELL_CRC and the cell that is sent on. -/
theorem badCellsRaiseCellCrc : Obligations.BadCellsRaiseCellCrc := by
  unfold Obligations.BadCellsRaiseCellCrc
  intro x errors s ready hb
  have flags := s.started.raiseDev_cellCrc
  have seen := s.started.raiseDev_setSeen .cellCrc
  have frame := s.started.raiseDev_frame .cellCrc
  have answer : exec (.damagedCell x errors) s =
      .next ((s.started.raiseDev .cellCrc).sent (.cell (markedCell (x.received errors)))) := exec_damagedCell ready hb
  have bytes := Cell.received_bytes x errors
  generalize s.started.raiseDev .cellCrc = t at flags seen frame answer
  generalize x.received errors = z at answer bytes
  obtain ⟨own, others, quiet⟩ := flags
  obtain ⟨ring, rest⟩ := State.sent_after_raise (.cell (markedCell z)) frame
  refine ⟨_, markedCell z, z, answer, ring, fun k hk => ?_, markedCell_damaged z, Cell.sealed_good _, rfl, rfl, rest, seen, own,
    others, quiet⟩
  have length : k < x.bytes.length := hk
  rw [bytes, blanked_getElem?, List.getElem?_eq_getElem length]
  split <;> rfl

/-! ### The cells of requests and SETs (R182, R184, R186, R204) -/

variable {c : Chan} {k : Byte} {r : Request} {p : SetPayload} {address : BitVec 5}

theorem State.cellOpened_address (s : State) : s.cellOpened.ring.address = s.ring.address := by
  unfold State.cellOpened
  split
  · split
    · rfl
    · exact s.cut_ring.2.1
  · rfl

/-- A good cell at a normal station is not judged bad. -/
theorem State.cellArrival_good {x : Cell} (h : s.transparent = false) (hx : x.good = true) :
    s.cellArrival x false = s.goodCell x := by
  rw [State.cellArrival, if_neg (Bool.eq_false_iff.mp h), if_neg]
  rw [hx]
  decide

/-- A request for this station, by the kind, the mark and the address of its cell (R182, R186). -/
theorem State.goodCell_request {x : Cell} (hd : x.damaged = false) (hk : x.kind = 4) (hm : s.isForMe x = true) :
    s.goodCell x = s.answered x.p0.hi x.request (s.onRequest x.p0.hi x.request) := by
  unfold State.goodCell
  rw [if_neg (Bool.eq_false_iff.mp hd), if_neg (by rw [hk]; decide), if_neg fun h => absurd (hk.symm.trans h.1) (by decide),
    if_pos ⟨hk, hm⟩]

/-- A SET for this station, by the kind, the mark and the address of its cell (R182, R184). -/
theorem State.goodCell_set {x : Cell} (hd : x.damaged = false) (hk : x.kind = 2) (hm : s.isForMe x = true) :
    s.goodCell x = s.setNow (chanOfBits x.chanField) x.setPayload := by
  unfold State.goodCell
  rw [if_neg (Bool.eq_false_iff.mp hd), if_neg (by rw [hk]; decide), if_pos ⟨hk, hm⟩]

/-- The fields of the cell that carries a request. -/
theorem requestCell_fields (address : BitVec 5) (k : Byte) (r : Request) :
    (requestCell address k r).damaged = false ∧ (requestCell address k r).kind = 4 ∧ (requestCell address k r).taken = false ∧
      (requestCell address k r).p0.hi = k ∧ (requestCell address k r).request = r := by
  refine ⟨headerByte_damaged _ _ _ _, headerByte_kind _ _ _ _, headerByte_taken _ _ _ _, Word.hi_of _ _, ?_⟩
  have chan : (requestCell address k r).chanField = r.chanField := headerByte_chanField _ _ _ _
  have tag : (requestCell address k r).p0.lo = r.tag := Word.lo_of _ _
  have target : (requestCell address k r).p1.hi = r.target := Word.hi_of _ _
  have index : (requestCell address k r).p1.lo = r.index := Word.lo_of _ _
  rw [Cell.request, chan, tag, target, index]
  rfl

/-- The fields of the cell that carries a SET. -/
theorem setCell_fields (address : BitVec 5) (c : Chan) (p : SetPayload) :
    (setCell address c p).damaged = false ∧ (setCell address c p).kind = 2 ∧ (setCell address c p).taken = false ∧
      chanOfBits (setCell address c p).chanField = c ∧ (setCell address c p).setPayload = p := by
  have chan : (setCell address c p).chanField = BitVec.ofFin c := headerByte_chanField _ _ _ _
  have mode : (setCell address c p).p3.hi = p.mode := Word.hi_of _ _
  refine ⟨headerByte_damaged _ _ _ _, headerByte_kind _ _ _ _, headerByte_taken _ _ _ _, ?_, ?_⟩
  · rw [chan]
    rfl
  · rw [Cell.setPayload, mode]
    rfl

/-- A cell whose station byte is this station's address and that is not taken is for it. -/
theorem State.isForMe_of {x : Cell} (hs : x.station = s.ring.address.setWidth 8) (ht : x.taken = false) : s.isForMe x = true := by
  rw [State.isForMe, decide_eq_true hs, ht]
  rfl

/-- The cell of a request does what the request does. -/
theorem exec_requestCell (h : s.transparent = false) (k : Byte) (r : Request) :
    exec (.forwardedCell (requestCell s.ring.address k r)) s =
      .next (s.cellOpened.requested k r fun t => t.onRequest k r) := by
  have good : (requestCell s.ring.address k r).good = true := Cell.sealed_good _
  have station : (requestCell s.ring.address k r).station = s.ring.address.setWidth 8 := rfl
  obtain ⟨damaged, kind, taken, hi, request⟩ := requestCell_fields s.ring.address k r
  show Host.Outcome.next (s.cellOpened.cellArrival (requestCell s.ring.address k r) false) = _
  generalize requestCell s.ring.address k r = x at *
  have mine : s.cellOpened.isForMe x = true := State.isForMe_of (station.trans (by rw [State.cellOpened_address])) taken
  rw [State.cellArrival_good (s.cellOpened_transparent.trans h) good, State.goodCell_request damaged kind mine, hi, request]
  rfl

/-- The cell of a SET does what the SET does. -/
theorem exec_setCell (h : s.transparent = false) (c : Chan) (p : SetPayload) :
    exec (.forwardedCell (setCell s.ring.address c p)) s = exec (.setArrival c p) s := by
  have good : (setCell s.ring.address c p).good = true := Cell.sealed_good _
  have station : (setCell s.ring.address c p).station = s.ring.address.setWidth 8 := rfl
  obtain ⟨damaged, kind, taken, chan, payload⟩ := setCell_fields s.ring.address c p
  have through := Bool.eq_false_iff.mp (s.cellOpened_transparent.trans h)
  show Host.Outcome.next (s.cellOpened.cellArrival (setCell s.ring.address c p) false) =
    .next (s.cellOpened.setOrForward c p)
  generalize setCell s.ring.address c p = x at *
  have mine : s.cellOpened.isForMe x = true := State.isForMe_of (station.trans (by rw [State.cellOpened_address])) taken
  rw [State.cellArrival_good (s.cellOpened_transparent.trans h) good, State.goodCell_set damaged kind mine, chan, payload,
    State.setOrForward, if_neg through]

/-! ### The CRC (R181) -/

theorem crc16Bit_eq (x : BitVec 16) : crc16Bit x = if 32768 ≤ x.toNat then (x <<< 1) ^^^ 0x1021 else x <<< 1 := by
  simp only [crc16Bit, BitVec.msb_eq_decide, decide_eq_true_eq]

theorem append_zero_byte (b : Byte) : (b ++ (0 : Byte) : BitVec 16) = b.setWidth 16 <<< 8 := by
  revert b
  decide

/-- One more byte under the CRC-16. -/
theorem crc16_append (l : List Byte) (b : Byte) : crc16 (l ++ [b]) =
    Nat.repeat (fun x : BitVec 16 => if 32768 ≤ x.toNat then (x <<< 1) ^^^ 0x1021 else x <<< 1) 8
      (crc16 l ^^^ (b.setWidth 16 <<< 8)) := by
  have bit : crc16Bit = fun x : BitVec 16 => if 32768 ≤ x.toNat then (x <<< 1) ^^^ 0x1021 else x <<< 1 := funext crc16Bit_eq
  rw [crc16, List.foldl_append, ← bit, ← append_zero_byte]
  rfl

/-- Settles O34, from the fields of the cells. -/
theorem cellsCarryTheirCommands : Obligations.CellsCarryTheirCommands := by
  unfold Obligations.CellsCarryTheirCommands
  intro s h
  have sent := exec_requestCell h
  refine ⟨fun r => ⟨sent 1 r, sent 2 r, sent 3 r, sent 4 r, sent 5 r, sent 6 r, sent 7 r, sent 8 r, sent 9 r, sent 10 r,
    sent 11 r, sent 12 r⟩, fun k r _ => sent k r, exec_setCell h, ⟨rfl, crc16_append⟩,
    fun x => ⟨rfl, Cell.ofBytes_bytes x, Cell.received_zero x, ?_⟩⟩
  rw [Cell.good, decide_eq_true_eq]
  exact eq_comm

end Sys2Proof.Machine
end

