-- ==== Sys2Proof/Proofs/CutCells.lean ====
section
/-! Cut cells and stray bytes (R178, R203). What a cell does when it has arrived does not depend on the cell in progress, which
its arrival takes. -/

namespace Sys2Proof.Machine

/-! ### Operations that do not see the cell in progress -/

/-- The part with no cell in progress. -/
def State.uncelled (s : State) : State := { s with ring := { s.ring with cell := none } }

/-- The answer with no cell in progress after it. -/
def Answer.uncelled (a : Answer) : Answer := ⟨a.reply, a.after.uncelled⟩

/-- An operation neither reads nor writes the cell in progress. -/
abbrev Unseeing (f : State → State) : Prop := ∀ s : State, f s.uncelled = (f s).uncelled

variable {s : State}

theorem raiseChan_unseeing (k : ChanKind) (c : Chan) : Unseeing (State.raiseChan k c) := fun _ => rfl

theorem Unseeing.ite {f g : State → State} {p : State → Prop} [DecidablePred p] (hf : Unseeing f) (hg : Unseeing g)
    (hp : ∀ s : State, p s.uncelled ↔ p s) : Unseeing fun s => if p s then f s else g s := fun s => by
  simp only [hp s]
  split
  · exact hf s
  · exact hg s

theorem Unseeing.foldl {α : Type} {f : State → α → State} (h : ∀ a, Unseeing (f · a)) (l : List α) :
    Unseeing fun s => l.foldl f s := fun s => by
  induction l generalizing s with
  | nil => rfl
  | cons a l ih => exact (congrArg (l.foldl f) (h a s)).trans (ih (f s a))

theorem deliverDev_unseeing (l : DevLevel) (x : Bool) : Unseeing (State.deliverDev l x) := fun s => by
  unfold State.deliverDev
  have kept : s.uncelled.router = s.router := rfl
  rw [kept]
  dsimp only
  split <;> rfl

theorem measureLock_unseeing : Unseeing State.measureLock := fun s => by
  unfold State.measureLock
  have tb : s.uncelled.tb = s.tb := rfl
  have busy : s.uncelled.anyBusy = s.anyBusy := rfl
  rw [tb, busy]
  split
  · rfl
  · dsimp only
    cases s.tb.lock with
    | free => cases s.anyBusy <;> rfl
    | acquire => rfl
    | locked =>
      dsimp only
      split <;> rfl

theorem trySwap_unseeing : Unseeing State.trySwap := fun s => by
  unfold State.trySwap
  have pending : s.uncelled.store = s.store := rfl
  have fault : s.uncelled.structureFault = s.structureFault := rfl
  rw [pending, fault]
  split <;> rfl

theorem raiseChanIf_unseeing (b : Bool) (k : ChanKind) (c : Chan) : Unseeing (State.raiseChanIf b k c) := fun s => by
  cases b with
  | false => rfl
  | true => exact raiseChan_unseeing k c s

theorem judgeStaleness_unseeing : Unseeing State.judgeStaleness := fun s => by
  have found : s.uncelled.staleFound = s.staleFound := rfl
  unfold State.judgeStaleness
  rw [found]
  exact Unseeing.foldl (fun c => raiseChanIf_unseeing (s.staleFound c) .setpointStale c) _ { s with sup := s.judgedSup }

theorem endLoss_unseeing : Unseeing State.endLoss := fun s =>
  deliverDev_unseeing .ringLoss false (s.mapTb fun t => { t with lossCount := 0, lossMark := false })

theorem syncActions_unseeing : Unseeing State.syncActions := fun s =>
  calc s.uncelled.measureLock.endLoss.removeRing.judgeStaleness
    _ = s.measureLock.uncelled.endLoss.removeRing.judgeStaleness := by rw [measureLock_unseeing]
    _ = s.measureLock.endLoss.uncelled.removeRing.judgeStaleness := by rw [endLoss_unseeing]
    _ = s.measureLock.endLoss.removeRing.judgeStaleness.uncelled := judgeStaleness_unseeing s.measureLock.endLoss.removeRing

theorem syncWithSwap_unseeing (b : Bool) : Unseeing (State.syncWithSwap b) := fun s => by
  cases b with
  | false => exact (congrArg State.trySwap (syncActions_unseeing s)).trans (trySwap_unseeing _)
  | true => exact (congrArg State.syncActions (trySwap_unseeing s)).trans (syncActions_unseeing _)

theorem syncNow_unseeing (w : Word) (o : SyncOrder) : Unseeing (State.syncNow w o) := fun s => by
  unfold State.syncNow
  cases o.cycleFirst with
  | false => exact congrArg (State.recordCycle w) (syncWithSwap_unseeing o.swapFirst s)
  | true => exact syncWithSwap_unseeing o.swapFirst (s.recordCycle w)

theorem mailboxPath_unseeing (c : Chan) (p : SetPayload) : Unseeing (State.mailboxPath c p) := fun s => by
  have closing : s.uncelled.st c = s.st c := rfl
  have role : s.uncelled.role c = s.role c := rfl
  have refs : s.uncelled.refs = s.refs := rfl
  unfold State.mailboxPath
  rw [closing, role, refs]
  dsimp only
  split
  · split <;> rfl
  · rfl

theorem State.setNow_uncelled (c : Chan) (p : SetPayload) (s : State) : s.uncelled.setNow c p = s.setNow c p := by
  unfold State.setNow
  rw [mailboxPath_unseeing]
  rfl

/-! ### Requests do not see the cell in progress -/

variable (r : Request)

theorem restartAll_unseeing : Unseeing State.restartAll := fun s => by
  have low : s.uncelled.tb = s.tb := rfl
  unfold State.restartAll
  rw [low]
  dsimp only
  split
  · exact deliverDev_unseeing _ _ s.restartBlocks
  · rfl

theorem State.onRequest_uncelled (k : Byte) (s : State) : s.uncelled.onRequest k r = (s.onRequest k r).uncelled := by
  unfold State.onRequest
  split
  · rfl
  · rfl
  · rfl
  · have reply : s.uncelled.swapReply = s.swapReply := rfl
    unfold State.onSwapBanks
    rw [reply]
    split <;> rfl
  · have busy : s.uncelled.anyBusy = s.anyBusy := rfl
    unfold State.onConfigure
    rw [busy]
    split_ifs <;> rfl
  · rfl
  · have role : s.uncelled.role = s.role := rfl
    have st : s.uncelled.st = s.st := rfl
    have params : s.uncelled.hasParams = s.hasParams := rfl
    have near : s.uncelled.tripFlagNear = s.tripFlagNear := rfl
    unfold State.onEnable
    rw [role, st, params, near]
    cases chanOf r.target with
    | none => rfl
    | some c =>
      dsimp only
      split_ifs <;> rfl
  · have role : s.uncelled.role = s.role := rfl
    have st : s.uncelled.st = s.st := rfl
    unfold State.onDisable
    rw [role, st]
    cases chanOf r.target with
    | none => rfl
    | some c =>
      dsimp only
      split_ifs
      · rfl
      · cases s.st c <;> rfl
  · unfold State.onAck
    split
    · rfl
    · cases chanOf r.target <;> rfl
  · have st : s.uncelled.st = s.st := rfl
    have record : s.uncelled.record = s.record := rfl
    unfold State.onSetCount
    rw [st, record]
    cases chanOf r.target with
    | none => rfl
    | some c =>
      dsimp only
      split_ifs <;> rfl
  · unfold State.onArmIndex
    cases chanOf r.target with
    | none => rfl
    | some c =>
      dsimp only
      split_ifs <;> rfl
  · unfold State.onRestart
    split
    · rfl
    · exact congrArg (Answer.mk _) (restartAll_unseeing s)
  · rfl

theorem State.answered_uncelled (k : Byte) (s : State) :
    s.uncelled.answered k r (s.uncelled.onRequest k r) = s.answered k r (s.onRequest k r) := by
  rw [State.onRequest_uncelled]
  rfl

/-! ### An arrival does not see the cell in progress -/

theorem State.goodCell_uncelled (x : Cell) (s : State) : s.uncelled.goodCell x = s.goodCell x := by
  have mine : s.uncelled.isForMe x = s.isForMe x := rfl
  unfold State.goodCell
  rw [mine, syncNow_unseeing, State.setNow_uncelled, State.answered_uncelled]
  rfl

/-- The arrival of a cell does not depend on the cell in progress. -/
theorem State.cellArrival_uncelled (x : Cell) (bad : Bool) (s : State) : s.uncelled.cellArrival x bad = s.cellArrival x bad := by
  have through : s.uncelled.transparent = s.transparent := rfl
  unfold State.cellArrival
  rw [through, State.goodCell_uncelled]
  rfl

/-! ### Cuts, bytes outside cells, bytes of cells (R178, R203) -/

theorem openedBy_eq (x : RingSymbol) : openedBy x = if x = .startSymbol then some {} else none := by cases x <;> rfl

/-- CUT_CELL, where it has its event. -/
theorem exec_cutCell {got : Nat} (x : RingSymbol) (h : s.ring.cell = none → got < 16) :
    exec (.cutCell got x) s = .next (s.cut.started.ringWith (openedBy x) s.cut.started.ring.out) := by
  refine if_neg fun hc => ?_
  simp only [Bool.and_eq_true, Option.isNone_iff_eq_none, decide_eq_true_eq] at hc
  exact absurd (h hc.1) (not_lt.mpr hc.2)

/-- The cut of a cell at a normal station (R178). -/
theorem State.cut_normal (h : s.transparent = false) : s.cut = (s.raiseDev .cellCrc).ringWith none .idle :=
  if_neg (Bool.eq_false_iff.mp h)

/-- The cut of a cell at a transparent station (R180). -/
theorem State.cut_transparent (h : s.transparent = true) : s.cut = s.ringWith none .unchanged := if_pos h

/-- Sixteen bytes make a cell, fewer make none. -/
theorem Cell.ofBytes_short {l : List Byte} (h : l.length < 16) : Cell.ofBytes l = none := by
  unfold Cell.ofBytes
  split
  · simp at h
  · rfl

theorem exec_byteOutsideCell_short {b : Option Byte} {p : PartialCell} (hp : s.ring.cell = some p) (h : p.bytes.length < 15) :
    exec (.byteOutsideCell b) s = .next (s.ringWith (some (p.add b)) s.ring.out) := by
  have short : Cell.ofBytes (p.add b).bytes = none := Cell.ofBytes_short (by
    rw [PartialCell.add, List.length_append]
    exact Nat.succ_lt_succ h)
  show execByteOutsideCell b s = _
  unfold execByteOutsideCell
  rw [hp]
  dsimp only
  rw [short]

theorem exec_byteOutsideCell_whole {b : Option Byte} {p : PartialCell} {x : Cell} (hp : s.ring.cell = some p)
    (hx : Cell.ofBytes (p.add b).bytes = some x) : exec (.byteOutsideCell b) s = .next (s.cellArrival x (p.add b).bad) := by
  show execByteOutsideCell b s = _
  unfold execByteOutsideCell
  rw [hp]
  dsimp only
  rw [hx]

/-- A start symbol changes nothing once one has come. -/
theorem State.started_of_waitStart {t : State} (h : t.ring.waitStart = false) : t.started = t := by
  unfold State.started
  rw [← h]

/-- The sixteenth byte of a cell in progress is the arrival of the cell with the line-code errors that came. -/
theorem exec_byteOutsideCell_arrival {b : Option Byte} {p : PartialCell} (hp : s.ring.cell = some p) {x : Cell}
    {errors : BitVec 16} (hw : s.ring.waitStart = false) (hx : (x.received errors).bytes = p.bytes ++ [b.getD 0])
    (he : errors ≠ 0 ↔ p.bad = true ∨ b = none) :
    exec (.byteOutsideCell b) s = exec (.damagedCell x errors) s.uncelled := by
  have whole : Cell.ofBytes (p.add b).bytes = some (x.received errors) := by
    rw [← Cell.ofBytes_bytes (x.received errors), hx]
    rfl
  have bad : (p.add b).bad = decide (errors ≠ 0) := by
    rw [Bool.eq_iff_iff, decide_eq_true_eq, he, PartialCell.add, Bool.or_eq_true, Option.isNone_iff_eq_none]
  have started : s.uncelled.cellOpened = s.uncelled := State.started_of_waitStart hw
  rw [exec_byteOutsideCell_whole hp whole, bad]
  show _ = Host.Outcome.next (s.uncelled.cellOpened.cellArrival (x.received errors) (decide (errors ≠ 0)))
  rw [started, State.cellArrival_uncelled]

/-! ### A cell cuts the one in progress (R178) -/

/-- A start symbol that cuts a cell does what the cut and then the start symbol do. -/
theorem State.cellOpened_of_cut {v : State} {p : PartialCell} (hp : s.ring.cell = some p) (hb : p.bytes ≠ [])
    (hv : exec (.cutCell 0 .idleSymbol) s = .next v) : v = s.cellOpened ∧ v.cellOpened = s.cellOpened := by
  have cut : exec (.cutCell 0 .idleSymbol) s = .next (s.cut.started.ringWith none s.cut.started.ring.out) :=
    exec_cutCell _ fun _ => by decide
  have empty : s.cut.started.ringWith none s.cut.started.ring.out = s.cut.started := by
    have cell : s.cut.started.ring.cell = none := s.cut_ring.1
    unfold State.ringWith
    rw [← cell]
  obtain rfl : s.cut.started = v := Host.Outcome.next.inj ((empty ▸ cut).symm.trans hv)
  rw [State.cellOpened_partial s hp hb]
  refine ⟨rfl, ?_⟩
  rw [State.cellOpened_boundary]
  · rfl
  · intro q hq
    rw [show s.cut.started.ring.cell = none from s.cut_ring.1] at hq
    cases hq

/-! ### No ticks -/

theorem crossing_pos {up : Bool} {p k cmp x : Nat} (h : crossing up p k cmp = some x) : 0 < x := by
  unfold crossing at h
  split_ifs at h
  · next below => exact Option.some_inj.mp h ▸ Nat.sub_pos_of_lt below
  · next above => exact Option.some_inj.mp h ▸ Nat.sub_pos_of_lt above

theorem Phase.glide_zero (en : Bool) (dt p : Nat) (up : Bool) (k cmp : Nat) (ph : Phase) :
    ph.glide en dt p up k cmp 0 = ph := by
  unfold Phase.glide
  dsimp only
  split
  · next x hx => rw [if_neg (not_le.mpr (crossing_pos hx))]; rfl
  · rfl

/-- No ticks change nothing. -/
theorem State.glide_zero (s : State) : s.glide 0 = s := by
  have mods : (s.glide 0).mods = s.mods := PerChan.ext_get fun c => by
    rw [State.glide_mods_get, Modulator.mapPhases, Phase.glide_zero, Phase.glide_zero, Phase.glide_zero]
  have pos : (s.glide 0).pos = s.pos := PerChan.ext_get fun c => by
    rw [State.glide_pos_get]
    rfl
  have tb : (s.glide 0).tb = s.tb := by
    show s.tb.moved 0 = s.tb
    have counter : (if s.tb.up then s.tb.counter + 0 else s.tb.counter - 0) = s.tb.counter := by split <;> rfl
    rw [Timebase.moved, counter]
    rfl
  show { s with tb := (s.glide 0).tb, mods := (s.glide 0).mods, pos := (s.glide 0).pos } = s
  rw [mods, pos, tb]

theorem State.advance_zero (s : State) : s.advance 0 = s := by
  unfold State.advance
  rw [State.glide_zero]
  split
  · rfl
  · exact State.glide_zero s

/-- A cut at a normal station changes what a raise changes, and the ring port. -/
theorem State.opened_after_raise {t : State} (cell : Option PartialCell)
    (h : t = { s with sup := t.sup, mods := t.mods, router := t.router }) :
    (t.ringWith none .idle).started.ringWith cell (t.ringWith none .idle).started.ring.out =
      { s with ring := { s.slotRing .idle with cell := cell }, sup := t.sup, mods := t.mods, router := t.router } := by
  cases t
  cases h
  rfl

/-- Settles O32, from the cut, the bytes and the cells. -/
theorem cutCellsAndStrayBytes : Obligations.CutCellsAndStrayBytes := by
  unfold Obligations.CutCellsAndStrayBytes
  refine ⟨fun got x s normal hg => ?_, fun got x s through hg => ?_, fun b s hc => ?_,
    fun b s p hp => ⟨fun hl => ?_, fun x errors hw hx he => exec_byteOutsideCell_arrival hp hw hx he⟩,
    fun s v p hp hb hv => ?_⟩
  · have flags := s.raiseDev_cellCrc
    have seen := s.raiseDev_setSeen .cellCrc
    have frame := s.raiseDev_frame .cellCrc
    have answer := exec_cutCell x hg
    rw [State.cut_normal normal, openedBy_eq] at answer
    generalize s.raiseDev .cellCrc = t at flags seen frame answer
    obtain ⟨own, others, quiet⟩ := flags
    exact ⟨_, answer.trans (congrArg _ (State.opened_after_raise _ frame)), rfl, rfl, seen, own, others, quiet⟩
  · rw [exec_cutCell x hg, State.cut_transparent through, openedBy_eq]
    rfl
  · have stray : exec (.byteOutsideCell b) s = .next (s.ringWith none (s.strayOut b)) := by
      show execByteOutsideCell b s = _
      unfold execByteOutsideCell
      rw [hc]
    have out : s.strayOut b =
        if s.transparent = true ∧ b ≠ none ∧ s.ring.waitStart = false then .unchanged else .idle := by
      simp only [State.strayOut, Bool.and_eq_true, Option.isSome_iff_ne_none, Bool.not_eq_true', and_assoc]
    rw [stray, out, ← hc]
    rfl
  · rw [exec_byteOutsideCell_short hp hl, PartialCell.add]
    cases b <;> rfl
  · obtain ⟨-, same⟩ := State.cellOpened_of_cut hp hb hv
    have opened : ∀ f : State → State, (Host.Outcome.next (f s.cellOpened) : Host.Outcome State Fault Refusal) =
        .next (f v.cellOpened) := fun f => by rw [same]
    have request := fun (k : Byte) (r : Request) (f : State → Answer) => opened fun t => t.requested k r f
    refine ⟨fun r k => ⟨request _ r _, request _ r _, request _ r _, request _ r _, request _ r _, request _ r _, request _ r _,
      request _ r _, request _ r _, request _ r _, request _ r _, request _ r _, request k r _⟩,
      fun c y => opened fun t => t.setOrForward c y, fun x e => ⟨opened fun t => t.cellArrival _ _,
      opened fun t => t.cellArrival _ _⟩, fun w o => ?_⟩
    have still : ∀ n, min 0 n = 0 := fun n => Nat.zero_min n
    show execSyncArrival w 0 o s = execSyncArrival w 0 o v
    simp only [execSyncArrival, still, State.advance_zero, same]

end Sys2Proof.Machine
end

