-- ==== Sys2Proof/Proofs/Raises.lean ====
section
/-! What one raise does to every channel (R130, R136, R144 to R152), said once for the raises of a channel kind and of a device
kind: both are a trip action and a hold action, told apart by whom they name. -/

namespace Sys2Proof.Machine

variable {s t : State} {f : Chan → Option Via} {g : Chan → Causes} {code : Nat} {c d : Chan}

/-! ### A trip action followed by a hold action -/

/-- Every channel of `t` is as a trip action of kind `code` naming `f` and a hold action naming `g` leave it in `s`. -/
def State.Acted (s t : State) (code : Nat) (f : Chan → Option Via) (g : Chan → Causes) : Prop :=
  ∀ d, t.sup.get d = (if (s.tripReach f d).isSome && s.tripTakes d then (s.sup.get d).enterTrip
      else s.sup.get d).addCauses (s.holdReach g d) ∧
    t.mods.get d = (if (s.tripReach f d).isSome && s.tripTakes d then (s.mods.get d).inhibit else s.mods.get d) ∧
    t.router.trips.get d = match s.tripReach f d with
      | some v => s.tripRecordAfter code v d
      | none => s.router.trips.get d

theorem State.raiseChan_acted (k : ChanKind) (c : Chan) (s : State) : s.Acted (s.raiseChan k c) k.code
    ((s.bank.route k.code).chanTrip k c) ((s.bank.route k.code).chanHold k c) := fun d =>
  ⟨s.raiseChan_sup_get k c d, s.raiseChan_mods_get k c d, s.raiseChan_trips_get k c d⟩

theorem State.raiseDev_acted (k : DevKind) (s : State) : s.Acted (s.raiseDev k) k.code
    ((s.bank.route k.code).devTrip k) ((s.bank.route k.code).devHold k) := fun d =>
  ⟨s.raiseDev_sup_get k d, s.raiseDev_mods_get k d, s.raiseDev_trips_get k d⟩

theorem State.tripTakes_iff : s.tripTakes c = true ↔ s.st c ≠ .trip ∧ (s.record c).inUse = true := by
  simp only [State.tripTakes, Bool.and_eq_true, decide_eq_true_eq]

/-- A channel that the trip reaches and takes (R136, R150, R151). -/
theorem State.Acted.tripped (h : s.Acted t code f g) {v : Via} (hv : s.tripReach f d = some v) (hd : s.tripTakes d = true) :
    s.trippedTo t d code v := by
  obtain ⟨sup, mods, trips⟩ := h d
  simp only [hv, hd, Option.isSome_some, Bool.and_self, if_true] at sup mods trips
  refine ⟨sup.trans (Supervisor.addCauses_of_not_closing rfl _), ?_, ?_, ?_, ?_⟩
  · exact mods ▸ (Modulator.inhibit_dark _).1
  · rw [mods]; rfl
  · rw [mods]; rfl
  · simpa only [State.tripRecordAfter, hd, if_true] using trips

/-- A channel in TRIP that a trip reaches gains a secondary cause (R152). -/
theorem State.Acted.counted (h : s.Acted t code f g) (hv : (s.tripReach f d).isSome = true) (hd : s.st d = .trip) :
    t.sup.get d = s.sup.get d ∧ t.mods.get d = s.mods.get d ∧ t.router.trips.get d =
      (s.router.trips.get d).map fun x => x.addSecondary code s.ring.lastCycle := by
  obtain ⟨sup, mods, trips⟩ := h d
  obtain ⟨v, hv⟩ := Option.isSome_iff_exists.mp hv
  have left : s.tripTakes d = false := by simp [State.tripTakes, hd]
  simp only [hv, left, Bool.and_false, Bool.false_eq_true, if_false, State.tripRecordAfter, hd, if_true] at sup mods trips
  exact ⟨sup.trans (Supervisor.addCauses_of_not_closing (by rw [show (s.sup.get d).st = .trip from hd]; rfl) _), mods, trips⟩

/-- A channel that a trip reaches but whose record is not in use keeps gates and record (R136). -/
theorem State.Acted.unused (h : s.Acted t code f g) (hd : s.st d ≠ .trip) (hu : (s.record d).inUse = false) :
    t.mods.get d = s.mods.get d ∧ t.router.trips.get d = s.router.trips.get d := by
  obtain ⟨-, mods, trips⟩ := h d
  have left : s.tripTakes d = false := by simp [State.tripTakes, hu]
  simp only [left, Bool.and_false, Bool.false_eq_true, if_false, State.tripRecordAfter, hd] at mods trips
  refine ⟨mods, trips.trans ?_⟩
  cases s.tripReach f d <;> simp

/-- A channel that no trip reaches takes the hold alone. -/
theorem State.Acted.unreached (h : s.Acted t code f g) (hv : s.tripReach f d = none) :
    t.mods.get d = s.mods.get d ∧ t.router.trips.get d = s.router.trips.get d ∧
      t.sup.get d = (s.sup.get d).addCauses (s.holdReach g d) := by
  obtain ⟨sup, mods, trips⟩ := h d
  simp only [hv, Option.isSome_none, Bool.false_and, Bool.false_eq_true, if_false] at sup mods trips
  exact ⟨mods, trips, sup⟩

/-! ### Whom a raise reaches -/

theorem State.tripReach_eq_none_iff : s.tripReach f c = none ↔
    f c = none ∧ ∀ p, (s.role c).partner = some p → f p = none := by
  unfold State.tripReach
  cases hc : f c with
  | some v => simp
  | none => cases hp : (s.role c).partner with
    | none => simp
    | some p => cases hf : f p <;> simp [hf]

theorem State.tripReach_named {v : Via} (h : f c = some v) : s.tripReach f c = some v := by
  simp only [State.tripReach, h]

theorem State.tripReach_partnerOf {p : Chan} {v : Via} (hc : f c = none) (hp : (s.role c).partner = some p)
    (h : f p = some v) : s.tripReach f c = some (.partner p) := by
  simp only [State.tripReach, hc, hp, h, Option.isSome_some, if_true]

theorem Causes.isEmpty_union (x y : Causes) : (x.union y).isEmpty = (x.isEmpty && y.isEmpty) := by
  cases x; cases y
  simp [Causes.isEmpty, Causes.union, Bool.and_assoc, Bool.and_left_comm]

/-- A hold gives a channel no cause exactly where it gives none to it and none to its partner (R130). -/
theorem State.holdReach_isEmpty_iff : (s.holdReach g c).isEmpty = true ↔
    (g c).isEmpty = true ∧ ∀ p, (s.role c).partner = some p → (g p).isEmpty = true := by
  unfold State.holdReach
  cases hp : (s.role c).partner with
  | none => simp
  | some p => simp [Causes.isEmpty_union]

theorem State.holdReach_routed (h : (g c).routed = true) : (s.holdReach g c).routed = true := by
  unfold State.holdReach
  cases hp : (s.role c).partner with
  | none => exact h
  | some p => simp [Causes.union, h]

theorem Supervisor.addCauses_closing {u : Supervisor} {x : Causes} (hu : u.st.closing = true) (hx : x.isEmpty = false) :
    u.addCauses x = { u with st := .hold, causes := u.causes.union x } := by
  simp [Supervisor.addCauses, hu, hx]

/-- Whether a raise of a channel kind on `c` names `d` for a trip (R145). -/
theorem Route.chanTrip_eq_none_iff (r : Route) (k : ChanKind) : r.chanTrip k c d = none ↔
    ¬((d = c ∧ (k.fixedTrip || r.tripSelf) = true) ∨ r.tripAll = true) := by
  unfold Route.chanTrip
  by_cases hd : d = c <;> by_cases hs : (k.fixedTrip || r.tripSelf) = true <;> by_cases ha : r.tripAll = true <;>
    simp [hd, hs, ha]

theorem Route.chanTrip_self {r : Route} {k : ChanKind} (h : (k.fixedTrip || r.tripSelf) = true) :
    r.chanTrip k c c = some .self := by
  simp [Route.chanTrip, h]

theorem Route.chanTrip_all {r : Route} {k : ChanKind} (h : r.tripAll = true)
    (hd : ¬(d = c ∧ (k.fixedTrip || r.tripSelf) = true)) : r.chanTrip k c d = some .all := by
  unfold Route.chanTrip
  rw [if_neg, if_pos h]
  simpa only [Bool.and_eq_true, decide_eq_true_eq] using hd

/-- Whether a raise of a channel kind on `c` names `d` for a hold (R145). -/
theorem Route.chanHold_isEmpty_iff (r : Route) (k : ChanKind) : (r.chanHold k c d).isEmpty = true ↔
    ¬((d = c ∧ (k = .setpointStale ∨ r.holdSelf = true)) ∨ r.holdAll = true) := by
  by_cases hd : d = c <;> by_cases hk : k = .setpointStale <;>
    simp [Route.chanHold, Causes.isEmpty, ChanKind.fixedHold, hd, hk]

theorem Route.chanHold_routed {r : Route} {k : ChanKind}
    (hd : (d = c ∧ (k = .setpointStale ∨ r.holdSelf = true)) ∨ r.holdAll = true)
    (h : r.holdSelf = true ∨ r.holdAll = true) : (r.chanHold k c d).routed = true := by
  simp only [Route.chanHold, Bool.or_eq_true, Bool.and_eq_true, decide_eq_true_eq]
  obtain ⟨e, -⟩ | ha := hd
  · exact h.imp (fun hs => ⟨e, hs⟩) id
  · exact .inr ha

theorem Causes.isEmpty_of_routed {x : Causes} (h : x.routed = true) : x.isEmpty = false := by
  simp [Causes.isEmpty, h]

theorem Causes.union_routed {x : Causes} (y : Causes) (h : x.routed = true) : (y.union x).routed = true := by
  simp [Causes.union, h]

theorem Causes.union_self (x : Causes) : x.union x = x := by
  cases x; simp [Causes.union]

/-- A device kind names every channel, so that a partner adds nothing (R145). -/
theorem State.holdReach_devHold (r : Route) (k : DevKind) (c : Chan) :
    s.holdReach (r.devHold k) c = { stale := false, ring := k.fixedHold, routed := r.holdSelf || r.holdAll } := by
  unfold State.holdReach
  cases (s.role c).partner with
  | none => rfl
  | some p => exact Causes.union_self _

theorem Route.devTrip_some {r : Route} {k : DevKind} (h : (k.fixedTrip || r.tripSelf || r.tripAll) = true) (c : Chan) :
    r.devTrip k c = some .all := by
  simp only [Route.devTrip, h, if_true]

theorem Route.devTrip_eq_none {r : Route} {k : DevKind} (h : (k.fixedTrip || r.tripSelf || r.tripAll) = false) (c : Chan) :
    r.devTrip k c = none := by
  simp [Route.devTrip, h]

theorem TripRecord.addSecondary_listed {x : TripRecord} (h : x.secondary.length < 3) (code : Nat) (w : Word) :
    x.addSecondary code w = { x with secondary := x.secondary ++ [⟨code, w⟩] } := by
  simp only [TripRecord.addSecondary, h, if_true]

theorem TripRecord.addSecondary_full {x : TripRecord} (h : 3 ≤ x.secondary.length) (code : Nat) (w : Word) :
    x.addSecondary code w = { x with overflow := min 255 (x.overflow + 1) } := by
  simp only [TripRecord.addSecondary, not_lt.mpr h, if_false, satSucc]

/-! ### Fault lines (R148) -/

theorem getLsbD_foldl_or {α : Type} (l : List α) (m : α → BitVec 4) (a : BitVec 4) (n : Nat) :
    (l.foldl (fun x k => x ||| m k) a).getLsbD n = true ↔ a.getLsbD n = true ∨ ∃ k ∈ l, (m k).getLsbD n = true := by
  induction l generalizing a with
  | nil => simp
  | cons k l ih => simp [ih, or_assoc]

theorem Flag.lines_getLsbD_iff (x : Flag) (r : Route) (n : Nat) :
    (x.lines r).getLsbD n = true ↔ x.isSet = true ∧ r.lines.getLsbD n = true := by
  unfold Flag.lines
  split <;> simp_all

theorem State.linesNow_getLsbD_iff (s : State) (n : Nat) : s.linesNow.getLsbD n = true ↔
    (∃ (c : Chan) (k : ChanKind), (s.chanFlag c k).isSet = true ∧ (s.bank.route k.code).lines.getLsbD n = true) ∨
      ∃ k : DevKind, (s.devFlag k).isSet = true ∧ (s.bank.route k.code).lines.getLsbD n = true := by
  have none : (0 : BitVec 4).getLsbD n = false := by simp
  simp only [State.linesNow, State.chanLines, State.devLines, getLsbD_foldl_or, Flag.lines_getLsbD_iff, ChanKind.mem_all,
    DevKind.mem_all, List.mem_finRange, true_and, none, Bool.false_eq_true, false_or, or_comm]

/-! ### One raise -/

theorem State.raiseChan_chanFlag_self (k : ChanKind) (c : Chan) : (s.raiseChan k c).chanFlag c k =
    { isSet := true, count := min 65535 ((s.chanFlag c k).count + 1) } := by
  simp [State.raiseChan_chanFlag, Flag.raised, satSucc]

theorem State.raiseChan_chanFlag_of_ne {k j : ChanKind} {c d : Chan} (h : (d, j) ≠ (c, k)) :
    (s.raiseChan k c).chanFlag d j = s.chanFlag d j := by
  rw [State.raiseChan_chanFlag, if_neg fun e => h (by rw [e.1, e.2])]

theorem State.raiseDev_devFlag_self (k : DevKind) : (s.raiseDev k).devFlag k =
    { isSet := true, count := min 65535 ((s.devFlag k).count + 1) } := by
  simp [State.raiseDev_devFlag, Flag.raised, satSucc]

theorem State.raiseDev_devFlag_of_ne {k j : DevKind} (h : j ≠ k) : (s.raiseDev k).devFlag j = s.devFlag j := by
  rw [State.raiseDev_devFlag, if_neg h]

/-- The two cases of a secondary cause, as the record of a channel in TRIP shows them (R152). -/
theorem secondary_cases {o o' : Option TripRecord} {w : Word} (h : o' = o.map fun x => x.addSecondary code w) (x : TripRecord)
    (hx : o = some x) :
    (x.secondary.length < 3 → o' = some { x with secondary := x.secondary ++ [⟨code, w⟩] }) ∧
      (3 ≤ x.secondary.length → o' = some { x with overflow := min 255 (x.overflow + 1) }) := by
  subst hx
  exact ⟨fun l => h.trans (congrArg some (TripRecord.addSecondary_listed l _ _)),
    fun l => h.trans (congrArg some (TripRecord.addSecondary_full l _ _))⟩

theorem State.st_eq_of_addCauses {x : Causes} (h : t.sup.get d = (s.sup.get d).addCauses x)
    (hd : s.st d = .run ∨ s.st d = .hold) (hx : x.isEmpty = false) :
    t.sup.get d = { s.sup.get d with st := .hold, causes := (s.sup.get d).causes.union x } :=
  h.trans (Supervisor.addCauses_closing ((ChanState.closing_iff _).mpr hd) hx)

theorem State.not_closing (h : s.st d ≠ .run) (h' : s.st d ≠ .hold) : (s.sup.get d).st.closing = false := by
  rw [Bool.eq_false_iff, Ne, ChanState.closing_iff]
  exact fun e => e.elim h h'

/-- Settles O59, by the trip action and the hold action that every raise is, channel by channel. -/
theorem raiseAppliesFixedAndRoutedActions : Obligations.RaiseAppliesFixedAndRoutedActions := by
  unfold Obligations.RaiseAppliesFixedAndRoutedActions
  refine ⟨fun k c s => ?_, fun s n => s.linesNow_getLsbD_iff n, fun k s => ?_⟩
  · have acted := s.raiseChan_acted k c
    extract_lets t r self named held reached
    have named_iff (d : Chan) : named d ↔ r.chanTrip k c d ≠ none := by
      simp only [named, self, Ne, Route.chanTrip_eq_none_iff, not_not, Bool.or_eq_true, ChanKind.fixedTrip_iff,
        decide_eq_true_eq, or_assoc]
    have self_iff : self = true ↔ (k.fixedTrip || r.tripSelf) = true := by
      simp only [self, Bool.or_eq_true, ChanKind.fixedTrip_iff, decide_eq_true_eq, or_assoc]
    have causes_iff (d : Chan) : (held d ∨ ∃ p, (s.role d).partner = some p ∧ held p) ↔
        (s.holdReach (r.chanHold k c) d).isEmpty ≠ true := by
      simp only [held, Ne, State.holdReach_isEmpty_iff, Route.chanHold_isEmpty_iff, not_and_or, not_forall, not_not,
        exists_prop]
    have reached_iff (d : Chan) : reached d ↔ s.tripReach (r.chanTrip k c) d ≠ none := by
      simp only [reached, Ne, State.tripReach_eq_none_iff, not_and_or, not_forall, exists_prop, named_iff]
    refine ⟨s.raiseChan_frame k c, rfl, rfl, rfl, rfl, s.raiseChan_chanFlag_self k c,
      fun d j h => State.raiseChan_chanFlag_of_ne h, fun d => ⟨fun hd ht hu => ?_, fun hd ht => ?_, fun hd ht hu => ?_,
      fun hd => ?_⟩⟩
    · have takes := State.tripTakes_iff.mpr ⟨ht, hu⟩
      refine ⟨fun e hs => ?_, fun hn hs => ?_, fun p hn hp => ?_⟩
      · exact acted.tripped (State.tripReach_named (e ▸ Route.chanTrip_self (self_iff.mp hs))) takes
      · refine acted.tripped (State.tripReach_named (Route.chanTrip_all (hn.resolve_left hs) ?_)) takes
        exact fun e => hs ⟨e.1, self_iff.mpr e.2⟩
      · have unnamed := not_not.mp (mt (named_iff d).mpr hn)
        have partner : named p := by
          obtain h | ⟨q, hq, h⟩ := hd
          · exact absurd h hn
          · rwa [Option.some.inj (hp.symm.trans hq)]
        obtain ⟨v, hv⟩ := Option.ne_none_iff_exists'.mp ((named_iff p).mp partner)
        exact acted.tripped (State.tripReach_partnerOf unnamed hp hv) takes
    · obtain ⟨sup, mods, trips⟩ := acted.counted (Option.isSome_iff_ne_none.mpr ((reached_iff d).mp hd)) ht
      exact ⟨sup, mods, fun x hx => secondary_cases trips x hx⟩
    · exact acted.unused ht hu
    · obtain ⟨mods, trips, sup⟩ := acted.unreached (not_not.mp (mt (reached_iff d).mpr hd))
      refine ⟨mods, trips, fun hr hh => ?_, fun hh hr hx => ?_, fun h h' => ?_, fun hh hp => ?_⟩
      · exact congrArg Supervisor.st (State.st_eq_of_addCauses sup hr (Bool.eq_false_iff.mpr ((causes_iff d).mp hh)))
      · have routed : (s.holdReach (r.chanHold k c) d).routed = true :=
          State.holdReach_routed (Route.chanHold_routed hh hx)
        rw [State.st_eq_of_addCauses sup hr (Causes.isEmpty_of_routed routed)]
        exact Causes.union_routed _ routed
      · exact sup.trans (Supervisor.addCauses_of_not_closing (State.not_closing h h') _)
      · refine sup.trans (Supervisor.addCauses_empty _ (not_not.mp (mt (causes_iff d).mpr ?_)))
        exact not_or.mpr ⟨hh, fun ⟨p, hp', h⟩ => hp p hp' h⟩
  · have acted := s.raiseDev_acted k
    extract_lets t r trips holds
    have trips_iff : trips ↔ (k.fixedTrip || r.tripSelf || r.tripAll) = true := by
      simp only [trips, DevKind.fixedTrip, Bool.or_eq_true, decide_eq_true_eq, or_assoc]
    have holds_iff : holds ↔ Causes.isEmpty ⟨false, k.fixedHold, r.holdSelf || r.holdAll⟩ = false := by
      simp only [holds, DevKind.fixedHold, Causes.isEmpty, Bool.false_or, Bool.not_eq_false', Bool.or_eq_true,
        decide_eq_true_eq]
    refine ⟨s.raiseDev_frame k, rfl, rfl, rfl, rfl, s.raiseDev_devFlag_self k, fun j h => State.raiseDev_devFlag_of_ne h,
      fun d => ⟨fun hd ht hu => ?_, fun hd ht => ?_, fun hd ht hu => acted.unused ht hu, fun hd => ?_⟩⟩
    · exact acted.tripped (State.tripReach_named (Route.devTrip_some (trips_iff.mp hd) d)) (State.tripTakes_iff.mpr ⟨ht, hu⟩)
    · have reached := State.tripReach_named (s := s) (Route.devTrip_some (trips_iff.mp hd) d)
      obtain ⟨sup, mods, trips⟩ := acted.counted (reached ▸ rfl) ht
      exact ⟨sup, mods, fun x hx => secondary_cases trips x hx⟩
    · have unnamed := Route.devTrip_eq_none (Bool.eq_false_iff.mpr (mt trips_iff.mpr hd))
      obtain ⟨mods, trips, sup⟩ := acted.unreached (State.tripReach_none s unnamed d)
      rw [State.holdReach_devHold] at sup
      refine ⟨mods, trips, fun hh hr => ?_, fun h => ?_⟩
      · rw [State.st_eq_of_addCauses sup hr (holds_iff.mp hh)]
        simp only [Causes.union, Bool.or_comm, Bool.false_or, DevKind.fixedHold, r]
      · obtain hh | ⟨h, h'⟩ := h
        · exact sup.trans (Supervisor.addCauses_empty _ (Bool.eq_true_of_not_eq_false (mt holds_iff.mpr hh)))
        · exact sup.trans (Supervisor.addCauses_of_not_closing (State.not_closing h h') _)

/-! ### Level conditions (R143) -/

theorem Kept.get_put (x : Kept) (l : ChanLevel) (b : Bool) : (x.put l b).get l = b := by cases l <;> rfl

theorem Kept.put_get (x : Kept) (l : ChanLevel) : x.put l (x.get l) = x := by cases l <;> rfl

theorem DevKept.get_put (x : DevKept) (l : DevLevel) (b : Bool) : (x.put l b).get l = b := by cases l <;> rfl

theorem DevKept.put_get (x : DevKept) (l : DevLevel) : x.put l (x.get l) = x := by cases l <;> rfl

theorem State.keepChan_of_kept {l : ChanLevel} {c : Chan} {x : Bool} (h : (s.router.kept.get c).get l = x) :
    s.keepChan l c x = s := by
  have same : (s.router.kept.modify c fun k => k.put l x) = s.router.kept := by
    rw [PerChan.modify_eq_set, ← h, Kept.put_get]
    exact PerChan.ext_get fun d => by by_cases e : d = c <;> simp [e]
  simp only [State.keepChan, same]

theorem State.keepDev_of_kept {l : DevLevel} {x : Bool} (h : s.router.devKept.get l = x) : s.keepDev l x = s := by
  simp only [State.keepDev, ← h, DevKept.put_get]

/-- A level condition of a channel delivered as it is kept changes nothing (R143). -/
theorem State.deliverChan_of_kept {l : ChanLevel} {c : Chan} {x : Bool} (h : (s.router.kept.get c).get l = x) :
    s.deliverChan l c x = s := by
  unfold State.deliverChan
  rw [State.keepChan_of_kept h, h]
  cases x <;> rfl

theorem State.deliverDev_of_kept {l : DevLevel} {x : Bool} (h : s.router.devKept.get l = x) : s.deliverDev l x = s := by
  unfold State.deliverDev
  rw [State.keepDev_of_kept h, h]
  cases x <;> rfl

/-- A level condition of a channel that comes is one raise (R143). -/
theorem State.deliverChan_risen {l : ChanLevel} {c : Chan} (h : (s.router.kept.get c).get l = false) :
    s.deliverChan l c true = (s.keepChan l c true).raiseChan l.kind c := by
  simp [State.deliverChan, h]

theorem State.deliverDev_risen {l : DevLevel} (h : s.router.devKept.get l = false) :
    s.deliverDev l true = (s.keepDev l true).raiseDev l.kind := by
  simp [State.deliverDev, h]

theorem State.deliverDev_absent (l : DevLevel) (s : State) : s.deliverDev l false = s.keepDev l false := rfl

theorem State.keepChan_kept (l : ChanLevel) (c : Chan) (x : Bool) :
    ((s.keepChan l c x).router.kept.get c).get l = x := by
  simp [State.keepChan, Kept.get_put]

/-- A level condition delivered is kept as delivered (R143). -/
theorem State.deliverChan_kept (l : ChanLevel) (c : Chan) (x : Bool) :
    ((s.deliverChan l c x).router.kept.get c).get l = x := by
  have kept := s.keepChan_kept l c x
  unfold State.deliverChan
  dsimp only
  split
  · rwa [State.raiseChan_kept]
  · exact kept

theorem State.deliverDev_kept (l : DevLevel) (x : Bool) : (s.deliverDev l x).router.devKept.get l = x := by
  have kept : (s.keepDev l x).router.devKept.get l = x := DevKept.get_put ..
  unfold State.deliverDev
  dsimp only
  split
  · rwa [State.raiseDev_devKept]
  · exact kept

/-- Settles O60, by the kept condition: delivered as it is kept nothing changes, delivered newly present is one raise. -/
theorem levelConditionsRaiseOnce : Obligations.LevelConditionsRaiseOnce := by
  unfold Obligations.LevelConditionsRaiseOnce
  refine ⟨⟨rfl, rfl, fun _ => rfl, fun _ => rfl⟩, fun l c s => ?_, fun l s => ?_⟩
  · have kept := s.deliverChan_kept l c true
    refine ⟨kept, fun h => ?_, fun h => State.deliverChan_of_kept h, State.deliverChan_of_kept kept, rfl, rfl, rfl, rfl,
      State.deliverChan_kept l c false⟩
    rw [State.deliverChan_risen h, State.raiseChan_chanFlag_self]
    exact ⟨rfl, rfl⟩
  · have kept := s.deliverDev_kept l true
    refine ⟨kept, fun h => ?_, fun h => State.deliverDev_of_kept h, State.deliverDev_of_kept kept, rfl, rfl, rfl, rfl,
      State.deliverDev_kept l false⟩
    rw [State.deliverDev_risen h, State.raiseDev_devFlag_self]
    exact ⟨rfl, rfl⟩

end Sys2Proof.Machine
end

