-- ==== Sys2Proof/Proofs/InhibitInput.lean ====
section
/-! The inhibit input (R95, R96). -/

namespace Sys2Proof.Machine

variable {s : State} {c : Chan}

/-! ### What a tick of the input does, by the levels before and after -/

theorem State.inhTick_low {f : Filter} (hf : f.level = some false) (h : s.tb.inh.level ≠ some false) :
    s.inhTick f = s.inhibitLow f := by
  unfold State.inhTick
  rw [if_neg fun e => h (e.symm.trans hf), hf]

theorem State.inhTick_high {f : Filter} (hf : f.level = some true) (h : s.tb.inh.level = some false) :
    s.inhTick f = s.inhibitHigh f := by
  unfold State.inhTick
  rw [if_neg (by rw [hf, h]; decide), hf, h]

theorem State.inhTick_startHigh {f : Filter} (hf : f.level = some true) (h : s.tb.inh.level = none) :
    s.inhTick f = s.setInh f := by
  unfold State.inhTick
  rw [if_neg (by rw [hf, h]; decide), hf, h]

/-! ### Gate lines -/

theorem Modulator.linesOff_dark (m : Modulator) : m.linesOff.dark := ⟨⟨rfl, rfl⟩, ⟨rfl, rfl⟩, ⟨rfl, rfl⟩⟩

/-- The trip of a raise of a device kind darkens gates or leaves them. -/
theorem State.raiseDev_dark (k : DevKind) (h : (s.mods.get c).dark) : ((s.raiseDev k).mods.get c).dark := by
  rw [State.raiseDev_mods_get]
  split
  · exact (Modulator.inhibit_dark _).1
  · exact h

theorem State.deliverDev_dark (l : DevLevel) (x : Bool) (h : (s.mods.get c).dark) :
    ((s.deliverDev l x).mods.get c).dark := by
  unfold State.deliverDev
  dsimp only
  split
  · exact State.raiseDev_dark _ h
  · exact h

theorem State.deliverDev_frame (l : DevLevel) (x : Bool) (s : State) : s.deliverDev l x =
    { s with sup := (s.deliverDev l x).sup, mods := (s.deliverDev l x).mods, router := (s.deliverDev l x).router } := by
  unfold State.deliverDev
  dsimp only
  split <;> rfl

theorem State.inhibitLow_dark (f : Filter) (s : State) (c : Chan) : ((s.inhibitLow f).mods.get c).dark := by
  refine State.deliverDev_dark _ _ ?_
  simp only [State.allLinesOff, PerChan.get_ofFn]
  exact Modulator.linesOff_dark _

theorem TripRecord.addSecondary_cause (x : TripRecord) (code : Nat) (w : Word) : (x.addSecondary code w).cause = x.cause := by
  unfold TripRecord.addSecondary
  split <;> rfl

theorem State.settledMod_frame (s : State) (c : Chan) : s.settledMod c =
    { s.mods.get c with pa := (s.settledMod c).pa, pb := (s.settledMod c).pb, pc := (s.settledMod c).pc } := rfl

theorem State.settledMod_dark (h : (s.mods.get c).drive = false ∨ s.tb.inhLow = true) : (s.settledMod c).dark := by
  have off : s.enabled c = false := by rcases h with h | h <;> simp [State.enabled, h]
  unfold State.settledMod
  rw [off]
  exact Modulator.mapPhases_dark fun _ _ => Phase.settle_dark _ _ _

/-- The lines of a phase that was dark, in DRIVE: the side's own gate is on where its partner has been off for the dead time. -/
theorem Phase.settle_of_dark {p : Phase} (h : p.dark) (high : Bool) (dt : Nat) :
    (p.settle true high dt).hi = (high && decide (dt ≤ p.loOff)) ∧
      (p.settle true high dt).lo = (!high && decide (dt ≤ p.hiOff)) := by
  obtain ⟨hi, lo⟩ := h
  cases high <;> simp [Phase.settle, hi, lo]

theorem State.settledMod_phase (s : State) (c : Chan) (ph : PhaseId) : (s.settledMod c).phase ph =
    ((s.mods.get c).phase ph).settle (s.enabled c)
      (sideHigh (s.tb.chanUp c) s.tb.set.p (s.tb.chanCounter c) ((s.mods.get c).active.get ph)) (s.mods.get c).deadTime := by
  cases ph <;> rfl

theorem Modulator.phase_dark {m : Modulator} (h : m.dark) (ph : PhaseId) : (m.phase ph).dark := by
  obtain ⟨ha, hb, hc⟩ := h
  cases ph <;> assumption

/-! ### INH_N filtered low and high -/

/-- What INH_N going low does to the channels where EXT_INHIBIT was absent (R95). -/
theorem State.inhibitLow_acted (f : Filter) (h : s.router.devKept.extInhibit = false) :
    s.inhibitLow f = ((s.setInh f).allLinesOff.keepDev .extInhibit true).raiseDev .extInhibit :=
  State.deliverDev_risen h

theorem State.inhibitLow_frame (f : Filter) (s : State) : s.inhibitLow f =
    { s with tb := { s.tb with inh := f }, sup := (s.inhibitLow f).sup, mods := (s.inhibitLow f).mods,
             router := (s.inhibitLow f).router } := by
  unfold State.inhibitLow
  exact State.deliverDev_frame ..

/-- Settles O58, by the levels before: low darkens and delivers EXT_INHIBIT, high settles the gates again. -/
theorem inhibitInput : Obligations.InhibitInput := by
  unfold Obligations.InhibitInput
  refine ⟨fun s h => ⟨s.inhibitLow (.settled false), ?_, ?_, ?_, fun hn => ?_, s.inhibitLow_dark _, ?_, fun hk => ?_,
    fun hk => ?_⟩, fun s h => ⟨s.inhibitHigh (.settled true), ?_, rfl, rfl, rfl, fun c => ?_⟩, fun s h => ⟨?_, ?_⟩⟩
  · exact (if_neg h).trans (congrArg Host.Outcome.next (State.inhTick_low rfl h))
  · rw [s.inhibitLow_frame]
  · rw [s.inhibitLow_frame]; rfl
  · show Host.Outcome.next (s.inhTick (s.tb.inh.start false)) = _
    rw [show s.tb.inh.start false = .settled false by simp [Filter.start, hn], State.inhTick_low rfl h]
  · exact State.deliverDev_kept .extInhibit true
  · have same : s.inhibitLow (.settled false) = (s.setInh (.settled false)).allLinesOff := State.deliverDev_of_kept hk
    exact ⟨(congrArg State.sup same).trans rfl, (congrArg State.router same).trans rfl⟩
  · have acted := State.raiseDev_acted .extInhibit ((s.setInh (.settled false)).allLinesOff.keepDev .extInhibit true)
    rw [State.inhibitLow_acted _ hk]
    refine ⟨State.raiseDev_devFlag_self _, rfl, fun c => ⟨fun hu ht => ?_, fun ht => ?_⟩⟩
    · exact acted.tripped (State.tripReach_named rfl) (State.tripTakes_iff.mpr ⟨ht, hu⟩)
    · obtain ⟨sup, -, trips⟩ := acted.counted (d := c) rfl ht
      refine ⟨sup, (congrArg (Option.map (·.cause)) trips).trans ?_⟩
      rw [Option.map_map]
      exact congrFun (congrArg Option.map (funext fun x => TripRecord.addSecondary_cause x _ _)) _
  · have level : ¬s.tb.inh.level = some true := by rw [h]; decide
    exact (if_neg level).trans (congrArg Host.Outcome.next (State.inhTick_high rfl h))
  · have mods : (s.inhibitHigh (.settled true)).mods.get c =
        ((s.setInh (.settled true)).deliverDev .extInhibit false).settledMod c := PerChan.get_ofFn ..
    rw [mods]
    refine ⟨rfl, fun hd => ?_, fun hd dark ph => ?_⟩
    · exact State.settledMod_dark (.inl hd)
    · rw [State.settledMod_phase]
      have enabled : ((s.setInh (.settled true)).deliverDev .extInhibit false).enabled c = true := by
        simp only [State.enabled, State.deliverDev_absent]
        simpa [State.keepDev, State.setInh, Timebase.inhLow, Filter.settled] using hd
      rw [enabled]
      exact Phase.settle_of_dark (Modulator.phase_dark dark ph) _ _
  · show Host.Outcome.next (s.inhTick (s.tb.inh.start true)) = execInhNHigh s
    rw [show s.tb.inh.start true = .settled true by simp [Filter.start, h]]
    exact (if_neg (by rw [h]; decide)).symm
  · exact (if_neg (by rw [h]; decide)).trans (congrArg Host.Outcome.next (State.inhTick_startHigh rfl h))

end Sys2Proof.Machine
end

