-- ==== Sys2Proof/Proofs/Inputs.lean ====
section
/-! The inputs of the encoders (R107 to R110, R116 to R118): what a tick leaves in the filters, the decoder and the index
record. -/

namespace Sys2Proof.Machine

variable {s : State} {c d : Chan} {f : Filter}

/-! ### One filter -/

@[simp] theorem Filter.change_none (f : Filter) : f.change none = f := rfl

theorem Filter.change_some {v l : Bool} (h : f.level = some l) (hv : v ≠ l) : f.change (some v) = .settled v := by
  simp only [Filter.change, h, hv, if_false]

theorem Filter.start_unknown (h : f.level = none) (v : Bool) : f.start v = .settled v := by simp [Filter.start, h]

theorem Filter.taken_of_not_due (h : f.due = false) : f.taken = f := by simp [Filter.taken, h]

theorem Filter.taken_taken (f : Filter) : f.taken.taken = f.taken := by
  by_cases h : f.due = true
  · have level : f.taken = { f with level := f.raw } := by simp [Filter.taken, h]
    rw [level]
    exact Filter.taken_of_not_due (by simp [Filter.due])
  · rw [Filter.taken_of_not_due (Bool.eq_false_iff.mpr h), Filter.taken_of_not_due (Bool.eq_false_iff.mpr h)]

/-- A tick samples the pin: another sample than the last one starts the count again (R107). -/
theorem Filter.aged_one_of_ne (h : f.raw ≠ some f.pin) : f.aged 1 = { f with raw := some f.pin, count := 1 } := by
  simp [Filter.aged, h]

/-- A tick samples the pin: an equal sample counts on (R107). -/
theorem Filter.aged_one_of_eq (h : f.raw = some f.pin) : f.aged 1 = { f with count := min 3 (f.count + 1) } := by
  simp [Filter.aged, h]

theorem Filter.aged_raw (f : Filter) (n : Nat) : (f.aged (n + 1)).raw = some f.pin ∧ (f.aged (n + 1)).pin = f.pin := by
  by_cases h : f.raw = some f.pin <;> simp [Filter.aged, h]

theorem Filter.aged_succ (f : Filter) (n : Nat) : f.aged (n + 1) = (f.aged n).aged 1 := by
  cases n with
  | zero => simp [Filter.aged]
  | succ m =>
    obtain ⟨raw, pin⟩ := f.aged_raw m
    rw [Filter.aged_one_of_eq (raw.trans (congrArg some pin.symm))]
    by_cases h : f.raw = some f.pin <;> simp [Filter.aged, h] <;> omega

/-- One tick of a filter, its level taken where it settles. -/
def Filter.ticked (f : Filter) : Filter := (f.aged 1).taken

theorem Filter.taken_pin (f : Filter) : f.taken.pin = f.pin := by
  unfold Filter.taken; split <;> rfl

theorem Filter.ticked_pin (f : Filter) : f.ticked.pin = f.pin :=
  (Filter.taken_pin _).trans (f.aged_raw 0).2

theorem Filter.aged_level (f : Filter) (n : Nat) : (f.aged n).level = f.level := by
  unfold Filter.aged
  split
  · rfl
  · split <;> rfl

/-- The equal samples a filter has after one more tick. -/
def Filter.sampled (f : Filter) : Nat := if f.raw = some f.pin then min 3 (f.count + 1) else 1

/-- One tick of a filter in one equation: the pin sampled, and the third equal sample taken as the level (R107). -/
theorem Filter.ticked_eq (f : Filter) : f.ticked =
    { pin := f.pin, raw := some f.pin, count := f.sampled, level := if f.sampled = 3 then some f.pin else f.level } := by
  have aged : f.aged 1 = { f with raw := some f.pin, count := f.sampled } := by
    by_cases h : f.raw = some f.pin <;> simp [Filter.aged, Filter.sampled, h]
  unfold Filter.ticked Filter.taken
  rw [aged]
  by_cases h3 : f.sampled = 3 <;> by_cases hl : some f.pin = f.level <;> simp [Filter.due, h3, hl]

/-- A filter at the level of its pin stays there. -/
theorem Filter.ticked_settled (h : f.level = some f.pin) : f.ticked = f.aged 1 := by
  refine Filter.taken_of_not_due ?_
  simp [Filter.due, (f.aged_raw 0).1, Filter.aged_level, h]

theorem Filter.sampled_ticked (f : Filter) : f.ticked.sampled = min 3 (f.sampled + 1) := by
  rw [Filter.ticked_eq]
  simp [Filter.sampled]

/-- Three ticks bring any filter to the level at its pin (R107). -/
theorem Filter.ticked_three (f : Filter) : f.ticked.ticked.ticked.level = some f.pin := by
  have third : f.ticked.ticked.sampled = 3 := by
    have first : 1 ≤ f.sampled := by unfold Filter.sampled; split <;> omega
    rw [Filter.sampled_ticked, Filter.sampled_ticked]
    omega
  rw [Filter.ticked_eq, third, if_pos rfl, Filter.ticked_pin, Filter.ticked_pin]

/-- A pulse of two samples does not change the level, a third sample does (R107). -/
theorem Filter.aged_pulse (h : f.raw ≠ some f.pin) (hl : f.level ≠ some f.pin) :
    (f.aged 1).taken.level = f.level ∧ (f.aged 2).taken.level = f.level ∧ (f.aged 3).taken.level = some f.pin ∧
      (((f.aged 2).drive !f.pin).aged 1).taken.level = f.level := by
  simp [Filter.aged, Filter.taken, Filter.due, Filter.drive, h, Ne.symm hl]

/-! ### One encoder at a tick -/

/-- An operation on the counter of `c` leaves its filters, and every other counter. -/
def FiltersKept (c : Chan) (s t : State) : Prop :=
  (∀ d, d ≠ c → t.pos.get d = s.pos.get d) ∧ ∀ l, (t.pos.get c).filter l = (s.pos.get c).filter l

theorem FiltersKept.refl : FiltersKept c s s := ⟨fun _ _ => rfl, fun _ => rfl⟩

theorem FiltersKept.trans {t u : State} (h : FiltersKept c s t) (h' : FiltersKept c t u) : FiltersKept c s u :=
  ⟨fun d hd => (h'.1 d hd).trans (h.1 d hd), fun l => (h'.2 l).trans (h.2 l)⟩

theorem FiltersKept.setPos {p : Position} (h : ∀ l, p.filter l = (s.pos.get c).filter l) : FiltersKept c s (s.setPos c p) :=
  ⟨fun d hd => by simp [hd], fun l => by simp [h]⟩

theorem FiltersKept.raiseChanIf {t : State} (h : FiltersKept c s t) (b : Bool) (k : ChanKind) (e : Chan) :
    FiltersKept c s (t.raiseChanIf b k e) := by
  rwa [FiltersKept, State.raiseChanIf_pos]

theorem Position.stepUp_frame (p : Position) (cpr : Nat) :
    p.stepUp cpr = { p with fine := (p.stepUp cpr).fine, rev := (p.stepUp cpr).rev } := by
  unfold Position.stepUp; split <;> rfl

theorem Position.stepDown_frame (p : Position) (cpr : Nat) :
    p.stepDown cpr = { p with fine := (p.stepDown cpr).fine, rev := (p.stepDown cpr).rev } := by
  unfold Position.stepDown; split <;> rfl

theorem State.decodeStep_filters (c : Chan) (changed : Bool) (s : State) : FiltersKept c s (s.decodeStep c changed) := by
  unfold State.decodeStep
  dsimp only
  split
  · split
    · exact .setPos fun l => by cases l <;> rfl
    · split
      · split
        · exact .setPos fun l => by rw [Position.stepUp_frame]; cases l <;> rfl
        · exact .setPos fun l => by rw [Position.stepDown_frame]; cases l <;> rfl
        · exact .setPos fun l => by cases l <;> rfl
        · exact .raiseChanIf (.setPos fun l => by cases l <;> rfl) _ _ _
      · exact .refl
  · exact .refl

theorem State.indexEdge_filters (c : Chan) (s : State) : FiltersKept c s (s.indexEdge c) := by
  unfold State.indexEdge
  dsimp only
  split
  · exact .refl
  · split
    · split
      · exact .setPos fun l => by cases l <;> rfl
      · exact .refl
    · exact .raiseChanIf (.setPos fun l => by cases l <;> rfl) _ _ _
    · exact .refl

/-- A tick of an encoder replaces its filters as told, and leaves every other encoder. -/
theorem State.encoderTick_filters (c : Chan) (fa fb fz : Filter) (first : Bool) (s : State) :
    FiltersKept c (s.setPos c { s.pos.get c with fa := fa, fb := fb, fz := fz }) (s.encoderTick c fa fb fz first) := by
  unfold State.encoderTick
  dsimp only
  split
  · split
    · exact (State.indexEdge_filters c _).trans (State.decodeStep_filters c _ _)
    · exact (State.decodeStep_filters c _ _).trans (State.indexEdge_filters c _)
  · exact State.decodeStep_filters c _ _

/-! ### The inputs of a tick -/

/-- What the fold of the tick's inputs does at one encoder: its filters that are due are taken. -/
theorem takeInput_filters (c : Chan) (first : Bool) (s : State) :
    let p := s.pos.get c
    let t := if p.fa.due || p.fb.due || p.fz.due then s.encoderTick c p.fa.taken p.fb.taken p.fz.taken first else s
    (∀ d, d ≠ c → t.pos.get d = s.pos.get d) ∧ ∀ l, (t.pos.get c).filter l = ((s.pos.get c).filter l).taken := by
  intro p t
  by_cases h : (p.fa.due || p.fb.due || p.fz.due) = true
  · obtain ⟨others, own⟩ := s.encoderTick_filters c p.fa.taken p.fb.taken p.fz.taken first
    simp only [t, h, if_true]
    refine ⟨fun d hd => (others d hd).trans (by simp [hd]), fun l => (own l).trans ?_⟩
    cases l <;> simp [Position.filter, p]
  · simp only [t, h, Bool.false_eq_true, if_false]
    simp only [Bool.not_eq_true, Bool.or_eq_false_iff] at h
    obtain ⟨⟨ha, hb⟩, hz⟩ := h
    refine ⟨fun _ _ => trivial, fun l => (Filter.taken_of_not_due ?_).symm⟩
    cases l <;> assumption

theorem takeInputs_fold_filters (first : Bool) (l : List Chan) (s : State) (d : Chan) (k : EncLine) :
    ((l.foldl (fun t c =>
      let p := t.pos.get c
      if p.fa.due || p.fb.due || p.fz.due then t.encoderTick c p.fa.taken p.fb.taken p.fz.taken first
      else t) s).pos.get d).filter k = if d ∈ l then ((s.pos.get d).filter k).taken else (s.pos.get d).filter k := by
  induction l generalizing s with
  | nil => simp
  | cons c l ih =>
    obtain ⟨others, own⟩ := takeInput_filters c first s
    rw [List.foldl_cons, ih]
    by_cases hd : d = c
    · subst hd
      simp only [own, Filter.taken_taken, ite_self, List.mem_cons_self, if_true]
    · simp only [others d hd, List.mem_cons, hd, false_or]

/-- The inputs of a tick that settle at it are taken, encoder by encoder and line by line. -/
theorem State.takeInputs_filter (s : State) (d : Chan) (k : EncLine) :
    (s.takeInputs.pos.get d).filter k = ((s.pos.get d).filter k).taken := by
  unfold State.takeInputs
  dsimp only
  rw [takeInputs_fold_filters, if_pos (List.mem_finRange d)]
  split
  · rw [State.inhTick_pos]
  · rfl

theorem State.takeInputs_inh (s : State) : s.takeInputs.tb.inh = s.tb.inh.taken := by
  have first : (if s.tb.inh.due then s.inhTick s.tb.inh.taken else s).tb.inh = s.tb.inh.taken := by
    split
    · rw [State.inhTick_tb]
    · next h => exact (Filter.taken_of_not_due (Bool.eq_false_iff.mpr h)).symm
  unfold State.takeInputs
  dsimp only
  generalize (if s.tb.inh.due then s.inhTick s.tb.inh.taken else s) = s0 at first ⊢
  refine fold_invariant (q := fun x : State => x.tb.inh = s.tb.inh.taken) (fun x c h => ?_) _ first
  split
  · rw [State.encoderTick_tb]; exact h
  · exact h

theorem State.quiet_iff (s : State) : s.quiet = true ↔ s.tb.inh.level = some s.tb.inh.pin ∧
    ∀ c l, ((s.pos.get c).filter l).level = some ((s.pos.get c).filter l).pin := by
  have lines (p : Position) : p.unsettled = false ↔ ∀ l, (p.filter l).level = some (p.filter l).pin := by
    simp only [Position.unsettled, Filter.unsettled, Bool.or_eq_false_iff, decide_eq_false_iff_not, not_not, and_assoc]
    exact ⟨fun ⟨ha, hb, hz⟩ l => by cases l <;> assumption, fun h => ⟨h .a, h .b, h .z⟩⟩
  simp only [State.quiet, Bool.and_eq_true, Bool.not_eq_true', List.all_eq_true, List.mem_finRange, true_imp_iff, lines,
    Filter.unsettled, decide_eq_false_iff_not, not_not]

/-- One tick, short of the turning point, is one tick of every filter. -/
theorem State.advance_one_filter (s : State) (d : Chan) (k : EncLine) :
    ((s.advance 1).pos.get d).filter k = ((s.pos.get d).filter k).ticked := by
  unfold State.advance
  split
  · next hq =>
    rw [Filter.ticked_settled (((s.quiet_iff).mp hq).2 d k), State.glide_pos_get]
    cases k <;> rfl
  · show ((((s.glide 1).takeInputs).glide 0).pos.get d).filter k = _
    rw [State.glide_zero, State.takeInputs_filter, State.glide_pos_get]
    cases k <;> rfl

theorem State.advance_one_inh (s : State) : (s.advance 1).tb.inh = s.tb.inh.ticked := by
  unfold State.advance
  split
  · next hq => exact (Filter.ticked_settled ((s.quiet_iff).mp hq).1).symm
  · show (((s.glide 1).takeInputs).glide 0).tb.inh = _
    rw [State.glide_zero, State.takeInputs_inh]
    rfl

/-- Ticks short of the turning point bring it that much nearer. -/
theorem State.advance_left (n : Nat) (s : State) : (s.advance n).tb.left = s.tb.left - n := by
  unfold State.advance
  split
  · exact s.tb.moved_left n
  · exact (Timebase.moved_left _ _).trans (by rw [State.repeat_tick_left]; omega)

/-- A step with no command waiting, short of the tick before a turning point, is one tick. -/
theorem step_idle_tick (hp : s.pending = []) (hl : 1 < s.tb.left) : step s = .next (s.advance 1) := by
  have left := s.advance_left 1
  have idle : s.idleTick = s.advance 1 := by
    unfold State.idleTick State.tickOrTurn
    rw [if_neg (by omega), if_neg (by omega)]
  unfold step
  rw [hp, ← idle]

end Sys2Proof.Machine
end

