-- ==== Sys2Proof/Proofs/Encoders.lean ====
section
/-! Filtered changes, index edges and starting levels of an encoder (R107 to R110, R116 to R118). -/

namespace Sys2Proof.Machine

variable {s : State} {c : Chan}

/-! ### The decoder by what it finds -/

/-- A and B known to the decoder, and still: nothing (R108). -/
theorem State.decodeStep_still (h : (s.pos.get c).dec.isSome = true) : s.decodeStep c false = s := by
  obtain ⟨old, h⟩ := Option.isSome_iff_exists.mp h
  unfold State.decodeStep
  dsimp only
  rw [h]
  split <;> rfl

/-- A and B that have become known are known to the decoder together, without a step (R108). -/
theorem State.decodeStep_known {a b : Bool} (x : Bool) (h : (s.pos.get c).dec = none) (ha : (s.pos.get c).fa.level = some a)
    (hb : (s.pos.get c).fb.level = some b) : s.decodeStep c x = s.setPos c { s.pos.get c with dec := some (a, b) } := by
  simp [State.decodeStep, h, ha, hb]

theorem State.decodeStep_unknown (x : Bool) (h : (s.pos.get c).fa.level = none ∨ (s.pos.get c).fb.level = none) :
    s.decodeStep c x = s := by
  unfold State.decodeStep
  dsimp only
  split
  · next ha hb => rw [ha, hb] at h; exact absurd h (by simp)
  · rfl

/-- A new pair, decoded from the one before (R108, R109). -/
theorem State.decodeStep_changed {a b : Bool} {old : Bool × Bool} (h : (s.pos.get c).dec = some old)
    (ha : (s.pos.get c).fa.level = some a) (hb : (s.pos.get c).fb.level = some b) : s.decodeStep c true =
      let p' : Position := { s.pos.get c with dec := some (a, b) }
      match stepOf old (a, b) with
      | .up => s.setPos c (p'.stepUp (s.record c).effectiveCpr)
      | .down => s.setPos c (p'.stepDown (s.record c).effectiveCpr)
      | .none => s.setPos c p'
      | .illegal => (s.setPos c p').raiseChanIf (s.record c).inUse .encoderFault c := by
  unfold State.decodeStep
  dsimp only
  rw [ha, hb, h]
  rfl

/-- A change of A is a step up where it leads B, else down (R109). -/
theorem stepOf_a (a b : Bool) : stepOf (a, b) (!a, b) = if a = b then .up else .down := by
  cases a <;> cases b <;> rfl

theorem stepOf_b (a b : Bool) : stepOf (a, b) (a, !b) = if a = b then .down else .up := by
  cases a <;> cases b <;> rfl

theorem stepOf_both (a b : Bool) : stepOf (a, b) (!a, !b) = .illegal := by
  cases a <;> cases b <;> rfl

/-! ### A tick of an encoder by what changes at it -/

/-- A tick at which no index edge comes is a tick of the decoder. -/
theorem State.encoderTick_decode (fa fb : Filter) (first : Bool) :
    s.encoderTick c fa fb (s.pos.get c).fz first =
      (s.setPos c { s.pos.get c with fa := fa, fb := fb }).decodeStep c
        (((s.pos.get c).fa.level.isSome && decide (fa.level ≠ (s.pos.get c).fa.level)) ||
          ((s.pos.get c).fb.level.isSome && decide (fb.level ≠ (s.pos.get c).fb.level))) := by
  unfold State.encoderTick
  dsimp only
  rw [if_neg]
  cases (s.pos.get c).fz.level with
  | none => simp
  | some v => cases v <;> simp

/-- A tick at which A and B are still. -/
theorem State.encoderTick_still (fz : Filter) (first : Bool) :
    s.encoderTick c (s.pos.get c).fa (s.pos.get c).fb fz first =
      if (s.pos.get c).fz.level = some false ∧ fz.level = some true then
        ((s.setPos c { s.pos.get c with fz := fz }).decodeStep c false).indexEdge c
      else (s.setPos c { s.pos.get c with fz := fz }).decodeStep c false := by
  simp [State.encoderTick]

/-! ### Starting levels -/

/-- The starting level of one line is no step and no index edge (R107, R108). -/
theorem State.lineTick_start {l : EncLine} (f : Filter) (h : ((s.pos.get c).filter l).level = none) :
    s.lineTick c l f = (s.setPos c ((s.pos.get c).mapFilter l fun _ => f)).decodeStep c false := by
  cases l with
  | a =>
    have still : (s.pos.get c).fa.level = none := h
    simp [State.lineTick, State.encoderTick_decode, still, Position.mapFilter]
  | b =>
    have still : (s.pos.get c).fb.level = none := h
    simp [State.lineTick, State.encoderTick_decode, still, Position.mapFilter]
  | z =>
    have still : (s.pos.get c).fz.level = none := h
    simp [State.lineTick, State.encoderTick_still, still, Position.mapFilter]

theorem Position.mapFilter_filter (p : Position) (l : EncLine) (f : Filter → Filter) :
    (p.mapFilter l f).filter l = f (p.filter l) := by
  cases l <;> rfl

theorem Position.mapFilter_filter_of_ne {k l : EncLine} (p : Position) (f : Filter → Filter) (h : k ≠ l) :
    (p.mapFilter l f).filter k = p.filter k := by
  cases l <;> cases k <;> simp [Position.mapFilter, Position.filter] at h ⊢

theorem Position.mapFilter_frame (p : Position) (l : EncLine) (f : Filter → Filter) : p.mapFilter l f =
    { p with fa := (p.mapFilter l f).fa, fb := (p.mapFilter l f).fb, fz := (p.mapFilter l f).fz } := by
  cases l <;> rfl

/-- What a still decoder does of the state: at most the pair becomes known. -/
theorem State.decodeStep_false (c : Chan) (s : State) :
    s.decodeStep c false = s.setPos c { s.pos.get c with dec := ((s.decodeStep c false).pos.get c).dec } ∧
      ((s.pos.get c).dec.isSome = true → ((s.decodeStep c false).pos.get c).dec = (s.pos.get c).dec) ∧
      ((s.pos.get c).dec = none →
        (∀ a b, (s.pos.get c).fa.level = some a → (s.pos.get c).fb.level = some b →
          ((s.decodeStep c false).pos.get c).dec = some (a, b)) ∧
        ((s.pos.get c).fa.level = none ∨ (s.pos.get c).fb.level = none →
          ((s.decodeStep c false).pos.get c).dec = none)) := by
  have same : s = s.setPos c (s.pos.get c) := by
    have : s.pos.set c (s.pos.get c) = s.pos := PerChan.ext_get fun d => by by_cases e : d = c <;> simp [e]
    unfold State.setPos
    rw [this]
  cases hd : (s.pos.get c).dec with
  | some old =>
    have still := State.decodeStep_still (s := s) (c := c) (by rw [hd]; rfl)
    rw [still]
    exact ⟨same, fun _ => hd, fun h => by cases h⟩
  | none =>
    refine ⟨?_, fun h => Bool.noConfusion h, fun _ => ⟨fun a b ha hb => ?_, fun h => ?_⟩⟩
    · cases ha : (s.pos.get c).fa.level with
      | none => rw [State.decodeStep_unknown _ (.inl ha)]; exact same
      | some a => cases hb : (s.pos.get c).fb.level with
        | none => rw [State.decodeStep_unknown _ (.inr hb)]; exact same
        | some b => simp [State.decodeStep_known _ hd ha hb]
    · simp [State.decodeStep_known _ hd ha hb]
    · rw [State.decodeStep_unknown _ h, hd]

/-- Settles O57, by the closed form of one tick of a filter and the still decoder of a starting level. -/
theorem inputFilterTakesThreeSamples : Obligations.InputFilterTakesThreeSamples := by
  unfold Obligations.InputFilterTakesThreeSamples
  refine ⟨fun c l v s => ⟨_, rfl, rfl, fun d hd => by simp [hd], ?_, fun k hk => ?_, ?_⟩, fun v s => rfl,
    fun f n => ⟨Filter.aged_one_of_ne, Filter.aged_one_of_eq, f.aged_succ n, Filter.aged_pulse⟩, fun s hp hl => ?_,
    fun c l v s h => ⟨_, rfl, ?_⟩⟩
  · simp [Position.mapFilter_filter, Filter.drive]
  · simp [Position.mapFilter_filter_of_ne _ _ hk]
  · rw [State.setPos_pos, PerChan.get_set, if_pos rfl]
    exact Position.mapFilter_frame ..
  · have l1 := s.advance_left 1
    have l2 := (s.advance 1).advance_left 1
    refine ⟨_, _, _, step_idle_tick hp (by omega), step_idle_tick (by rwa [State.advance_pending]) (by omega),
      step_idle_tick (by rwa [State.advance_pending, State.advance_pending]) (by omega), ?_, fun c k => ?_⟩
    · simp only [State.advance_one_inh, Filter.ticked_three]
    · simp only [State.advance_one_filter, Filter.ticked_three]
  · rw [State.lineTick_start _ h, Filter.start_unknown h]
    generalize hp' : (s.pos.get c).mapFilter l (fun _ => Filter.settled v) = p'
    have own : (s.setPos c p').pos.get c = p' := by simp
    obtain ⟨frame, kept, taken⟩ := State.decodeStep_false c (s.setPos c p')
    rw [own] at frame kept taken
    generalize (((s.setPos c p').decodeStep c false).pos.get c).dec = x at frame kept taken
    have get (d : Chan) : ((s.setPos c p').decodeStep c false).pos.get d =
        if d = c then { p' with dec := x } else s.pos.get d := by
      rw [frame]
      by_cases e : d = c <;> simp [e]
    have pFrame := Position.mapFilter_frame (s.pos.get c) l fun _ => Filter.settled v
    rw [hp'] at pFrame
    have dec : p'.dec = (s.pos.get c).dec := by rw [pFrame]
    refine ⟨by rw [frame]; rfl, fun d hd => by rw [get, if_neg hd], ?_, fun k hk => ?_, ?_⟩
    · rw [get, if_pos rfl]
      exact (congrArg Filter.level (hp' ▸ Position.mapFilter_filter _ l _ : p'.filter l = .settled v))
    · rw [get, if_pos rfl]
      exact (hp' ▸ Position.mapFilter_filter_of_ne _ _ hk : p'.filter k = _)
    · simp only [get, if_true]
      rw [dec] at kept taken
      exact ⟨by rw [pFrame], by rw [pFrame], by rw [pFrame], kept,
        fun hn => (taken hn).1, fun hn => (taken hn).2⟩

/-! ### Steps and illegal changes -/

/-- A decoded change of one line or of both, the index line still. -/
theorem State.filteredChange_decode {a b : Bool} {old : Bool × Bool} (first : Bool) (x y : Option Bool)
    (h : (s.pos.get c).dec = some old) (ha : ((s.pos.get c).fa.change x).level = some a)
    (hb : ((s.pos.get c).fb.change y).level = some b)
    (changed : (((s.pos.get c).fa.level.isSome && decide (((s.pos.get c).fa.change x).level ≠ (s.pos.get c).fa.level)) ||
      ((s.pos.get c).fb.level.isSome && decide (((s.pos.get c).fb.change y).level ≠ (s.pos.get c).fb.level))) = true) :
    exec (.filteredChange c x y none first) s =
      let q : Position := { s.pos.get c with fa := (s.pos.get c).fa.change x, fb := (s.pos.get c).fb.change y,
                                             dec := some (a, b) }
      .next (match stepOf old (a, b) with
        | .up => s.setPos c (q.stepUp (s.record c).effectiveCpr)
        | .down => s.setPos c (q.stepDown (s.record c).effectiveCpr)
        | .none => s.setPos c q
        | .illegal => (s.setPos c q).raiseChanIf (s.record c).inUse .encoderFault c) := by
  show Host.Outcome.next (s.encoderTick c _ _ (s.pos.get c).fz first) = _
  generalize hfa : (s.pos.get c).fa.change x = fa at *
  generalize hfb : (s.pos.get c).fb.change y = fb at *
  have again (p q : Position) : (s.setPos c p).setPos c q = s.setPos c q := by
    have : (s.pos.set c p).set c q = s.pos.set c q := PerChan.ext_get fun d => by by_cases e : d = c <;> simp [e]
    simp only [State.setPos, this]
  have own : (s.setPos c { s.pos.get c with fa := fa, fb := fb }).pos.get c = { s.pos.get c with fa := fa, fb := fb } := by
    simp
  rw [State.encoderTick_decode, changed,
    State.decodeStep_changed (a := a) (b := b) (old := old) (by rw [own]; exact h) (by rw [own]; exact ha)
      (by rw [own]; exact hb), own]
  simp only [again]
  rfl

theorem Filter.settled_level (v : Bool) : (Filter.settled v).level = some v := rfl

/-- The counts after a step up, as a pair (R110). -/
theorem Position.stepUp_counts (p : Position) (cpr : Nat) : (⟨(p.stepUp cpr).fine, (p.stepUp cpr).rev⟩ : Counts) =
    if p.fine + 1 = cpr then ⟨0, p.rev + 1⟩ else ⟨p.fine + 1, p.rev⟩ := by
  unfold Position.stepUp; split <;> rfl

theorem Position.stepDown_counts (p : Position) (cpr : Nat) : (⟨(p.stepDown cpr).fine, (p.stepDown cpr).rev⟩ : Counts) =
    if p.fine = 0 then ⟨cpr - 1, p.rev - 1⟩ else ⟨p.fine - 1, p.rev⟩ := by
  unfold Position.stepDown; split <;> rfl

/-- One step of the counter, up or down (R110). -/
def Position.step (p : Position) (up : Bool) (cpr : Nat) : Position := if up then p.stepUp cpr else p.stepDown cpr

theorem Position.step_frame (p : Position) (up : Bool) (cpr : Nat) :
    p.step up cpr = { p with fine := (p.step up cpr).fine, rev := (p.step up cpr).rev } := by
  cases up
  · exact p.stepDown_frame cpr
  · exact p.stepUp_frame cpr

theorem Position.step_counts (p : Position) (up : Bool) (cpr : Nat) : (⟨(p.step up cpr).fine, (p.step up cpr).rev⟩ : Counts) =
    if up then (if p.fine + 1 = cpr then ⟨0, p.rev + 1⟩ else ⟨p.fine + 1, p.rev⟩)
    else if p.fine = 0 then ⟨cpr - 1, p.rev - 1⟩ else ⟨p.fine - 1, p.rev⟩ := by
  cases up
  · exact p.stepDown_counts cpr
  · exact p.stepUp_counts cpr

theorem State.filteredChange_a {a b : Bool} (first : Bool) (ha : (s.pos.get c).fa.level = some a)
    (hb : (s.pos.get c).fb.level = some b) (h : (s.pos.get c).dec = some (a, b)) :
    exec (.filteredChange c (some !a) none none first) s = .next (s.setPos c
      (({ s.pos.get c with fa := .settled !a, dec := some (!a, b) } : Position).step (decide (a = b))
        (s.record c).effectiveCpr)) := by
  have change := Filter.change_some ha (v := !a) (by cases a <;> decide)
  rw [State.filteredChange_decode first (some !a) none h (by rw [change]; exact Filter.settled_level _) hb
    (by rw [change, ha]; cases a <;> rfl), stepOf_a, change]
  by_cases e : a = b <;> simp [e, Position.step]

theorem State.filteredChange_b {a b : Bool} (first : Bool) (ha : (s.pos.get c).fa.level = some a)
    (hb : (s.pos.get c).fb.level = some b) (h : (s.pos.get c).dec = some (a, b)) :
    exec (.filteredChange c none (some !b) none first) s = .next (s.setPos c
      (({ s.pos.get c with fb := .settled !b, dec := some (a, !b) } : Position).step (!decide (a = b))
        (s.record c).effectiveCpr)) := by
  have change := Filter.change_some hb (v := !b) (by cases b <;> decide)
  rw [State.filteredChange_decode first none (some !b) h ha (by rw [change]; exact Filter.settled_level _)
    (by rw [change, hb]; cases b <;> simp [Filter.settled]), stepOf_b, change]
  by_cases e : a = b <;> simp [e, Position.step]

theorem State.filteredChange_both {a b : Bool} (first : Bool) (ha : (s.pos.get c).fa.level = some a)
    (hb : (s.pos.get c).fb.level = some b) (h : (s.pos.get c).dec = some (a, b)) :
    exec (.filteredChange c (some !a) (some !b) none first) s = .next ((s.setPos c
      { s.pos.get c with fa := .settled !a, fb := .settled !b, dec := some (!a, !b) }).raiseChanIf
        (s.record c).inUse .encoderFault c) := by
  have changeA := Filter.change_some ha (v := !a) (by cases a <;> decide)
  have changeB := Filter.change_some hb (v := !b) (by cases b <;> decide)
  rw [State.filteredChange_decode first (some !a) (some !b) h (by rw [changeA]; exact Filter.settled_level _)
    (by rw [changeB]; exact Filter.settled_level _) (by rw [changeA, ha]; cases a <;> rfl), stepOf_both, changeA, changeB]

/-- A filtered Z from low to high, with A and B known and still, is an index edge alone (R116). -/
theorem State.filteredChange_index (first : Bool) (hz : (s.pos.get c).fz.level = some false)
    (h : (s.pos.get c).dec.isSome = true) : exec (.filteredChange c none none (some true) first) s =
      .next ((s.setPos c { s.pos.get c with fz := .settled true }).indexEdge c) := by
  show Host.Outcome.next (s.encoderTick c (s.pos.get c).fa (s.pos.get c).fb _ first) = _
  rw [Filter.change_some hz (by decide), State.encoderTick_still, if_pos ⟨hz, rfl⟩, State.decodeStep_still (by simpa using h)]

theorem State.setPos_get (p : Position) : (s.setPos c p).pos.get c = p := by simp

/-- The index edge of CAPTURE with the mark armed (R117). -/
theorem State.indexEdge_capture (hu : (s.record c).inUse = true) (hm : (s.record c).indexMode = 1)
    (ha : (s.pos.get c).armed = true) :
    s.indexEdge c = s.setPos c { (s.pos.get c).capture with armed := false } := by
  simp [State.indexEdge, hu, hm, ha]

/-- The index edge of CHECK (R118). -/
theorem State.indexEdge_check (hu : (s.record c).inUse = true) (hm : (s.record c).indexMode = 2) :
    s.indexEdge c = (s.setPos c (s.pos.get c).capture).raiseChanIf
      (decide (indexDistance (s.pos.get c).fine (s.record c).indexExpect (s.record c).cpr > (s.record c).indexTolerance))
      .indexMismatch c := by
  simp [State.indexEdge, hu, hm]

/-- No index record takes the edge (R116, R117). -/
theorem State.indexEdge_ignored (h : (s.record c).inUse = false ∨ (s.record c).indexMode = 0 ∨
    ((s.record c).indexMode = 1 ∧ (s.pos.get c).armed = false)) : s.indexEdge c = s := by
  unfold State.indexEdge
  obtain hu | hm | ⟨hm, ha⟩ := h
  · simp [hu]
  · simp [hm]
  · simp [hm, ha]

/-- An index edge leaves the counts (R117). -/
theorem State.indexEdge_frame (c : Chan) (s : State) :
    s.indexEdge c = { s with pos := (s.indexEdge c).pos, sup := (s.indexEdge c).sup, mods := (s.indexEdge c).mods,
                             router := (s.indexEdge c).router } ∧
      ((s.indexEdge c).pos.get c).fine = (s.pos.get c).fine ∧ ((s.indexEdge c).pos.get c).rev = (s.pos.get c).rev := by
  unfold State.indexEdge
  dsimp only
  split
  · exact ⟨rfl, rfl, rfl⟩
  split
  · split
    · exact ⟨rfl, by rw [State.setPos_get]; rfl, by rw [State.setPos_get]; rfl⟩
    · exact ⟨rfl, rfl, rfl⟩
  · rw [State.raiseChanIf_pos, State.setPos_get]
    refine ⟨?_, rfl, rfl⟩
    unfold State.raiseChanIf
    split <;> rfl
  · exact ⟨rfl, rfl, rfl⟩

/-- Settles O56, by the decoder's step for each change and the index edge for each mode of the record. -/
theorem filteredChangesCountAndCapture : Obligations.FilteredChangesCountAndCapture := by
  unfold Obligations.FilteredChangesCountAndCapture
  refine ⟨fun c s a b first => ?_, fun c s first => ?_⟩
  · intro p cpr up down ha hb hd
    refine ⟨⟨_, State.filteredChange_a first ha hb hd, rfl, fun d hd => by simp [hd], ?_⟩,
      ⟨_, State.filteredChange_b first ha hb hd, rfl, fun d hd => by simp [hd], ?_⟩,
      ⟨_, State.filteredChange_both first ha hb hd, ?_⟩⟩
    · simp only [State.setPos_get]
      refine ⟨(Position.step_counts ..).trans (by simp only [decide_eq_true_eq]; rfl), ?_⟩
      rw [Position.step_frame]
      exact ⟨rfl, rfl, rfl, rfl, rfl⟩
    · simp only [State.setPos_get]
      refine ⟨(Position.step_counts ..).trans ?_, ?_⟩
      · by_cases e : a = b <;> simp only [e, decide_true, decide_false, Bool.not_true, Bool.not_false, if_true, if_false] <;> rfl
      rw [Position.step_frame]
      exact ⟨rfl, rfl, rfl, rfl, rfl⟩
    · generalize hq : ({ s.pos.get c with fa := .settled !a, fb := .settled !b, dec := some (!a, !b) } : Position) = q
      refine ⟨?_, ?_, fun hu => ?_, fun hu => ?_⟩
      · unfold State.raiseChanIf
        split <;> rfl
      · rw [State.raiseChanIf_pos, State.setPos_get, ← hq]
        exact ⟨rfl, rfl⟩
      · rw [hu]
        exact State.raiseChan_chanFlag_self ..
      · rw [hu]
        exact ⟨rfl, rfl, rfl⟩
  · intro p r now x hz ha hb hd
    have event := State.filteredChange_index first hz hd
    have record : (s.setPos c { p with fz := .settled true }).record c = r := rfl
    have own : (s.setPos c { p with fz := .settled true }).pos.get c = { p with fz := .settled true } := State.setPos_get _
    have others : s.setPos c { p with fz := .settled true } =
      { s with pos := (s.setPos c { p with fz := .settled true }).pos } := rfl
    have pos : (s.setPos c { p with fz := .settled true }).pos = s.pos.set c { p with fz := .settled true } := rfl
    generalize s.setPos c { p with fz := .settled true } = u at event record own others pos
    obtain ⟨frame, fine, rev⟩ := u.indexEdge_frame c
    have level : ((u.indexEdge c).pos.get c).fz.level = some true := by
      have kept := (u.indexEdge_filters c).2 .z
      rw [own] at kept
      exact congrArg Filter.level kept
    refine ⟨_, event, ?_, level, fine.trans (by rw [own]), rev.trans (by rw [own]),
      fun hu hm harm => ?_, fun hu hm => ?_, fun h => ?_⟩
    · rw [frame, others]
    · rw [State.indexEdge_capture (record ▸ hu) (record ▸ hm) (by rw [own]; exact harm), own, State.setPos_get, others]
      exact ⟨rfl, rfl, rfl, rfl, rfl⟩
    · rw [State.indexEdge_check (record ▸ hu) (record ▸ hm), own, record, State.raiseChanIf_pos, State.setPos_get]
      refine ⟨rfl, rfl, rfl, fun h => ?_, fun h => ?_⟩
      · have within : ¬indexDistance p.fine r.indexExpect r.cpr > r.indexTolerance := not_lt.mpr h
        rw [show decide _ = false from decide_eq_false within, others]
        exact ⟨rfl, rfl⟩
      · have beyond : indexDistance p.fine r.indexExpect r.cpr > r.indexTolerance := h
        rw [show decide _ = true from decide_eq_true beyond, others]
        exact State.raiseChan_chanFlag_self ..
    · rw [State.indexEdge_ignored (by rw [own, record]; exact h), own, others, pos]

end Sys2Proof.Machine
end

