-- ==== Sys2Proof/Proofs/ValleyParts.lean ====
section
/-! The listed parts of a master valley (R77, R78, R82, R102) and of a channel valley (R88, R91, R93, R127, R129), each sent
alone. -/

namespace Sys2Proof.Machine

variable {s t : State} {c d : Chan}

/-! ### Parts of a master valley -/

theorem State.deliverDev_devKept (l : DevLevel) (x : Bool) (s : State) :
    (s.deliverDev l x).router.devKept = s.router.devKept.put l x := by
  unfold State.deliverDev
  dsimp only
  split <;> rfl

/-- RING_LOSS held by no trip holds every channel in RUN or HOLD with the cause RING, and no other (R130, R142). -/
theorem State.raiseDev_ringLoss_held (h : s.bank.devTripClass .ringLoss = false) (c : Chan) :
    (s.st c = .run ∨ s.st c = .hold → (s.raiseDev .ringLoss).st c = .hold ∧
      ((s.raiseDev .ringLoss).sup.get c).causes.ring = true) ∧
    (s.st c ≠ .run → s.st c ≠ .hold → (s.raiseDev .ringLoss).sup.get c = s.sup.get c) := by
  obtain ⟨-, -, sup⟩ := (State.raiseDev_acted .ringLoss s).unreached (d := c) (State.tripReach_none s (Route.devTrip_none h) c)
  rw [State.holdReach_devHold] at sup
  refine ⟨fun hr => ?_, fun h h' => sup.trans (Supervisor.addCauses_of_not_closing (State.not_closing h h') _)⟩
  have held := State.st_eq_of_addCauses sup hr (by simp [Causes.isEmpty, DevKind.fixedHold])
  exact ⟨congrArg Supervisor.st held, by rw [held]; simp [Causes.union, DevKind.fixedHold]⟩

theorem Timebase.loss_reached {b : Timebase} (hm : b.lossMark = false) (h : b.set.lossLimit ≤ min 255 (b.lossCount + 1)) :
    (decide (b.set.lossLimit ≤ satSucc 255 b.lossCount) && !b.lossMark) = true := by
  simp only [hm, Bool.not_false, Bool.and_true, decide_eq_true_eq]
  exact h

theorem Timebase.lossAtValley_reached {b : Timebase} (hm : b.lossMark = false)
    (h : b.set.lossLimit ≤ min 255 (b.lossCount + 1)) : b.lossAtValley =
      { b with lossCount := min 255 (b.lossCount + 1), lossMark := true, lock := .free, acquire := 0, corr := 0,
               corrLeft := 0 } :=
  if_pos (Timebase.loss_reached hm h)

/-- Gate lines settled change nothing of a modulator but its lines. -/
theorem State.settleGates_get (s : State) (d : Chan) : s.settleGates.mods.get d = { s.mods.get d with
    pa := (s.settleGates.mods.get d).pa, pb := (s.settleGates.mods.get d).pb, pc := (s.settleGates.mods.get d).pc } := by
  simp only [State.settleGates_mods, PerChan.get_ofFn]
  rfl

/-- Settles O39, by the four parts, RING_LOSS as a device condition delivered. -/
theorem masterValleyParts : Obligations.MasterValleyParts := by
  unfold Obligations.MasterValleyParts
  refine ⟨fun s hm hl => ?_, fun s h => ⟨_, if_neg (by omega), rfl, rfl, State.settleGates_get _⟩, fun s h => if_pos h,
    fun s x h => ?_⟩
  · have exec_eq : exec .ringLoss s = .next ((s.mapTb Timebase.lossAtValley).deliverDev .ringLoss true) := by
      have marked : (s.mapTb Timebase.lossAtValley).tb.lossMark = true :=
        congrArg Timebase.lossMark (Timebase.lossAtValley_reached hm hl)
      exact (if_pos (Timebase.loss_reached hm hl)).trans (congrArg Host.Outcome.next (if_pos marked))
    have loss := Timebase.lossAtValley_reached hm hl
    have frame := State.deliverDev_frame .ringLoss true (s.mapTb Timebase.lossAtValley)
    refine ⟨_, exec_eq, by rw [frame]; rfl, by rw [frame]; exact loss, State.deliverDev_devKept .., fun hk => ?_,
      fun hk => ?_⟩
    · rw [State.deliverDev_of_kept (s := s.mapTb _) (l := .ringLoss) hk]
      exact ⟨rfl, rfl, rfl⟩
    · rw [State.deliverDev_risen (s := s.mapTb _) (l := .ringLoss) hk]
      refine ⟨State.raiseDev_devFlag_self _, fun hq => ?_⟩
      obtain ⟨mods, trips⟩ := State.raiseDev_quiet ((s.mapTb Timebase.lossAtValley).keepDev .ringLoss true) (k := .ringLoss) hq
      exact ⟨mods, trips, State.raiseDev_ringLoss_held hq⟩
  · have exec_eq : exec .pendingSettingsEffect s = .next (s.mapTb fun b => b.atValley.applyPending x).settleGates := by
      show (match s.tb.pend with | some x => _ | none => _) = _
      rw [h]
    exact ⟨_, exec_eq, rfl, rfl, State.settleGates_get _⟩

/-! ### Parts of a channel valley -/

theorem State.leadOf_self (h : (s.role c).isFollower = false) : s.leadOf c = c := by
  unfold State.leadOf
  cases hr : s.role c with
  | follower k p => rw [hr] at h; cases h
  | lone => rfl
  | leader k p => rfl

/-- A raise that names no other channel leaves every channel but its own and that one's partner (R136, R145). -/
theorem State.raiseChan_beside {k : ChanKind} (ht : (s.bank.route k.code).tripAll = false)
    (hh : (s.bank.route k.code).holdAll = false) (hd : d ≠ c) (hp : (s.role d).partner ≠ some c) :
    (s.raiseChan k c).sup.get d = s.sup.get d ∧ (s.raiseChan k c).mods.get d = s.mods.get d ∧
      (s.raiseChan k c).router.trips.get d = s.router.trips.get d := by
  have named {e : Chan} (he : e ≠ c) : (s.bank.route k.code).chanTrip k c e = none :=
    (Route.chanTrip_eq_none_iff _ _).mpr (by simp [he, ht])
  have holds {e : Chan} (he : e ≠ c) : ((s.bank.route k.code).chanHold k c e).isEmpty = true :=
    (Route.chanHold_isEmpty_iff _ _).mpr (by simp [he, hh])
  have partner {p : Chan} (h : (s.role d).partner = some p) : p ≠ c := fun e => hp (e ▸ h)
  obtain ⟨mods, trips, sup⟩ := (s.raiseChan_acted k c).unreached
    (State.tripReach_eq_none_iff.mpr ⟨named hd, fun p h => named (partner h)⟩)
  exact ⟨sup.trans (Supervisor.addCauses_empty _ (State.holdReach_isEmpty_iff.mpr ⟨holds hd, fun p h => holds (partner h)⟩)),
    mods, trips⟩

theorem State.settleGates_of_get {m : Modulator} (h : s.mods.get d = m) : s.settleGates.mods.get d = { m with
    pa := (s.settleGates.mods.get d).pa, pb := (s.settleGates.mods.get d).pb, pc := (s.settleGates.mods.get d).pc } := by
  subst h
  exact s.settleGates_get d

theorem State.exec_compareLoad {x : Compares} (h : s.st c = .run ∨ s.st c = .hold) (hx : (s.mods.get c).pending = some x) :
    exec (.compareLoad c) s =
      .next ({ s with mods := s.mods.modify c fun m => m.load s.tb.set.p (s.record c).minPulse x } : State).settleGates := by
  show (match (s.mods.get c).pending with | some x => _ | none => _) = _
  rw [hx]
  exact if_pos ((ChanState.closing_iff _).mpr h)

theorem State.exec_comparesStale (h : s.st c = .run ∨ s.st c = .hold) (hn : (s.mods.get c).pending = none)
    (h3 : (s.mods.get c).stale = 3) : exec (.comparesStale c) s =
      .next (({ s with mods := s.mods.modify c fun m => { m with stale := 4 } } : State).raiseChan .comparesStale c) := by
  refine if_pos ?_
  simp only [(ChanState.closing_iff _).mpr h, hn, h3, Option.isNone_none, decide_true, Bool.and_self]

/-- The trip of COMPARES_STALE on its own channel, whose record is in use (R93, R142). -/
theorem State.raiseChan_comparesStale (ht : s.st c ≠ .trip) (hu : (s.record c).inUse = true) :
    s.trippedTo (s.raiseChan .comparesStale c) c 3 .self ∧
      (s.raiseChan .comparesStale c).mods.get c = (s.mods.get c).inhibit := by
  have reached := State.tripReach_named (s := s)
    (Route.chanTrip_self (r := s.bank.route (ChanKind.code .comparesStale)) (k := .comparesStale) (c := c) rfl)
  have takes := State.tripTakes_iff.mpr ⟨ht, hu⟩
  refine ⟨(s.raiseChan_acted .comparesStale c).tripped reached takes, ?_⟩
  rw [State.raiseChan_mods_get, reached, takes]
  rfl

theorem ChanState.ne_trip {x : ChanState} (h : x = .run ∨ x = .hold) : x ≠ .trip := by
  rcases h with rfl | rfl <;> decide

theorem State.exec_chargingBegin (hf : (s.role c).isFollower = false) (h : s.st c = .charge)
    (hd : (s.mods.get c).drive = false) : exec (.chargingBegin c) s = .next (s.beginCharging c).settleGates := by
  show (if s.st (s.leadOf c) = _ ∧ _ then _ else _) = _
  rw [State.leadOf_self hf]
  exact if_pos ⟨h, hd⟩

theorem State.exec_endOfCharging (hf : (s.role c).isFollower = false) (h : s.st c = .charge)
    (hd : (s.mods.get c).drive = true) (hn : (s.record c).chargePeriods ≤ min 255 ((s.sup.get c).chargeCount + 1)) :
    exec (.endOfCharging c) s = .next (((s.setCharge c (min 255 ((s.sup.get c).chargeCount + 1))).enterRun c).settleGates) := by
  show (if s.st (s.leadOf c) = _ ∧ _ then _ else _) = _
  rw [State.leadOf_self hf, if_pos ⟨h, hd, hn⟩, State.countCharge]
  exact congrArg (fun x : State => Host.Outcome.next x.settleGates) (if_pos hn)

theorem State.exec_stoppingEnd (hf : (s.role c).isFollower = false) (h : s.st c = .stopping) :
    exec (.stoppingEnd c) s = .next (s.enterOff c) := by
  show (if s.st (s.leadOf c) = _ then _ else _) = _
  rw [State.leadOf_self hf]
  exact if_pos h

/-- The pair runtime of the slot a channel has is cleared, the others stay (R53). -/
theorem State.clearPair_pairs_get (k : Fin 4) :
    (s.clearPair c).pairs.get k = if (s.role c).slot = some k then {} else s.pairs.get k := by
  unfold State.clearPair
  cases hs : (s.role c).slot with
  | none => rfl
  | some j =>
    by_cases e : j = k
    · subst e; simp [Vector.get_eq_getElem]
    · have ne : j.val ≠ k.val := fun h => e (Fin.ext h)
      simp [Vector.get_eq_getElem, e, ne]

theorem State.enterRun_frame (c : Chan) (s : State) : s.enterRun c =
    { s with sup := (s.enterRun c).sup, mods := (s.enterRun c).mods, pairs := (s.enterRun c).pairs } := by
  unfold State.enterRun State.clearPair
  split <;> rfl

/-- Settles O43, part by part: the loaded compares, the trip of COMPARES_STALE, and the moves of a unit. -/
theorem channelValleyParts : Obligations.ChannelValleyParts := by
  unfold Obligations.ChannelValleyParts
  refine ⟨fun c s x h hx => ⟨_, State.exec_compareLoad h hx, rfl, fun d => State.settleGates_of_get ?_,
      fun y hy => minPulsed_zero_or_full_or_within _ hy⟩,
    fun c s h hn h3 hu => ⟨_, State.exec_comparesStale h hn h3, ?_⟩, fun c s hf h hd => ?_, fun c s hf h hd hn => ?_,
    fun c s hf h => ?_⟩
  · rw [PerChan.get_modify]
    by_cases e : d = c
    · subst e; simp only [if_true]; rfl
    · simp only [e, if_false]
  · have own : (s.mods.modify c fun m => { m with stale := 4 }).get c = { s.mods.get c with stale := 4 } := by simp
    have others {d : Chan} (hd : d ≠ c) : (s.mods.modify c fun m => { m with stale := 4 }).get d = s.mods.get d := by
      simp [hd]
    generalize (s.mods.modify c fun m => { m with stale := 4 }) = m at own others
    obtain ⟨tripped, mod⟩ := State.raiseChan_comparesStale (s := { s with mods := m }) (ChanState.ne_trip h) hu
    have inhibited : (({ s with mods := m } : State).raiseChan .comparesStale c).mods.get c =
        { s.mods.get c with stale := 4 }.inhibit := mod.trans (congrArg Modulator.inhibit own)
    refine ⟨(State.raiseChan_frame _ _ _).trans rfl, by rw [inhibited]; rfl, by rw [inhibited]; rfl,
      State.raiseChan_chanFlag_self .., fun d k hdk => State.raiseChan_chanFlag_of_ne hdk, tripped, fun ha hh d hd hp => ?_⟩
    obtain ⟨sup, mods, trips⟩ := State.raiseChan_beside (s := { s with mods := m }) (k := .comparesStale) ha hh hd hp
    exact ⟨sup, mods.trans (others hd), trips⟩
  · refine ⟨_, State.exec_chargingBegin hf h hd, rfl, fun d => State.settleGates_of_get (m := { s.mods.get d with
      drive := decide (d = c ∨ (s.role c).partner = some d) || (s.mods.get d).drive
      active := if d = c ∨ (s.role c).partner = some d then ⟨0, 0, 0⟩ else (s.mods.get d).active }) ?_⟩
    rw [State.beginCharging_get]
    by_cases unit : d = c ∨ (s.role c).partner = some d
    · rw [if_pos ((s.inUnit_iff c d).mpr unit)]
      simp only [unit, decide_true, Bool.true_or, if_true]
      rfl
    · rw [if_neg (mt (s.inUnit_iff c d).mp unit)]
      simp only [unit, decide_false, Bool.false_or, if_false]
  · generalize hk : min 255 ((s.sup.get c).chargeCount + 1) = n at hn
    have event := State.exec_endOfCharging hf h hd (hk ▸ hn)
    rw [hk] at event
    refine ⟨_, event, ?_, fun d => ?_, fun d => State.settleGates_of_get (m := { s.mods.get d with
      drive := decide (d = c ∨ (s.role c).partner = some d) || (s.mods.get d).drive
      active := if d = c ∨ (s.role c).partner = some d then ⟨s.tb.set.p / 2, s.tb.set.p / 2, s.tb.set.p / 2⟩
        else (s.mods.get d).active }) ?_, fun k => ?_⟩
    · rw [State.enterRun_frame]; rfl
    · rw [State.settleGates_sup, (State.enterRun_get _ c d).1, State.setCharge, State.unitSup_get]
      by_cases unit : d = c ∨ (s.role c).partner = some d
      · rw [if_pos unit, if_pos ((s.inUnit_iff c d).mpr unit)]
        exact if_pos ((s.inUnit_iff c d).mpr unit)
      · rw [if_neg unit, if_neg (mt (s.inUnit_iff c d).mp unit)]
        exact if_neg (mt (s.inUnit_iff c d).mp unit)
    · refine (State.enterRun_get _ c d).2.trans ?_
      by_cases unit : d = c ∨ (s.role c).partner = some d
      · refine (if_pos ((s.inUnit_iff c d).mpr unit)).trans ?_
        simp only [unit, decide_true, Bool.true_or, if_true]
        rfl
      · refine (if_neg (mt (s.inUnit_iff c d).mp unit)).trans ?_
        simp only [unit, decide_false, Bool.false_or, if_false]
        rfl
    · exact State.clearPair_pairs_get k
  · refine ⟨_, State.exec_stoppingEnd hf h, rfl, fun d => ⟨fun unit => ?_, fun hd hp => ?_⟩⟩
    · obtain ⟨sup, mods⟩ := s.enterOff_get c d
      rw [sup, mods, if_pos ((s.inUnit_iff c d).mpr unit), if_pos ((s.inUnit_iff c d).mpr unit)]
      obtain ⟨dark, drive, pending, active, stale, -⟩ := Modulator.inhibit_dark (s.mods.get d)
      exact ⟨rfl, dark, drive, pending, active, stale⟩
    · have unit := Bool.eq_false_iff.mp (s.inUnit_eq_false hd hp)
      obtain ⟨sup, mods⟩ := s.enterOff_get c d
      rw [sup, mods, if_neg unit, if_neg unit]
      exact ⟨rfl, rfl⟩

end Sys2Proof.Machine
end

