-- ==== Sys2Proof/Proofs/Ticks.lean ====
section
/-! The passage of ticks within one half of the master period (R76, R77, R85, R86), with the events of the gate lines it
brings, and the step with no command waiting. -/

namespace Sys2Proof.Machine

variable {s : State} {c : Chan}

/-! ### The timebase -/

theorem State.tick_tb (u : State) : u.tick.tb = { u.tb.moved 1 with inh := u.tick.tb.inh } := by
  have inputs := State.takeInputs_tb (u.glide 1)
  generalize hv : (u.glide 1).takeInputs = v at inputs
  have tick : u.tick = v := hv
  rw [tick]
  exact inputs

theorem Timebase.moved_zero (b : Timebase) : b.moved 0 = b := by simp [Timebase.moved, Filter.aged]

theorem Timebase.moved_moved (b : Timebase) (x : Filter) (m k : Nat) :
    ({ b.moved m with inh := x } : Timebase).moved k = { b.moved (m + k) with inh := x.aged k } := by
  cases h : b.up <;> simp [Timebase.moved, h] <;> omega

/-- Ticks move the counter and the ring-cycle position, and act on INH_N (R77). -/
theorem State.advance_tb (n : Nat) (s : State) : (s.advance n).tb = { s.tb.moved n with inh := (s.advance n).tb.inh } := by
  have ticks (m : Nat) : (Nat.repeat State.tick m s).tb = { s.tb.moved m with inh := (Nat.repeat State.tick m s).tb.inh } := by
    induction m with
    | zero => rw [Timebase.moved_zero]; rfl
    | succ m ih =>
      rw [Nat.repeat]
      generalize Nat.repeat State.tick m s = v at ih
      rw [State.tick_tb, ih, Timebase.moved_moved]
  unfold State.advance
  split
  · rfl
  · have first := ticks (min 3 n)
    generalize Nat.repeat State.tick (min 3 n) s = v at first
    show v.tb.moved (n - min 3 n) = { s.tb.moved n with inh := (v.tb.moved (n - min 3 n)).inh }
    rw [first, Timebase.moved_moved, Nat.add_sub_cancel' (by omega)]

/-- What ticks leave of the state. -/
theorem State.advance_frame (n : Nat) (s : State) : s.advance n =
    { s with tb := (s.advance n).tb, mods := (s.advance n).mods, pos := (s.advance n).pos, sup := (s.advance n).sup,
             router := (s.advance n).router, free := (s.advance n).free } := by
  have pending := s.advance_pending n
  have ring := s.advance_ring n
  have lanes := s.advance_lanes n
  have engine := s.advance_engine n
  have loop := s.advance_loop n
  have refs := s.advance_refs n
  have pairs := s.advance_pairs n
  have store := s.advance_store n
  generalize s.advance n = t at *
  cases t
  subst pending ring lanes engine loop refs pairs store
  rfl

theorem State.advance_quiet (h : s.quiet = true) (n : Nat) : s.advance n = s.glide n := by
  rw [State.advance, if_pos h]

/-- A glide changes gate lines and filters, with no level, compare or gate state. -/
theorem State.glide_frame (n : Nat) (s : State) : s.glide n =
      { s with tb := (s.glide n).tb, mods := (s.glide n).mods, pos := (s.glide n).pos } ∧
    (s.glide n).tb = { s.tb with counter := (s.glide n).tb.counter, pos := s.tb.pos + n, inh := (s.glide n).tb.inh } ∧
    (s.glide n).tb.inh.level = s.tb.inh.level ∧
    ∀ d, (s.glide n).mods.get d = { s.mods.get d with
        pa := ((s.glide n).mods.get d).pa, pb := ((s.glide n).mods.get d).pb, pc := ((s.glide n).mods.get d).pc } ∧
      (∀ l, (((s.glide n).pos.get d).filter l).level = ((s.pos.get d).filter l).level) ∧
      (s.glide n).pos.get d = { s.pos.get d with
        fa := ((s.glide n).pos.get d).fa, fb := ((s.glide n).pos.get d).fb, fz := ((s.glide n).pos.get d).fz } := by
  refine ⟨rfl, rfl, Filter.aged_level _ _, fun d => ⟨?_, fun l => ?_, ?_⟩⟩
  · rw [State.glide_mods_get]; rfl
  · rw [State.glide_pos_get]
    cases l <;> exact Filter.aged_level _ _
  · rw [State.glide_pos_get]; rfl

theorem State.tickOrTurn_pending (s : State) : s.tickOrTurn.pending = s.pending := by
  unfold State.tickOrTurn State.takeTurn
  split_ifs <;> simp only [State.masterCrest_pending, State.masterValley_pending, State.advance_pending]

theorem State.advance_up (n : Nat) (s : State) : (s.advance n).tb.up = s.tb.up := by
  rw [State.advance_tb]; rfl

/-- At a turning point, or one tick before it, a tick of the idle block is that turning point. -/
theorem State.tickOrTurn_turn (h : s.tb.left ≤ 1) : s.tickOrTurn = s.toTurn.takeTurn := by
  unfold State.tickOrTurn State.toTurn
  have left := s.advance_left 1
  by_cases h0 : s.tb.left = 0
  · rw [if_pos h0, h0, State.advance_zero]
  · rw [if_neg h0, if_pos (by omega), show s.tb.left = 1 by omega]

theorem step_idle (hp : s.pending = []) : step s = .next s.tickOrTurn := by
  unfold step
  rw [hp]
  rfl

/-- Settles O41, by whether the turning point is at most one tick away. -/
theorem idleStepIsATick : Obligations.IdleStepIsATick := by
  unfold Obligations.IdleStepIsATick
  refine ⟨fun s => s.quiet_iff, fun s hp => ⟨s.tickOrTurn, step_idle hp, (State.tickOrTurn_pending s).trans hp,
    fun hl hu => ?_, fun hl hu => ?_, fun hl => ?_⟩⟩
  · have up : s.toTurn.tb.up = true := (s.advance_up _).trans hu
    rw [State.tickOrTurn_turn hl, State.takeTurn, if_pos up]
    exact if_pos hu
  · have up : ¬s.toTurn.tb.up = true := by
      rw [show s.toTurn.tb.up = false from (s.advance_up _).trans hu]; decide
    refine ⟨Config.tickOrder s.toTurn.free, ?_⟩
    rw [State.tickOrTurn_turn hl, State.takeTurn, if_neg up]
    exact if_neg (by rw [hu]; decide)
  · have tick : s.tickOrTurn = s.advance 1 := by
      have same := (step_idle hp).symm.trans (step_idle_tick hp hl)
      injection same
    rw [tick]
    refine ⟨s.advance_frame 1, s.advance_tb 1, fun hq => ?_⟩
    rw [State.advance_quiet hq]
    obtain ⟨-, -, level, channels⟩ := s.glide_frame 1
    exact ⟨rfl, rfl, rfl, level, channels⟩

end Sys2Proof.Machine
end

