-- ==== Sys2Proof/Proofs/GateEvents.lean ====
section
/-! The events of the gate lines (R85, R86): a compare passed, and a dead time that has elapsed. -/

namespace Sys2Proof.Machine

variable {s : State} {c : Chan}

theorem sideHigh_iff (up : Bool) (p k cmp : Nat) : sideHigh up p k cmp = true ↔
    cmp ≠ 0 ∧ (cmp = p ∨ (up = true ∧ k < cmp) ∨ (up = false ∧ k ≤ cmp)) := by
  unfold sideHigh
  split_ifs with h0 hp hu
  · simp [h0]
  · exact iff_of_true rfl ⟨h0, .inl hp⟩
  · simp [h0, hp, hu]
  · simp [h0, hp, hu]

/-- The counter of a channel `n` ticks on, short of the turning point (R77, R79). -/
theorem Timebase.moved_chanCounter {b : Timebase} {n : Nat} (hc : b.counter ≤ b.crest) (hn : n ≤ b.left) (c : Chan) :
    (b.moved n).chanCounter c = if b.chanUp c then b.chanCounter c + n else b.chanCounter c - n := by
  unfold Timebase.left at hn
  cases hu : b.up <;> cases hs : b.shifted.get c <;>
    simp [Timebase.chanCounter, Timebase.moved, Timebase.chanUp, hu, hs] at hn ⊢ <;> omega

/-- A compare ahead of the channel counter is passed where the two meet (R85). -/
theorem crossing_eq {up : Bool} {p k cmp x : Nat} (h0 : 0 < cmp) (hp : cmp ≠ p) (hx : 0 < x)
    (h : if up then k + x = cmp else cmp + x = k) : crossing up p k cmp = some x := by
  unfold crossing
  rw [if_neg (by omega)]
  cases up
  · simp only [Bool.false_eq_true, if_false] at h ⊢
    rw [if_pos (by omega), show k - cmp = x by omega]
  · simp only [if_true] at h ⊢
    rw [if_pos (by omega), show cmp - k = x by omega]

/-- The command of a phase stands while its compare is not passed (R85). -/
theorem sideHigh_stands {up : Bool} {p k cmp n : Nat} (h : ∀ x, crossing up p k cmp = some x → n < x) :
    sideHigh up p (if up then k + n else k - n) cmp = sideHigh up p k cmp := by
  unfold crossing at h
  unfold sideHigh
  split_ifs at h ⊢ <;> simp_all <;> omega

/-- The gate of the side that is not commanded is off after any tick (R86). -/
theorem Phase.hold_off (en high : Bool) (dt : Nat) {n : Nat} (hn : n ≠ 0) (p : Phase) :
    (if high then (p.hold en high dt n).lo else (p.hold en high dt n).hi) = false := by
  unfold Phase.hold
  rw [if_neg hn]
  cases en <;> cases high <;> rfl

/-- A phase at the tick that passes its compare: the gate of the side left is off (R85, R86). -/
theorem Phase.glide_passed {en up : Bool} {dt p k cmp x : Nat} (h : crossing up p k cmp = some x) (ph : Phase) :
    (if sideHigh up p k cmp then (ph.glide en dt p up k cmp x).hi else (ph.glide en dt p up k cmp x).lo) = false := by
  have off := Phase.hold_off en (!sideHigh up p k cmp) dt Nat.one_ne_zero (ph.hold en (sideHigh up p k cmp) dt (x - 1))
  have last : x - x + 1 = 1 := by omega
  unfold Phase.glide
  dsimp only
  rw [h]
  dsimp only
  rw [if_pos (Nat.le_refl x), last]
  cases hs : sideHigh up p k cmp <;> rw [hs] at off <;> exact off

/-- A dark phase whose command stands for `n` ticks and whose partner gate is then off for the dead time: settled at the end
of them, the gate of the commanded side is on and its partner off (R86). -/
theorem Phase.settle_hold {high : Bool} {dt : Nat} {ph : Phase} (hd : ph.dark) (h255 : dt ≤ 255) :
    (((ph.hold true high dt (dt - if high then ph.loOff else ph.hiOff)).settle true high dt).hi = high) ∧
      ((ph.hold true high dt (dt - if high then ph.loOff else ph.hiOff)).settle true high dt).lo = !high := by
  obtain ⟨hi, lo⟩ := hd
  cases high
  · simp only [Bool.false_eq_true, if_false, Phase.hold, Phase.settle, hi, lo, offTicks]
    by_cases h : dt - ph.hiOff = 0 <;> simp [h, hi, lo] <;> omega
  · simp only [if_true, Phase.hold, Phase.settle, hi, lo, offTicks]
    by_cases h : dt - ph.loOff = 0 <;> simp [h, hi, lo] <;> omega

theorem State.glide_phase (n : Nat) (s : State) (c : Chan) (ph : PhaseId) : ((s.glide n).mods.get c).phase ph =
    ((s.mods.get c).phase ph).glide (s.enabled c) (s.mods.get c).deadTime s.tb.set.p (s.tb.chanUp c) (s.tb.chanCounter c)
      ((s.mods.get c).active.get ph) n := by
  rw [State.glide_mods_get]
  cases ph <;> rfl

/-- A settled modulator after a glide: gate lines changed alone. -/
theorem State.settled_glide_frame (n : Nat) (s : State) (d : Chan) : (s.glide n).settleGates.mods.get d = { s.mods.get d with
    pa := ((s.glide n).settleGates.mods.get d).pa, pb := ((s.glide n).settleGates.mods.get d).pb,
    pc := ((s.glide n).settleGates.mods.get d).pc } := by
  rw [State.settleGates_mods_get, State.settledMod_frame, State.glide_mods_get]
  rfl

theorem State.settleGates_phase (s : State) (c : Chan) (ph : PhaseId) : (s.settleGates.mods.get c).phase ph =
    ((s.mods.get c).phase ph).settle (s.enabled c)
      (sideHigh (s.tb.chanUp c) s.tb.set.p (s.tb.chanCounter c) ((s.mods.get c).active.get ph)) (s.mods.get c).deadTime := by
  rw [State.settleGates_mods_get, State.settledMod_phase]

theorem State.commandStands_iff {ph : PhaseId} {n : Nat} : s.commandStands c ph n = true ↔ n ≤ s.tb.left ∧
    ∀ x, crossing (s.tb.chanUp c) s.tb.set.p (s.tb.chanCounter c) ((s.mods.get c).active.get ph) = some x → n < x := by
  unfold State.commandStands
  cases crossing (s.tb.chanUp c) s.tb.set.p (s.tb.chanCounter c) ((s.mods.get c).active.get ph) <;> simp

/-- A phase whose command stands throughout holds it (R86). -/
theorem Phase.glide_stands {up : Bool} {p k cmp n : Nat} (h : ∀ x, crossing up p k cmp = some x → n < x) (en : Bool) (dt : Nat)
    (ph : Phase) : ph.glide en dt p up k cmp n = ph.hold en (sideHigh up p k cmp) dt n := by
  unfold Phase.glide
  dsimp only
  split
  · next x hx => exact if_neg (by have := h x hx; omega)
  · rfl

theorem State.exec_counterPassesCompare {ph : PhaseId} {x : Nat} (hq : s.quiet = true) (hl : x ≤ s.tb.left)
    (h : crossing (s.tb.chanUp c) s.tb.set.p (s.tb.chanCounter c) ((s.mods.get c).active.get ph) = some x) :
    exec (.counterPassesCompare c ph) s = .next (s.glide x) := by
  show (match crossing _ _ _ _ with | some x => _ | none => _) = _
  rw [h, ← State.advance_quiet hq]
  exact if_pos hl

theorem State.exec_deadTimeElapsed {ph : PhaseId} {n : Nat} (hq : s.quiet = true) (h : s.deadLeft c ph = some n)
    (hn : s.commandStands c ph n = true) : exec (.deadTimeElapsed c ph) s = .next (s.glide n).settleGates := by
  show (match s.deadLeft c ph with | some n => _ | none => _) = _
  rw [h, ← State.advance_quiet hq]
  exact if_pos hn

/-- Settles O44, by the counter of the channel at the event and what a phase holds up to it. -/
theorem comparePassageAndDeadTime : Obligations.ComparePassageAndDeadTime := by
  unfold Obligations.ComparePassageAndDeadTime
  refine ⟨sideHigh_iff, fun c b => ⟨rfl, rfl, rfl⟩, fun c ph s x hq hc => ?_, fun c ph s hq hc => ?_⟩
  · intro cmp k h0 hp hx hk hl
    have cross : crossing (s.tb.chanUp c) s.tb.set.p k cmp = some x := crossing_eq h0 hp hx hk
    obtain ⟨frame, tb, level, channels⟩ := s.glide_frame x
    have counter : (s.glide x).tb.chanCounter c = cmp := by
      show (s.tb.moved x).chanCounter c = cmp
      rw [Timebase.moved_chanCounter hc hl]
      cases hu : s.tb.chanUp c <;> simp only [hu, Bool.false_eq_true, if_false, if_true] at hk ⊢ <;> omega
    have before : sideHigh (s.tb.chanUp c) s.tb.set.p k cmp = s.tb.chanUp c := by
      rw [Bool.eq_iff_iff, sideHigh_iff]
      cases hu : s.tb.chanUp c <;> simp only [hu, Bool.false_eq_true, if_false, if_true] at hk <;> simp <;> omega
    have passed := Phase.glide_passed (en := s.enabled c) (dt := (s.mods.get c).deadTime) cross ((s.mods.get c).phase ph)
    refine ⟨s.glide x, State.exec_counterPassesCompare hq hl cross, frame, tb, rfl, counter, level, ?_, ?_, ?_, fun d => ?_⟩
    · rw [before]
      cases s.tb.chanUp c <;> rfl
    · rw [counter, Bool.eq_iff_iff, sideHigh_iff]
      show _ ↔ (s.tb.chanUp c == false) = true
      have up : (s.glide x).tb.chanUp c = s.tb.chanUp c := rfl
      have p : (s.glide x).tb.set.p = s.tb.set.p := rfl
      rw [up, p]
      cases hu : s.tb.chanUp c <;> simp <;> omega
    · rw [State.glide_phase]
      rw [before] at passed
      cases hu : s.tb.chanUp c <;> simp only [hu, Bool.false_eq_true, if_false, if_true] at passed ⊢ <;> exact passed
    · obtain ⟨mods, -, pos⟩ := channels d
      exact ⟨by rw [pos], by rw [pos], mods⟩
  · intro m q high n hd hi hhi hlo h255 hs
    have enabled : s.enabled c = true := by
      simp only [State.enabled, Timebase.inhLow, decide_eq_false hi, Bool.not_false, Bool.and_true]
      exact hd
    have left : s.deadLeft c ph = some n := by
      have idle : (!s.enabled c || q.hi || q.lo) = false := by rw [enabled, hhi, hlo]; rfl
      refine (if_neg (Bool.eq_false_iff.mp idle)).trans ?_
      by_cases hh : high = true
      · exact (if_pos hh).trans (by simp only [n, hh, if_true]; rfl)
      · exact (if_neg hh).trans (by simp only [n, hh]; rfl)
    obtain ⟨hl, stands⟩ := State.commandStands_iff.mp hs
    obtain ⟨frame, tb, level, channels⟩ := s.glide_frame n
    have driven : (s.glide n).enabled c = true := by
      have drive : ((s.glide n).mods.get c).drive = true := by rw [(channels c).1]; exact hd
      simp only [State.enabled, drive, Timebase.inhLow, level, decide_eq_false hi, Bool.not_false, Bool.and_self]
    have command : sideHigh ((s.glide n).tb.chanUp c) (s.glide n).tb.set.p ((s.glide n).tb.chanCounter c)
        (((s.glide n).mods.get c).active.get ph) = high := by
      rw [(channels c).1]
      show sideHigh (s.tb.chanUp c) s.tb.set.p ((s.tb.moved n).chanCounter c) _ = _
      rw [Timebase.moved_chanCounter hc hl]
      exact sideHigh_stands stands
    have phase : ((s.glide n).settleGates.mods.get c).phase ph = (q.hold true high m.deadTime n).settle true high m.deadTime := by
      rw [State.settleGates_phase, driven, command, State.glide_phase, Phase.glide_stands stands, enabled, (channels c).1]
    obtain ⟨on, off⟩ := Phase.settle_hold (high := high) ⟨hhi, hlo⟩ h255
    refine ⟨_, State.exec_deadTimeElapsed hq left hs, rfl, tb, phase ▸ on, phase ▸ off, fun d => ?_⟩
    obtain ⟨-, -, pos⟩ := channels d
    rw [State.settleGates_pos, pos]
    exact ⟨rfl, rfl, State.settled_glide_frame n s d⟩

end Sys2Proof.Machine
end

