-- ==== Sys2Proof/Proofs/TurningPoints.lean ====
section
/-! The turning points of the master counter (R77 to R79, R82, R102) and the strobes of the channels whose valleys they are
(R60, R61, R86, R112). -/

namespace Sys2Proof.Machine

variable {s : State} {c : Chan} {f : Chan → Bool}

/-! ### Dead times -/

/-- The dead times of `t` are those of `s`. -/
def DeadTimesKept (s t : State) : Prop := ∀ c, (t.mods.get c).deadTime = (s.mods.get c).deadTime

theorem DeadTimesKept.trans {t u : State} (h : DeadTimesKept s t) (h' : DeadTimesKept t u) : DeadTimesKept s u :=
  fun c => (h' c).trans (h c)

theorem deadTimes_raiseChan (k : ChanKind) (c : Chan) (s : State) : DeadTimesKept s (s.raiseChan k c) := fun d => by
  rw [State.raiseChan_mods_get]
  split
  · exact (Modulator.inhibit_dark _).2.2.2.2.2
  · rfl

theorem deadTimes_deliverDev (l : DevLevel) (x : Bool) (s : State) : DeadTimesKept s (s.deliverDev l x) := fun d => by
  unfold State.deliverDev
  dsimp only
  split
  · rw [State.raiseDev_mods_get]
    split
    · exact (Modulator.inhibit_dark _).2.2.2.2.2
    · rfl
  · rfl

theorem State.valleyCheck_deadTime (s : State) (c : Chan) : (s.valleyCheck c).mod.deadTime = (s.mods.get c).deadTime := by
  unfold State.valleyCheck
  dsimp only
  split
  · split <;> rfl
  · split <;> rfl
  all_goals rfl

theorem deadTimes_checkAll (f : Chan → Bool) (s : State) : DeadTimesKept s (s.checkAll f) := by
  refine State.checkAll_keeps (q := DeadTimesKept s) s f (fun c => ?_) fun x k c h => h.trans (deadTimes_raiseChan k c x)
  show ((s.checkedMods f).get c).deadTime = _
  rw [State.checkedMods, PerChan.get_ofFn]
  split
  · exact s.valleyCheck_deadTime c
  · rfl

theorem deadTimes_unitMods (c : Chan) {g : Modulator → Modulator} (h : ∀ m, (g m).deadTime = m.deadTime) (s : State) :
    DeadTimesKept s (s.unitMods c g) := fun d => by
  rw [State.unitMods_get]
  split
  · exact h _
  · rfl

theorem deadTimes_superviseOne (c : Chan) (s : State) : DeadTimesKept s (s.superviseOne c) := by
  unfold State.superviseOne
  split
  · split
    · unfold State.countCharge
      dsimp only
      split
      · refine fun d => ?_
        rw [(State.enterRun_get _ c d).2]
        split <;> rfl
      · exact fun _ => rfl
    · exact deadTimes_unitMods c (g := Modulator.charging) (fun _ => rfl) s
  · exact fun d => by
      rw [(s.enterOff_get c d).2]
      split <;> rfl
  all_goals exact fun _ => rfl

theorem deadTimes_supervise (f : Chan → Bool) (s : State) : DeadTimesKept s (s.supervise f) :=
  State.supervise_keeps (q := DeadTimesKept s) f (fun x c h => h.trans (deadTimes_superviseOne c x)) fun _ => rfl

/-! ### The strobes of a set of channels -/

/-- What the valleys of the channels of `f`, in state `v`, give the lanes, counters and dead times of `t`. -/
def StrobesOf (f : Chan → Bool) (v t : State) : Prop := ∀ c,
  let latch : Position := { v.pos.get c with latched := some ⟨(v.pos.get c).fine, (v.pos.get c).rev⟩ }
  (f c = true → (t.lanes.get c).seq = (v.lanes.get c).seq + 1 ∧ (t.lanes.get c).expected = true ∧
    (t.lanes.get c).arrived = false ∧ t.strobeTakenFrom v c ∧ t.pos.get c = latch ∧
    (t.mods.get c).deadTime = (v.record c).deadTime) ∧
  (f c = false → t.lanes.get c = v.lanes.get c ∧ (t.mods.get c).deadTime = (v.mods.get c).deadTime ∧
    (∀ k p, v.role c = .follower k p → f p = true → t.pos.get c = latch) ∧
    ((∀ k p, v.role c = .follower k p → f p = false) → t.pos.get c = v.pos.get c))

theorem State.strobeAll_strobes (f : Chan → Bool) (v : State) : StrobesOf f v (v.strobeAll f) := by
  intro c latch
  refine ⟨fun h => ?_, fun h => ?_⟩
  · have lane : (v.strobeAll f).lanes.get c = (v.lanes.get c).strobed (v.strobeRec c) := by simp [State.strobeAll, h]
    refine ⟨by rw [lane]; rfl, by rw [lane]; rfl, by rw [lane]; rfl,
      ⟨v.strobeRec c, by rw [lane]; rfl, rfl, rfl, fun k p hr => by simp [State.strobeRec, hr, Position.counts]⟩, ?_, ?_⟩
    · rw [State.strobeAll_pos_get, if_pos (State.latches_own v h)]
    · simp [State.strobeAll, h]
  · refine ⟨by simp [State.strobeAll, h], by simp [State.strobeAll, h], fun k p hr hp => ?_, fun hp => ?_⟩
    · rw [State.strobeAll_pos_get, if_pos (State.latches_follower v hr hp)]
    · rw [State.strobeAll_pos_get, if_neg (by rw [State.latches_none v h hp]; decide)]

/-- What touches no lane, counter or dead time may come before and after the strobes. -/
theorem StrobesOf.between {v w t u : State} (h : StrobesOf f w t) (vLanes : w.lanes = v.lanes) (vPos : w.pos = v.pos)
    (vStore : w.store = v.store) (vDead : DeadTimesKept v w) (uLanes : u.lanes = t.lanes) (uPos : u.pos = t.pos)
    (uDead : DeadTimesKept t u) : StrobesOf f v u := by
  intro c latch
  obtain ⟨own, other⟩ := h c
  have role := State.role_congr vStore c
  have record := State.record_congr vStore c
  rw [vPos] at own other
  rw [vLanes] at own other
  refine ⟨fun h => ?_, fun h => ?_⟩
  · obtain ⟨seq, expected, arrived, ⟨r, hr, hown, hmark, hfol⟩, hpos, hdead⟩ := own h
    rw [vPos] at hown
    refine ⟨uLanes ▸ seq, uLanes ▸ expected, uLanes ▸ arrived,
      ⟨r, uLanes ▸ hr, hown, hmark, fun k p hk => ?_⟩, uPos ▸ hpos, (uDead c).trans (hdead.trans (by rw [record]))⟩
    exact vPos ▸ hfol k p (role.trans hk)
  · obtain ⟨hlane, hdead, hfol, hnone⟩ := other h
    exact ⟨uLanes ▸ hlane, (uDead c).trans (hdead.trans (vDead c)), fun k p hk hp => uPos ▸ hfol k p (role.trans hk) hp,
      fun hn => uPos ▸ hnone fun k p hk => hn k p (role.symm.trans hk)⟩

/-- The valleys of the channels of `f` are their strobes, and no other lane, counter or dead time changes. -/
theorem State.channelValleys_strobes (f : Chan → Bool) (v : State) : StrobesOf f v (v.channelValleys f) :=
  (State.strobeAll_strobes f ((v.checkAll f).supervise f)).between (by simp) (by simp) (by simp)
    ((deadTimes_checkAll f v).trans (deadTimes_supervise f (v.checkAll f))) rfl rfl fun c => by
      rw [State.channelValleys, State.settleGates_get]

/-! ### The timebase at a master valley -/

/-- The ring-loss count and mark at a valley, whichever way the period opens (R102). -/
theorem Timebase.lossAtValley_fields (b : Timebase) :
    b.lossAtValley = { b with
      lossCount := min 255 (b.lossCount + 1)
      lossMark := b.lossMark || decide (b.set.lossLimit ≤ min 255 (b.lossCount + 1))
      lock := b.lossAtValley.lock, acquire := b.lossAtValley.acquire, corr := b.lossAtValley.corr
      corrLeft := b.lossAtValley.corrLeft } ∧
    (b.lossMark = false → b.lossAtValley.lossMark = true →
      b.lossAtValley.lock = .free ∧ b.lossAtValley.corr = 0 ∧ b.lossAtValley.corrLeft = 0) ∧
    (b.lossAtValley.lossMark = false → b.lossAtValley.corr = b.corr ∧ b.lossAtValley.corrLeft = b.corrLeft) ∧
    (b.corrLeft = 0 → b.lossAtValley.corrLeft = 0) := by
  unfold Timebase.lossAtValley satSucc
  dsimp only
  split
  · next h =>
    simp only [Bool.and_eq_true, decide_eq_true_eq, Bool.not_eq_true'] at h
    simp [h.1]
  · next h =>
    simp only [Bool.and_eq_true, decide_eq_true_eq, Bool.not_eq_true'] at h
    cases hm : b.lossMark <;> simp_all

theorem Timebase.openPeriod_fields (b : Timebase) :
    b.openPeriod = { b with crest := b.openPeriod.crest, corr := b.openPeriod.corr, corrLeft := b.openPeriod.corrLeft } ∧
    (b.corrLeft = 0 → b.openPeriod.crest = b.set.p ∧ b.openPeriod.corr = b.corr ∧ b.openPeriod.corrLeft = 0) ∧
    (0 < b.corrLeft → (b.openPeriod.crest : Int) = max 0 ((b.set.p : Int) + b.corr) ∧
      b.openPeriod.corrLeft + 1 = b.corrLeft ∧ (1 < b.corrLeft → b.openPeriod.corr = b.corr) ∧
      (b.corrLeft = 1 → b.openPeriod.corr = 0)) := by
  unfold Timebase.openPeriod
  split
  · next h => exact ⟨rfl, fun h0 => absurd h0 (by omega), fun _ =>
      ⟨by simp only [Int.toNat_eq_max, max_comm], by dsimp only; omega, fun h1 => if_neg (by omega), fun h1 => if_pos h1⟩⟩
  · next h => exact ⟨rfl, fun h0 => ⟨rfl, rfl, h0⟩, fun h0 => absurd h0 h⟩

/-- The period of the ring cycle that a valley opens, by what is pending (R77, R82). -/
def Timebase.nextSettings (b : Timebase) : Timebase :=
  match b.pend with
  | some x => b.atValley.applyPending x
  | none => b.atValley.nextPeriod

theorem Timebase.valley_eq (b : Timebase) : b.valley = b.nextSettings.lossAtValley.openPeriod := rfl

theorem Timebase.nextPeriod_fields (b : Timebase) :
    b.nextPeriod = { b with index := b.nextPeriod.index, pos := b.nextPeriod.pos } ∧
    (b.index + 1 < b.set.n → b.nextPeriod.index = b.index + 1 ∧ b.nextPeriod.pos = b.pos) ∧
    (b.set.n ≤ b.index + 1 → b.nextPeriod.index = 0 ∧ b.nextPeriod.pos = 0) := by
  unfold Timebase.nextPeriod
  split
  · next h => exact ⟨rfl, fun _ => ⟨rfl, rfl⟩, fun h' => absurd h (by omega)⟩
  · next h => exact ⟨rfl, fun h' => absurd h' h, fun _ => ⟨rfl, rfl⟩⟩

theorem Timebase.nextSettings_facts (b : Timebase) :
    b.nextSettings.counter = 0 ∧ b.nextSettings.up = true ∧ b.nextSettings.pend = none ∧
    b.nextSettings.lossCount = b.lossCount ∧ b.nextSettings.lossMark = b.lossMark ∧
    b.nextSettings.set.lossLimit = b.set.lossLimit ∧ (b.corrLeft = 0 → b.nextSettings.corrLeft = 0) ∧
    (b.pend = none → b.nextSettings.set = b.set ∧ b.nextSettings.corr = b.corr ∧ b.nextSettings.corrLeft = b.corrLeft ∧
      (b.index + 1 < b.set.n → b.nextSettings.index = b.index + 1 ∧ b.nextSettings.pos = b.pos) ∧
      (b.set.n ≤ b.index + 1 → b.nextSettings.index = 0 ∧ b.nextSettings.pos = 0)) ∧
    (∀ x, b.pend = some x → b.nextSettings.set = { b.set with d := x.d, p := x.p, n := x.n } ∧
      b.nextSettings.index = 0 ∧ b.nextSettings.pos = 0 ∧ b.nextSettings.corrLeft = 0) := by
  unfold Timebase.nextSettings
  split
  · next x hx =>
    refine ⟨rfl, rfl, rfl, rfl, rfl, rfl, fun _ => rfl, fun h => ?_, fun y hy => ?_⟩
    · rw [hx] at h; cases h
    · cases hx.symm.trans hy
      exact ⟨rfl, rfl, rfl, rfl⟩
  · next hn =>
    obtain ⟨frame, goes, starts⟩ := b.atValley.nextPeriod_fields
    refine ⟨by rw [frame]; rfl, by rw [frame]; rfl, by rw [frame]; exact hn, by rw [frame]; rfl, by rw [frame]; rfl,
      by rw [frame]; rfl, fun h => by rw [frame]; exact h,
      fun _ => ⟨by rw [frame]; rfl, by rw [frame]; rfl, by rw [frame]; rfl, goes, starts⟩, fun x hx => ?_⟩
    rw [hn] at hx
    cases hx

/-- What a master valley does to the timebase (R77, R78, R82, R102). -/
theorem Timebase.valley_facts (b : Timebase) (t : Timebase) (ht : t = b.valley) :
    t.counter = 0 ∧ t.up = true ∧ t.pend = none ∧ t.lossCount = min 255 (b.lossCount + 1) ∧
    (b.pend = none → t.set = b.set ∧ (b.index + 1 < b.set.n → t.index = b.index + 1 ∧ t.pos = b.pos) ∧
      (b.set.n ≤ b.index + 1 → t.index = 0 ∧ t.pos = 0)) ∧
    (∀ x, b.pend = some x → t.set = { b.set with d := x.d, p := x.p, n := x.n } ∧ t.index = 0 ∧ t.pos = 0 ∧
      t.crest = x.p) ∧
    (b.corrLeft = 0 → t.crest = t.set.p) ∧
    (0 < b.corrLeft → b.pend = none → t.lossMark = false →
      (t.crest : Int) = max 0 ((b.set.p : Int) + b.corr) ∧ t.corrLeft + 1 = b.corrLeft ∧
      (1 < b.corrLeft → t.corr = b.corr) ∧ (b.corrLeft = 1 → t.corr = 0)) ∧
    t.lossMark = (b.lossMark || decide (b.set.lossLimit ≤ min 255 (b.lossCount + 1))) ∧
    (b.lossMark = false → t.lossMark = true → t.lock = .free ∧ t.corr = 0 ∧ t.corrLeft = 0) := by
  rw [Timebase.valley_eq] at ht
  obtain ⟨counter, up, pend, count, mark, limit, left0, plain, pending⟩ := b.nextSettings_facts
  generalize b.nextSettings = n at *
  obtain ⟨lossFrame, lossFree, lossKept, lossLeft⟩ := n.lossAtValley_fields
  generalize n.lossAtValley = l at *
  obtain ⟨openFrame, openPlain, openCorr⟩ := l.openPeriod_fields
  generalize l.openPeriod = o at *
  subst ht
  have set : t.set = n.set := by rw [openFrame, lossFrame]
  have index : t.index = n.index := by rw [openFrame, lossFrame]
  have pos : t.pos = n.pos := by rw [openFrame, lossFrame]
  have lossMark : t.lossMark = l.lossMark := by rw [openFrame]
  have lset : l.set = n.set := by rw [lossFrame]
  refine ⟨by rw [openFrame, lossFrame]; exact counter, by rw [openFrame, lossFrame]; exact up,
    by rw [openFrame, lossFrame]; exact pend, by rw [openFrame, lossFrame, count], fun h => ?_, fun x hx => ?_, fun h => ?_,
    fun h hn hm => ?_, by rw [lossMark, lossFrame, mark, count, limit], fun h hm => ?_⟩
  · obtain ⟨hset, -, -, goes, starts⟩ := plain h
    exact ⟨set.trans hset, fun h => ⟨index.trans (goes h).1, pos.trans (goes h).2⟩,
      fun h => ⟨index.trans (starts h).1, pos.trans (starts h).2⟩⟩
  · obtain ⟨hset, hindex, hpos, hleft⟩ := pending x hx
    refine ⟨set.trans hset, index.trans hindex, pos.trans hpos, ?_⟩
    rw [(openPlain (lossLeft hleft)).1, lset, hset]
  · rw [(openPlain (lossLeft (left0 h))).1, lset, set]
  · obtain ⟨hset, hcorr, hleft, -⟩ := plain hn
    obtain ⟨lcorr, lleft⟩ := lossKept (lossMark ▸ hm)
    have open' := openCorr (by omega)
    rw [lset, hset, lcorr, lleft, hcorr, hleft] at open'
    exact open'
  · obtain ⟨lock, corr, left⟩ := lossFree (mark.trans h) (lossMark ▸ hm)
    obtain ⟨-, hc, hl⟩ := openPlain left
    exact ⟨by rw [openFrame]; exact lock, hc.trans corr, hl⟩

/-! ### MASTER_VALLEY and MASTER_CREST -/

/-- The timebase that a master valley leaves: that of the valley, with the interleave taken (R79). -/
def State.valleyTb (s : State) : Timebase :=
  { s.tb.valley with shifted := PerChan.ofFn fun c => (s.record c).shifted }

theorem State.masterValley_eq (first : Bool) (u : State) : u.masterValley first =
    if first then ({ u with tb := u.valleyTb } : State).deliverLoss.channelValleys fun c => !(u.record c).shifted
    else (({ u with tb := u.valleyTb } : State).channelValleys fun c => !(u.record c).shifted).deliverLoss := by
  have aligned : (fun c => !((u.mapTb Timebase.valley).takeInterleave.tb.shifted.get c)) = fun c => !(u.record c).shifted :=
    funext fun c => congrArg not (PerChan.get_ofFn ..)
  unfold State.masterValley
  dsimp only
  rw [aligned]
  rfl

theorem State.deliverLoss_eq (v : State) : v.deliverLoss = if v.tb.lossMark then v.deliverDev .ringLoss true else v := rfl

theorem State.masterValley_tb (first : Bool) (u : State) : (u.masterValley first).tb = u.valleyTb := by
  rw [State.masterValley_eq]
  split
  · rw [State.channelValleys_tb, State.deliverLoss_tb]
  · rw [State.deliverLoss_tb, State.channelValleys_tb]

theorem deadTimes_deliverLoss (v : State) : DeadTimesKept v v.deliverLoss := by
  rw [State.deliverLoss_eq]
  split
  · exact deadTimes_deliverDev _ _ v
  · exact fun _ => rfl

theorem State.masterValley_strobes (first : Bool) (u : State) :
    StrobesOf (fun c => !(u.record c).shifted) u (u.masterValley first) := by
  rw [State.masterValley_eq]
  split
  · exact (State.channelValleys_strobes _ _).between (by simp) (by simp) (by simp)
      (fun c => deadTimes_deliverLoss { u with tb := u.valleyTb } c) rfl rfl fun _ => rfl
  · exact (State.channelValleys_strobes _ { u with tb := u.valleyTb }).between rfl rfl rfl (fun _ => rfl) (by simp) (by simp)
      (deadTimes_deliverLoss _)

theorem State.masterValley_up (first : Bool) (u : State) : (u.masterValley first).tb.up = true := by
  rw [State.masterValley_tb]
  exact (Timebase.valley_facts u.tb _ rfl).2.1

theorem State.masterCrest_tb (u : State) : u.masterCrest.tb = { u.tb with counter := u.tb.crest, up := false } := by
  rw [State.masterCrest, State.channelValleys_tb]
  rfl

/-- Settles O40, by the timebase at a valley and the strobes of the channels whose valleys a turning point is. -/
theorem turningPointsStrobeChannels : Obligations.TurningPointsStrobeChannels := by
  unfold Obligations.TurningPointsStrobeChannels
  refine ⟨fun first s hu => ?_, fun s hu => ?_, fun first s hu => ?_, fun s hu => ?_⟩
  · intro u
    have event : exec (.masterValley first) s = .next (u.masterValley first) := if_neg (by rw [hu]; decide)
    have tb := u.masterValley_tb first
    have strobes := u.masterValley_strobes first
    have eq := u.masterValley_eq first
    have ring : (u.masterValley first).ring = u.ring := by simp
    have store : (u.masterValley first).store = u.store := by simp
    have loop : (u.masterValley first).loop = u.loop := by simp
    have refs : (u.masterValley first).refs = u.refs := by simp
    obtain ⟨counter, up, pend, count, plain, pending, crest, corr, mark, free⟩ := Timebase.valley_facts u.tb _ rfl
    generalize u.masterValley first = t at *
    refine ⟨t, event, ?_⟩
    rw [tb]
    refine ⟨counter, up, pend, count, plain, pending, crest, corr, fun c => ?_, ring, store, loop, refs, mark, free,
      fun h => ?_, fun h => ?_⟩
    · obtain ⟨own, other⟩ := strobes c
      refine ⟨fun h => own (by simp [h]), fun h => ?_⟩
      obtain ⟨lane, dead, latched, kept⟩ := other (by simp [h])
      exact ⟨lane, dead, fun k p hk hp => latched k p hk (by simp [hp]), fun hn => kept fun k p hk => by simp [hn k p hk]⟩
    · have quiet (w : State) (hw : w.tb = u.valleyTb) : w.deliverLoss = w := by
        rw [State.deliverLoss_eq, hw, h]
        rfl
      rw [eq, quiet _ rfl, quiet _ (State.channelValleys_tb ..), ite_self]
    · have loud (w : State) (hw : w.tb = u.valleyTb) : w.deliverLoss = w.deliverDev .ringLoss true := by
        rw [State.deliverLoss_eq, hw, h]
        rfl
      rw [eq, loud _ rfl, loud _ (State.channelValleys_tb ..)]
  · intro u
    have event : exec .masterCrest s = .next u.masterCrest := if_pos hu
    have tb := u.masterCrest_tb
    have strobes : StrobesOf u.tb.shifted.get u u.masterCrest :=
      (State.channelValleys_strobes u.tb.shifted.get (u.mapTb Timebase.atCrest)).between rfl rfl rfl (fun _ => rfl) rfl rfl
        fun _ => rfl
    refine ⟨u.masterCrest, event, ?_, tb, fun c => strobes c, by simp, by simp, by simp, by simp⟩
    rw [tb]
    rfl
  · have down : ¬s.toTurn.masterCrest.tb.up = true := by rw [State.masterCrest_tb]; exact Bool.false_ne_true
    exact ⟨_, _, if_pos hu, if_pos hu, if_neg down⟩
  · have down : ¬s.tb.up = true := by rw [hu]; decide
    exact ⟨_, _, _, if_neg down, if_neg down, if_pos (State.masterValley_up ..)⟩

end Sys2Proof.Machine
end

