-- ==== Sys2Proof/Proofs/RunStarts.lean ====
section
/-! Run starts (R1, R2, R37, R65, R68): one start by what it finds, and the starts made at once. -/

namespace Sys2Proof.Machine

variable {s t : State} {c d : Chan} {e : Entry} {rest : List Entry}

/-! ### One start -/

theorem Nat.repeat_first {α : Type} (f : α → α) (n : Nat) (x : α) : Nat.repeat f (n + 1) x = Nat.repeat f n (f x) := by
  induction n with
  | zero => rfl
  | succ n ih => exact congrArg f ih

/-- An entry of a channel not in use ends at its start (R2). -/
theorem State.startRun_unused (hr : s.engine.running = none) (hq : s.engine.queue = e :: rest)
    (hu : (s.record e.chan).inUse = false) : s.startRun = { s with engine := { queue := rest, running := none } } := by
  unfold State.startRun
  rw [hr, hq]
  simp [hu]

/-- The state a start leaves besides the engine: the mailbox taken, where the run makes a take (R37). -/
def State.taken (s : State) (e : Entry) : State := if s.takes e then s.take e.chan else s

/-- An entry of a channel in use executes (R1, R65). -/
theorem State.startRun_used (hr : s.engine.running = none) (hq : s.engine.queue = e :: rest)
    (hu : (s.record e.chan).inUse = true) : s.startRun =
      { s.taken e with engine := { queue := rest, running := some (s.runOf (s.taken e) e) }, free := s.free + 1 } := by
  unfold State.startRun
  rw [hr, hq]
  simp only [hu, if_true]
  rfl

theorem State.takes_iff : s.takes e = true ↔
    ((s.st e.chan = .run ∨ s.st e.chan = .hold) ∧ (e.strobe.st = .run ∨ e.strobe.st = .hold)) ∧
      (s.role e.chan).isFollower = false ∧ (s.refs.get e.chan).mailbox ≠ none := by
  simp only [State.takes, isControl, Bool.and_eq_true, ChanState.closing_iff, Bool.not_eq_true', Option.isSome_iff_ne_none,
    and_assoc]

/-- What a take leaves of the part: the mailbox emptied and the supervisors of the unit told (R37, R131). -/
theorem State.take_frame (c : Chan) (s : State) :
    s.take c = { s with sup := (s.take c).sup, refs := s.refs.set c { s.refs.get c with mailbox := none } } := by
  rw [← PerChan.modify_eq_set s.refs c fun f => { f with mailbox := none }]
  rfl

theorem State.take_sup_get (c d : Chan) (s : State) :
    (s.take c).sup.get d = if s.inUnit c d then (s.sup.get d).takeReported else s.sup.get d := by
  simp only [State.take, State.unitSup_get]
  rfl

/-- A take reported: STALE removed, and HOLD left where no cause stays (R131, R133). -/
theorem Supervisor.takeReported_fields (u : Supervisor) :
    u.takeReported.causes = { u.causes with stale := false } ∧
      u.takeReported.st = if u.st = .hold ∧ u.causes.ring = false ∧ u.causes.routed = false then .run else u.st := by
  refine ⟨rfl, ?_⟩
  unfold Supervisor.takeReported Causes.isEmpty
  simp

/-! ### The starts made at once -/

theorem State.startWaiting_step (h : s.engine.queue = e :: rest) :
    s.startWaiting = Nat.repeat State.startRun rest.length s.startRun := by
  unfold State.startWaiting
  rw [h, List.length_cons, Nat.repeat_first]

theorem State.startWaiting_unused (hr : s.engine.running = none) (hq : s.engine.queue = e :: rest)
    (hu : (s.record e.chan).inUse = false) :
    s.startWaiting = ({ s with engine := { queue := rest, running := none } } : State).startWaiting := by
  rw [State.startWaiting_step hq, State.startRun_unused hr hq hu]
  rfl

/-- A run that executes ends the starts made at once (R68). -/
theorem State.startWaiting_used (hr : s.engine.running = none) (hq : s.engine.queue = e :: rest)
    (hu : (s.record e.chan).inUse = true) : s.startWaiting = s.startRun := by
  have busy : s.startRun.engineSettled := by
    rw [State.startRun_used hr hq hu]
    exact .inl rfl
  rw [State.startWaiting_step hq]
  exact repeat_invariant (q := fun x => x = s.startRun) (fun x hx => hx ▸ s.startRun.startRun_settled busy) _ rfl

/-- Settles O46, by the entry at the head of the queue. -/
theorem runStartPinsAndTakes : Obligations.RunStartPinsAndTakes := by
  unfold Obligations.RunStartPinsAndTakes
  refine ⟨fun s h => ?_, fun s e rest hr hq hu => ?_, fun s e rest hr hq hu => ?_⟩
  · refine congrArg Host.Outcome.next (State.startWaiting_eq s (h.imp (fun h => ?_) id))
    exact Option.isSome_iff_ne_none.mpr h
  · have start : exec .runStart s = exec .runStart { s with engine := { queue := rest, running := none } } :=
      congrArg Host.Outcome.next (State.startWaiting_unused hr hq hu)
    refine ⟨fun hn => ?_, start⟩
    subst hn
    exact start
  · intro c control takes
    have takes_iff : s.takes e = true ↔ takes := State.takes_iff
    have event : exec .runStart s = .next { s.taken e with
        engine := { queue := rest, running := some (s.runOf (s.taken e) e) }, free := s.free + 1 } :=
      congrArg Host.Outcome.next ((State.startWaiting_used hr hq hu).trans (State.startRun_used hr hq hu))
    refine ⟨_, s.runOf (s.taken e) e, event, ?_, rfl, rfl, rfl, rfl, ?_, rfl, rfl, rfl, rfl, rfl, rfl, rfl, rfl,
      fun k hk => ?_, ?_, rfl, rfl, rfl, rfl, fun h => ?_, fun h => ?_⟩
    · have frame : s.taken e = { s with sup := (s.taken e).sup, refs := (s.taken e).refs } := by
        unfold State.taken
        split
        · rw [State.take_frame]
        · rfl
      generalize s.taken e = u at frame
      rw [frame]
    · show isControl (s.st c) e.strobe.st = true ↔ _
      simp only [isControl, Bool.and_eq_true, ChanState.closing_iff, control]
    · show s.pairOf c = _
      unfold State.pairOf
      rw [hk]
    · exact decide_eq_true_iff
    · have same : s.taken e = s := if_neg (mt takes_iff.mp h)
      refine ⟨(congrArg State.sup same).trans rfl, (congrArg State.refs same).trans rfl, if_neg ?_⟩
      simp only [Bool.and_eq_true, not_and]
      exact fun ht => absurd (takes_iff.mp ht) h
    · have taken : s.taken e = s.take c := if_pos (takes_iff.mpr h)
      have taken_eq : (s.runOf (s.taken e) e).taken =
          if s.takes e && decide ((s.taken e).st c = .run) then (s.refs.get c).mailbox else none := rfl
      refine ⟨?_, fun (hr : (s.taken e).st c = .run) => ?_,
        fun (hr : (s.taken e).st c ≠ .run) => ?_, fun d => ⟨fun hd => ?_, fun hd hp => ?_⟩⟩
      · show (s.taken e).refs = _
        rw [taken, State.take_frame]
      · rw [taken_eq, takes_iff.mpr h, decide_eq_true hr]
        rfl
      · rw [taken_eq, decide_eq_false hr, Bool.and_false]
        rfl
      · show ((s.taken e).sup.get d).causes = _ ∧ ((s.taken e).sup.get d).st = _
        rw [taken, State.take_sup_get, if_pos ((s.inUnit_iff c d).mpr hd)]
        exact Supervisor.takeReported_fields _
      · show (s.taken e).sup.get d = _
        rw [taken, State.take_sup_get, if_neg (Bool.eq_false_iff.mp (s.inUnit_eq_false hd hp))]

end Sys2Proof.Machine
end

