-- ==== Sys2Proof/Proofs/Completions.lean ====
section
/-! The completion of a run (R30 to R33, R58, R89): its results, its events, and the start it brings. -/

namespace Sys2Proof.Machine

variable {s : State} {x : Run} {c : Chan}

/-- The control result of a run with the integrators and the VOLT_SAT count of its start. -/
def Run.result (x : Run) : ControlResult := x.controlResult x.front x.accD x.accQ x.vsat

/-- Neither a RESTART nor an ENABLE has come while the run executed (R58). -/
def Run.whole (x : Run) : Prop := x.restarted = false ∧ x.chargeEntered = false

theorem Run.writes_iff (x : Run) : x.writes = true ↔ x.whole := by
  simp [Run.writes, Run.whole]

/-- A monitor run has no control result (R3). -/
theorem State.controlOf_monitor (s : State) (h : x.control = false) : s.controlOf x = none := by
  simp [State.controlOf, h]

/-- A control run has its control result, with the integrators of its start where nothing has cleared them (R19, log 13). -/
theorem State.controlOf_control (s : State) (h : x.control = true) : ∃ k, s.controlOf x = some k ∧
    k.five = x.result.five ∧ (x.whole → k = x.result) := by
  refine ⟨_, if_pos h, rfl, fun ⟨hr, hc⟩ => ?_⟩
  have early : x.early = true := by simp [Run.early, Run.cleared, hr, hc]
  simp only [early, cond_true]
  rfl

/-- A row whose one entry is replaced by itself. -/
theorem PerChan.modify_of_eq {α : Type} {v : PerChan α} {f : α → α} (h : f (v.get c) = v.get c) : v.modify c f = v :=
  PerChan.ext_get fun d => by
    by_cases e : d = c
    · subst e; simp [h]
    · simp [e]

/-- What the results of a run leave of the loop state, by the kind of run (R5, R15, R33, R58). -/
theorem Run.loopAfter_fields (x : Run) (f : Front) (k : Option ControlResult) (l : LoopChan) :
    (x.loopAfter f k l).last = x.record f k ∧ (x.loopAfter f k l).history = x.historyAfter f l.history ∧
    (k = none ∨ ¬x.whole → (x.loopAfter f k l).accD = l.accD ∧ (x.loopAfter f k l).accQ = l.accQ ∧
      (x.loopAfter f k l).vsat = l.vsat) ∧
    (∀ y, k = some y → x.whole → (x.loopAfter f k l).accD = y.accD ∧ (x.loopAfter f k l).accQ = y.accQ ∧
      (x.loopAfter f k l).vsat = y.vsat) := by
  unfold Run.loopAfter
  cases k with
  | none => exact ⟨rfl, rfl, fun _ => ⟨rfl, rfl, rfl⟩, fun _ h => nomatch h⟩
  | some k =>
    dsimp only
    by_cases hw : x.writes = true
    · have whole := x.writes_iff.mp hw
      rw [if_pos hw]
      exact ⟨rfl, rfl, fun h => absurd whole (h.resolve_left (by simp)), fun y hy _ => by cases hy; exact ⟨rfl, rfl, rfl⟩⟩
    · rw [if_neg hw]
      exact ⟨rfl, rfl, fun _ => ⟨rfl, rfl, rfl⟩, fun _ _ h => absurd (x.writes_iff.mpr h) hw⟩

theorem Run.refAfter_mailbox (x : Run) (k : Option ControlResult) (r : Reference) : (x.refAfter k r).mailbox = r.mailbox := by
  unfold Run.refAfter
  split
  · split
    · split <;> rfl
    · rfl
  · rfl

/-- A monitor run, and one that was cut off, writes no reference and no pair runtime (R33, R58). -/
theorem Run.refAfter_kept {k : Option ControlResult} (h : k = none ∨ ¬x.whole) (r : Reference) : x.refAfter k r = r := by
  unfold Run.refAfter
  obtain rfl | h := h
  · rfl
  · have writes : x.writes = false := Bool.eq_false_iff.mpr (mt x.writes_iff.mp h)
    simp only [writes, Bool.false_eq_true, if_false]
    split
    · split <;> rfl
    · rfl

theorem Run.pairsAfter_kept {k : Option ControlResult} (h : k = none ∨ ¬x.whole) (v : Vector PairRuntime 4) :
    x.pairsAfter k v = v := by
  unfold Run.pairsAfter
  obtain rfl | h := h
  · rfl
  · have writes : x.writes = false := Bool.eq_false_iff.mpr (mt x.writes_iff.mp h)
    simp only [writes, Bool.false_eq_true, if_false]
    split
    · split <;> rfl
    · rfl

theorem Run.refAfter_written {k : ControlResult} (h : x.whole) (r : Reference) :
    (x.refAfter (some k) r).ref = k.five.ref.getD r.ref := by
  unfold Run.refAfter
  simp only [x.writes_iff.mpr h, if_true]
  cases k.five.ref <;> rfl

theorem Run.pairsAfter_written {k : ControlResult} (h : x.whole) (v : Vector PairRuntime 4) :
    (k.five.pair = none → x.pairsAfter (some k) v = v) ∧
      ∀ slot y, k.five.pair = some (slot, y) → x.pairsAfter (some k) v = v.set slot.val y slot.isLt := by
  unfold Run.pairsAfter
  simp only [x.writes_iff.mpr h, if_true]
  exact ⟨fun hn => by rw [hn], fun slot y hs => by rw [hs]⟩

theorem Run.modAfter_kept {st : ChanState} {k : Option ControlResult}
    (h : k = none ∨ x.restarted = true ∨ x.entry.late = true ∨ st.closing = false) (m : Modulator) :
    x.modAfter st k m = m := by
  unfold Run.modAfter
  split
  · refine if_neg ?_
    obtain h | h | h | h := h
    · cases h
    all_goals simp [h]
  · rfl

theorem Run.modAfter_fresh {st : ChanState} {k : ControlResult} (hr : x.restarted = false) (hl : x.entry.late = false)
    (hs : st.closing = true) (m : Modulator) : x.modAfter st (some k) m = { m with pending := some k.compares } := by
  simp [Run.modAfter, hr, hl, hs]

theorem State.exec_runCompletion (h : s.engine.running = some x) :
    exec .runCompletion s = .next (s.completeRun x).startWaiting := by
  show (match s.engine.running with | some x => _ | none => _) = _
  rw [h]

theorem State.writeRun_other {d : Chan} (f : Front) (k : Option ControlResult) (hd : d ≠ x.entry.chan) :
    (s.writeRun x f k).loop.get d = s.loop.get d ∧ (s.writeRun x f k).refs.get d = s.refs.get d ∧
      (s.writeRun x f k).mods.get d = s.mods.get d := by
  simp [State.writeRun, hd]

theorem State.writeRun_own (f : Front) (k : Option ControlResult) :
    (s.writeRun x f k).loop.get x.entry.chan = x.loopAfter f k (s.loop.get x.entry.chan) ∧
    (s.writeRun x f k).refs.get x.entry.chan = x.refAfter k (s.refs.get x.entry.chan) ∧
    (s.writeRun x f k).mods.get x.entry.chan = x.modAfter (s.st x.entry.chan) k (s.mods.get x.entry.chan) := by
  simp [State.writeRun]

/-- A completion ends with the engine free and the queue as it was. -/
theorem State.completeRun_engine (x : Run) (s : State) :
    (s.completeRun x).engine = { queue := s.engine.queue, running := none } := by
  unfold State.completeRun State.deliverRun
  dsimp only
  split <;> simp [State.writeRun]

/-- The events of a run, those of stages 5 to 8 found by a control run alone (R31). -/
theorem State.deliverRun_eq (x : Run) (f : Front) (k : ControlResult) (w : State) :
    let c := x.entry.chan
    let z := f.cond
    w.deliverRun x f (if x.control then some k else none) =
      (((((((w.raiseChanIf z.disagree .sampleDisagree c).raiseChanIf z.overcurrent .overcurrent c
        ).deliverChan .undervolt c z.undervolt).deliverChan .overvolt c z.overvolt
        ).deliverChan .overtemp c z.overtemp).raiseChanIf (x.control && k.five.refs.limited) .currentLimit c
        ).deliverChan .pairSkew c (x.control && k.five.skew)).raiseChanIf (x.control && k.voltSat && !x.voltSatDone)
        .voltSat c := by
  unfold State.deliverRun Run.voltSatDue
  cases x.control <;> rfl

/-- Settles O47, by the control result of a run that nothing cut off and the delivery of its events. -/
theorem runCompletionWritesResults : Obligations.RunCompletionWritesResults := by
  unfold Obligations.RunCompletionWritesResults
  refine ⟨fun s h => ?_, fun s x hx => ?_⟩
  · show (match s.engine.running with | some x => _ | none => _) = _
    rw [h]
  · intro c f z k whole
    have engine := State.completeRun_engine x s
    have completed : s.completeRun x = if x.restarted then s.writeRun x f (s.controlOf x)
      else (s.writeRun x f (s.controlOf x)).deliverRun x f (s.controlOf x) := rfl
    have monitor := s.controlOf_monitor (x := x)
    have control := s.controlOf_control (x := x)
    generalize s.controlOf x = y at completed monitor control
    have absent : x.control = false ∨ ¬x.whole → y = none ∨ ¬x.whole := Or.imp_left monitor
    obtain ⟨loop, refs, mods⟩ := State.writeRun_own (s := s) (x := x) f y
    obtain ⟨last, history, kept, written⟩ := x.loopAfter_fields f y (s.loop.get c)
    refine ⟨_, s.writeRun x f y, s.completeRun x, State.exec_runCompletion hx, rfl, fun hq => ?_, rfl,
      fun d hd => State.writeRun_other f y hd, ?_, ?_, ?_, fun h => ?_, fun hc hw => ?_, fun h => ?_, fun hc hw hl hs => ?_,
      fun hr => ?_, fun hr hc => ?_⟩
    · exact (State.startWaiting_eq _ (.inr (by rw [engine]; exact hq)))
    · have record : ((s.writeRun x f y).loop.get c).last = x.record f y := (congrArg LoopChan.last loop).trans last
      rw [record]
      refine ⟨rfl, rfl, rfl, rfl, rfl, fun h => ?_, fun h => ?_, fun h hw => ?_⟩
      · rw [monitor h]
        exact ⟨rfl, rfl⟩
      · obtain ⟨k', rfl, five, -⟩ := control h
        exact congrArg (fun v : StageFive => v.refs.limited) five
      · obtain ⟨k', rfl, -, same⟩ := control h
        exact congrArg ControlResult.limited (same hw)
    · rw [loop, history]; rfl
    · rw [refs, Run.refAfter_mailbox]
    · obtain ⟨accD, accQ, vsat⟩ := kept (absent h)
      refine ⟨by rw [loop, accD], by rw [loop, accQ], by rw [loop, vsat], Run.pairsAfter_kept (absent h) _, ?_⟩
      exact PerChan.modify_of_eq (Run.refAfter_kept (absent h) _)
    · obtain ⟨k', rfl, -, same⟩ := control hc
      obtain rfl := same hw
      obtain ⟨accD, accQ, vsat⟩ := written _ rfl hw
      obtain ⟨noPair, pair⟩ := Run.pairsAfter_written (k := x.result) hw s.pairs
      exact ⟨by rw [loop, accD]; rfl, by rw [loop, accQ]; rfl, by rw [loop, vsat]; rfl,
        by rw [refs, Run.refAfter_written hw]; rfl, noPair, pair⟩
    · refine PerChan.modify_of_eq (Run.modAfter_kept (h.imp monitor (Or.imp_right (Or.imp_right fun h => ?_))) _)
      exact State.not_closing h.1 h.2
    · obtain ⟨k', rfl, -, same⟩ := control hc
      obtain rfl := same hw
      rw [mods, Run.modAfter_fresh hw.1 hl ((ChanState.closing_iff _).mpr hs)]
      rfl
    · rw [completed, if_pos hr]
    · have same : y = if x.control then some k else none := by
        cases h : x.control with
        | false => rw [monitor h]; rfl
        | true =>
          obtain ⟨k', rfl, -, same⟩ := control h
          rw [same ⟨hr, hc.resolve_left (by rw [h]; decide)⟩]
          rfl
      rw [completed, if_neg (by rw [hr]; decide)]
      generalize s.writeRun x f y = w
      rw [same]
      exact State.deliverRun_eq x f k w

end Sys2Proof.Machine
end

