-- ==== Sys2Proof/Proofs/RunEvents.lean ====
section
/-! OVERCURRENT and VOLT_SAT of a run (R11, R25), and that a trip record outlasts what follows it in the same event (R152). -/

namespace Sys2Proof.Machine

variable {s t : State} {x : Run} {c : Chan} {r : TripRecord}

/-! ### A trip that stands -/

/-- Channel `c` stands in TRIP with its gates off, on a record with the cause, via, cycle, state before and snapshot of `r`. -/
def State.Stands (t : State) (c : Chan) (r : TripRecord) : Prop :=
  t.st c = .trip ∧ (t.mods.get c).dark ∧ (t.mods.get c).drive = false ∧ ∃ u, t.router.trips.get c = some u ∧
    u.cause = r.cause ∧ u.via = r.via ∧ u.cycle = r.cycle ∧ u.before = r.before ∧ u.snapshot = r.snapshot

theorem State.trippedTo.stands {code : Nat} {v : Via} (h : s.trippedTo t c code v) :
    t.Stands c ⟨code, v, s.ring.lastCycle, s.st c, (s.loop.get c).last.snapshot, [], 0⟩ := by
  obtain ⟨sup, dark, drive, -, trips⟩ := h
  exact ⟨congrArg Supervisor.st sup, dark, drive, _, trips, rfl, rfl, rfl, rfl, rfl⟩

theorem TripRecord.addSecondary_frame (x : TripRecord) (code : Nat) (w : Word) : x.addSecondary code w =
    { x with secondary := (x.addSecondary code w).secondary, overflow := (x.addSecondary code w).overflow } := by
  unfold TripRecord.addSecondary
  split <;> rfl

/-- A raise at most adds a secondary cause to a trip that stands (R152). -/
theorem State.Stands.raiseChan (h : s.Stands c r) (k : ChanKind) (d : Chan) : (s.raiseChan k d).Stands c r := by
  obtain ⟨st, dark, drive, u, hu, facts⟩ := h
  have acted := s.raiseChan_acted k d
  cases hv : s.tripReach ((s.bank.route k.code).chanTrip k d) c with
  | none =>
    obtain ⟨mods, trips, sup⟩ := acted.unreached hv
    have same := sup.trans (Supervisor.addCauses_of_not_closing (by rw [show (s.sup.get c).st = .trip from st]; rfl) _)
    exact ⟨(congrArg Supervisor.st same).trans st, mods ▸ dark, mods ▸ drive, u, trips.trans hu, facts⟩
  | some v =>
    obtain ⟨sup, mods, trips⟩ := acted.counted (by rw [hv]; rfl) st
    rw [hu] at trips
    refine ⟨(congrArg Supervisor.st sup).trans st, mods ▸ dark, mods ▸ drive, _, trips, ?_⟩
    dsimp only
    rw [TripRecord.addSecondary_frame]
    exact facts

theorem State.Stands.raiseChanIf (h : s.Stands c r) (b : Bool) (k : ChanKind) (d : Chan) :
    (s.raiseChanIf b k d).Stands c r := by
  unfold State.raiseChanIf
  split
  · exact h.raiseChan k d
  · exact h

theorem State.Stands.deliverChan (h : s.Stands c r) (l : ChanLevel) (d : Chan) (b : Bool) :
    (s.deliverChan l d b).Stands c r := by
  have kept : (s.keepChan l d b).Stands c r := h
  unfold State.deliverChan
  dsimp only
  split
  · exact kept.raiseChan _ d
  · exact kept

theorem Supervisor.takeReported_trip {u : Supervisor} (h : u.st = .trip) : u.takeReported.st = .trip := by
  rw [u.takeReported_fields.2, if_neg (by rw [h]; rintro ⟨⟨⟩, -⟩), h]

theorem State.Stands.startRun (h : s.Stands c r) : s.startRun.Stands c r := by
  obtain ⟨st, dark, drive, u, hu, facts⟩ := h
  have taken (e : Entry) : (s.taken e).st c = .trip := by
    unfold State.taken
    split
    · show ((s.take e.chan).sup.get c).st = _
      rw [State.take_sup_get]
      split
      · exact Supervisor.takeReported_trip st
      · exact st
    · exact st
  refine ⟨?_, by rwa [State.startRun_mods], by rwa [State.startRun_mods], u, by rwa [State.startRun_router], facts⟩
  by_cases hs : s.engineSettled
  · rwa [s.startRun_settled hs]
  · obtain ⟨hr, hq⟩ := not_or.mp hs
    obtain ⟨e, rest, hq⟩ := List.exists_cons_of_ne_nil hq
    have idle : s.engine.running = none := by simpa using hr
    cases hu : (s.record e.chan).inUse with
    | false => rw [State.startRun_unused idle hq hu]; exact st
    | true => rw [State.startRun_used idle hq hu]; exact taken e

theorem State.Stands.startWaiting (h : s.Stands c r) : s.startWaiting.Stands c r :=
  State.startWaiting_keeps (q := fun t => t.Stands c r) (fun _ h => h.startRun) h

/-! ### Flags that stay set -/

theorem State.raiseChan_isSet {k j : ChanKind} {d : Chan} (h : (s.chanFlag c j).isSet = true) :
    ((s.raiseChan k d).chanFlag c j).isSet = true := by
  rw [State.raiseChan_chanFlag]
  split
  · rfl
  · exact h

theorem State.raiseChanIf_isSet {b : Bool} {k j : ChanKind} {d : Chan} (h : (s.chanFlag c j).isSet = true) :
    ((s.raiseChanIf b k d).chanFlag c j).isSet = true := by
  unfold State.raiseChanIf
  split
  · exact State.raiseChan_isSet h
  · exact h

theorem State.deliverChan_isSet {l : ChanLevel} {b : Bool} {j : ChanKind} {d : Chan} (h : (s.chanFlag c j).isSet = true) :
    ((s.deliverChan l d b).chanFlag c j).isSet = true := by
  have kept : ((s.keepChan l d b).chanFlag c j).isSet = true := h
  unfold State.deliverChan
  dsimp only
  split
  · exact State.raiseChan_isSet kept
  · exact kept

/-- A condition delivered leaves the flags of every other kind. -/
theorem State.deliverChan_chanFlag_of_ne {l : ChanLevel} {b : Bool} {j : ChanKind} {d e : Chan} (h : j ≠ l.kind) :
    (s.deliverChan l d b).chanFlag e j = s.chanFlag e j := by
  unfold State.deliverChan
  dsimp only
  split
  · exact State.raiseChan_chanFlag_of_ne fun he => h (Prod.ext_iff.mp he).2
  · rfl

theorem State.raiseChanIf_chanFlag_of_ne {b : Bool} {k j : ChanKind} {d e : Chan} (h : j ≠ k) :
    (s.raiseChanIf b k d).chanFlag e j = s.chanFlag e j := by
  unfold State.raiseChanIf
  split
  · exact State.raiseChan_chanFlag_of_ne fun he => h (Prod.ext_iff.mp he).2
  · rfl

/-- A raise of a kind that is not trip-class takes no channel into TRIP. -/
theorem State.raiseChan_not_trip {k : ChanKind} {d : Chan} (hk : s.bank.chanTripClass k = false) (h : s.st c ≠ .trip) :
    (s.raiseChan k d).st c ≠ .trip := by
  obtain ⟨-, -, sup⟩ := (s.raiseChan_acted k d).unreached (State.tripReach_none s (Route.chanTrip_none hk d) c)
  exact fun e => h ((Supervisor.addCauses_trip_iff _ _).mp ((congrArg Supervisor.st sup).symm.trans e))

theorem State.raiseChanIf_not_trip {b : Bool} {k : ChanKind} {d : Chan} (hk : s.bank.chanTripClass k = false)
    (h : s.st c ≠ .trip) : (s.raiseChanIf b k d).st c ≠ .trip := by
  unfold State.raiseChanIf
  split
  · exact State.raiseChan_not_trip hk h
  · exact h

theorem Run.front_overcurrent (x : Run) : x.front.cond.overcurrent = true ↔
    x.front.cond.iA.natAbs > (x.bank.record x.entry.chan).iTrip ∨ x.front.cond.iB.natAbs > (x.bank.record x.entry.chan).iTrip ∨
      x.front.cond.iC.natAbs > (x.bank.record x.entry.chan).iTrip := by
  show (_ || _ || _) = true ↔ _
  simp only [Bool.or_eq_true, decide_eq_true_eq, or_assoc]
  rfl

/-- A kind with a fixed trip takes its own channel, in use and not in TRIP, into TRIP via SELF (R142, R146). -/
theorem State.raiseChan_fixedTrip {k : ChanKind} (hk : k.fixedTrip = true) (ht : s.st c ≠ .trip)
    (hu : (s.record c).inUse = true) : s.trippedTo (s.raiseChan k c) c k.code .self :=
  (s.raiseChan_acted k c).tripped (State.tripReach_named (Route.chanTrip_self (by simp [hk]))) (State.tripTakes_iff.mpr ⟨ht, hu⟩)

/-- The snapshot that a trip takes from the results of a run (R151). -/
theorem State.writeRun_snapshot (f : Front) (k : Option ControlResult) (s : State) :
    ((s.writeRun x f k).loop.get x.entry.chan).last.snapshot =
      { iA := f.cond.iA, iB := f.cond.iB, id := f.id, iq := f.iq, theta := f.theta, dc := f.cond.dc, temp := f.cond.temp } := by
  rw [(State.writeRun_own f k).1, (x.loopAfter_fields f k _).1]
  rfl

/-- A run that finds OVERCURRENT has its channel in TRIP at its completion (R11, R31, R151). -/
theorem State.deliverRun_overcurrent (f : Front) (k : Option ControlResult) (w : State) (hf : f.cond.overcurrent = true)
    (ht : w.st x.entry.chan ≠ .trip) (hu : (w.record x.entry.chan).inUse = true)
    (hd : w.bank.chanTripClass .sampleDisagree = false) : ∃ b,
      (w.deliverRun x f k).Stands x.entry.chan
        ⟨1, .self, w.ring.lastCycle, b, (w.loop.get x.entry.chan).last.snapshot, [], 0⟩ ∧
      ((w.deliverRun x f k).chanFlag x.entry.chan .overcurrent).isSet = true := by
  have st := State.raiseChanIf_not_trip (b := f.cond.disagree) (d := x.entry.chan) hd ht
  have ring := w.raiseChanIf_ring f.cond.disagree .sampleDisagree x.entry.chan
  have loop := w.raiseChanIf_loop f.cond.disagree .sampleDisagree x.entry.chan
  have store := w.raiseChanIf_store f.cond.disagree .sampleDisagree x.entry.chan
  unfold State.deliverRun
  dsimp only
  rw [hf]
  generalize w.raiseChanIf f.cond.disagree .sampleDisagree x.entry.chan = w1 at *
  have tripped := State.raiseChan_fixedTrip (k := .overcurrent) rfl st (by rw [State.record_congr store]; exact hu)
  have stands := tripped.stands
  have set : ((w1.raiseChan .overcurrent x.entry.chan).chanFlag x.entry.chan .overcurrent).isSet = true := by
    rw [State.raiseChan_chanFlag_self]
  have raised : w1.raiseChanIf true .overcurrent x.entry.chan = w1.raiseChan .overcurrent x.entry.chan := if_pos rfl
  rw [ring, loop] at stands
  rw [raised]
  generalize w1.raiseChan .overcurrent x.entry.chan = w2 at stands set
  exact ⟨w1.st x.entry.chan, ((((((State.Stands.deliverChan stands _ _ _).deliverChan _ _ _).deliverChan _ _ _).raiseChanIf _ _ _).deliverChan
    _ _ _).raiseChanIf _ _ _), State.raiseChanIf_isSet (State.deliverChan_isSet (State.raiseChanIf_isSet
      (State.deliverChan_isSet (State.deliverChan_isSet (State.deliverChan_isSet set)))))⟩

/-- No event of a completion but VOLT_SAT itself touches the flag of VOLT_SAT (R31). -/
theorem State.deliverRun_voltSat_done (f : Front) (k : Option ControlResult) (w : State) (h : x.voltSatDone = true)
    (c : Chan) : (w.deliverRun x f k).chanFlag c .voltSat = w.chanFlag c .voltSat := by
  have due : x.voltSatDue k = false := by
    unfold Run.voltSatDue
    cases k <;> simp [h]
  unfold State.deliverRun
  dsimp only
  rw [due]
  show State.chanFlag (State.deliverChan ..) c .voltSat = _
  rw [State.deliverChan_chanFlag_of_ne (by decide), State.raiseChanIf_chanFlag_of_ne (by decide),
    State.deliverChan_chanFlag_of_ne (by decide), State.deliverChan_chanFlag_of_ne (by decide),
    State.deliverChan_chanFlag_of_ne (by decide), State.raiseChanIf_chanFlag_of_ne (by decide),
    State.raiseChanIf_chanFlag_of_ne (by decide)]

theorem State.voltSatRun_some {k : ControlResult} (hx : s.engine.running = some x) (hk : s.controlOf x = some k)
    (hr : x.restarted = false) (hd : x.voltSatDue (some k) = true) : s.voltSatRun x.entry.chan = some (x, k) := by
  unfold State.voltSatRun
  rw [hx]
  dsimp only
  rw [hk]
  exact if_pos ⟨rfl, hr, hd⟩

/-- A raise that neither trips nor holds leaves every supervisor. -/
theorem State.raiseChan_sup_kept {k : ChanKind} {d : Chan} (hk : s.bank.chanTripClass k = false) (hf : k ≠ .setpointStale)
    (hs : (s.bank.route k.code).holdSelf = false) (ha : (s.bank.route k.code).holdAll = false) :
    (s.raiseChan k d).sup = s.sup := by
  refine PerChan.ext_get fun e => ?_
  obtain ⟨-, -, sup⟩ := (s.raiseChan_acted k d).unreached (State.tripReach_none s (Route.chanTrip_none hk d) e)
  have holds (e : Chan) : ((s.bank.route k.code).chanHold k d e).isEmpty = true :=
    (Route.chanHold_isEmpty_iff _ _).mpr (by simp [hf, hs, ha])
  exact sup.trans (Supervisor.addCauses_empty _ (State.holdReach_isEmpty_iff.mpr ⟨holds e, fun p _ => holds p⟩))

/-- The completion of a run whose VOLT_SAT has been delivered: it raises no other, and writes the count (R25, R33). -/
theorem State.completion_voltSat_done (hx : s.engine.running = some x) (hc : x.control = true) (hw : x.whole)
    (hd : x.voltSatDone = true) : ∃ u, exec .runCompletion s = .next u ∧
      u.chanFlag x.entry.chan .voltSat = s.chanFlag x.entry.chan .voltSat ∧
      (u.loop.get x.entry.chan).vsat = x.result.vsat := by
  obtain ⟨k, hk, -, same⟩ := s.controlOf_control hc
  have done : s.completeRun x = (s.writeRun x x.front (s.controlOf x)).deliverRun x x.front (s.controlOf x) :=
    if_neg (by rw [hw.1]; decide)
  refine ⟨_, State.exec_runCompletion hx, ?_, ?_⟩
  · rw [State.chanFlag_congr (congrArg Router.flags (State.startWaiting_router _)), done, State.deliverRun_voltSat_done _ _ _ hd]
    rfl
  · have written := (x.loopAfter_fields x.front (s.controlOf x) (s.loop.get x.entry.chan)).2.2.2 k hk hw
    rw [State.startWaiting_loop, done, State.deliverRun_loop, (State.writeRun_own _ _).1, written.2.2, same hw]

/-- Settles O48, by the delivery of a run's events and by the run that VOLT_SAT, sent alone, reports. -/
theorem overcurrentAndVoltSat : Obligations.OvercurrentAndVoltSat := by
  unfold Obligations.OvercurrentAndVoltSat
  refine ⟨fun s x hx hr => ?_, fun s x hx hc hr he hd => ?_, fun c s h => ?_⟩
  · intro c f r hi ht hu hdis
    obtain ⟨b, stands, set⟩ := State.deliverRun_overcurrent (x := x) f (s.controlOf x) (s.writeRun x f (s.controlOf x))
      (x.front_overcurrent.mpr hi) ht hu hdis
    have done : s.completeRun x = (s.writeRun x f (s.controlOf x)).deliverRun x f (s.controlOf x) :=
      if_neg (by rw [hr]; decide)
    rw [← done] at stands set
    obtain ⟨st, dark, drive, u, trips, cause, via, cycle, -, snapshot⟩ := stands.startWaiting
    refine ⟨_, u, State.exec_runCompletion hx, st, dark, drive, trips, cause, via, cycle,
      snapshot.trans (State.writeRun_snapshot ..), ?_⟩
    rw [State.chanFlag_congr (congrArg Router.flags (State.startWaiting_router _))]
    exact set
  · intro c limited below count
    obtain ⟨k, hk, -, same⟩ := s.controlOf_control (x := x) hc
    have hk' : k = x.result := same ⟨hr, he⟩
    have after : x.result.vsat = x.vsat + 1 := by
      show vsatAfter x.result.limited x.vsat = _
      rw [show x.result.limited = true from limited, vsatAfter, if_pos rfl, satSucc]
      omega
    have found : x.result.voltSat = true := by
      show vsatFound x.result.limited x.vsat (x.bank.record c).vsatRuns = true
      rw [show x.result.limited = true from limited, ← count]
      simp only [vsatFound, vsatAfter, if_true, satSucc, Bool.true_and, Bool.and_eq_true, decide_eq_true_eq]
      omega
    have event : exec (.voltSat c) s = .next (({ s with
        loop := s.loop.modify c fun l => if x.writes then { l with vsat := k.vsat } else l
        engine := { s.engine with running := some { x with voltSatDone := true } } } : State).raiseChan .voltSat c) := by
      show (match s.voltSatRun c with | some (x, k) => _ | none => _) = _
      rw [State.voltSatRun_some hx hk hr (by simp [Run.voltSatDue, hk', found, hd])]
    have loop : (s.loop.modify c fun l => if x.writes then { l with vsat := k.vsat } else l) =
        s.loop.set c { s.loop.get c with vsat := x.vsat + 1 } := by
      rw [PerChan.modify_eq_set, x.writes_iff.mpr ⟨hr, he⟩, hk', after]
      rfl
    rw [loop] at event
    generalize hu : ({ s with loop := s.loop.set c { s.loop.get c with vsat := x.vsat + 1 }
                              engine := { s.engine with running := some { x with voltSatDone := true } } } : State) = u at event
    have engine : u.engine = { s.engine with running := some { x with voltSatDone := true } } := by rw [← hu]
    have bank : u.bank = s.bank := by rw [← hu]; rfl
    obtain ⟨v, complete, flag, count'⟩ := State.completion_voltSat_done (s := u.raiseChan .voltSat c)
      (x := { x with voltSatDone := true }) (by rw [State.raiseChan_engine, engine]) hc ⟨hr, he⟩ rfl
    refine ⟨u.raiseChan .voltSat c, v, event, ?_, by rw [State.raiseChan_engine, engine], by rw [State.raiseChan_loop, ← hu],
      ?_, fun d k hdk => ?_, fun hs ha => ?_, complete, flag, count'.trans after⟩
    · rw [State.raiseChan_frame, ← hu]
    · rw [State.raiseChan_chanFlag_self, ← hu]
      rfl
    · rw [State.raiseChan_chanFlag_of_ne hdk, ← hu]
      rfl
    · have quiet : u.bank.chanTripClass .voltSat = false := by
        rw [Bool.eq_false_iff, Ne, Bank.chanTripClass_iff, bank]
        simp [ChanKind.code, ChanKind.idx, hs, ha]
      obtain ⟨mods, trips⟩ := State.raiseChan_quiet u quiet c
      refine ⟨mods.trans (by rw [← hu]), trips.trans (by rw [← hu]), fun hh hha => ?_⟩
      exact (State.raiseChan_sup_kept quiet (by decide) (by rw [bank]; exact hh) (by rw [bank]; exact hha)).trans (by rw [← hu])
  · have absent : s.voltSatRun c = none := by
      unfold State.voltSatRun
      split
      · next x hx =>
        split
        · next k hk =>
          refine if_neg ?_
          rintro ⟨rfl, hr, due⟩
          obtain h | h | h | ⟨he, hl⟩ := h x hx
          · exact h rfl
          · rw [State.controlOf_monitor s h] at hk; cases hk
          · rw [h] at hr; cases hr
          · have control : x.control = true := by
              cases hc : x.control with
              | true => rfl
              | false => rw [State.controlOf_monitor s hc] at hk; cases hk
            obtain ⟨k', hk', -, same⟩ := s.controlOf_control control
            cases hk.symm.trans hk'
            rw [same ⟨hr, he⟩] at due
            have unfound : x.result.voltSat = false := by
              show vsatFound x.result.limited _ _ = false
              rw [show x.result.limited = false from hl]
              rfl
            simp [Run.voltSatDue, unfound] at due
        · rfl
      · rfl
    show execVoltSat c s = _
    unfold execVoltSat
    rw [absent]

end Sys2Proof.Machine
end

