-- ==== Sys2Proof/Proofs/Bursts.lean ====
section
/-! Bursts (R62 to R68, R206): the integrity of a frame, its acceptance, and the start it brings. -/

namespace Sys2Proof.Machine

variable {s : State} {c : Chan} {f : Frame}

/-! ### Frames -/

theorem Frame.intact_iff (f : Frame) : f.intact = true ↔ f.ending = .endSymbol ∧ f.lineError = false ∧ f.bytes.length = 20 ∧
    crc8 (f.bytes.take 18) = (f.word 9).lo := by
  simp only [Frame.intact, Frame.whole, Bool.and_eq_true, decide_eq_true_eq, Bool.not_eq_true', and_assoc]

theorem crc8Bit_eq (x : BitVec 8) : crc8Bit x = if 128 ≤ x.toNat then (x <<< 1) ^^^ 0x07 else x <<< 1 := by
  unfold crc8Bit
  rw [BitVec.msb_eq_decide]
  simp only [decide_eq_true_eq]

theorem crc8_append (l : List Byte) (b : Byte) : crc8 (l ++ [b]) =
    Nat.repeat (fun x : BitVec 8 => if 128 ≤ x.toNat then (x <<< 1) ^^^ 0x07 else x <<< 1) 8 (crc8 l ^^^ b) := by
  unfold crc8
  rw [List.foldl_append, List.foldl_cons, List.foldl_nil, crc8Byte, ← funext crc8Bit_eq]

theorem Frame.bridgeFault_iff (f : Frame) : f.bridgeFault = decide (16384 ≤ (f.word 0).toNat) := by
  have bound := (f.word 0).isLt
  rw [Bool.eq_iff_iff]
  simp only [Frame.bridgeFault, getLsbD_eq_decide, Bool.or_eq_true, decide_eq_true_eq]
  omega

theorem Frame.seq_eq_iff (f : Frame) (n : BitVec 4) : f.seq = n ↔ (f.word 0).toNat % 16 = n.toNat := by
  rw [BitVec.toNat_eq]
  simp [Frame.seq, BitVec.extractLsb'_toNat]

theorem Lane.accepts_iff (l : Lane) (f : Frame) : l.accepts f = true ↔ f.intact = true ∧ l.expected = true ∧
    l.arrived = false ∧ (f.word 0).toNat % 16 = l.seq.toNat := by
  simp only [Lane.accepts, Bool.and_eq_true, Bool.not_eq_true', decide_eq_true_eq, Frame.seq_eq_iff, and_assoc]

theorem Word.of_toNat (h l : Byte) : (Word.of h l).toNat = h.toNat * 256 + l.toNat := by
  have hi := Word.hi_toNat (Word.of h l)
  have lo := Word.lo_toNat (Word.of h l)
  rw [Word.hi_of] at hi
  rw [Word.lo_of] at lo
  omega

/-! ### Acceptance -/

/-- The part after an accepted burst, before the start it brings: the lane's arrived mark, the BRIDGE_FAULT condition. -/
def State.faulted (c : Chan) (b : Bool) (s : State) : State := (s.markArrived c).deliverChan .bridgeFault c b

theorem State.exec_burst (h : (s.lanes.get c).accepts f = true) : exec (.burst c f) s = .next (s.accept c f).startWaiting :=
  if_pos h

theorem Engine.waits_iff (e : Engine) (c : Chan) : e.waits c = true ↔ ∃ y ∈ e.queue, y.chan = c := by
  simp [Engine.waits]

theorem Engine.enqueue_tail {e : Engine} {x : Entry} (h : ∀ y ∈ e.queue, y.chan ≠ x.chan) :
    (e.enqueue x).queue = e.queue ++ [x] := by
  have idle : ¬e.waits x.chan = true := fun w => by
    obtain ⟨y, hy, hc⟩ := (e.waits_iff _).mp w
    exact h y hy hc
  simp [Engine.enqueue, idle]

theorem Engine.enqueue_replaced {e : Engine} {x : Entry} (h : ∃ y ∈ e.queue, y.chan = x.chan) :
    (e.enqueue x).queue = e.queue.map fun y => if y.chan = x.chan then x else y := by
  simp [Engine.enqueue, (e.waits_iff _).mpr h]

theorem State.faulted_frame (c : Chan) (b : Bool) (s : State) : s.faulted c b =
    { s with lanes := s.lanes.set c { s.lanes.get c with arrived := true }, sup := (s.faulted c b).sup
             mods := (s.faulted c b).mods, router := (s.faulted c b).router } := by
  rw [← PerChan.modify_eq_set s.lanes c fun l => { l with arrived := true }]
  unfold State.faulted State.deliverChan
  dsimp only
  split <;> rfl

theorem State.accept_eq (c : Chan) (f : Frame) (s : State) : s.accept c f =
    ({ s.faulted c f.bridgeFault with engine := s.engine.enqueue ((s.lanes.get c).entry c f) } : State).raiseChanIf
      (s.engine.waits c) .sampleOverrun c := rfl

theorem State.raiseChanIf_frame (b : Bool) (k : ChanKind) (c : Chan) (s : State) : s.raiseChanIf b k c =
    { s with sup := (s.raiseChanIf b k c).sup, mods := (s.raiseChanIf b k c).mods, router := (s.raiseChanIf b k c).router } := by
  unfold State.raiseChanIf
  split <;> rfl

theorem State.accept_frame (c : Chan) (f : Frame) (s : State) : s.accept c f =
    { s with lanes := s.lanes.set c { s.lanes.get c with arrived := true }
             engine := s.engine.enqueue ((s.lanes.get c).entry c f), sup := (s.accept c f).sup
             mods := (s.accept c f).mods, router := (s.accept c f).router } := by
  have fault := s.faulted_frame c f.bridgeFault
  have raised := State.raiseChanIf_frame (s.engine.waits c) .sampleOverrun c
    { s.faulted c f.bridgeFault with engine := s.engine.enqueue ((s.lanes.get c).entry c f) }
  rw [← State.accept_eq] at raised
  generalize s.accept c f = t at raised ⊢
  generalize s.faulted c f.bridgeFault = u at fault raised
  exact raised.trans (by rw [fault])

theorem State.raiseChanIf_kept (b : Bool) (k : ChanKind) (c : Chan) (s : State) :
    (s.raiseChanIf b k c).router.kept = s.router.kept := by
  unfold State.raiseChanIf
  split <;> rfl

theorem State.accept_kept (c : Chan) (f : Frame) (s : State) :
    ((s.accept c f).router.kept.get c).bridgeFault = f.bridgeFault := by
  rw [State.accept_eq, State.raiseChanIf_kept]
  exact State.deliverChan_kept .bridgeFault c f.bridgeFault

/-- SAMPLE_OVERRUN is raised where the burst replaces a waiting entry (R66). -/
theorem State.accept_overrun (c : Chan) (f : Frame) (s : State) : (s.accept c f).chanFlag c .sampleOverrun =
    if s.engine.waits c then { isSet := true, count := min 65535 ((s.chanFlag c .sampleOverrun).count + 1) }
    else s.chanFlag c .sampleOverrun := by
  have found : (s.faulted c f.bridgeFault).chanFlag c .sampleOverrun = s.chanFlag c .sampleOverrun :=
    State.deliverChan_chanFlag_of_ne (by decide)
  rw [State.accept_eq, State.raiseChanIf]
  split
  · rw [State.raiseChan_chanFlag_self, ← found]
    rfl
  · exact found

/-- A bridge fault that comes with a burst trips its channel, in use and not in TRIP (R64, R142). -/
theorem State.accept_stands {c : Chan} {f : Frame} {s : State} (hf : f.bridgeFault = true)
    (hk : (s.router.kept.get c).bridgeFault = false) (ht : s.st c ≠ .trip) (hu : (s.record c).inUse = true) :
    (s.accept c f).Stands c ⟨2, .self, s.ring.lastCycle, s.st c, (s.loop.get c).last.snapshot, [], 0⟩ := by
  have raised : s.faulted c true = ((s.markArrived c).keepChan .bridgeFault c true).raiseChan .bridgeFault c :=
    State.deliverChan_risen (s := s.markArrived c) (l := .bridgeFault) hk
  have tripped := State.raiseChan_fixedTrip (s := (s.markArrived c).keepChan .bridgeFault c true) (c := c)
    (k := .bridgeFault) rfl ht hu
  rw [← raised] at tripped
  have stands : (s.faulted c true).Stands c ⟨2, .self, s.ring.lastCycle, s.st c, (s.loop.get c).last.snapshot, [], 0⟩ :=
    tripped.stands
  rw [State.accept_eq, hf]
  exact State.Stands.raiseChanIf (s := { s.faulted c true with engine := s.engine.enqueue _ }) stands _ _ _

/-- Settles O45, by the acceptance of a burst and the start it brings. -/
theorem burstAcceptance : Obligations.BurstAcceptance := by
  unfold Obligations.BurstAcceptance
  refine ⟨fun f => ⟨Frame.intact_iff f, fun k => Word.of_toNat _ _⟩, ⟨rfl, crc8_append⟩, fun c f s h => ?_,
    fun c f s r hf he ha hs hr => ?_⟩
  · refine if_neg fun accepts => ?_
    obtain ⟨intact, expected, arrived, number⟩ := (Lane.accepts_iff _ _).mp accepts
    obtain h | h | h | h := h
    · rw [h] at intact; cases intact
    · rw [h] at expected; cases expected
    · rw [h] at arrived; cases arrived
    · exact h number
  · intro e fault
    have accepts := (Lane.accepts_iff (s.lanes.get c) f).mpr ⟨hf, he, ha, hs⟩
    have entry : (s.lanes.get c).entry c f = e := by
      simp only [Lane.entry, hr]
      rfl
    have frame := s.accept_frame c f
    rw [entry] at frame
    have engine : (s.accept c f).engine = s.engine.enqueue e := by rw [frame]
    have store : (s.accept c f).store = s.store := by rw [frame]
    have queue : s.engine.queue = [] → (s.accept c f).engine.queue = [e] := fun hq => by
      rw [engine, Engine.enqueue_tail (by simp [hq]), hq]
      rfl
    refine ⟨_, s.accept c f, State.exec_burst accepts, rfl, fun hb => ?_, fun hb hq hu => ?_, by rw [frame], by rw [frame],
      by rw [engine]; rfl, ?_, fun hn => ?_, fun hn => ?_, fun hft hk ht hu => ?_, fun hft hn => ?_⟩
    · refine State.startWaiting_eq _ (.inl (Option.isSome_iff_ne_none.mpr ?_))
      rw [engine]
      exact hb
    · have idle : (s.accept c f).engine.running = none := by rw [engine]; exact hb
      have used : ((s.accept c f).record e.chan).inUse = true := by rw [State.record_congr store]; exact hu
      rw [State.startWaiting_used idle (queue hq) used, State.startRun_used idle (queue hq) used]
      exact ⟨rfl, rfl⟩
    · rw [State.accept_kept, Frame.bridgeFault_iff]
    · rw [State.accept_overrun, if_neg]
      · exact ⟨by rw [engine, Engine.enqueue_tail hn], rfl⟩
      · exact fun w => by
          obtain ⟨y, hy, hc⟩ := (s.engine.waits_iff c).mp w
          exact hn y hy hc
    · rw [State.accept_overrun, if_pos ((s.engine.waits_iff c).mpr hn)]
      exact ⟨by rw [engine, Engine.enqueue_replaced hn], rfl⟩
    · have faulty : f.bridgeFault = true := by rw [Frame.bridgeFault_iff]; exact decide_eq_true hft
      obtain ⟨st, dark, -, u, trips, cause, -, -, before, -⟩ := (State.accept_stands faulty hk ht hu).startWaiting
      refine ⟨st, dark, ?_, ?_⟩
      · rw [trips]; exact congrArg some cause
      · rw [trips]; exact congrArg some before
    · have sound : f.bridgeFault = false := by rw [Frame.bridgeFault_iff]; exact decide_eq_false hft
      have idle : s.engine.waits c = false := Bool.eq_false_iff.mpr fun w => by
        obtain ⟨y, hy, hc⟩ := (s.engine.waits_iff c).mp w
        exact hn y hy hc
      rw [State.accept_eq, idle, sound]
      exact ⟨rfl, rfl⟩

end Sys2Proof.Machine
end

