-- ==== Sys2Proof/Proofs/FixedPoint.lean ====
section
/-! PROOFS. The arithmetic words of a run: clamping, the integer square root, and the circle that a vector is limited to with
its first axis served first. -/

namespace Sys2Proof.Machine

/-! ### Clamping -/

variable {L x y : Int}

theorem neg_le_clampTo : -L ≤ clampTo L x := by
  simp only [clampTo, clampIn]
  omega

theorem clampTo_le (h : 0 ≤ L) : clampTo L x ≤ L := by
  simp only [clampTo, clampIn]
  omega

theorem clampTo_of_within (hlo : -L ≤ x) (hhi : x ≤ L) : clampTo L x = x := by
  simp only [clampTo, clampIn]
  omega

theorem clampTo_mul_self_le (h : 0 ≤ L) : clampTo L x * clampTo L x ≤ L * L :=
  abs_le_iff_mul_self_le.mp (by rw [abs_of_nonneg h]; exact abs_le.mpr ⟨neg_le_clampTo, clampTo_le h⟩)

/-- A value whose square is within that of the bound lies within the bound. -/
theorem clampTo_of_mul_self_le (h : 0 ≤ L) (hx : x * x ≤ L * L) : clampTo L x = x := by
  have := abs_le_iff_mul_self_le.mpr hx
  rw [abs_of_nonneg h, abs_le] at this
  exact clampTo_of_within this.1 this.2

/-! ### The integer square root -/

theorem isqrtFrom_mul_self_le (k : Nat) {x r : Nat} (h : r * r ≤ x) : isqrtFrom k x r * isqrtFrom k x r ≤ x := by
  induction k generalizing r with
  | zero => exact h
  | succ k ih =>
    simp only [isqrtFrom]
    split
    · exact ih ‹_›
    · exact ih h

theorem lt_isqrtFrom_succ_mul_self (k : Nat) {x r : Nat} (h : x < (r + 2 ^ k) * (r + 2 ^ k)) :
    x < (isqrtFrom k x r + 1) * (isqrtFrom k x r + 1) := by
  induction k generalizing r with
  | zero => exact h
  | succ k ih =>
    simp only [isqrtFrom]
    split
    · refine ih ?_
      have : r + 2 ^ k + 2 ^ k = r + 2 ^ (k + 1) := by rw [pow_succ]; omega
      rwa [this]
    · exact ih (by omega)

theorem isqrt_mul_self_le (x : Nat) : isqrt x * isqrt x ≤ x := isqrtFrom_mul_self_le 16 (Nat.zero_le _)

theorem lt_isqrt_succ_mul_self {x : Nat} (h : x < 4294967296) : x < (isqrt x + 1) * (isqrt x + 1) :=
  lt_isqrtFrom_succ_mul_self 16 (by omega)

/-- The root is the largest number whose square does not exceed the radicand. -/
theorem le_isqrt {x n : Nat} (h : x < 4294967296) (hn : n * n ≤ x) : n ≤ isqrt x := by
  by_contra hlt
  have := Nat.mul_le_mul (Nat.lt_of_not_le hlt) (Nat.lt_of_not_le hlt)
  have := lt_isqrt_succ_mul_self h
  simp only [Nat.succ_eq_add_one] at *
  omega

/-! ### The circle -/

/-- What the circle of radius `L` leaves to the second axis, its first axis clamped to `L`. -/
theorem isqrt_rest_mul_self_le (h : 0 ≤ L) :
    ((isqrt (L * L - clampTo L x * clampTo L x).toNat : Nat) : Int) *
      (isqrt (L * L - clampTo L x * clampTo L x).toNat : Nat) ≤ L * L - clampTo L x * clampTo L x := by
  have hle := isqrt_mul_self_le (L * L - clampTo L x * clampTo L x).toNat
  have hnn := clampTo_mul_self_le (x := x) h
  calc _ ≤ (((L * L - clampTo L x * clampTo L x).toNat : Nat) : Int) := by exact_mod_cast hle
    _ = _ := Int.toNat_of_nonneg (by omega)

theorem circle_holds (h : 0 ≤ L) :
    clampTo L x * clampTo L x + clampTo (isqrt (L * L - clampTo L x * clampTo L x).toNat : Nat) y *
      clampTo (isqrt (L * L - clampTo L x * clampTo L x).toNat : Nat) y ≤ L * L := by
  have hrest := isqrt_rest_mul_self_le (x := x) h
  have hq := clampTo_mul_self_le (L := (isqrt (L * L - clampTo L x * clampTo L x).toNat : Nat)) (x := y) (by omega)
  omega

/-- A vector within the circle keeps both its parts. -/
theorem circle_keeps (h : 0 ≤ L) (hL : L ≤ 65535) (hin : x * x + y * y ≤ L * L) :
    clampTo L x = x ∧ clampTo (isqrt (L * L - clampTo L x * clampTo L x).toNat : Nat) y = y := by
  have hxx := mul_self_nonneg x
  have hyy := mul_self_nonneg y
  have hd : clampTo L x = x := clampTo_of_mul_self_le h (by omega)
  have hLL : L * L ≤ 65535 * 65535 := mul_self_le_mul_self h hL
  rw [hd]
  refine ⟨rfl, clampTo_of_within ?_ ?_⟩
  all_goals
    have hroot : y.natAbs ≤ isqrt (L * L - x * x).toNat := by
      refine le_isqrt (by omega) ?_
      have : ((y.natAbs * y.natAbs : Nat) : Int) = y * y := by simp
      omega
    omega

theorem circle_keeps_iff (h : 0 ≤ L) (hL : L ≤ 65535) :
    (clampTo L x = x ∧ clampTo (isqrt (L * L - clampTo L x * clampTo L x).toNat : Nat) y = y) ↔
      x * x + y * y ≤ L * L := by
  refine ⟨fun ⟨hd, hq⟩ => ?_, circle_keeps h hL⟩
  have := circle_holds (x := x) (y := y) h
  rwa [hq, hd] at this

/-! ### Anti-windup -/

theorem decideAcc_keeps (a : Axis) (acc : Int) (h : 0 < a.err ∧ 0 < a.uRaw ∨ a.err < 0 ∧ a.uRaw < 0) :
    decideAcc a true acc = acc := by
  have hpos : 0 < a.err * a.uRaw := by
    rcases h with ⟨he, hu⟩ | ⟨he, hu⟩
    · exact mul_pos he hu
    · exact mul_pos_of_neg_of_neg he hu
  simp [decideAcc, hpos]

theorem decideAcc_takes (a : Axis) (limited : Bool) (acc : Int)
    (h : limited = false ∨ a.err = 0 ∨ a.uRaw = 0 ∨ (0 < a.err ∧ a.uRaw < 0) ∨ (a.err < 0 ∧ 0 < a.uRaw)) :
    decideAcc a limited acc = a.candidate := by
  rcases h with rfl | h
  · rfl
  · have hle : ¬ 0 < a.err * a.uRaw := by
      rcases h with h | h | ⟨he, hu⟩ | ⟨he, hu⟩
      · simp [h]
      · simp [h]
      · exact not_lt.mpr (mul_neg_of_pos_of_neg he hu).le
      · exact not_lt.mpr (mul_neg_of_neg_of_pos he hu).le
    simp [decideAcc, hle]

/-- Settles O52, by the exactness of the root, bit by bit, the circle's rest for the second axis, and the sign of the product
of error and output. -/
theorem circlesAndAntiWindup : Obligations.CirclesAndAntiWindup := by
  refine ⟨⟨fun x hx => ⟨isqrt_mul_self_le x, lt_isqrt_succ_mul_self hx⟩, ?_, ?_⟩, ?_⟩
  · intro l vd vq hl
    exact ⟨circle_holds (by omega), rfl, rfl, circle_keeps (by omega) (by omega)⟩
  · intro l id iq h0 hl
    have hlimited : (composeReferences l id iq).limited = false ↔ id * id + iq * iq ≤ l * l := by
      rw [← circle_keeps_iff h0 hl]
      simp [composeReferences]
    exact ⟨circle_holds h0, rfl, rfl, hlimited, fun hf => circle_keeps h0 hl (hlimited.mp hf)⟩
  · intro ref meas acc ff comp kp ki limited
    exact ⟨rfl, rfl, rfl, fun hl hs => hl ▸ decideAcc_keeps _ acc hs, decideAcc_takes _ limited acc⟩

end Sys2Proof.Machine
end

