-- ==== Sys2Proof/Proofs/RunStages.lean ====
section
/-! PROOFS. The stages of a run against explicit integer formulas: conditioning and transforms, the sine table, the way back
to the compares, and the references of a pair. -/

namespace Sys2Proof.Machine

/-! ### Stage 1 -/

theorem code12_eq (w : Word) : code12 w = w.toNat % 4096 := by simp [code12, bitsOf_eq]

theorem median3_eq (a b c : Nat) :
    ((median3 a b c : Nat) : Int) = a + b + c - (max (max a b) c : Nat) - (min (min a b) c : Nat) := by
  simp only [median3]
  omega

theorem lt_spread3_iff (a b c n : Nat) : spread3 a b c > n ↔ min (min a b) c + n < max (max a b) c := by
  simp only [spread3]
  omega

/-! ### Stages 2 to 4 -/

theorem roundAt_fifteen (x : Int) : roundAt 15 x = (x + 16384) / 32768 := rfl

theorem cosOf_eq (theta : Nat) : cosOf theta = sinOf (theta + 16384) := by
  have : (theta + 16384) / 16 = theta / 16 + 1024 := by omega
  simp only [cosOf, sinOf, this]

theorem Run.front_cos (x : Run) : x.front.cos = cosOf x.front.theta := by simp only [Run.front]

theorem revDiff_eq (x y : Word) : revDiff x y = (x - y).toInt := by
  rw [BitVec.toInt_sub, Int.bmod_def, revDiff, wrap16]
  omega

/-! ### The sine table -/

theorem sineQuarter_le : ∀ k < 1025, sineQuarter k ≤ 32767 := by decide +kernel

theorem sineEntry_bounds {k : Nat} (h : k < 4096) : -32767 ≤ sineEntry k ∧ sineEntry k ≤ 32767 := by
  simp only [sineEntry]
  split
  · have := sineQuarter_le k (by omega)
    omega
  split
  · have := sineQuarter_le (2048 - k) (by omega)
    omega
  split
  · have := sineQuarter_le (k - 2048) (by omega)
    omega
  · have := sineQuarter_le (4096 - k) (by omega)
    omega

/-- The second half of the table is the first one's negative. -/
theorem sineEntry_half {k : Nat} (h : k < 2048) : sineEntry (k + 2048) = -sineEntry k := by
  have hzero : sineQuarter 0 = 0 := by decide
  simp only [sineEntry]
  rcases Nat.eq_zero_or_pos k with rfl | hpos
  · simp [hzero]
  by_cases hq : k ≤ 1024
  · have : ¬ k + 2048 ≤ 1024 ∧ ¬ k + 2048 ≤ 2048 ∧ k + 2048 ≤ 3072 := by omega
    simp [this, hq]
  · have : ¬ k + 2048 ≤ 1024 ∧ ¬ k + 2048 ≤ 2048 ∧ ¬ k + 2048 ≤ 3072 ∧ k ≤ 2048 := by omega
    have hback : 4096 - (k + 2048) = 2048 - k := by omega
    simp [this, hq, hback]

theorem sinOf_half (a : Nat) : sinOf (a % 32768 + 32768) = -sinOf (a % 32768) := by
  have hk : (a % 32768 + 32768) / 16 % 4096 = a % 32768 / 16 % 4096 + 2048 := by omega
  rw [sinOf, hk, sineEntry_half (by omega), sinOf]

theorem sinOf_ignores_low_bits (a : Nat) : sinOf (a % 65536) = sinOf (a / 16 * 16 % 65536) := by
  have : a % 65536 / 16 % 4096 = a / 16 * 16 % 65536 / 16 % 4096 := by omega
  rw [sinOf, this, sinOf]

/-- Settles O50, stage by stage; the sine table by its quarter, of which each entry is bounded. -/
theorem stagesOneToFour : Obligations.StagesOneToFour := by
  refine ⟨?_, by decide +kernel, fun a => ⟨sinOf_ignores_low_bits a, sinOf_half a, ?_⟩⟩
  · intro x
    refine ⟨?_, ?_, rfl, code12_eq _, code12_eq _, ?_, ?_, ?_, ?_, ?_, ?_, rfl, ?_, ?_, ?_, ?_, ?_⟩
    · simp only [Run.front, condition, phaseCurrent, median3_eq, code12_eq, sat16, clampIn]
    · simp only [Run.front, condition, phaseCurrent, median3_eq, code12_eq, sat16, clampIn]
    · simp only [Run.front, condition, Bool.or_eq_true, decide_eq_true_eq, lt_spread3_iff, code12_eq]
    · simp [Run.front, condition, or_assoc]
    · simp [Run.front, condition]
    · simp [Run.front, condition]
    · simp [Run.front, condition]
    · simp only [Run.front, electricalAngle]
    · exact (Run.front_cos x).trans (cosOf_eq _)
    · rintro (h | h)
      · simp [Run.front, electricalSpeed, mechanicalSpeed, h]
      · cases hh : x.history <;> simp [Run.front, electricalSpeed, mechanicalSpeed, h, hh]
    · intro h hh hm
      simp [Run.front, electricalSpeed, mechanicalSpeed, hh, hm, wrap16, clampTo, clampIn, revDiff_eq]
    · simp only [Run.front, clarkeBeta, sat16, clampIn, roundAt_fifteen]
    · simp only [Run.front, clarkeBeta, sat16, clampIn, roundAt_fifteen]
  · exact sineEntry_bounds (by omega)

/-! ### Stages 6 to 11 -/

theorem feedForward_at_rest (r : Record) (i : Int) : feedForwardD r 0 i = 0 ∧ feedForwardQ r 0 i = 0 := by
  simp [feedForwardD, feedForwardQ, roundAt_fifteen]

theorem dcGain_eq (r : Record) (dc : Nat) :
    dcGain r dc = (min 65535 (r.uNominal * 32768 / max dc r.uUnder) : Nat) := by
  simp only [dcGain]
  omega

/-- An axis is limited where one of its two saturations changed a value. -/
theorem axisOf_limited (ref meas acc ff comp : Int) (kp ki : Nat) :
    let a := axisOf ref meas kp ki acc ff comp
    let y := (max (-32768) (min 32767 a.uRaw) * comp + 16384) / 32768
    a.limited = false ↔ -32768 ≤ a.uRaw ∧ a.uRaw ≤ 32767 ∧ -32768 ≤ y ∧ y ≤ 32767 := by
  intro a y
  have hlimited : a.limited = (decide (sat16 a.uRaw ≠ a.uRaw) || decide (sat16 y ≠ y)) := rfl
  rw [hlimited, Bool.or_eq_false_iff, decide_eq_false_iff_not, decide_eq_false_iff_not, not_not, not_not, sat16, sat16,
    clampIn, clampIn]
  omega

theorem rawCompare_eq (p : Nat) (w : Int) :
    rawCompare p w =
      (max 0 (min (p : Int) ((p / 2 : Nat) + (w * p * 18919 + 536870912) / 1073741824))).toNat := rfl

theorem vsatFound_iff (n runs : Nat) : vsatFound true n runs = true ↔ min 255 (n + 1) = runs ∧ n ≠ runs := by
  simp [vsatFound, vsatAfter, satSucc]

theorem controlResult_vsat (x : Run) (f : Front) (accD accQ : Int) (n : Nat) :
    (x.controlResult f accD accQ n).vsat = vsatAfter (x.controlResult f accD accQ n).limited n := by
  simp only [Run.controlResult]

theorem controlResult_voltSat (x : Run) (f : Front) (accD accQ : Int) (n : Nat) :
    (x.controlResult f accD accQ n).voltSat =
      vsatFound (x.controlResult f accD accQ n).limited n (x.bank.record x.entry.chan).vsatRuns := by
  simp only [Run.controlResult]

/-- Settles O51, stage by stage. -/
theorem stagesSixToEleven : Obligations.StagesSixToEleven := by
  refine ⟨fun _ _ => rfl, fun _ _ => ⟨rfl, rfl, rfl⟩, fun r w id iq => ⟨fun h => ?_, ?_⟩,
    fun r dc => ⟨fun h => ?_, fun h => ?_⟩, fun ref meas acc ff comp kp ki => ⟨rfl, axisOf_limited ref meas acc ff comp kp ki⟩, fun p m sn cs v => ?_,
    fun x f accD accQ vsat => ?_⟩
  · simp only [feedForwardD, feedForwardQ, h, if_true, and_self]
  · rintro (h | rfl)
    · simp [feedForwardD, feedForwardQ, h]
    · exact ⟨(feedForward_at_rest r iq).1, (feedForward_at_rest r id).2⟩
  · rw [dcGain_eq, max_eq_right h]
  · rw [dcGain_eq, max_eq_left h]
  · simp only [comparesOf, Compares.minPulsed, rawCompare_eq, roundAt_fifteen, sat16, clampIn]
  · refine ⟨rfl, rfl, rfl, rfl, rfl, fun h => ?_, fun h => ⟨?_, ?_⟩⟩
    · rw [controlResult_vsat, controlResult_voltSat, h]
      exact ⟨rfl, rfl⟩
    · rw [controlResult_vsat, h]
      rfl
    · rw [controlResult_voltSat, h, vsatFound_iff]

/-! ### The references of a pair -/

/-- Settles O55, role by role: what the leader's share leaves is the follower's. -/
theorem pairSharesAddUp : Obligations.PairSharesAddUp := by
  refine ⟨fun e cpr l f => ?_, fun x f slot p h => ?_, fun x f slot p h => ?_, fun x f h => ?_,
    fun e t corr => ⟨fun h => ?_, fun h => ?_⟩⟩
  · rw [pairSkew, revDiff_eq]
  · refine ⟨fun y hy => by rw [Run.followerCounts, hy, Option.getD_some], ?_⟩
    simp only [Run.stageFive, h]
    exact ⟨_, rfl, add_sub_cancel _ _, rfl, rfl, rfl, rfl, rfl, trivial, trivial, rfl⟩
  · simp only [Run.stageFive, h, true_and]
    exact ⟨fun hw => by simp [hw, idRefRaw], fun hw => by simp [hw]⟩
  · simp only [Run.stageFive, h, and_self]
  · rw [leaderShare, roundAt_fifteen, h]
    omega
  · rw [leaderShare, roundAt_fifteen, h]
    omega

end Sys2Proof.Machine
end

