-- ==== Sys2Proof/Proofs/Curves.lean ====
section
/-! PROOFS. The curves of a record: what they are before, between and after their points, and which points they have. -/

namespace Sys2Proof.Machine

/-! ### A curve at a value -/

theorem curveAt_before {p : Int × Int} {x : Int} (l : List (Int × Int)) (h : x < p.1) : curveAt (p :: l) x = p.2 := by
  cases l with
  | nil => rfl
  | cons q l => simp [curveAt, h]

/-- The points before one that lies at or below `x` do not matter. -/
theorem curveAt_skip {p : Int × Int} {x : Int} (l : List (Int × Int)) (hx : p.1 ≤ x) (a : List (Int × Int))
    (h : ((a ++ p :: l).map (·.1)).Pairwise (· < ·)) : curveAt (a ++ p :: l) x = curveAt (p :: l) x := by
  induction a with
  | nil => rfl
  | cons q a ih =>
    rw [List.cons_append, List.map_cons, List.pairwise_cons] at h
    obtain ⟨hq, hrest⟩ := h
    have hqx : ¬ x < q.1 := by
      have := hq p.1 (by simp)
      omega
    rw [← ih hrest]
    match a, hrest with
    | [], _ => cases l <;> simp [curveAt, hqx, not_lt.mpr hx]
    | r :: a, hrest =>
      rw [List.cons_append, List.map_cons, List.pairwise_cons] at hrest
      have hrx : ¬ x < r.1 := by
        have := hrest.1 p.1 (by simp)
        omega
      simp [curveAt, hqx, hrx]

theorem curveAt_between {p q : Int × Int} {x : Int} (b : List (Int × Int)) (hp : p.1 ≤ x) (hq : x < q.1) :
    curveAt (p :: q :: b) x = p.2 + ((q.2 - p.2) * (x - p.1)).tdiv (q.1 - p.1) := by
  simp [curveAt, not_lt.mpr hp, hq, truncDiv]

/-- A part of a difference, truncated toward zero, lies between 0 and the difference. -/
theorem tdiv_part_between (m : Int) {t d : Int} (h0 : 0 ≤ t) (hd : t < d) :
    min 0 m ≤ (m * t).tdiv d ∧ (m * t).tdiv d ≤ max 0 m := by
  have up : ∀ n : Int, 0 ≤ n → 0 ≤ (n * t).tdiv d ∧ (n * t).tdiv d ≤ n := by
    intro n hn
    have hnt : 0 ≤ n * t := mul_nonneg hn h0
    refine ⟨Int.tdiv_nonneg hnt (by omega), ?_⟩
    rw [Int.tdiv_eq_ediv_of_nonneg hnt]
    exact Int.ediv_le_of_le_mul (by omega) (mul_le_mul_of_nonneg_left hd.le hn)
  rcases le_total 0 m with hm | hm
  · have := up m hm
    omega
  · have := up (-m) (by omega)
    rw [Int.neg_mul, Int.neg_tdiv] at this
    omega

/-! ### The points of a channel's curves -/

theorem Bank.deratePoint_eq (b : Bank) (c : Chan) (k : Nat) :
    b.deratePoint c k =
      if k % 2 = 0 then (((b.group 1 (c.val * 4 + k / 2)).w0.toNat : Int), ((b.group 1 (c.val * 4 + k / 2)).w1.toNat : Int))
      else (((b.group 1 (c.val * 4 + k / 2)).w2.toNat : Int), ((b.group 1 (c.val * 4 + k / 2)).w3.toNat : Int)) := by
  simp only [Bank.deratePoint, pointOf]
  split <;> rfl

theorem Bank.fwPoint_eq (b : Bank) (c : Chan) (k : Nat) :
    b.fwPoint c k =
      if k % 2 = 0 then (((b.group 2 (c.val * 8 + k / 2)).w0.toNat : Int), (b.group 2 (c.val * 8 + k / 2)).w1.toInt)
      else (((b.group 2 (c.val * 8 + k / 2)).w2.toNat : Int), (b.group 2 (c.val * 8 + k / 2)).w3.toInt) := by
  simp only [Bank.fwPoint, pointOf]
  split <;> rfl

theorem getElem?_map_range {α : Type} (f : Nat → α) {n k : Nat} (h : k < n) : ((List.range n).map f)[k]? = some (f k) := by
  simp [h]

/-- Settles O53, by dropping the points before the one at or below `x`, and the segment's quotient between its ends. -/
theorem curvesAndLimits : Obligations.CurvesAndLimits := by
  refine ⟨fun l x h => ⟨?_, ?_, ?_⟩, fun b c => ⟨by simp [Bank.deratePoints], by simp [Bank.fwPoints], ?_, ?_⟩,
    fun b c temp limit held delta => ⟨?_, rfl, rfl, ?_, ?_⟩⟩
  · rintro p a rfl hx
    exact curveAt_before a hx
  · rintro a p rfl hx
    exact curveAt_skip [] hx a h
  · rintro a p q b rfl hp hq
    have hbetween := tdiv_part_between (q.2 - p.2) (t := x - p.1) (d := q.1 - p.1) (by omega) (by omega)
    rw [curveAt_skip _ hp a h, curveAt_between b hp hq]
    exact ⟨rfl, by omega, by omega⟩
  · intro k hk
    exact (getElem?_map_range _ hk).trans (congrArg some (b.deratePoint_eq c k))
  · intro k hk
    exact (getElem?_map_range _ hk).trans (congrArg some (b.fwPoint_eq c k))
  · rfl
  · intro he hn
    simp [idRefRaw, he, hn]
  · rintro (he | hn)
    · simp [idRefRaw, he]
    · simp [idRefRaw, not_le.mpr hn]

end Sys2Proof.Machine
end

