-- ==== Sys2Proof/Proofs/FieldLayouts.lean ====
section
/-! PROOFS. Where the fields of the tables stand, as numbers in the words of their groups, and the range tests on them. -/

namespace Sys2Proof.Machine

/-! ### Signed words -/

theorem Word.toInt_eq (w : Word) :
    w.toInt = if w.toNat < 32768 then (w.toNat : Int) else (w.toNat : Int) - 65536 := by
  rw [BitVec.toInt_eq_toNat_cond]
  split <;> split <;> omega

theorem twoWordsSigned_eq (h l : Word) :
    twoWordsSigned h l = if h.toNat * 65536 + l.toNat < 2147483648 then ((h.toNat * 65536 + l.toNat : Nat) : Int)
      else ((h.toNat * 65536 + l.toNat : Nat) : Int) - 4294967296 := by
  have hnat : (h ++ l).toNat = h.toNat * 65536 + l.toNat := by
    rw [BitVec.toNat_append, Nat.shiftLeft_eq, ← Nat.shiftLeft_eq, ← Nat.shiftLeft_add_eq_or_of_lt l.isLt, Nat.shiftLeft_eq]
  rw [twoWordsSigned, BitVec.toInt_eq_toNat_cond, hnat]
  split <;> split <;> omega

/-! ### Records, pair entries, routes -/

theorem Bank.record_eq (b : Bank) (c : Chan) :
    let g := fun k : Nat => b.group 0 (c.val * 8 + k)
    let signed : Word → Int := fun w => if w.toNat < 32768 then w.toNat else (w.toNat : Int) - 65536
    let flags := (g 0).w0.toNat
    let flag := fun k : Nat => decide (flags / 2 ^ k % 2 = 1)
    b.record c =
      { inUse := flag 0, fwEnable := flag 1, ffEnable := flag 2, ramp := flag 3, shifted := flag 4
        indexMode := flags / 32 % 4, holdAfter := flags / 256 % 16, chargePeriods := (g 0).w1.toNat % 256
        derateCount := (g 0).w2.toNat % 16, fwCount := (g 0).w2.toNat / 256 % 32, vsatRuns := (g 0).w3.toNat % 256
        offsetA := (g 1).w0.toNat, offsetB := (g 1).w1.toNat, disagreeWindow := (g 1).w2.toNat
        iTrip := (g 1).w3.toNat, iMax := (g 2).w0.toNat, vLimit := (g 2).w1.toNat, decayStep := (g 2).w2.toNat
        minPulse := (g 2).w3.toNat, kpD := (g 3).w0.toNat, kiD := (g 3).w1.toNat, kpQ := (g 3).w2.toNat
        kiQ := (g 3).w3.toNat, xD := signed (g 4).w0, xQ := signed (g 4).w1, eBemf := signed (g 4).w2
        deadTime := (g 4).w3.toNat, uNominal := (g 5).w0.toNat, uUnder := (g 5).w1.toNat
        uOver := (g 5).w2.toNat, tTrip := (g 5).w3.toNat, cpr := (g 6).w0.toNat * 65536 + (g 6).w1.toNat
        polePairs := (g 6).w2.toNat, angleOffset := (g 6).w3.toNat
        indexExpect := (g 7).w0.toNat * 65536 + (g 7).w1.toNat, indexTolerance := (g 7).w2.toNat } := by
  simp only [Bank.record, Bank.recGroup, getLsbD_eq_decide, bitsOf_eq, Word.toInt_eq, twoWords, Nat.reducePow, Nat.div_one]

theorem Bank.pairEntry_fields (b : Bank) (k : Fin 4) :
    let g := b.group 3 (2 * k.val)
    let h := b.group 3 (2 * k.val + 1)
    let e := b.pairEntry k
    let offset := h.w0.toNat * 65536 + h.w1.toNat
    e.active = decide (32768 ≤ g.w0.toNat) ∧ e.leader.val = g.w0.toNat / 256 % 8 ∧ e.follower.val = g.w0.toNat % 8 ∧
      e.split = g.w1.toNat ∧ e.skewGain = (if g.w2.toNat < 32768 then (g.w2.toNat : Int) else (g.w2.toNat : Int) - 65536) ∧
      e.skewMax = g.w3.toNat ∧
      e.skewOffset = (if offset < 2147483648 then (offset : Int) else (offset : Int) - 4294967296) ∧
      e.skewTrip = h.w2.toNat * 65536 + h.w3.toNat := by
  rw [Nat.mul_comm 2 k.val]
  refine ⟨?_, bitsOf_eq _ 8 3, ?_, rfl, Word.toInt_eq _, rfl, twoWordsSigned_eq _ _, rfl⟩
  · rw [Bank.pairEntry, getLsbD_eq_decide, decide_eq_decide]
    omega
  · exact (bitsOf_eq _ 0 3).trans (by rw [Nat.pow_zero, Nat.div_one]; rfl)

theorem Bank.route_fields (b : Bank) (code : Nat) :
    let w := (b.group 4 code).w0.toNat
    let r := b.route code
    r.tripSelf = decide (w % 2 = 1) ∧ r.holdSelf = decide (w / 2 % 2 = 1) ∧ r.tripAll = decide (w / 4 % 2 = 1) ∧
      r.holdAll = decide (w / 8 % 2 = 1) ∧ r.lines.toNat = w / 16 % 16 := by
  refine ⟨?_, getLsbD_eq_decide _ 1, getLsbD_eq_decide _ 2, getLsbD_eq_decide _ 3, bitsOf_eq _ 4 4⟩
  exact (getLsbD_eq_decide _ 0).trans (by rw [Nat.pow_zero, Nat.div_one])

theorem Bank.role_fields (b : Bank) (c : Chan) :
    let e := b.pairEntry
    let names := fun k => (e k).active = true ∧ ((e k).leader = c ∨ (e k).follower = c)
    let r := b.role c
    ((∀ k, ¬names k) → r = .lone ∧ r.partner = none ∧ r.slot = none ∧ r.isFollower = false) ∧
    ∀ k, names k → (∀ j, j ≠ k → ¬names j) → r.slot = some k ∧
      ((e k).leader = c → r = .leader k (e k).follower ∧ r.partner = some (e k).follower ∧ r.isFollower = false) ∧
      ((e k).leader ≠ c → r = .follower k (e k).leader ∧ r.partner = some (e k).leader ∧ r.isFollower = true) := by
  refine ⟨fun h => ?_, fun k hk hother => ?_⟩
  · rw [role_lone h]
    exact ⟨rfl, rfl, rfl, rfl⟩
  · have hrole := role_eq_roleIn (b := b) (c := c) hother
    by_cases hl : (b.pairEntry k).leader = c
    · rw [hrole, roleIn_leader hk.1 hl]
      exact ⟨rfl, fun _ => ⟨rfl, rfl, rfl⟩, fun h => absurd hl h⟩
    · rw [hrole, roleIn_follower hk.1 hl (hk.2.resolve_left hl)]
      exact ⟨rfl, fun h => absurd h hl, fun _ => ⟨rfl, rfl, rfl⟩⟩

/-! ### Ranges -/

theorem inRange_eq_decide (lo hi n : Nat) : inRange lo hi n = decide (lo ≤ n ∧ n ≤ hi) := by
  rw [inRange, Bool.decide_and]

theorem inRange_zero (hi n : Nat) : inRange 0 hi n = decide (n ≤ hi) := by simp [inRange]

theorem fwCountOk_eq_decide (n : Nat) : fwCountOk n = decide (n = 0 ∨ (2 ≤ n ∧ n ≤ 16)) := by
  rw [fwCountOk, Bool.decide_or, Bool.decide_and]

/-- A signed word is not positive where it is 0 or has its top bit. -/
theorem Word.toInt_nonpos_iff (w : Word) : w.toInt ≤ 0 ↔ w.toNat = 0 ∨ 32768 ≤ w.toNat := by
  rw [Word.toInt_eq]
  split <;> omega

/-- Settles O15, field by field. -/
theorem fieldLayoutsAndRanges : Obligations.FieldLayoutsAndRanges := by
  refine ⟨Bank.record_eq, Bank.pairEntry_fields, Bank.route_fields, Bank.role_fields, fun i g => ?_, fun b c => ?_⟩
  · refine ⟨fun h => ?_, fun h => ?_, fun h => ?_, fun h => ?_, fun h => ?_, fun h => ?_, fun h => ?_, fun h => ?_, ?_, ?_,
      fun h => ?_, fun h => ?_, rfl⟩
    · simp only [wordsInRange, h, inRange_zero, bitsOf_eq, fwCountOk_eq_decide, ← Bool.decide_and, Nat.reducePow, Nat.div_one]
    · simp only [wordsInRange, h, inRange_zero]
    · simp only [wordsInRange, h, inRange_zero]
    · simp only [wordsInRange, h]
    · simp only [wordsInRange, h, inRange_zero]
    · simp only [wordsInRange, h, inRange_zero]
    · simp only [wordsInRange, h, inRange_eq_decide, Bool.decide_or, twoWords, Nat.zero_le, true_and]
      rfl
    · simp only [wordsInRange, h]
    · simp only [wordsInRange, inRange_zero]
    · simp only [wordsInRange, inRange_zero, Word.toInt_nonpos_iff]
    · simp only [wordsInRange, h, inRange_zero, if_true]
    · simp only [wordsInRange, h, one_ne_zero, if_false]
  · rw [Bank.record_eq]
    refine ⟨?_, ?_⟩
    · simp only [Nat.pow_zero, Nat.div_one, Nat.add_zero]
    · simp only [Record.groupsInUse, inRange_eq_decide, fwCountOk_eq_decide, ← Bool.decide_and, List.cons.injEq,
        decide_eq_decide, true_and, and_true, Nat.add_zero]
      omega

end Sys2Proof.Machine
end

