-- ==== Sys2Proof/Proofs/SwapChecks.lean ====
section
/-! PROOFS. SWAP_BANKS: the scans of the shadow, what each of the four checks asks of a bank, and the reply by the first that
fails. -/

namespace Sys2Proof.Machine

/-! ### Scans -/

theorem findSome?_finRange {α : Type} {n : Nat} {f : Fin n → Option α} {k : Fin n} {x : α} (h : f k = some x)
    (before : ∀ j < k, f j = none) : (List.finRange n).findSome? f = some x := by
  induction n with
  | zero => exact k.elim0
  | succ n ih =>
    rw [List.finRange_succ, List.findSome?_cons]
    cases k using Fin.cases with
    | zero => rw [h]
    | succ k =>
      rw [before 0 (Fin.succ_pos k), List.findSome?_map]
      exact ih h fun j hj => before j.succ (Fin.succ_lt_succ_iff.mpr hj)

theorem scanChans_eq_some {f : Chan → Option (Nat × Nat)} {c : Chan} {x : Nat × Nat} (h : f c = some x)
    (before : ∀ d < c, f d = none) : scanChans f = some x :=
  findSome?_finRange h before

theorem firstNotAscending_eq_none_iff {l : List Int} : firstNotAscending l = none ↔ l.Pairwise (· < ·) := by
  rw [← List.isChain_iff_pairwise]
  induction l with
  | nil => simp [firstNotAscending]
  | cons x l ih =>
    cases l with
    | nil => simp [firstNotAscending]
    | cons y l =>
      rw [List.isChain_cons_cons, ← ih, firstNotAscending]
      split <;> simp [*]

theorem firstNotAscending_eq_some {l : List Int} {k : Nat} (h : (l.take k).Pairwise (· < ·))
    (hk : ¬(l.take (k + 1)).Pairwise (· < ·)) : firstNotAscending l = some k := by
  rw [← List.isChain_iff_pairwise] at h hk
  induction l generalizing k with
  | nil => simp at hk
  | cons x l ih =>
    match l, k with
    | [], _ => simp at hk
    | y :: l, 0 => simp at hk
    | y :: l, 1 =>
      have hxy : ¬ x < y := by simpa using hk
      simp [firstNotAscending, hxy]
    | y :: l, k + 2 =>
      simp only [List.take_succ_cons, List.isChain_cons_cons, not_and] at h hk
      have hrest := ih (k := k + 1) (by simpa using h.2) (by simpa using hk h.1)
      simp [firstNotAscending, h.1, hrest]

theorem firstFalse_eq_some_of_take {l : List Bool} {k : Nat} (h : ∀ x ∈ l.take k, x = true) (hk : l[k]? = some false) :
    firstFalse l = some k := by
  refine firstFalse_eq_some hk fun j hj => ?_
  have hlen : k < l.length := (List.getElem?_eq_some_iff.mp hk).1
  have hget : l[j]? = some l[j] := List.getElem?_eq_getElem (by omega)
  rw [hget, h _ (List.mem_take_iff_getElem.mpr ⟨j, by omega, rfl⟩)]

/-! ### What the checks ask of a bank -/

/-- Both curves of a channel have strictly ascending x (R170). -/
abbrev Bank.Ascends (b : Bank) (c : Chan) : Prop :=
  ((b.deratePoints c).map (·.1)).Pairwise (· < ·) ∧ ((b.fwPoints c).map (·.1)).Pairwise (· < ·)

/-- The y of a derate point lies in its in-use range (R171 test 2). -/
abbrev PointInUse (p : Int × Int) : Prop := 1 ≤ p.2 ∧ p.2 ≤ 32767

/-- The first two tests of LIMITS (R171). -/
abbrev Bank.FieldsSound (b : Bank) (c : Chan) : Prop :=
  (∀ x ∈ (b.record c).groupsInUse, x = true) ∧ ∀ p ∈ b.deratePoints c, PointInUse p

/-- The fourth test of LIMITS (R171). -/
abbrev Bank.VoltsSound (b : Bank) (c : Chan) : Prop :=
  (b.record c).uUnder < (b.record c).uNominal ∧ (b.record c).uNominal < (b.record c).uOver

/-- The five tests of LIMITS (R171). -/
abbrev Bank.LimitsSound (b : Bank) (c : Chan) : Prop := b.FieldsSound c ∧
  (b.record c).iMax ≤ (b.record c).iTrip ∧ b.VoltsSound c ∧ (b.record c).indexExpect < (b.record c).cpr

variable {b : Bank} {c : Chan}

theorem Bank.curveFault_unused (h : (b.record c).inUse = false) : b.curveFault c = none := by
  simp [Bank.curveFault, h]

theorem Bank.curveFault_derate {k : Nat} (hu : (b.record c).inUse = true)
    (h : firstNotAscending ((b.deratePoints c).map (·.1)) = some k) : b.curveFault c = some (1, c.val * 4 + k / 2) := by
  simp only [Bank.curveFault, hu, h, if_true]

theorem Bank.curveFault_fw (hu : (b.record c).inUse = true) (hd : ((b.deratePoints c).map (·.1)).Pairwise (· < ·)) :
    b.curveFault c = (firstNotAscending ((b.fwPoints c).map (·.1))).map fun k => (2, c.val * 8 + k / 2) := by
  simp only [Bank.curveFault, hu, firstNotAscending_eq_none_iff.mpr hd, if_true]

theorem Bank.curveFault_eq_none_iff : b.curveFault c = none ↔ ((b.record c).inUse = true → b.Ascends c) := by
  cases hu : (b.record c).inUse with
  | false => simp [Bank.curveFault_unused hu]
  | true =>
    rw [imp_iff_right rfl]
    cases hd : firstNotAscending ((b.deratePoints c).map (·.1)) with
    | some k =>
      rw [Bank.curveFault_derate hu hd]
      refine iff_of_false nofun fun h => ?_
      cases (firstNotAscending_eq_none_iff.mpr h.1).symm.trans hd
    | none =>
      have ascends := firstNotAscending_eq_none_iff.mp hd
      rw [Bank.curveFault_fw hu ascends, Option.map_eq_none_iff, firstNotAscending_eq_none_iff]
      exact (and_iff_right ascends).symm

/-- The marks of the derate points' range. -/
def Bank.pointMarks (b : Bank) (c : Chan) : List Bool :=
  (b.deratePoints c).map fun p => decide (1 ≤ p.2) && decide (p.2 ≤ 32767)

theorem Bank.pointMarks_eq_none_iff : firstFalse (b.pointMarks c) = none ↔ ∀ p ∈ b.deratePoints c, PointInUse p := by
  simp [firstFalse_eq_none_iff, Bank.pointMarks, PointInUse]

theorem Bank.pointMarks_eq_some {k : Nat} (h : ∀ p ∈ (b.deratePoints c).take k, PointInUse p)
    (hk : ¬∀ p ∈ (b.deratePoints c).take (k + 1), PointInUse p) : firstFalse (b.pointMarks c) = some k := by
  have hlast : ∃ p, (b.deratePoints c)[k]? = some p ∧ ¬PointInUse p := by
    rw [List.take_add_one] at hk
    push Not at hk
    obtain ⟨p, hp, bad⟩ := hk
    rcases List.mem_append.mp hp with hp | hp
    · exact absurd (h p hp) bad
    · exact ⟨p, by simpa using hp, bad⟩
  obtain ⟨p, hp, bad⟩ := hlast
  refine firstFalse_eq_some_of_take ?_ ?_
  · simpa [Bank.pointMarks, ← List.map_take] using h
  · simpa [Bank.pointMarks, hp] using bad

theorem Bank.limitsFault_unused (h : (b.record c).inUse = false) : b.limitsFault c = none := by
  simp [Bank.limitsFault, h]

theorem Bank.limitsFault_field {g : Nat} (hu : (b.record c).inUse = true)
    (h : firstFalse (b.record c).groupsInUse = some g) : b.limitsFault c = some (0, c.val * 8 + g) := by
  simp only [Bank.limitsFault, hu, h, if_true]

theorem Bank.limitsFault_point {k : Nat} (hu : (b.record c).inUse = true) (hg : ∀ x ∈ (b.record c).groupsInUse, x = true)
    (h : firstFalse (b.pointMarks c) = some k) : b.limitsFault c = some (1, c.val * 4 + k / 2) := by
  rw [Bank.pointMarks] at h
  simp only [Bank.limitsFault, hu, firstFalse_eq_none_iff.mpr hg, h, if_true]

theorem Bank.limitsFault_fields (hu : (b.record c).inUse = true) (h : b.FieldsSound c) :
    b.limitsFault c =
      if (b.record c).iTrip < (b.record c).iMax then some (0, c.val * 8 + 2)
      else if ¬b.VoltsSound c then some (0, c.val * 8 + 5)
      else if (b.record c).cpr ≤ (b.record c).indexExpect then some (0, c.val * 8 + 7)
      else none := by
  have points := Bank.pointMarks_eq_none_iff.mpr h.2
  rw [Bank.pointMarks] at points
  simp only [Bank.limitsFault, hu, firstFalse_eq_none_iff.mpr h.1, points, if_true]

theorem Bank.limitsFault_eq_none_iff : b.limitsFault c = none ↔ ((b.record c).inUse = true → b.LimitsSound c) := by
  cases hu : (b.record c).inUse with
  | false => simp [Bank.limitsFault_unused hu]
  | true =>
    rw [imp_iff_right rfl]
    cases hg : firstFalse (b.record c).groupsInUse with
    | some g =>
      rw [Bank.limitsFault_field hu hg]
      refine iff_of_false nofun fun h => ?_
      cases (firstFalse_eq_none_iff.mpr h.1.1).symm.trans hg
    | none =>
      have groups := firstFalse_eq_none_iff.mp hg
      cases hp : firstFalse (b.pointMarks c) with
      | some k =>
        rw [Bank.limitsFault_point hu groups hp]
        refine iff_of_false nofun fun h => ?_
        cases (Bank.pointMarks_eq_none_iff.mpr h.1.2).symm.trans hp
      | none =>
        have fields : b.FieldsSound c := ⟨groups, Bank.pointMarks_eq_none_iff.mp hp⟩
        rw [Bank.limitsFault_fields hu fields, Bank.LimitsSound, and_iff_right fields]
        split_ifs <;> simp <;> omega

/-- What PAIR_CONFLICT asks of a slot, in the fields of its entry (R172). -/
theorem Bank.slotSound_iff {k : Fin 4} : b.SlotSound k ↔
    (b.pairEntry k).leader ≠ (b.pairEntry k).follower ∧ (b.record (b.pairEntry k).leader).inUse = true ∧
      (b.record (b.pairEntry k).follower).inUse = true ∧
      (b.record (b.pairEntry k).leader).cpr = (b.record (b.pairEntry k).follower).cpr ∧
      (b.record (b.pairEntry k).leader).shifted = (b.record (b.pairEntry k).follower).shifted ∧
      ∀ j < k, (b.pairEntry j).active = true →
        (b.pairEntry j).leader ≠ (b.pairEntry k).leader ∧ (b.pairEntry j).leader ≠ (b.pairEntry k).follower ∧
        (b.pairEntry j).follower ≠ (b.pairEntry k).leader ∧ (b.pairEntry j).follower ≠ (b.pairEntry k).follower := by
  have earlier : ∀ j, (¬b.names j (b.pairEntry k).leader ∧ ¬b.names j (b.pairEntry k).follower) ↔
      ((b.pairEntry j).active = true →
        (b.pairEntry j).leader ≠ (b.pairEntry k).leader ∧ (b.pairEntry j).leader ≠ (b.pairEntry k).follower ∧
        (b.pairEntry j).follower ≠ (b.pairEntry k).leader ∧ (b.pairEntry j).follower ≠ (b.pairEntry k).follower) := by
    intro j
    simp only [Bank.names, not_and, not_or]
    tauto
  refine ⟨fun h => ⟨h.differ, h.leader_inUse, h.follower_inUse, h.cpr, h.shifted, fun j hj => (earlier j).mp (h.earlier j hj)⟩,
    fun ⟨differ, leader, follower, cpr, shifted, other⟩ =>
      ⟨differ, leader, follower, fun j hj => (earlier j).mpr (other j hj), cpr, shifted⟩⟩

theorem Bank.pairFault_eq_some {k : Fin 4} (h : ¬((b.pairEntry k).active = true → b.SlotSound k))
    (before : ∀ j < k, (b.pairEntry j).active = true → b.SlotSound j) : b.pairFault = some (3, k.val * 2) := by
  refine findSome?_finRange (if_pos ?_) fun j hj => if_neg ?_
  · rwa [← Bank.slotConflict_eq_false_iff, Bool.not_eq_false] at h
  · rw [Bank.slotConflict_eq_false_iff.mpr (before j hj)]
    nofun

/-- STRUCTURE names a slot for a membership that differs, the fields being alike (R173). -/
theorem structureDiff_slot {x y : Bank} {k : Fin 4} (head : x.HeadKept y c) (shaft : x.ShaftKept y c)
    (h : y.role c ≠ x.role c) (hk : (x.role c).slot = some k ∨ ((x.role c).slot = none ∧ (y.role c).slot = some k)) :
    structureDiff x y c = some (3, k.val * 2) := by
  refine (if_neg head.not_differ).trans ((if_neg shaft.not_differ).trans ((if_neg h.symm).trans ?_))
  rcases hk with hk | ⟨hn, hk⟩
  · simp only [hk]
  · simp only [hn, hk]

/-! ### The reply -/

variable {s : State} {r : Request}

theorem State.swapReply_asked (hc : s.store.copy = none) (hp : s.store.swapPending = false) :
    s.swapReply = s.swapChecks := by
  simp [State.swapReply, hc, hp]

theorem State.swapChecks_curve {x : Nat × Nat} (h : scanChans s.shadow.curveFault = some x) :
    s.swapChecks = refuseSwap .curveOrder x := by
  simp only [State.swapChecks, h]

theorem State.swapChecks_limits {x : Nat × Nat} (hc : scanChans s.shadow.curveFault = none)
    (h : scanChans s.shadow.limitsFault = some x) : s.swapChecks = refuseSwap .limits x := by
  simp only [State.swapChecks, hc, h]

theorem State.swapChecks_pair {x : Nat × Nat} (hc : scanChans s.shadow.curveFault = none)
    (hl : scanChans s.shadow.limitsFault = none) (h : s.shadow.pairFault = some x) :
    s.swapChecks = refuseSwap .pairConflict x := by
  simp only [State.swapChecks, hc, hl, h]

theorem State.swapChecks_structure {x : Nat × Nat} (h : s.shadow.checked) (hs : s.structureFault = some x) :
    s.swapChecks = refuseSwap .structure' x := by
  simp only [State.swapChecks, h.1, h.2.1, h.2.2, hs]

theorem State.swapChecks_accepted (h : s.shadow.checked) (hs : s.structureFault = none) : s.swapChecks = ⟨.accepted, {}⟩ := by
  simp only [State.swapChecks, h.1, h.2.1, h.2.2, hs]

theorem exec_swapBanks_refused {x : Reply} (ready : s.ready) (h : s.swapReply = x) (hx : x.status ≠ .accepted) :
    exec (.swapBanks r) s = .next { s with ring := s.repliedRing 4 r x } := by
  have reply : s.started.swapReply = x := h
  refine outcome_of_reply ready ?_
  rw [State.onSwapBanks, reply, if_neg hx]

theorem exec_swapBanks_accepted (ready : s.ready) (h : s.swapReply = ⟨.accepted, {}⟩) :
    exec (.swapBanks r) s = .next { s with
      ring := s.repliedRing 4 r ⟨.accepted, {}⟩, store := { s.store with swapPending := true } } := by
  have reply : s.started.swapReply = ⟨.accepted, {}⟩ := h
  refine outcome_of_change (t := { s.started with store := { s.store with swapPending := true } }) ready ?_ rfl
  rw [State.onSwapBanks, reply]
  rfl

/-- The scans of the shadow by what each check asks. -/
theorem scan_curves_iff : scanChans b.curveFault = none ↔ ∀ c, (b.record c).inUse = true → b.Ascends c := by
  rw [scanChans_eq_none_iff]
  exact forall_congr' fun c => Bank.curveFault_eq_none_iff

theorem scan_limits_iff : scanChans b.limitsFault = none ↔ ∀ c, (b.record c).inUse = true → b.LimitsSound c := by
  rw [scanChans_eq_none_iff]
  exact forall_congr' fun c => Bank.limitsFault_eq_none_iff

/-- Settles O18, check by check: the scan that finds the first fault gives the reply. -/
theorem swapBanksChecksTheShadow : Obligations.SwapBanksChecksTheShadow := by
  intro r s ready b no derateXs fwXs ascend inRange fields volts within pairOk headSame shaftSame kept asked curves limits pairs
  have refused : ∀ {x : Status} {at' : Nat × Nat}, s.swapReply = refuseSwap x at' → x ≠ .accepted → no x at'.1 at'.2 :=
    fun h hx => exec_swapBanks_refused ready h hx
  have curve : ∀ {x}, asked → scanChans b.curveFault = some x → no .curveOrder x.1 x.2 := fun ha h =>
    refused ((State.swapReply_asked ha.1 ha.2).trans (State.swapChecks_curve h)) nofun
  have limit : ∀ {x}, curves → scanChans b.limitsFault = some x → no .limits x.1 x.2 := fun hc h =>
    refused ((State.swapReply_asked hc.1.1 hc.1.2).trans (State.swapChecks_limits (scan_curves_iff.mpr hc.2) h)) nofun
  have pairSound : ∀ k, pairOk k ↔ ((b.pairEntry k).active = true → b.SlotSound k) := fun k =>
    forall_congr' fun _ => Bank.slotSound_iff.symm
  have checked : pairs → b.checked := fun h =>
    ⟨scan_curves_iff.mpr h.1.1.2, scan_limits_iff.mpr h.1.2, Bank.pairFault_eq_none_iff.mpr fun k => (pairSound k).mp (h.2 k)⟩
  have keptIff : (∀ c, kept c) ↔ s.structureFault = none := by
    rw [State.structureFault_eq_none_iff]
    exact forall_congr' fun c => forall_congr' fun _ => Bank.structureKept_iff.symm
  have structure' : ∀ {x}, pairs → s.structureFault = some x → no .structure' x.1 x.2 := fun {x} hp h =>
    refused ((State.swapReply_asked hp.1.1.1.1 hp.1.1.1.2).trans (State.swapChecks_structure (checked hp) h)) nofun
  have structureAt : ∀ {c x}, pairs → s.st c ≠ .off → (∀ d < c, kept d) → structureDiff s.bank b c = some x →
      no .structure' x.1 x.2 := fun {c x} hp hc before h =>
    structure' hp (scanChans_eq_some ((if_neg hc).trans h) fun d hd => by
      by_cases off : s.st d = .off
      · exact if_pos off
      · exact (if_neg off).trans (structureDiff_eq_none_iff.mpr (Bank.structureKept_iff.mpr (before d hd off))))
  refine ⟨fun hc => ?_, fun hc hp => ?_, fun ha c hu before k h hk => ?_, fun ha c hu before k hd h hk => ?_,
    fun ha hn => ?_, fun hc c hu before => ?_, fun hc hn => ?_, fun hl k before hk => ?_, fun hp c hc before => ?_,
    fun hp hn => ?_, fun hp hk => ?_⟩
  · exact exec_swapBanks_refused ready (by rw [State.swapReply, if_pos (Option.isSome_iff_ne_none.mpr hc)]) nofun
  · exact exec_swapBanks_refused ready (by simp [State.swapReply, hc, hp]) nofun
  · exact curve ha (scanChans_eq_some (Bank.curveFault_derate hu (firstNotAscending_eq_some h hk))
      fun d hd => Bank.curveFault_eq_none_iff.mpr (before d hd))
  · have fault : b.curveFault c = some (2, c.val * 8 + k / 2) := by
      rw [Bank.curveFault_fw hu hd, firstNotAscending_eq_some h hk]
      rfl
    exact curve ha (scanChans_eq_some fault fun d hd => Bank.curveFault_eq_none_iff.mpr (before d hd))
  · obtain ⟨x, hx⟩ := Option.ne_none_iff_exists'.mp fun h => hn ⟨ha, scan_curves_iff.mp h⟩
    exact ⟨x.1, x.2, curve ha hx⟩
  · have at' : ∀ {x}, b.limitsFault c = some x → no .limits x.1 x.2 := fun h =>
      limit hc (scanChans_eq_some h fun d hd => Bank.limitsFault_eq_none_iff.mpr (before d hd))
    refine ⟨fun g hg hf => ?_, fun hg k h hk => ?_, fun hf hi => ?_, fun hf hi hv => ?_, fun hf hi hv hx => ?_⟩
    · exact at' (Bank.limitsFault_field hu (firstFalse_eq_some_of_take hg hf))
    · exact at' (Bank.limitsFault_point hu hg (Bank.pointMarks_eq_some h hk))
    · exact at' ((Bank.limitsFault_fields hu hf).trans (if_pos hi))
    · exact at' ((Bank.limitsFault_fields hu hf).trans ((if_neg (not_lt.mpr hi)).trans (if_pos hv)))
    · exact at' ((Bank.limitsFault_fields hu hf).trans
        ((if_neg (not_lt.mpr hi)).trans ((if_neg (not_not.mpr hv)).trans (if_pos hx))))
  · obtain ⟨x, hx⟩ := Option.ne_none_iff_exists'.mp fun h => hn ⟨hc, scan_limits_iff.mp h⟩
    exact ⟨x.1, x.2, limit hc hx⟩
  · have fault : b.pairFault = some (3, k.val * 2) :=
      Bank.pairFault_eq_some (fun h => hk ((pairSound k).mpr h)) fun j hj => (pairSound j).mp (before j hj)
    rw [Nat.mul_comm]
    exact refused ((State.swapReply_asked hl.1.1.1 hl.1.1.2).trans
      (State.swapChecks_pair (scan_curves_iff.mpr hl.1.2) (scan_limits_iff.mpr hl.2) fault)) nofun
  · refine ⟨fun head => ?_, fun head shaft => ?_, fun head shaft hr k hk => ?_⟩
    · exact structureAt hp hc before (structureDiff_head head)
    · exact structureAt hp hc before (structureDiff_shaft head shaft)
    · rw [Nat.mul_comm]
      exact structureAt hp hc before (structureDiff_slot head shaft hr hk)
  · obtain ⟨x, hx⟩ := Option.ne_none_iff_exists'.mp fun h => hn (keptIff.mpr h)
    exact ⟨x.1, x.2, structure' hp hx⟩
  · exact exec_swapBanks_accepted ready ((State.swapReply_asked hp.1.1.1.1 hp.1.1.1.2).trans
      (State.swapChecks_accepted (checked hp) (keptIff.mp hk)))

end Sys2Proof.Machine
end

