-- ==== Sys2Proof/Proofs/SwapEffect.lean ====
section
/-! PROOFS. SWAP_EFFECT: the exchange of the banks, what becomes of counters and charge counts, and BANK_SWAP_DONE. -/

namespace Sys2Proof.Machine

variable {s t : State}

/-! ### The exchange -/

theorem State.swapEffect_eq (s : State) : s.swapEffect = s.exchanged.raiseDev .bankSwapDone := rfl

/-- The blocks that a swap leaves. -/
theorem State.swapEffect_frame (s : State) : s.swapEffect =
    { s with store := s.swapEffect.store, pos := s.swapEffect.pos, sup := s.swapEffect.sup, mods := s.swapEffect.mods,
             router := s.swapEffect.router } := rfl

theorem State.trySwap_effective (hp : s.store.swapPending = true) (hf : s.structureFault = none) :
    s.trySwap = s.swapEffect := by
  simp [State.trySwap, hp, hf]

theorem State.trySwap_not_pending (hp : s.store.swapPending = false) : s.trySwap = s := by
  simp [State.trySwap, hp]

theorem State.trySwap_held (hf : s.structureFault ≠ none) : s.trySwap = s := by
  rw [State.trySwap, if_neg]
  simp [Option.isNone_iff_eq_none, hf]

theorem State.exchanged_shadow (s : State) : s.exchanged.shadow = s.bank := by
  have back : s.exchanged.store.shadowName = s.store.active := BankName.other_other _
  calc s.exchanged.store.bank s.exchanged.store.shadowName = s.store.swapped.bank s.store.active := by rw [back]; rfl
    _ = s.bank := s.store.bank_setState _ _ _

theorem Store.stateOf_swapped (st : Store) : st.swapped.stateOf st.swapped.active = .valid :=
  st.stateOf_setState _ _

theorem Store.stateOf_swapped_old (st : Store) : st.swapped.stateOf st.active = st.stateOf st.active :=
  st.stateOf_setState_of_ne (BankName.other_ne _).symm _

/-- A raise leaves the charge counts. -/
theorem State.raiseDev_chargeCount (k : DevKind) (d : Chan) :
    ((s.raiseDev k).sup.get d).chargeCount = (s.sup.get d).chargeCount := by
  obtain h | ⟨x, -, h⟩ | ⟨-, h⟩ := s.raiseDev_sup_cases k d <;> rw [h]
  rfl

/-- A raise that reaches a channel with no trip leaves its state, but that one in RUN may hold. -/
theorem State.raiseDev_st_of_not_trip {k : DevKind} (h : s.bank.devTripClass k = false) (d : Chan) :
    (s.raiseDev k).st d = s.st d ∨ (s.st d = .run ∧ (s.raiseDev k).st d = .hold) := by
  have unreached := ((s.raiseDev_acted k).unreached (d := d) (s.tripReach_none (Route.devTrip_none h) d)).2.2
  have st : (s.raiseDev k).st d = ((s.sup.get d).addCauses (s.holdReach ((s.bank.route k.code).devHold k) d)).st :=
    congrArg Supervisor.st unreached
  rw [st, Supervisor.addCauses]
  split_ifs with _ closing
  · exact .inl rfl
  · rcases (ChanState.closing_iff _).mp closing with run | hold
    · exact .inr ⟨run, rfl⟩
    · exact .inl hold.symm
  · exact .inl rfl

theorem Position.newCpr_fine (p : Position) {old new : Nat} (h : old ≠ new) :
    p.newCpr old new = { p with fine := (p.newCpr old new).fine, captured := none } ∧
      (p.newCpr old new).fine = if p.fine < new then p.fine else p.fine % new := by
  simp only [Position.newCpr, h, if_false, true_and]
  by_cases hlt : p.fine < new
  · simp [hlt]
  · simp [hlt, not_lt.mp hlt]

/-- Settles O19, from the exchange and what a raise of a device kind leaves. -/
theorem swapEffectExchangesBanks : Obligations.SwapEffectExchangesBanks := by
  refine ⟨fun s => ?_, fun s hp hf => ?_, fun s hp => congrArg _ (State.trySwap_not_pending hp)⟩
  · intro b keeps
    have kept : s.structureFault = none ↔ ∀ c, s.st c ≠ .off → keeps c :=
      s.structureFault_eq_none_iff.trans <| forall_congr' fun c => forall_congr' fun _ =>
        ⟨fun ⟨a, b, d, e, f, g, h⟩ => ⟨a, b, d, e, f, g, h⟩, fun ⟨a, b, d, e, f, g, h⟩ => ⟨a, b, d, e, f, g, h⟩⟩
    exact ⟨kept, fun _ c hc hn => congrArg _ (State.trySwap_held fun h => hn (kept.mp h c hc))⟩
  · refine ⟨s.swapEffect, congrArg _ (State.trySwap_effective hp hf), s.swapEffect_frame, ?_⟩
    rw [State.swapEffect_eq]
    have supOf := s.exchanged_sup_get
    have chargeOf : ∀ c, ((s.exchanged.raiseDev .bankSwapDone).sup.get c).chargeCount = (s.exchanged.sup.get c).chargeCount :=
      fun c => State.raiseDev_chargeCount _ c
    have bank := s.exchanged_bank
    have store := State.raiseDev_store s.exchanged .bankSwapDone
    have shadow : (s.exchanged.raiseDev .bankSwapDone).shadow = s.exchanged.shadow := by rw [State.shadow, store, State.shadow]
    refine ⟨(State.bank_congr store).trans bank, shadow.trans s.exchanged_shadow, by rw [store]; rfl, by rw [store]; exact s.store.stateOf_swapped,
      by rw [store]; exact s.store.stateOf_swapped_old, by rw [store]; rfl,
      by rw [store]; exact s.store.copy_setState _ _, State.raiseDev_devFlag_self _, State.raiseDev_lines _ _, fun quiet c => ?_, fun c k p h => ?_, fun c h => ?_, fun c => ?_⟩
    · rw [← bank] at quiet
      obtain ⟨mods, trips⟩ := State.raiseDev_quiet _ quiet
      refine ⟨congrArg (PerChan.get · c) mods, congrArg (PerChan.get · c) trips, ?_⟩
      have st : s.exchanged.st c = s.st c := (supOf c).1
      rw [← st]
      exact State.raiseDev_st_of_not_trip quiet c
    · rw [chargeOf, (supOf c).2.2, h]
    · rw [chargeOf, (supOf c).2.2]
      cases hr : s.shadow.role c with
      | follower => simp [hr, Role.isFollower] at h
      | lone | leader => rfl
    · have pos : (s.exchanged.raiseDev .bankSwapDone).pos.get c =
          (s.pos.get c).newCpr (s.record c).effectiveCpr (s.shadow.record c).effectiveCpr := PerChan.get_ofFn _ _
      intro old new
      rw [pos]
      exact ⟨fun h => if_pos h, Position.newCpr_fine _⟩

end Sys2Proof.Machine
end

