-- ==== Sys2Proof/Proofs/RaisedStates.lean ====
section
/-! PROOFS. What raises alone leave, whatever they trip and hold, and what the actions of a SYNC arrival do besides. -/

namespace Sys2Proof.Machine

variable {s t u : State}

/-! ### Raises -/

/-- A hold without the RING cause adds no RING cause. -/
theorem State.holdReach_ring {g : Chan → Causes} (h : ∀ c, (g c).ring = false) (c : Chan) : (s.holdReach g c).ring = false := by
  unfold State.holdReach
  cases (s.role c).partner with
  | none => exact h c
  | some p => simp [Causes.union, h]

theorem Supervisor.addCauses_ring {u : Supervisor} {x : Causes} (hu : u.causes.ring = false) (hx : x.ring = false) :
    (u.addCauses x).causes.ring = false := by
  unfold Supervisor.addCauses
  split_ifs
  · exact hu
  · simp [Causes.union, hu, hx]
  · exact hu

/-- What raises that hold with no RING cause leave of the state they find. -/
structure State.RaisedFrom (s t : State) : Prop where
  frame : t = { s with sup := t.sup, mods := t.mods, router := t.router }
  notOff : ∀ c, s.st c ≠ .off → t.st c ≠ .off
  idle : ∀ c, s.st c = .off ∨ s.st c = .trip → t.st c = .off ∨ t.st c = .trip
  setSeen : ∀ c, (t.sup.get c).setSeen = (s.sup.get c).setSeen
  chargeCount : ∀ c, (t.sup.get c).chargeCount = (s.sup.get c).chargeCount
  noRing : ∀ c, (s.sup.get c).causes.ring = false → (t.sup.get c).causes.ring = false
  devKept : t.router.devKept = s.router.devKept

namespace State.RaisedFrom

theorem refl (s : State) : s.RaisedFrom s :=
  ⟨rfl, fun _ => id, fun _ => id, fun _ => rfl, fun _ => rfl, fun _ => id, rfl⟩

theorem trans (h : s.RaisedFrom t) (h' : t.RaisedFrom u) : s.RaisedFrom u where
  frame := h'.frame.trans (by rw [h.frame])
  notOff c hc := h'.notOff c (h.notOff c hc)
  idle c hc := h'.idle c (h.idle c hc)
  setSeen c := (h'.setSeen c).trans (h.setSeen c)
  chargeCount c := (h'.chargeCount c).trans (h.chargeCount c)
  noRing c hc := h'.noRing c (h.noRing c hc)
  devKept := h'.devKept.trans h.devKept

/-- What one raise does to the supervisors, by the three cases of a channel. -/
theorem of_cases (frame : t = { s with sup := t.sup, mods := t.mods, router := t.router })
    (devKept : t.router.devKept = s.router.devKept)
    (cases : ∀ c, t.sup.get c = s.sup.get c ∨
      (∃ x, (s.st c).closing = true ∧ t.sup.get c = { s.sup.get c with st := .hold, causes := x }) ∨
      (s.st c ≠ .trip ∧ t.sup.get c = (s.sup.get c).enterTrip))
    (noRing : ∀ c, (s.sup.get c).causes.ring = false → (t.sup.get c).causes.ring = false) : s.RaisedFrom t where
  frame := frame
  devKept := devKept
  noRing := noRing
  notOff c hc := by
    obtain h | ⟨x, -, h⟩ | ⟨-, h⟩ := cases c
    · rwa [State.st, h]
    · rw [State.st, h]; nofun
    · rw [State.st, h]; nofun
  idle c hc := by
    obtain h | ⟨x, closing, h⟩ | ⟨-, h⟩ := cases c
    · rwa [State.st, h]
    · rcases (ChanState.closing_iff _).mp closing with e | e <;> simp [e] at hc
    · exact .inr (congrArg Supervisor.st h)
  setSeen c := by obtain h | ⟨x, -, h⟩ | ⟨-, h⟩ := cases c <;> rw [h]; rfl
  chargeCount c := by obtain h | ⟨x, -, h⟩ | ⟨-, h⟩ := cases c <;> rw [h]; rfl

theorem raiseChan (k : ChanKind) (c : Chan) : s.RaisedFrom (s.raiseChan k c) := by
  refine of_cases (s.raiseChan_frame k c) (s.raiseChan_devKept k c) (s.raiseChan_sup_cases k c) fun d hd => ?_
  rw [State.raiseChan_sup_get]
  refine Supervisor.addCauses_ring ?_ (State.holdReach_ring (fun _ => rfl) d)
  split
  · rfl
  · exact hd

theorem raiseDev {k : DevKind} (hk : k.fixedHold = false) : s.RaisedFrom (s.raiseDev k) := by
  refine of_cases (s.raiseDev_frame k) (s.raiseDev_devKept k) (s.raiseDev_sup_cases k) fun d hd => ?_
  rw [State.raiseDev_sup_get]
  refine Supervisor.addCauses_ring ?_ (State.holdReach_ring (fun _ => hk) d)
  split
  · rfl
  · exact hd

theorem raiseChanIf (b : Bool) (k : ChanKind) (c : Chan) : s.RaisedFrom (s.raiseChanIf b k c) := by
  cases b with
  | false => exact refl s
  | true => exact raiseChan k c

theorem foldl_raiseChanIf (found : Chan → Bool) (k : ChanKind) (l : List Chan) (s : State) :
    s.RaisedFrom (l.foldl (fun t c => t.raiseChanIf (found c) k c) s) := by
  induction l generalizing s with
  | nil => exact refl s
  | cons c l ih => exact (raiseChanIf _ k c).trans (ih _)

/-- A structure fault stays through raises: the channel at fault does not turn OFF. -/
theorem structureFault (h : s.RaisedFrom t) (hs : s.structureFault ≠ none) : t.structureFault ≠ none := by
  have store : t.store = s.store := by rw [h.frame]
  have bank : t.bank = s.bank := State.bank_congr store
  have shadow : t.shadow = s.shadow := by rw [State.shadow, store, State.shadow]
  rw [Ne, State.structureFault_eq_none_iff] at hs ⊢
  rw [bank, shadow]
  exact fun same => hs fun c hc => same c (h.notOff c hc)

end State.RaisedFrom

/-! ### The lock measurement -/

/-- The timebase after a lock measurement, with some channel busy or none (R97 to R101). -/
def Timebase.measured (t : Timebase) (busy : Bool) : Timebase :=
  if t.pend.isSome then t
  else match t.lock with
    | .free => { (if busy then t.slew t.lockError else t.realign) with lock := .acquire, acquire := 0 }
    | .acquire => (t.slew t.lockError).acquireJudged (decide (t.lockError.natAbs ≤ t.set.lockWindow))
    | .locked =>
      if t.lockError.natAbs ≤ t.set.lockWindow then t.slew t.lockError
      else { t.slew t.lockError with lock := .acquire, acquire := 0 }

theorem State.measureLock_tb (s : State) : s.measureLock.tb = s.tb.measured s.anyBusy := by
  unfold State.measureLock Timebase.measured
  split
  · rfl
  cases s.tb.lock with
  | free => cases s.anyBusy <;> rfl
  | acquire => rfl
  | locked =>
    by_cases h : s.tb.lockError.natAbs ≤ s.tb.set.lockWindow
    · simp [h]
    · simp [h]

/-- A measurement that realigns nothing and does not leave LOCKED writes the timebase alone. -/
theorem State.measureLock_slewed (h : s.tb.pend ≠ none ∨ s.tb.lock ≠ .free ∨ s.anyBusy = true)
    (hl : s.tb.lock = .locked → s.tb.pend ≠ none ∨ s.tb.lockError.natAbs ≤ s.tb.set.lockWindow) :
    s.measureLock = { s with tb := s.tb.measured s.anyBusy } := by
  unfold State.measureLock Timebase.measured
  by_cases hp : s.tb.pend = none
  · rw [hp]
    cases lock : s.tb.lock with
    | free =>
      have busy : s.anyBusy = true := by simpa [hp, lock] using h
      simp [busy, State.mapTb]
    | acquire => rfl
    | locked =>
      have within : s.tb.lockError.natAbs ≤ s.tb.set.lockWindow := by simpa [hp] using hl lock
      simp [within, State.mapTb]
  · rw [if_pos (Option.isSome_iff_ne_none.mpr hp), if_pos (Option.isSome_iff_ne_none.mpr hp)]

/-- A measurement that leaves LOCKED raises CARRIER_UNLOCK (R101). -/
theorem State.measureLock_unlocked (hp : s.tb.pend = none) (hl : s.tb.lock = .locked)
    (he : ¬s.tb.lockError.natAbs ≤ s.tb.set.lockWindow) :
    s.measureLock = { s with tb := s.tb.measured s.anyBusy }.raiseDev .carrierUnlock := by
  simp [State.measureLock, Timebase.measured, hp, hl, he, State.mapTb]

/-- A hard realign (R99). -/
theorem State.measureLock_realigned (hp : s.tb.pend = none) (hl : s.tb.lock = .free) (hb : s.anyBusy = false) :
    s.measureLock = { s with tb := s.tb.measured s.anyBusy, lanes := s.clearExpected.lanes, mods := s.measureLock.mods } := by
  simp only [State.measureLock, Timebase.measured, hp, hl, hb, Option.isSome_none]
  rfl

/-- A measurement writes the timebase, the expected marks of the lanes and the gate lines, and raises at most CARRIER_UNLOCK. -/
theorem State.measureLock_raisedFrom (s : State) : ∃ mods,
    State.RaisedFrom { s with tb := s.measureLock.tb, lanes := s.measureLock.lanes, mods := mods } s.measureLock ∧
      (s.measureLock.lanes = s.lanes ∨ s.measureLock.lanes = s.clearExpected.lanes) := by
  by_cases slewed : s.tb.pend ≠ none ∨ s.tb.lock ≠ .free ∨ s.anyBusy = true
  · by_cases stays : s.tb.lock = .locked → s.tb.pend ≠ none ∨ s.tb.lockError.natAbs ≤ s.tb.set.lockWindow
    · rw [State.measureLock_slewed slewed stays]
      exact ⟨s.mods, .refl _, .inl rfl⟩
    · push Not at stays
      obtain ⟨locked, settled, outside⟩ := stays
      rw [State.measureLock_unlocked settled locked (not_le.mpr outside)]
      exact ⟨s.mods, .raiseDev rfl, .inl rfl⟩
  · push Not at slewed
    obtain ⟨settled, free, idle⟩ := slewed
    have realigned := State.measureLock_realigned settled free (Bool.eq_false_iff.mpr idle)
    generalize s.measureLock = t at realigned ⊢
    refine ⟨t.mods, ?_, ?_⟩
    · rw [realigned]
      exact .refl _
    · exact .inr (by rw [realigned])

/-! ### The other actions of a SYNC arrival -/

theorem State.endLoss_eq (s : State) : s.endLoss =
    { s with tb := { s.tb with lossCount := 0, lossMark := false }
             router := { s.router with devKept := s.router.devKept.put .ringLoss false } } := rfl

/-- A judgement is raises on the judged supervisors (R134). -/
theorem State.judgeStaleness_raisedFrom (s : State) :
    State.RaisedFrom { s with sup := s.judgedSup } s.judgeStaleness :=
  .foldl_raiseChanIf _ _ _ _

/-- A judgement of channels in OFF and TRIP raises nothing. -/
theorem State.judgeStaleness_idle (h : ∀ c, s.st c = .off ∨ s.st c = .trip) :
    s.judgeStaleness = { s with sup := s.judgedSup } := by
  have none_found : ∀ c, s.staleFound c = false := fun c => by
    have idle : (s.st c).closing = false := by rcases h c with e | e <;> rw [e] <;> rfl
    simp [State.staleFound, State.judged, idle]
  have skip : ∀ (l : List Chan) (t : State), l.foldl (fun t c => t.raiseChanIf (s.staleFound c) .setpointStale c) t = t := by
    intro l t
    induction l with
    | nil => rfl
    | cons c l ih => rw [List.foldl_cons, none_found c]; exact ih
  exact skip _ _

/-- What the actions of a SYNC arrival leave, apart from the swap. -/
structure State.Synced (s t : State) : Prop where
  frame : t = { s with tb := t.tb, lanes := t.lanes, sup := t.sup, mods := t.mods, router := t.router }
  tb : t.tb = { s.tb.measured s.anyBusy with lossCount := 0, lossMark := false }
  lanes : t.lanes = s.measureLock.lanes
  cleared : ∀ c, (t.sup.get c).causes.ring = false ∧ (t.sup.get c).setSeen = false
  chargeCount : ∀ c, (t.sup.get c).chargeCount = (s.sup.get c).chargeCount
  notOff : ∀ c, s.st c ≠ .off → t.st c ≠ .off
  ringLoss : t.router.devKept.ringLoss = false

theorem State.syncActions_synced (s : State) : s.Synced s.syncActions := by
  obtain ⟨mods, measured, -⟩ := s.measureLock_raisedFrom
  have judged := s.measureLock.endLoss.removeRing.judgeStaleness_raisedFrom
  have found : s.measureLock.endLoss.removeRing.judgeStaleness = s.syncActions := rfl
  have measuredTb := s.measureLock_tb
  rw [found] at judged
  generalize s.syncActions = t at judged ⊢
  generalize hm : s.measureLock = m at *
  have tb : t.tb = { m.tb with lossCount := 0, lossMark := false } := by rw [judged.frame]; rfl
  have lanes : t.lanes = m.lanes := by rw [judged.frame]; rfl
  have sup : ∀ c, (m.endLoss.removeRing.judgedSup.get c).causes.ring = false ∧
      (m.endLoss.removeRing.judgedSup.get c).setSeen = false ∧
      (m.endLoss.removeRing.judgedSup.get c).chargeCount = (m.sup.get c).chargeCount ∧
      (m.endLoss.removeRing.judgedSup.get c).st = m.st c := fun c => by
    simp only [State.judgedSup, State.removeRing, PerChan.get_ofFn]
    exact ⟨trivial, trivial, rfl, rfl⟩
  refine ⟨?_, by rw [tb, measuredTb], lanes.trans (by rw [hm]), fun c => ⟨judged.noRing c (sup c).1, (judged.setSeen c).trans (sup c).2.1⟩,
    fun c => ((judged.chargeCount c).trans (sup c).2.2.1).trans (measured.chargeCount c), fun c hc => judged.notOff c ?_, ?_⟩
  · calc t = { m with tb := t.tb, sup := t.sup, mods := t.mods, router := t.router } := by rw [judged.frame]; rfl
      _ = { s with tb := t.tb, lanes := m.lanes, sup := t.sup, mods := t.mods, router := t.router } := by rw [measured.frame]
      _ = _ := by rw [lanes]
  · exact fun off => measured.notOff c hc ((sup c).2.2.2.symm.trans off)
  · rw [judged.devKept]
    rfl

/-- With every channel in OFF or TRIP a SYNC arrival that does not leave LOCKED changes no state. -/
theorem State.syncActions_idle (h : ∀ c, s.st c = .off ∨ s.st c = .trip) (hl : s.tb.lock ≠ .locked) :
    ∀ c, s.syncActions.st c = s.st c := by
  have sup : s.measureLock.sup = s.sup := by
    by_cases slewed : s.tb.pend ≠ none ∨ s.tb.lock ≠ .free ∨ s.anyBusy = true
    · rw [State.measureLock_slewed slewed fun e => absurd e hl]
    · push Not at slewed
      obtain ⟨settled, free, idle⟩ := slewed
      rw [State.measureLock_realigned settled free (Bool.eq_false_iff.mpr idle)]
  have st : ∀ c, s.measureLock.endLoss.removeRing.st c = s.st c := fun c => by
    rw [State.st, State.removeRing, PerChan.get_ofFn, State.endLoss_eq, sup]
    rfl
  intro c
  rw [State.syncActions, State.judgeStaleness_idle fun d => by rw [st d]; exact h d, ← st c]
  show (s.measureLock.endLoss.removeRing.judgedSup.get c).st = _
  rw [State.judgedSup, PerChan.get_ofFn]
  rfl

/-! ### A pending swap -/

/-- What a swap, where it takes effect, leaves besides its exchange. -/
theorem State.exchanged_raisedFrom (s : State) : s.exchanged.RaisedFrom s.swapEffect := .raiseDev rfl

theorem State.trySwap_cases (s : State) :
    (s.trySwap = s ∧ (s.store.swapPending = false ∨ s.structureFault ≠ none)) ∨
      (s.trySwap = s.swapEffect ∧ s.store.swapPending = true ∧ s.structureFault = none) := by
  cases hp : s.store.swapPending with
  | false => exact .inl ⟨State.trySwap_not_pending hp, .inl rfl⟩
  | true =>
    by_cases hf : s.structureFault = none
    · exact .inr ⟨State.trySwap_effective hp hf, rfl, hf⟩
    · exact .inl ⟨State.trySwap_held hf, .inr hf⟩

theorem State.trySwap_of_not (h : s.store.swapPending = false ∨ s.structureFault ≠ none) : s.trySwap = s :=
  h.elim State.trySwap_not_pending State.trySwap_held

/-- What a swap that takes effect, or not, leaves of each supervisor. -/
theorem State.trySwap_sup (s : State) (c : Chan) :
    (s.st c ≠ .off → s.trySwap.st c ≠ .off) ∧
      (s.st c = .off ∨ s.st c = .trip → s.trySwap.st c = .off ∨ s.trySwap.st c = .trip) ∧
      (s.trySwap.sup.get c).setSeen = (s.sup.get c).setSeen ∧
      ((s.sup.get c).causes.ring = false → (s.trySwap.sup.get c).causes.ring = false) := by
  obtain ⟨e, -⟩ | ⟨e, -⟩ := s.trySwap_cases
  · rw [e]
    exact ⟨id, id, rfl, id⟩
  · rw [e]
    obtain ⟨st, causes, -⟩ := s.exchanged_sup_get c
    have st' : s.exchanged.st c = s.st c := st
    have seen : (s.exchanged.sup.get c).setSeen = (s.sup.get c).setSeen := by
      rw [State.exchanged, PerChan.get_ofFn, State.pairedSup]
      cases s.shadow.role c <;> rfl
    have raised := s.exchanged_raisedFrom
    refine ⟨fun h => raised.notOff c (by rwa [st']), fun h => raised.idle c (by rwa [st']), (raised.setSeen c).trans seen,
      fun h => raised.noRing c (by rwa [causes])⟩

end Sys2Proof.Machine
end

