-- ==== Sys2Proof/Proofs/SyncArrivals.lean ====
section
/-! PROOFS. SYNC arrivals at a normal station: what they clear, what they keep, the lock, and the hard realign. -/

namespace Sys2Proof.Machine

variable {s t u v : State}

/-! ### The arrival -/

/-- A SYNC arrival at a normal station is its actions on the state of its tick, with the ring port apart. -/
theorem exec_syncArrival (ready : s.ready) (w : Word) (n : Nat) (o : SyncOrder) :
    ∃ r, exec (.syncArrival w n o) s =
      .next { State.syncWithSwap o.swapFirst { s.advance (min n s.tb.left) with ring := r } with
        ring := { (s.advance (min n s.tb.left)).slotRing .unchanged with lastCycle := w } } := by
  obtain ⟨normal, boundary⟩ := ready
  have ring := s.advance_ring (min n s.tb.left)
  generalize hu : s.advance (min n s.tb.left) = u at ring ⊢
  have opened : u.cellOpened = u.started := u.cellOpened_boundary fun p hp => boundary p (by rwa [ring] at hp)
  have through : u.started.transparent = false := by
    rw [State.transparent] at normal ⊢
    rwa [← ring] at normal
  have run : exec (.syncArrival w n o) s = .next (u.started.syncNow w o).forwarded := by
    show (if (s.advance (min n s.tb.left)).cellOpened.transparent then _ else _) = _
    rw [hu, opened, if_neg (Bool.eq_false_iff.mp through)]
  rw [run]
  cases hc : o.cycleFirst with
  | false =>
    refine ⟨u.started.ring, congrArg _ ?_⟩
    have acted := u.started.syncWithSwap_ring o.swapFirst
    have same : ({ u with ring := u.started.ring } : State) = u.started := rfl
    rw [same, State.syncNow, hc]
    generalize u.started.syncWithSwap o.swapFirst = x at acted ⊢
    show ({ x with ring := { x.ring with lastCycle := w, cell := none, out := .unchanged } } : State) = _
    rw [acted]
    rfl
  | true =>
    refine ⟨(u.started.recordCycle w).ring, congrArg _ ?_⟩
    have acted := (u.started.recordCycle w).syncWithSwap_ring o.swapFirst
    have same : ({ u with ring := (u.started.recordCycle w).ring } : State) = u.started.recordCycle w := rfl
    rw [same, State.syncNow, hc]
    generalize (u.started.recordCycle w).syncWithSwap o.swapFirst = x at acted ⊢
    show ({ x with ring := { x.ring with cell := none, out := .unchanged } } : State) = _
    rw [acted]
    rfl

/-! ### Actions and swap together -/

theorem State.syncWithSwap_true (s : State) : s.syncWithSwap true = s.trySwap.syncActions := rfl

theorem State.syncWithSwap_false (s : State) : s.syncWithSwap false = s.syncActions.trySwap := rfl

/-- With no swap to take effect an arrival is its actions alone. -/
theorem State.syncWithSwap_unswapped (h : s.store.swapPending = false ∨ s.structureFault ≠ none) (b : Bool) :
    s.syncWithSwap b = s.syncActions := by
  cases b with
  | true => rw [State.syncWithSwap_true, State.trySwap_of_not h]
  | false =>
    rw [State.syncWithSwap_false]
    have synced := s.syncActions_synced
    refine State.trySwap_of_not (h.imp (fun hp => by rwa [State.syncActions_store]) fun hf => ?_)
    have store := s.syncActions_store
    have bank : s.syncActions.bank = s.bank := State.bank_congr store
    have shadow : s.syncActions.shadow = s.shadow := by rw [State.shadow, store, State.shadow]
    rw [Ne, State.structureFault_eq_none_iff] at hf ⊢
    rw [bank, shadow]
    exact fun same => hf fun c hc => same c (synced.notOff c hc)

/-- The timebase after an arrival; a swap that takes effect can change which channels are busy. -/
theorem State.syncWithSwap_tb (s : State) (b : Bool) : (s.syncWithSwap b).tb =
    { s.tb.measured (if b then s.trySwap.anyBusy else s.anyBusy) with lossCount := 0, lossMark := false } := by
  cases b with
  | true => rw [State.syncWithSwap_true, s.trySwap.syncActions_synced.tb, State.trySwap_tb]; rfl
  | false => rw [State.syncWithSwap_false, State.trySwap_tb, s.syncActions_synced.tb]; rfl

theorem State.trySwap_router_devKept (s : State) : s.trySwap.router.devKept = s.router.devKept := by
  obtain ⟨e, -⟩ | ⟨e, -⟩ := s.trySwap_cases
  · rw [e]
  · rw [e, s.exchanged_raisedFrom.devKept]
    rfl

theorem State.syncWithSwap_cleared (s : State) (b : Bool) (c : Chan) :
    ((s.syncWithSwap b).sup.get c).causes.ring = false ∧ ((s.syncWithSwap b).sup.get c).setSeen = false := by
  cases b with
  | true => exact s.trySwap.syncActions_synced.cleared c
  | false =>
    obtain ⟨ring, seen⟩ := s.syncActions_synced.cleared c
    obtain ⟨-, -, seen', ring'⟩ := s.syncActions.trySwap_sup c
    exact ⟨ring' ring, seen'.trans seen⟩

theorem State.syncWithSwap_ringLoss (s : State) (b : Bool) : (s.syncWithSwap b).router.devKept.ringLoss = false := by
  cases b with
  | true => exact s.trySwap.syncActions_synced.ringLoss
  | false => rw [State.syncWithSwap_false, State.trySwap_router_devKept]; exact s.syncActions_synced.ringLoss

/-- The lanes after an arrival: those it found, or with the expected marks clear. -/
theorem State.syncWithSwap_lanes (s : State) (b : Bool) :
    (s.syncWithSwap b).lanes = s.lanes ∨ (s.syncWithSwap b).lanes = s.clearExpected.lanes := by
  cases b with
  | true =>
    obtain ⟨-, -, lanes⟩ := s.trySwap.measureLock_raisedFrom
    rw [State.syncWithSwap_true, s.trySwap.syncActions_synced.lanes]
    exact lanes.imp (·.trans s.trySwap_lanes) (·.trans (by simp only [State.clearExpected, State.trySwap_lanes]))
  | false =>
    obtain ⟨-, -, lanes⟩ := s.measureLock_raisedFrom
    rw [State.syncWithSwap_false, State.trySwap_lanes, s.syncActions_synced.lanes]
    exact lanes

theorem State.syncWithSwap_lane (s : State) (b : Bool) (c : Chan) :
    ∃ x, (s.syncWithSwap b).lanes.get c = { s.lanes.get c with expected := x } := by
  rcases s.syncWithSwap_lanes b with e | e
  · exact ⟨(s.lanes.get c).expected, by rw [e]⟩
  · exact ⟨false, by rw [e, State.clearExpected, PerChan.get_ofFn]⟩

theorem State.trySwap_pos (s : State) (c : Chan) : (s.trySwap.pos.get c).rev = (s.pos.get c).rev ∧
    (s.trySwap.pos.get c).latched = (s.pos.get c).latched := by
  obtain ⟨e, -⟩ | ⟨e, -⟩ := s.trySwap_cases
  · rw [e]
    exact ⟨rfl, rfl⟩
  · have pos : s.swapEffect.pos.get c =
        (s.pos.get c).newCpr (s.record c).effectiveCpr (s.shadow.record c).effectiveCpr := PerChan.get_ofFn _ _
    rw [e, pos, Position.newCpr]
    split <;> exact ⟨rfl, rfl⟩

theorem State.syncWithSwap_pos (s : State) (b : Bool) (c : Chan) :
    ((s.syncWithSwap b).pos.get c).rev = (s.pos.get c).rev ∧
      ((s.syncWithSwap b).pos.get c).latched = (s.pos.get c).latched := by
  cases b with
  | true => rw [State.syncWithSwap_true, State.syncActions_pos]; exact s.trySwap_pos c
  | false =>
    have pos := s.syncActions_pos
    have swapped := s.syncActions.trySwap_pos c
    rwa [pos] at swapped

/-- A measurement keeps the settings and INH_N's filter. -/
theorem Timebase.measured_keeps (t : Timebase) (b : Bool) : (t.measured b).set = t.set ∧ (t.measured b).pend = t.pend ∧
    (t.measured b).inh = t.inh := by
  unfold Timebase.measured Timebase.acquireJudged
  split
  · exact ⟨rfl, rfl, rfl⟩
  · cases t.lock <;> dsimp only <;> split_ifs <;> exact ⟨rfl, rfl, rfl⟩

/-- With every channel in OFF or TRIP, STRUCTURE holding and the lock not LOCKED, a pending swap takes effect. -/
theorem State.syncWithSwap_swaps (hp : s.store.swapPending = true) (hf : s.structureFault = none)
    (idle : ∀ c, s.st c = .off ∨ s.st c = .trip) (hl : s.tb.lock ≠ .locked) (b : Bool) :
    (s.syncWithSwap b).store = s.store.swapped := by
  cases b with
  | true => rw [State.syncWithSwap_true, State.syncActions_store, State.trySwap_effective hp hf]; rfl
  | false =>
    have store := s.syncActions_store
    have bank : s.syncActions.bank = s.bank := State.bank_congr store
    have shadow : s.syncActions.shadow = s.shadow := by rw [State.shadow, store, State.shadow]
    have kept : s.syncActions.structureFault = none := by
      rw [State.structureFault_eq_none_iff] at hf ⊢
      intro c hc
      rw [s.syncActions_idle idle hl c] at hc
      rw [bank, shadow]
      exact hf c hc
    rw [State.syncWithSwap_false, State.trySwap_effective (by rwa [store]) kept]
    show s.syncActions.store.swapped = _
    rw [store]

/-- Settles O35, from what the actions clear and leave and what a swap leaves. -/
theorem syncArrivalActs : Obligations.SyncArrivalActs := by
  intro w n o s ready u
  obtain ⟨r, run⟩ := exec_syncArrival ready w n o
  refine ⟨_, run, rfl, ?_⟩
  generalize hv : ({ u with ring := r } : State) = v at run ⊢
  have tb : v.tb = u.tb := by rw [← hv]
  have lanes : v.lanes = u.lanes := by rw [← hv]
  have pos : v.pos = u.pos := by rw [← hv]
  have store : v.store = u.store := by rw [← hv]
  have sup : v.sup = u.sup := by rw [← hv]
  have blocks : v.engine = u.engine ∧ v.loop = u.loop ∧ v.refs = u.refs ∧ v.pairs = u.pairs := by
    rw [← hv]
    exact ⟨rfl, rfl, rfl, rfl⟩
  have fault : v.structureFault = u.structureFault := by rw [← hv]; rfl
  have actedTb := v.syncWithSwap_tb o.swapFirst
  rw [tb] at actedTb
  obtain ⟨set, pend, inh⟩ := u.tb.measured_keeps (if o.swapFirst then v.trySwap.anyBusy else v.anyBusy)
  refine ⟨by rw [actedTb], by rw [actedTb], v.syncWithSwap_ringLoss _, by rw [actedTb]; exact set, by rw [actedTb]; exact pend,
    by rw [actedTb]; exact inh, (v.syncWithSwap_engine _).trans blocks.1, (v.syncWithSwap_loop _).trans blocks.2.1,
    (v.syncWithSwap_refs _).trans blocks.2.2.1, (v.syncWithSwap_pairs _).trans blocks.2.2.2, fun c => ?_, fun h => ?_,
    fun hp hf idle hl => ?_⟩
  · obtain ⟨ring, seen⟩ := v.syncWithSwap_cleared o.swapFirst c
    obtain ⟨x, lane⟩ := v.syncWithSwap_lane o.swapFirst c
    obtain ⟨rev, latched⟩ := v.syncWithSwap_pos o.swapFirst c
    rw [pos] at rev latched
    rw [lanes] at lane
    exact ⟨ring, seen, by rw [lane], by rw [lane], by rw [lane], rev, latched⟩
  · rw [← store, ← fault] at h
    have alone := State.syncWithSwap_unswapped h o.swapFirst
    rw [alone]
    exact ⟨v.syncActions_store.trans store, v.syncActions_pos.trans pos,
      fun c => (v.syncActions_synced.chargeCount c).trans (by rw [sup])⟩
  · have swapped : (v.syncWithSwap o.swapFirst).store = u.store.swapped := by
      rw [← store]
      refine State.syncWithSwap_swaps (by rwa [store]) (fault.trans hf) (fun c => ?_) (by rwa [tb]) _
      rw [State.st, sup]
      exact idle c
    have bank : (v.syncWithSwap o.swapFirst).bank = u.exchanged.bank := State.bank_congr swapped
    have shadow : (v.syncWithSwap o.swapFirst).shadow = u.exchanged.shadow := by
      rw [State.shadow, swapped]
      rfl
    exact ⟨bank.trans u.exchanged_bank, shadow.trans u.exchanged_shadow⟩

end Sys2Proof.Machine
end

