-- ==== Sys2Proof/Proofs/LockArrivals.lean ====
section
/-! PROOFS. The lock at a SYNC arrival: its error, the slew, the lock state, CARRIER_UNLOCK, and the hard realign. -/

namespace Sys2Proof.Machine

variable {s t u v : State}

/-! ### The lock error -/

theorem Timebase.lockError_eq (t : Timebase) : t.lockError =
    ((t.pos : Int) - (t.set.qt : Int) % (2 * t.set.n * t.set.p) + (2 * t.set.n * t.set.p : Int) / 2) %
      (2 * t.set.n * t.set.p) - (2 * t.set.n * t.set.p : Int) / 2 := by
  simp only [Timebase.lockError, Settings.target, Settings.cycleLength, Int.natCast_emod, Nat.cast_mul, Nat.cast_ofNat]

theorem State.anyBusy_iff (s : State) : s.anyBusy = true ↔
    ∃ c, s.st c = .charge ∨ s.st c = .run ∨ s.st c = .hold ∨ s.st c = .stopping := by
  have busy : ∀ x : ChanState, x.busy = true ↔ x = .charge ∨ x = .run ∨ x = .hold ∨ x = .stopping := by
    intro x
    cases x <;> decide
  simp only [State.anyBusy, List.any_eq_true, List.mem_finRange, true_and, busy]

theorem State.anyBusy_eq_false (h : ∀ c, s.st c = .off ∨ s.st c = .trip) : s.anyBusy = false := by
  rw [Bool.eq_false_iff, Ne, State.anyBusy_iff]
  rintro ⟨c, hc⟩
  rcases h c with e | e <;> simp [e] at hc

/-! ### The timebase measured -/

variable {x : Timebase} {b : Bool}

theorem Timebase.measured_pending (h : x.pend ≠ none) (b : Bool) : x.measured b = x :=
  if_pos (Option.isSome_iff_ne_none.mpr h)

/-- Whether a channel is busy matters in FREE alone. -/
theorem Timebase.measured_congr (h : x.lock ≠ .free) (b b' : Bool) : x.measured b = x.measured b' := by
  unfold Timebase.measured
  cases hl : x.lock with
  | free => exact absurd hl h
  | acquire | locked => rfl

theorem Timebase.measured_slew (hp : x.pend = none) (h : x.lock ≠ .free ∨ b = true) :
    x.measured b = { x.slew x.lockError with lock := (x.measured b).lock, acquire := (x.measured b).acquire } := by
  unfold Timebase.measured Timebase.acquireJudged
  rw [hp]
  cases hl : x.lock with
  | free => simp [h.resolve_left fun n => n hl]
  | acquire =>
    simp only [Option.isSome_none, Bool.false_eq_true, if_false]
    split_ifs <;> simp [Timebase.slew, hl]
  | locked =>
    simp only [Option.isSome_none, Bool.false_eq_true, if_false]
    split_ifs <;> simp [Timebase.slew, hl]

theorem Timebase.measured_free (hp : x.pend = none) (hl : x.lock = .free) :
    (x.measured b).lock = .acquire ∧ (x.measured b).acquire = 0 := by
  unfold Timebase.measured
  rw [hp, hl]
  exact ⟨rfl, rfl⟩

theorem Timebase.measured_acquire (hp : x.pend = none) (hl : x.lock = .acquire) :
    x.measured b = (x.slew x.lockError).acquireJudged (decide (x.lockError.natAbs ≤ x.set.lockWindow)) := by
  unfold Timebase.measured
  rw [hp, hl]
  rfl

theorem Timebase.measured_locked (hp : x.pend = none) (hl : x.lock = .locked) :
    x.measured b = if x.lockError.natAbs ≤ x.set.lockWindow then x.slew x.lockError
      else { x.slew x.lockError with lock := .acquire, acquire := 0 } := by
  unfold Timebase.measured
  rw [hp, hl]
  rfl

theorem Timebase.measured_realign (hp : x.pend = none) (hl : x.lock = .free) :
    x.measured false = { x.realign with lock := .acquire, acquire := 0 } := by
  unfold Timebase.measured
  rw [hp, hl]
  rfl

/-! ### Flags of the device -/

theorem State.trySwap_devFlag {k : DevKind} (hk : k ≠ .bankSwapDone) (s : State) : s.trySwap.devFlag k = s.devFlag k := by
  obtain ⟨e, -⟩ | ⟨e, -⟩ := s.trySwap_cases
  · rw [e]
  · rw [e, State.swapEffect_eq, State.raiseDev_devFlag_of_ne hk]
    rfl

theorem State.syncActions_devFlag (k : DevKind) (s : State) : s.syncActions.devFlag k = s.measureLock.devFlag k := by
  have judged := foldl_keeps
    (fun (t : State) (c : Chan) => t.raiseChanIf (s.measureLock.endLoss.removeRing.staleFound c) .setpointStale c)
    (fun t => t.devFlag k)
    (fun t c => by unfold State.raiseChanIf; split <;> simp) (List.finRange 8)
    { s.measureLock.endLoss.removeRing with sup := s.measureLock.endLoss.removeRing.judgedSup }
  exact judged.trans rfl

/-- A measurement raises CARRIER_UNLOCK exactly where it leaves LOCKED. -/
theorem State.measureLock_carrierUnlock (s : State) : s.measureLock.devFlag .carrierUnlock =
    if s.tb.pend = none ∧ s.tb.lock = .locked ∧ ¬s.tb.lockError.natAbs ≤ s.tb.set.lockWindow then
      { isSet := true, count := min 65535 ((s.devFlag .carrierUnlock).count + 1) }
    else s.devFlag .carrierUnlock := by
  split
  · next h =>
    obtain ⟨hp, hl, he⟩ := h
    rw [State.measureLock_unlocked hp hl he]
    exact State.raiseDev_devFlag_self _
  · next h =>
    by_cases slewed : s.tb.pend ≠ none ∨ s.tb.lock ≠ .free ∨ s.anyBusy = true
    · rw [State.measureLock_slewed slewed (by tauto)]
      rfl
    · push Not at slewed
      obtain ⟨settled, free, idle⟩ := slewed
      rw [State.measureLock_realigned settled free (Bool.eq_false_iff.mpr idle)]
      rfl

theorem State.syncWithSwap_carrierUnlock (s : State) (b : Bool) : (s.syncWithSwap b).devFlag .carrierUnlock =
    if s.tb.pend = none ∧ s.tb.lock = .locked ∧ ¬s.tb.lockError.natAbs ≤ s.tb.set.lockWindow then
      { isSet := true, count := min 65535 ((s.devFlag .carrierUnlock).count + 1) }
    else s.devFlag .carrierUnlock := by
  cases b with
  | true =>
    rw [State.syncWithSwap_true, State.syncActions_devFlag, State.measureLock_carrierUnlock, State.trySwap_devFlag (by decide),
      State.trySwap_tb]
  | false =>
    rw [State.syncWithSwap_false, State.trySwap_devFlag (by decide), State.syncActions_devFlag, State.measureLock_carrierUnlock]

/-! ### LOCK_REACHED and the measurement -/

theorem exec_lockReached (hl : s.tb.lock = .acquire) (ha : s.tb.acquire = 3) :
    exec .lockReached s = .next { s with tb := { s.tb with lock := .locked, acquire := 0 } } :=
  if_pos ⟨hl, by omega⟩

/-- The timebase after an arrival at which no swap changes whether a channel is busy. -/
theorem State.syncWithSwap_measured (h : v.store.swapPending = false ∨ v.structureFault ≠ none ∨ v.tb.lock ≠ .free) (b : Bool) :
    (v.syncWithSwap b).tb = { v.tb.measured v.anyBusy with lossCount := 0, lossMark := false } := by
  rw [State.syncWithSwap_tb]
  by_cases hl : v.tb.lock = .free
  · rw [State.trySwap_of_not (by tauto), ite_self]
  · rw [Timebase.measured_congr hl _ v.anyBusy]

/-- Settles O36, from the timebase measured and the raise of CARRIER_UNLOCK. -/
theorem lockMeasurement : Obligations.LockMeasurement := by
  refine ⟨fun w n o s ready => ?_, fun s => exec_lockReached⟩
  intro u len e c within hs
  obtain ⟨r, run⟩ := exec_syncArrival ready w n o
  refine ⟨_, run, ?_⟩
  have error : e = u.tb.lockError := u.tb.lockError_eq.symm
  have inside : within ↔ u.tb.lockError.natAbs ≤ u.tb.set.lockWindow := by
    show (-(u.tb.set.lockWindow : Int) ≤ e ∧ e ≤ u.tb.set.lockWindow) ↔ _
    rw [error]
    omega
  have slew : u.tb.slew u.tb.lockError = { u.tb with corr := c, corrLeft := u.tb.set.n } := by
    rw [← error]
    rfl
  have tb := State.syncWithSwap_measured (v := { u with ring := r }) hs o.swapFirst
  have unlock := State.syncWithSwap_carrierUnlock { u with ring := r } o.swapFirst
  generalize State.syncWithSwap o.swapFirst { u with ring := r } = x at tb unlock ⊢
  have tb' : x.tb = { u.tb.measured u.anyBusy with lossCount := 0, lossMark := false } := tb
  have unlock' : x.devFlag .carrierUnlock =
      if u.tb.pend = none ∧ u.tb.lock = .locked ∧ ¬u.tb.lockError.natAbs ≤ u.tb.set.lockWindow then
        { isSet := true, count := min 65535 ((u.devFlag .carrierUnlock).count + 1) }
      else u.devFlag .carrierUnlock := unlock
  show (_ → x.tb = _) ∧ (_ → _ → x.tb = _) ∧ (_ → _ → x.tb.lock = _ ∧ x.tb.acquire = _) ∧
    (_ → _ → _ → _ → x.tb.lock = _ ∧ x.tb.acquire = _) ∧ (_ → _ → _ → _ → x.tb.lock = _ ∧ x.tb.acquire = _) ∧
    (_ → _ → _ → x.tb.lock = _ ∧ x.tb.acquire = _) ∧
    (_ → _ → _ → x.tb.lock = _ ∧ x.tb.acquire = _ ∧ x.devFlag .carrierUnlock = _) ∧
    (_ → _ → _ → x.tb.lock = _ ∧ x.tb.acquire = _ ∧ x.devFlag .carrierUnlock = _)
  rw [tb', unlock']
  refine ⟨fun hp => ?_, fun hp hl => ?_, fun hp hl => Timebase.measured_free hp hl, fun hp hl hw ha => ?_,
    fun hp hl hw ha => ?_, fun hp hl hw => ?_, fun hp hl hw => ?_, fun hp hl hw => ?_⟩
  · rw [Timebase.measured_pending hp]
  · rw [Timebase.measured_slew hp (hl.imp_right u.anyBusy_iff.mpr), slew]
  · rw [Timebase.measured_acquire hp hl, decide_eq_true (inside.mp hw), slew]
    have few : u.tb.acquire + 1 < 4 := by omega
    simp [Timebase.acquireJudged, hl, few]
  · rw [Timebase.measured_acquire hp hl, decide_eq_true (inside.mp hw), slew]
    simp [Timebase.acquireJudged, ha]
  · rw [Timebase.measured_acquire hp hl, decide_eq_false (inside.not.mp hw), slew]
    simp [Timebase.acquireJudged, hl]
  · rw [Timebase.measured_locked hp hl, if_pos (inside.mp hw), slew, if_neg (fun h => h.2.2 (inside.mp hw))]
    exact ⟨hl, rfl, rfl⟩
  · rw [Timebase.measured_locked hp hl, if_neg (inside.not.mp hw), slew, if_pos ⟨hp, hl, inside.not.mp hw⟩]
    exact ⟨rfl, rfl, rfl⟩

/-! ### The hard realign -/

theorem State.clearExpected_get (s : State) (c : Chan) :
    s.clearExpected.lanes.get c = { s.lanes.get c with expected := false } := PerChan.get_ofFn _ _

/-- An arrival in FREE with every channel in OFF or TRIP realigns, whether a swap takes effect or not. -/
theorem State.syncWithSwap_realigned (hp : v.tb.pend = none) (hl : v.tb.lock = .free)
    (idle : ∀ c, v.st c = .off ∨ v.st c = .trip) (b : Bool) :
    (v.syncWithSwap b).tb =
        { v.tb.realign with lock := .acquire, acquire := 0, lossCount := 0, lossMark := false } ∧
      (v.syncWithSwap b).lanes = v.clearExpected.lanes := by
  have after : ∀ c, v.trySwap.st c = .off ∨ v.trySwap.st c = .trip := fun c => (v.trySwap_sup c).2.1 (idle c)
  have lanes : ∀ s : State, s.tb = v.tb → (∀ c, s.st c = .off ∨ s.st c = .trip) →
      s.syncActions.lanes = s.clearExpected.lanes := fun s tb idle => by
    have realigned := State.measureLock_realigned (s := s) (by rwa [tb]) (by rwa [tb]) (State.anyBusy_eq_false idle)
    rw [s.syncActions_synced.lanes]
    generalize s.measureLock = m at realigned ⊢
    rw [realigned]
  constructor
  · rw [State.syncWithSwap_tb, State.anyBusy_eq_false after, State.anyBusy_eq_false idle, ite_self,
      Timebase.measured_realign hp hl]
  · cases b with
    | true =>
      rw [State.syncWithSwap_true, lanes _ v.trySwap_tb after]
      simp only [State.clearExpected, State.trySwap_lanes]
    | false => rw [State.syncWithSwap_false, State.trySwap_lanes, lanes _ rfl idle]

/-- Settles O37: the realigned timebase is the target's place in its ring cycle. -/
theorem hardRealignSetsTheTarget : Obligations.HardRealignSetsTheTarget := by
  intro w n o s ready u q x sound hp hl idle
  obtain ⟨r, run⟩ := exec_syncArrival ready w n o
  refine ⟨_, run, ?_⟩
  obtain ⟨tb, lanes⟩ := State.syncWithSwap_realigned (v := { u with ring := r }) hp hl idle o.swapFirst
  generalize State.syncWithSwap o.swapFirst { u with ring := r } = y at tb lanes ⊢
  have tb' : y.tb = { u.tb.realign with lock := .acquire, acquire := 0, lossCount := 0, lossMark := false } := tb
  have lanes' : y.lanes = u.clearExpected.lanes := lanes
  have ranges : 0 < u.tb.set.p ∧ 0 < u.tb.set.n := by
    have inRange := sound.1
    simp only [Settings.sound, Settings.inRange, Machine.inRange, Bool.and_eq_true, decide_eq_true_eq] at inRange
    omega
  obtain ⟨hP, hN⟩ := ranges
  have cycle : 0 < 2 * u.tb.set.n * u.tb.set.p := by positivity
  have below : q < 2 * u.tb.set.n * u.tb.set.p := Nat.mod_lt _ cycle
  show y.tb.pos = q ∧ y.tb.index * _ + x = q ∧ y.tb.index < _ ∧ (_ → y.tb.counter = x ∧ y.tb.up = true) ∧
    (_ → y.tb.counter + x = _ ∧ y.tb.up = false) ∧ y.tb.crest = _ ∧ y.tb.corr = 0 ∧ y.tb.corrLeft = 0 ∧
    y.tb.lock = .acquire ∧ y.tb.acquire = 0 ∧ y.tb.lockError = 0 ∧ ∀ c, y.lanes.get c = _
  rw [tb', lanes']
  refine ⟨rfl, Nat.div_add_mod' _ _, ?_, fun hx => ?_, fun hx => ?_, rfl, rfl, rfl, rfl, rfl, ?_, u.clearExpected_get⟩
  · show q / (2 * u.tb.set.p) < u.tb.set.n
    refine Nat.div_lt_of_lt_mul ?_
    calc q < 2 * u.tb.set.n * u.tb.set.p := below
      _ = 2 * u.tb.set.p * u.tb.set.n := by ring
  · exact ⟨if_pos hx, decide_eq_true hx⟩
  · have small : x < 2 * u.tb.set.p := Nat.mod_lt _ (by omega)
    refine ⟨?_, decide_eq_false (not_lt.mpr hx)⟩
    show (if x < u.tb.set.p then x else 2 * u.tb.set.p - x) + x = _
    rw [if_neg (not_lt.mpr hx)]
    omega
  · show ((q : Int) - q + ((2 * u.tb.set.n * u.tb.set.p : Nat) : Int) / 2) % ((2 * u.tb.set.n * u.tb.set.p : Nat) : Int) -
      ((2 * u.tb.set.n * u.tb.set.p : Nat) : Int) / 2 = 0
    rw [Int.sub_self, Int.zero_add, Int.emod_eq_of_lt (by omega) (by omega), Int.sub_self]

end Sys2Proof.Machine
end

