-- ==== Sys2Proof/Proofs/Staleness.lean ====
section
/-! PROOFS. Staleness: the holds of a row of raises of SETPOINT_STALE, the judgement of a SYNC arrival, and a swap that holds
and trips nothing. -/

namespace Sys2Proof.Machine

variable {s t u v : State} {c d : Chan} {b : Bank}

/-! ### Holds one after another -/

theorem Causes.isEmpty_iff (x : Causes) : x.isEmpty = true ↔ x = {} := by
  cases x
  simp [Causes.isEmpty, and_assoc]

theorem Causes.empty_union (x : Causes) : ({} : Causes).union x = x := by simp [Causes.union]

theorem Causes.union_empty (x : Causes) : x.union {} = x := by simp [Causes.union]

theorem Causes.union_assoc (x y z : Causes) : (x.union y).union z = x.union (y.union z) := by
  simp [Causes.union, Bool.or_assoc]

/-- Two holds one after another are the hold with the causes of both (R130). -/
theorem Supervisor.addCauses_addCauses (u : Supervisor) (x y : Causes) :
    (u.addCauses x).addCauses y = u.addCauses (x.union y) := by
  cases hc : u.st.closing with
  | false => simp only [Supervisor.addCauses_of_not_closing hc]
  | true =>
    cases hx : x.isEmpty with
    | true =>
      rw [Supervisor.addCauses_empty u hx, (Causes.isEmpty_iff x).mp hx, Causes.empty_union]
    | false =>
      have both : (x.union y).isEmpty = false := by rw [Causes.isEmpty_union, hx, Bool.false_and]
      rw [Supervisor.addCauses_closing hc hx, Supervisor.addCauses_closing hc both]
      cases hy : y.isEmpty with
      | true => rw [Supervisor.addCauses_empty _ hy, (Causes.isEmpty_iff y).mp hy, Causes.union_empty]
      | false => rw [Supervisor.addCauses_closing rfl hy, Causes.union_assoc]

/-- Channel `d` is `c` or its partner by bank `b`: a hold of `d` reaches `c` (R130). -/
def Bank.near (b : Bank) (d c : Chan) : Bool := decide (c = d) || decide ((b.role c).partner = some d)

/-- The causes that raises of SETPOINT_STALE on the channels of `l` that `found` names give channel `c` (R134, R145). -/
def Bank.staleHold (b : Bank) (found : Chan → Bool) (l : List Chan) (c : Chan) : Causes :=
  { stale := l.any fun d => found d && b.near d c
    ring := false
    routed := l.any fun d => found d && (b.near d c && (b.route 15).holdSelf || (b.route 15).holdAll) }

theorem State.holdReach_stale (s : State) (d c : Chan) :
    s.holdReach ((s.bank.route ChanKind.setpointStale.code).chanHold .setpointStale d) c =
      { stale := s.bank.near d c, ring := false,
        routed := s.bank.near d c && (s.bank.route 15).holdSelf || (s.bank.route 15).holdAll } := by
  have code : ChanKind.setpointStale.code = 15 := rfl
  have role : s.role c = s.bank.role c := rfl
  unfold State.holdReach
  rw [code, role]
  cases hp : (s.bank.role c).partner with
  | none => simp [Route.chanHold, Bank.near, hp, ChanKind.fixedHold]
  | some p =>
    by_cases hc : c = d
    · by_cases hpd : p = d <;> simp [Route.chanHold, Bank.near, ChanKind.fixedHold, Causes.union, hc, hpd]
    · by_cases hpd : p = d
      · simpa [Route.chanHold, Bank.near, hp, ChanKind.fixedHold, Causes.union, hc, hpd] using fun all => Or.inr all
      · simp [Route.chanHold, Bank.near, hp, ChanKind.fixedHold, Causes.union, hc, hpd]

theorem raiseStale_sup_get (h : t.bank.chanTripClass .setpointStale = false) (d c : Chan) :
    (t.raiseChan .setpointStale d).sup.get c = (t.sup.get c).addCauses
      { stale := t.bank.near d c, ring := false,
        routed := t.bank.near d c && (t.bank.route 15).holdSelf || (t.bank.route 15).holdAll } := by
  rw [← t.holdReach_stale d c]
  exact ((t.raiseChan_acted .setpointStale d).unreached (d := c) (t.tripReach_none (Route.chanTrip_none h d) c)).2.2

/-- A row of raises of SETPOINT_STALE that trip nothing holds with the causes of all. -/
theorem foldl_raiseStale_sup_get (h : b.chanTripClass .setpointStale = false) (found : Chan → Bool) (l : List Chan)
    (t : State) (hb : t.bank = b) (c : Chan) :
    (l.foldl (fun t c => t.raiseChanIf (found c) .setpointStale c) t).sup.get c =
      (t.sup.get c).addCauses (b.staleHold found l c) := by
  induction l generalizing t with
  | nil => exact (Supervisor.addCauses_empty _ rfl).symm
  | cons d l ih =>
    rw [List.foldl_cons, ih _ ((State.bank_congr (t.raiseChanIf_store (found d) .setpointStale d)).trans hb)]
    cases hf : found d with
    | false =>
      show (t.sup.get c).addCauses _ = _
      simp [Bank.staleHold, hf]
    | true =>
      show ((t.raiseChan .setpointStale d).sup.get c).addCauses _ = _
      rw [raiseStale_sup_get (by rwa [hb]), Supervisor.addCauses_addCauses, hb]
      simp [Bank.staleHold, hf, Causes.union]

theorem foldl_raiseStale_quiet (h : b.chanTripClass .setpointStale = false) (found : Chan → Bool) (l : List Chan)
    (t : State) (hb : t.bank = b) :
    (l.foldl (fun t c => t.raiseChanIf (found c) .setpointStale c) t).router.trips = t.router.trips := by
  induction l generalizing t with
  | nil => rfl
  | cons d l ih =>
    rw [List.foldl_cons, ih _ ((State.bank_congr (t.raiseChanIf_store (found d) .setpointStale d)).trans hb)]
    cases found d with
    | false => rfl
    | true => exact (State.raiseChan_quiet t (by rwa [hb]) d).2

/-- A row of raises of a kind on different channels sets and counts the flag of each found one, once. -/
theorem foldl_raiseChanIf_chanFlag (found : Chan → Bool) (k : ChanKind) {l : List Chan} (hl : l.Nodup) (t : State) (c : Chan)
    (j : ChanKind) :
    (l.foldl (fun t c => t.raiseChanIf (found c) k c) t).chanFlag c j =
      if j = k ∧ c ∈ l ∧ found c = true then { isSet := true, count := min 65535 ((t.chanFlag c k).count + 1) }
      else t.chanFlag c j := by
  induction l generalizing t with
  | nil => simp
  | cons d l ih =>
    obtain ⟨fresh, hl⟩ := List.nodup_cons.mp hl
    rw [List.foldl_cons, ih hl]
    have here : ∀ i, (t.raiseChanIf (found d) k d).chanFlag c i =
        if i = k ∧ c = d ∧ found d = true then { isSet := true, count := min 65535 ((t.chanFlag c k).count + 1) }
        else t.chanFlag c i := fun i => by
      cases hf : found d with
      | false => simp [State.raiseChanIf]
      | true =>
        show (t.raiseChan k d).chanFlag c i = _
        by_cases hi : i = k
        · by_cases hc : c = d
          · subst hi hc
            rw [State.raiseChan_chanFlag_self, if_pos ⟨rfl, rfl, rfl⟩]
          · rw [State.raiseChan_chanFlag_of_ne (fun e => hc (Prod.mk.inj e).1), if_neg fun e => hc e.2.1]
        · rw [State.raiseChan_chanFlag_of_ne (fun e => hi (Prod.mk.inj e).2), if_neg fun e => hi e.1]
    by_cases hj : j = k
    · by_cases hc : c = d
      · subst hj hc
        simp [here, fresh]
      · simp [here, hc]
    · simp [here, hj]

theorem foldl_raiseChanIf_dev (found : Chan → Bool) (k : ChanKind) (l : List Chan) (t : State) :
    (l.foldl (fun t c => t.raiseChanIf (found c) k c) t).router.dev = t.router.dev :=
  foldl_keeps (fun (t : State) c => t.raiseChanIf (found c) k c) (fun t => t.router.dev)
    (fun t c => by unfold State.raiseChanIf; split <;> simp) l t

/-! ### Channels that trip -/

/-- Channel `c`, if in TRIP, stands there as a trip leaves it. -/
def State.TripSound (s : State) (c : Chan) : Prop :=
  s.st c = .trip → (s.sup.get c).causes = {} ∧ (s.mods.get c).dark ∧ (s.mods.get c).drive = false

/-- What one raise does to a channel that has tripped, or trips now. -/
theorem State.Acted.tripSound {code : Nat} {f : Chan → Option Via} {g : Chan → Causes} (h : s.Acted t code f g)
    (hs : s.TripSound c) : t.TripSound c ∧ (s.st c = .trip → t.st c = .trip) := by
  obtain ⟨sup, mods, -⟩ := h c
  cases hr : (s.tripReach f c).isSome && s.tripTakes c with
  | true =>
    simp only [hr, if_true] at sup mods
    rw [Supervisor.addCauses_of_not_closing rfl] at sup
    refine ⟨fun _ => ?_, fun _ => congrArg Supervisor.st sup⟩
    rw [sup, mods]
    obtain ⟨dark, drive, -⟩ := (s.mods.get c).inhibit_dark
    exact ⟨rfl, dark, drive⟩
  | false =>
    simp only [hr, Bool.false_eq_true, if_false] at sup mods
    by_cases trip : s.st c = .trip
    · have closed : (s.sup.get c).st.closing = false := congrArg ChanState.closing trip
      rw [Supervisor.addCauses_of_not_closing closed] at sup
      have st : t.st c = .trip := (congrArg Supervisor.st sup).trans trip
      refine ⟨fun _ => ?_, fun _ => st⟩
      rw [sup, mods]
      exact hs trip
    · refine ⟨fun tripped => ?_, fun h => absurd h trip⟩
      have st : t.st c = ((s.sup.get c).addCauses (s.holdReach g c)).st := congrArg Supervisor.st sup
      rw [tripped] at st
      unfold Supervisor.addCauses at st
      split_ifs at st
      · exact absurd st.symm trip
      · exact absurd st.symm trip

/-- A raise of SETPOINT_STALE on a channel in use trips it where its route trips. -/
theorem raiseStale_trips (h : t.bank.chanTripClass .setpointStale = true) (used : (t.record c).inUse = true)
    (ht : t.TripSound c) : (t.raiseChan .setpointStale c).st c = .trip := by
  by_cases trip : t.st c = .trip
  · exact ((t.raiseChan_acted .setpointStale c).tripSound ht).2 trip
  · have named : ((t.bank.route ChanKind.setpointStale.code).chanTrip .setpointStale c c) ≠ none := by
      rw [Ne, Route.chanTrip_eq_none_iff, not_not]
      simp only [Bank.chanTripClass, Bool.or_eq_true] at h
      simp only [Bool.or_eq_true, true_and]
      exact h
    obtain ⟨v, hv⟩ := Option.ne_none_iff_exists'.mp named
    have takes : t.tripTakes c = true := State.tripTakes_iff.mpr ⟨trip, used⟩
    have tripped := ((t.raiseChan_acted .setpointStale c).tripped (State.tripReach_named hv) takes)
    exact congrArg Supervisor.st tripped.1

/-- A row of raises of SETPOINT_STALE that trips: each found channel in use is in TRIP after its own raise, and stays. -/
theorem foldl_raiseStale_trips (h : b.chanTripClass .setpointStale = true) (found : Chan → Bool) (l : List Chan) (t : State)
    (hb : t.bank = b) (ht : t.TripSound c) (used : (b.record c).inUse = true) :
    State.TripSound (l.foldl (fun t c => t.raiseChanIf (found c) .setpointStale c) t) c ∧
      (t.st c = .trip ∨ (c ∈ l ∧ found c = true) →
        (l.foldl (fun t c => t.raiseChanIf (found c) .setpointStale c) t).st c = .trip) := by
  induction l generalizing t with
  | nil => exact ⟨ht, fun h => h.elim id fun e => absurd e.1 List.not_mem_nil⟩
  | cons d l ih =>
    rw [List.foldl_cons]
    have bank := (State.bank_congr (t.raiseChanIf_store (found d) .setpointStale d)).trans hb
    have step : (t.raiseChanIf (found d) .setpointStale d).TripSound c ∧
        (t.st c = .trip ∨ (c = d ∧ found c = true) → (t.raiseChanIf (found d) .setpointStale d).st c = .trip) := by
      cases hf : found d with
      | false => exact ⟨ht, fun h => h.elim id fun e => absurd (e.1 ▸ e.2) (Bool.eq_false_iff.mp hf)⟩
      | true =>
        obtain ⟨sound, stays⟩ := (t.raiseChan_acted .setpointStale d).tripSound ht
        refine ⟨sound, fun e => e.elim stays fun ⟨e, _⟩ => ?_⟩
        subst e
        exact raiseStale_trips (by rwa [hb]) (by rw [State.record, hb]; exact used) ht
    obtain ⟨sound, trips⟩ := ih _ bank step.1
    refine ⟨sound, fun e => trips ?_⟩
    rcases e with trip | ⟨mem, hf⟩
    · exact .inl (step.2 (.inl trip))
    · rcases List.mem_cons.mp mem with e | mem
      · exact .inl (step.2 (.inr ⟨e, hf⟩))
      · exact .inr ⟨mem, hf⟩

/-! ### The judgement of a SYNC arrival -/

/-- The supervisor of a channel after a SYNC arrival, the holds and trips of its raises apart (R131, R134). -/
def State.judgedBase (s : State) (c : Chan) : Supervisor :=
  { s.sup.get c with
    setSeen := false
    causes := { (s.sup.get c).causes with ring := false }
    missed := if s.judged c then (s.sup.get c).missedAfter else (s.sup.get c).missed }

/-- What the judgement of an arrival does to a state whose lock does not leave LOCKED. -/
structure State.Judged (s t : State) : Prop where
  store : t.store = s.store
  dev : t.router.dev = s.router.dev
  chanFlag : ∀ c k, t.chanFlag c k =
    if k = .setpointStale ∧ s.staleFound c = true then
      { isSet := true, count := min 65535 ((s.chanFlag c .setpointStale).count + 1) }
    else s.chanFlag c k
  held : s.bank.chanTripClass .setpointStale = false → t.router.trips = s.router.trips ∧
    ∀ c, t.sup.get c = (s.judgedBase c).addCauses (s.bank.staleHold s.staleFound (List.finRange 8) c)
  tripped : s.bank.chanTripClass .setpointStale = true → ∀ c, (s.st c).closing = true → s.staleFound c = true →
    (s.record c).inUse = true → t.st c = .trip ∧ t.TripSound c

/-- A measurement that does not leave LOCKED leaves supervisors, router and store. -/
theorem State.measureLock_quiet
    (hl : s.tb.lock = .locked → s.tb.pend ≠ none ∨ s.tb.lockError.natAbs ≤ s.tb.set.lockWindow) :
    s.measureLock.sup = s.sup ∧ s.measureLock.router = s.router := by
  by_cases slewed : s.tb.pend ≠ none ∨ s.tb.lock ≠ .free ∨ s.anyBusy = true
  · rw [State.measureLock_slewed slewed hl]
    exact ⟨rfl, rfl⟩
  · push Not at slewed
    obtain ⟨settled, free, idle⟩ := slewed
    have realigned := State.measureLock_realigned settled free (Bool.eq_false_iff.mpr idle)
    generalize s.measureLock = t at realigned ⊢
    rw [realigned]
    exact ⟨rfl, rfl⟩

theorem State.syncActions_judged
    (hl : s.tb.lock = .locked → s.tb.pend ≠ none ∨ s.tb.lockError.natAbs ≤ s.tb.set.lockWindow) :
    s.Judged s.syncActions := by
  obtain ⟨sup, router⟩ := State.measureLock_quiet hl
  have acted : s.syncActions = s.measureLock.endLoss.removeRing.judgeStaleness := rfl
  have supOf : ∀ c, s.measureLock.endLoss.removeRing.sup.get c =
      { s.sup.get c with causes := { (s.sup.get c).causes with ring := false } } := fun c => by
    rw [State.removeRing, PerChan.get_ofFn, State.endLoss_eq, sup]
  have store : s.measureLock.endLoss.removeRing.store = s.store := by simp
  have dev : s.measureLock.endLoss.removeRing.router.dev = s.router.dev := by rw [← router]; rfl
  have flags : ∀ c k, s.measureLock.endLoss.removeRing.chanFlag c k = s.chanFlag c k := fun c k => by
    rw [State.chanFlag, State.chanFlag, ← router]; rfl
  have trips : s.measureLock.endLoss.removeRing.router.trips = s.router.trips := by rw [← router]; rfl
  generalize s.measureLock.endLoss.removeRing = z at *
  have bank : z.bank = s.bank := State.bank_congr store
  have judged : ∀ c, z.judged c = s.judged c := fun c => by
    rw [State.judged, State.judged, State.st, supOf, State.role_congr store]
    rfl
  have found : z.staleFound = s.staleFound := funext fun c => by
    simp only [State.staleFound, judged, supOf, State.record, bank]
    rfl
  have base : ∀ c, z.judgedSup.get c = s.judgedBase c := fun c => by
    rw [State.judgedSup, PerChan.get_ofFn, State.judgedBase, judged, supOf]
    rfl
  rw [acted, State.judgeStaleness, found]
  generalize hy : ({ z with sup := z.judgedSup } : State) = y
  have yStore : y.store = s.store := by rw [← hy]; exact store
  have yBank : y.bank = s.bank := State.bank_congr yStore
  have yFlags : ∀ c k, y.chanFlag c k = s.chanFlag c k := fun c k => by rw [← hy]; exact flags c k
  have ySup : ∀ c, y.sup.get c = s.judgedBase c := fun c => by rw [← hy]; exact base c
  refine ⟨?_, ?_, fun c k => ?_, fun h => ⟨?_, fun c => ?_⟩, fun h c closing hf used => ?_⟩
  · exact (foldl_keeps (fun (t : State) c => t.raiseChanIf (s.staleFound c) .setpointStale c) State.store
      (fun t c => t.raiseChanIf_store _ _ _) _ _).trans yStore
  · exact (foldl_raiseChanIf_dev _ _ _ _).trans (by rw [← hy]; exact dev)
  · rw [foldl_raiseChanIf_chanFlag _ _ (List.nodup_finRange 8), yFlags, yFlags]
    simp
  · exact (foldl_raiseStale_quiet h _ _ _ yBank).trans (by rw [← hy]; exact trips)
  · rw [foldl_raiseStale_sup_get h _ _ _ yBank, ySup]
  · have sound : y.TripSound c := fun trip => by
      have running : y.st c = s.st c := by rw [State.st, ySup]; rfl
      rw [← running, trip] at closing
      cases closing
    obtain ⟨after, trips⟩ := foldl_raiseStale_trips h s.staleFound (List.finRange 8) y yBank sound used
    exact ⟨trips (.inr ⟨List.mem_finRange c, hf⟩), after⟩

/-! ### A swap that trips and holds nothing -/

/-- The pending swap, if it takes effect, is routed to no trip and no hold. -/
def State.SwapsQuietly (s : State) : Prop := s.store.swapPending = true → s.structureFault = none →
  s.shadow.devTripClass .bankSwapDone = false ∧ (s.shadow.route 22).holdSelf = false ∧ (s.shadow.route 22).holdAll = false

/-- What such a swap leaves, whether it takes effect or not. -/
structure State.Swapped (s t : State) : Prop where
  chanFlag : ∀ c k, t.chanFlag c k = s.chanFlag c k
  trips : t.router.trips = s.router.trips
  mods : t.mods = s.mods
  st : ∀ c, t.st c = s.st c
  causes : ∀ c, (t.sup.get c).causes = (s.sup.get c).causes
  sup : ∀ c, s.st c ≠ .off → (s.role c).isFollower = false → t.sup.get c = s.sup.get c
  role : ∀ c, s.st c ≠ .off → t.role c = s.role c
  inUse : ∀ c, s.st c ≠ .off → (t.record c).inUse = (s.record c).inUse

theorem State.Swapped.refl (s : State) : s.Swapped s :=
  ⟨fun _ _ => rfl, rfl, rfl, fun _ => rfl, fun _ => rfl, fun _ _ _ => rfl, fun _ _ => rfl, fun _ _ => rfl⟩

theorem State.trySwap_swapped (quiet : s.SwapsQuietly) : s.Swapped s.trySwap := by
  obtain ⟨e, -⟩ | ⟨e, hp, hf⟩ := s.trySwap_cases
  · rw [e]
    exact .refl s
  obtain ⟨noTrip, noSelf, noAll⟩ := quiet hp hf
  rw [← s.exchanged_bank] at noTrip noSelf noAll
  obtain ⟨mods, trips⟩ := State.raiseDev_quiet _ noTrip
  have bank : s.swapEffect.bank = s.shadow :=
    (State.bank_congr (State.raiseDev_store s.exchanged .bankSwapDone)).trans s.exchanged_bank
  have kept := s.structureFault_eq_none_iff.mp hf
  have flags : ∀ c k, s.swapEffect.chanFlag c k = s.exchanged.chanFlag c k := State.raiseDev_chanFlag _ .bankSwapDone
  have sup : ∀ c, s.swapEffect.sup.get c = s.exchanged.sup.get c := fun c => by
    have unreached := ((s.exchanged.raiseDev_acted .bankSwapDone).unreached (d := c)
      (State.tripReach_none _ (Route.devTrip_none noTrip) c)).2.2
    rw [State.holdReach_devHold] at unreached
    rw [State.swapEffect_eq, unreached]
    refine Supervisor.addCauses_empty _ ?_
    have code : DevKind.bankSwapDone.code = 22 := rfl
    rw [code, noSelf, noAll]
    rfl
  have supOf := s.exchanged_sup_get
  rw [e]
  refine ⟨fun c k => (flags c k).trans rfl, trips, mods, fun c => ?_, fun c => by rw [sup]; exact (supOf c).2.1,
    fun c hc hr => ?_, fun c hc => ?_, fun c hc => ?_⟩
  · rw [State.st, sup]
    exact (supOf c).1
  · have role := (kept c hc).role
    rw [State.role, ← role] at hr
    rw [sup, State.exchanged, PerChan.get_ofFn, State.pairedSup]
    cases hx : s.shadow.role c with
    | follower => simp [hx, Role.isFollower] at hr
    | lone | leader => rfl
  · rw [State.role, bank]
    exact (kept c hc).role
  · rw [State.record, bank]
    exact (kept c hc).inUse

theorem State.trySwap_bank (s : State) :
    s.trySwap.bank = if s.store.swapPending = true ∧ s.structureFault = none then s.shadow else s.bank := by
  obtain ⟨e, h⟩ | ⟨e, h⟩ := s.trySwap_cases
  · rw [e, if_neg]
    rintro ⟨hp, hf⟩
    rcases h with h | h
    · rw [hp] at h; cases h
    · exact h hf
  · rw [e, if_pos h]
    exact (State.bank_congr (State.raiseDev_store s.exchanged .bankSwapDone)).trans s.exchanged_bank

/-- A judgement that trips nothing leaves a channel OFF or not. -/
theorem State.Judged.st_off (h : s.Judged t) (noTrip : s.bank.chanTripClass .setpointStale = false) (c : Chan) :
    t.st c = .off ↔ s.st c = .off := by
  rw [State.st, (h.held noTrip).2 c]
  have base : (s.judgedBase c).st = s.st c := rfl
  rw [← base, Supervisor.addCauses]
  split_ifs with _ closing
  · rfl
  · rcases (ChanState.closing_iff _).mp closing with e | e <;> simp [e]
  · rfl

/-- An arrival as a judgement between two swaps, of which at most one is there and none trips or holds. -/
theorem State.syncWithSwap_judged (hl : v.tb.lock = .locked →
      v.tb.pend ≠ none ∨ v.tb.lockError.natAbs ≤ v.tb.set.lockWindow) (quiet : v.SwapsQuietly) (f : Bool) :
    ∃ p m, v.Swapped p ∧ p.Judged m ∧ m.Swapped (v.syncWithSwap f) ∧
      p.bank = (if v.store.swapPending = true ∧ v.structureFault = none ∧ f = true then v.shadow else v.bank) ∧
      (¬(v.store.swapPending = true ∧ v.structureFault = none) → p = v ∧ v.syncWithSwap f = m) ∧
      (v.store.swapPending = true ∧ v.structureFault = none → p.bank.chanTripClass .setpointStale = false →
        (v.syncWithSwap f).bank = v.shadow) := by
  cases f with
  | true =>
    have judged : v.trySwap.Judged v.trySwap.syncActions := State.syncActions_judged (by rwa [State.trySwap_tb])
    have bank := v.trySwap_bank
    refine ⟨v.trySwap, v.trySwap.syncActions, State.trySwap_swapped quiet, judged, .refl _, by simpa using bank,
      fun h => ⟨State.trySwap_of_not ?_, rfl⟩, fun h _ => ?_⟩
    · by_contra hn
      simp only [not_or, Bool.not_eq_false, not_not] at hn
      exact h hn
    · rw [if_pos h] at bank
      exact (State.bank_congr judged.store).trans bank
  | false =>
    have judged : v.Judged v.syncActions := State.syncActions_judged hl
    have bank : v.syncActions.bank = v.bank := State.bank_congr judged.store
    have shadow : v.syncActions.shadow = v.shadow := by rw [State.shadow, judged.store, State.shadow]
    have fault : v.syncActions.structureFault = none → v.structureFault = none := fun h => by
      rw [State.structureFault_eq_none_iff, bank, shadow] at h
      exact v.structureFault_eq_none_iff.mpr fun c hc => h c (v.syncActions_synced.notOff c hc)
    have quiet' : v.syncActions.SwapsQuietly := fun hp hf => by
      rw [shadow]
      exact quiet (by rwa [judged.store] at hp) (fault hf)
    refine ⟨v, v.syncActions, .refl v, judged, State.trySwap_swapped quiet', by simp, fun h => ⟨rfl, ?_⟩, fun h noTrip => ?_⟩
    · refine State.syncWithSwap_unswapped ?_ false
      by_contra hn
      simp only [not_or, Bool.not_eq_false, not_not] at hn
      exact h hn
    · have fault' : v.syncActions.structureFault = none := by
        rw [State.structureFault_eq_none_iff, bank, shadow]
        exact fun c hc => v.structureFault_eq_none_iff.mp h.2 c fun off => hc ((judged.st_off noTrip c).mpr off)
      rw [State.syncWithSwap_false, State.trySwap_bank, if_pos ⟨by rw [judged.store]; exact h.1, fault'⟩, shadow]

end Sys2Proof.Machine
end

