-- ==== Sys2Proof/Proofs/StaleArrivals.lean ====
section
/-! PROOFS. Staleness at a SYNC arrival and by itself: which channels are found, what their raises leave of every channel. -/

namespace Sys2Proof.Machine

variable {s t u v : State} {c d : Chan} {b : Bank}

/-! ### Channels found -/

theorem any_finRange {p : Chan → Bool} : (List.finRange 8).any p = decide (∃ d, p d = true) := by
  rw [Bool.eq_iff_iff]
  simp

/-- The causes that the raises of one judgement give channel `c`. -/
theorem Bank.staleHold_eq (b : Bank) (found : Chan → Bool) (c : Chan) :
    b.staleHold found (List.finRange 8) c =
      { stale := found c || (b.role c).partner.any found
        ring := false
        routed := ((b.route 15).holdSelf && (found c || (b.role c).partner.any found)) ||
          ((b.route 15).holdAll && decide (∃ d, found d = true)) } := by
  have near : (List.finRange 8).any (fun d => found d && b.near d c) = (found c || (b.role c).partner.any found) := by
    have near_iff : ∀ d, b.near d c = true ↔ d = c ∨ (b.role c).partner = some d := fun d => by
      simp only [Bank.near, Bool.or_eq_true, decide_eq_true_eq, eq_comm (a := c)]
    rw [any_finRange, Bool.eq_iff_iff]
    simp only [decide_eq_true_eq, Bool.and_eq_true, near_iff, and_or_left, exists_or, exists_eq_right, Bool.or_eq_true,
      Option.any_eq_true]
    exact or_congr_right (exists_congr fun d => and_comm)
  have routed : ∀ hs ha : Bool, (List.finRange 8).any (fun d => found d && (b.near d c && hs || ha)) =
      ((hs && (List.finRange 8).any fun d => found d && b.near d c) || (ha && decide (∃ d, found d = true))) := by
    intro hs ha
    rw [any_finRange, any_finRange, Bool.eq_iff_iff]
    simp only [Bool.or_eq_true, Bool.and_eq_true, decide_eq_true_eq]
    constructor
    · rintro ⟨d, hf, ⟨hn, h⟩ | h⟩
      · exact .inl ⟨h, d, hf, hn⟩
      · exact .inr ⟨h, d, hf⟩
    · rintro (⟨h, d, hf, hn⟩ | ⟨h, d, hf⟩)
      · exact ⟨d, hf, .inl ⟨hn, h⟩⟩
      · exact ⟨d, hf, .inr h⟩
  rw [Bank.staleHold, routed, near]

/-- SETPOINT_STALE is found on a channel (R134). -/
theorem State.staleFound_eq (s : State) (c : Chan) : s.staleFound c = (s.judged c && decide ((s.sup.get c).setSeen = false ∧
    (s.sup.get c).causes.stale = false ∧ (s.sup.get c).missed < 15 ∧
    (s.record c).holdAfter ≤ (s.sup.get c).missed + 1)) := by
  rw [Bool.eq_iff_iff]
  simp only [State.staleFound, satSucc, Bool.and_eq_true, Bool.not_eq_true', decide_eq_true_eq]
  constructor
  · rintro ⟨⟨⟨⟨judged, seen⟩, less⟩, after⟩, stale⟩
    have less := of_decide_eq_true less
    have after := of_decide_eq_true after
    exact ⟨judged, seen, stale, by omega, by omega⟩
  · rintro ⟨judged, seen, stale, less, after⟩
    exact ⟨⟨⟨⟨judged, seen⟩, decide_eq_true (by omega)⟩, decide_eq_true (by omega)⟩, stale⟩

theorem State.judged_iff (s : State) (c : Chan) :
    s.judged c = decide ((s.st c = .run ∨ s.st c = .hold) ∧ (s.role c).isFollower = false) := by
  rw [Bool.eq_iff_iff]
  simp [State.judged, ChanState.closing_iff]

/-- A swap that trips and holds nothing leaves which channels are judged, and their supervisors. -/
theorem State.Swapped.judged (h : v.Swapped u) (c : Chan) : u.judged c = v.judged c := by
  simp only [State.judged, h.st]
  cases closing : (v.st c).closing with
  | false => rfl
  | true => rw [h.role c (by rintro e; rw [e] at closing; cases closing)]

theorem State.not_off_of_closing (h : (s.st c).closing = true) : s.st c ≠ .off := by
  rintro e
  rw [e] at h
  cases h

theorem State.Swapped.sup_of_judged (h : v.Swapped u) (hj : v.judged c = true) : u.sup.get c = v.sup.get c := by
  simp only [State.judged, Bool.and_eq_true, Bool.not_eq_true'] at hj
  exact h.sup c (State.not_off_of_closing hj.1) hj.2

/-! ### SETPOINT_STALE by itself -/

/-- SETPOINT_STALE sent alone, where it is found (R134). -/
theorem exec_setpointStale (h : s.staleFound c = true) : exec (.setpointStale c) s = .next
    (State.raiseChan .setpointStale c
      { s with sup := s.sup.modify c fun u => { u with missed := satSucc 15 u.missed } }) :=
  if_pos h

/-- What SETPOINT_STALE by itself does, where its route does not trip. -/
theorem State.raiseStale_held (h : s.bank.chanTripClass .setpointStale = false) (hc : s.st c = .run ∨ s.st c = .hold) :
    let t := s.raiseChan .setpointStale c
    t.st c = .hold ∧ (t.sup.get c).causes.stale = true ∧ (t.sup.get c).missed = (s.sup.get c).missed ∧
      (∀ p, (s.role p).partner = some c → (s.st p = .run ∨ s.st p = .hold) →
        t.st p = .hold ∧ (t.sup.get p).causes.stale = true) ∧
      ((s.bank.route 15).holdAll = false → ∀ d, d ≠ c → (s.role d).partner ≠ some c → t.sup.get d = s.sup.get d) := by
  have sup : ∀ d, _ := raiseStale_sup_get (t := s) h c
  have reached : ∀ d, s.bank.near c d = true → (s.st d = .run ∨ s.st d = .hold) →
      (s.raiseChan .setpointStale c).st d = .hold ∧ ((s.raiseChan .setpointStale c).sup.get d).causes.stale = true ∧
        ((s.raiseChan .setpointStale c).sup.get d).missed = (s.sup.get d).missed := fun d near closing => by
    have added := (sup d).trans (Supervisor.addCauses_closing ((ChanState.closing_iff _).mpr closing)
      (by simp [Causes.isEmpty, near]))
    rw [State.st, added]
    exact ⟨rfl, by simp [Causes.union, near], rfl⟩
  obtain ⟨held, stale, missed⟩ := reached c (by simp [Bank.near]) hc
  refine ⟨held, stale, missed, fun p hp closing => ?_, fun all d hd hp => ?_⟩
  · obtain ⟨held, stale, -⟩ := reached p (by simp only [Bank.near, State.role] at hp ⊢; simp [hp]) closing
    exact ⟨held, stale⟩
  · have far : s.bank.near c d = false := by
      simp only [State.role] at hp
      simp [Bank.near, hd, hp]
    rw [sup d, far, all]
    exact Supervisor.addCauses_empty _ rfl

theorem setpointStaleAlone (hc : s.st c = .run ∨ s.st c = .hold) (hr : (s.role c).isFollower = false)
    (seen : (s.sup.get c).setSeen = false) (stale : (s.sup.get c).causes.stale = false) (missed : (s.sup.get c).missed < 15)
    (after : (s.record c).holdAfter ≤ (s.sup.get c).missed + 1) :
     ∃ t, exec (.setpointStale c) s = .next t ∧
       t = { s with sup := t.sup, mods := t.mods, router := t.router } ∧
       t.chanFlag c .setpointStale =
         { isSet := true, count := min 65535 ((s.chanFlag c .setpointStale).count + 1) } ∧
       (∀ d k, (d, k) ≠ (c, ChanKind.setpointStale) → t.chanFlag d k = s.chanFlag d k) ∧
       (s.bank.chanTripClass .setpointStale = false →
         t.mods = s.mods ∧ t.router.trips = s.router.trips ∧ t.st c = .hold ∧
         (t.sup.get c).causes.stale = true ∧ (t.sup.get c).missed = (s.sup.get c).missed + 1 ∧
         (∀ p, (s.role c).partner = some p → (s.role p).partner = some c → (s.st p = .run ∨ s.st p = .hold) →
           t.st p = .hold ∧ (t.sup.get p).causes.stale = true) ∧
         ((s.bank.route 15).holdAll = false → ∀ d, d ≠ c → (s.role d).partner ≠ some c →
           t.sup.get d = s.sup.get d)) := by
  have found : s.staleFound c = true := by
    rw [State.staleFound_eq, State.judged_iff, decide_eq_true ⟨hc, hr⟩, decide_eq_true ⟨seen, stale, missed, after⟩]
    rfl
  refine ⟨_, exec_setpointStale found, ?_⟩
  generalize hv : ({ s with sup := s.sup.modify c fun u => { u with missed := satSucc 15 u.missed } } : State) = v
  have sup : ∀ d, v.sup.get d =
      if d = c then { s.sup.get c with missed := satSucc 15 (s.sup.get c).missed } else s.sup.get d := fun d => by
    rw [← hv]
    by_cases hd : d = c <;> simp [PerChan.modify_eq_set, hd]
  have st : ∀ d, v.st d = s.st d := fun d => by
    rw [State.st, sup]
    split
    · next e => rw [e]; rfl
    · rfl
  have store : v.store = s.store := by rw [← hv]
  have bank : v.bank = s.bank := State.bank_congr store
  have role : ∀ d, v.role d = s.role d := State.role_congr store
  refine ⟨?_, ?_, fun d k hk => ?_, fun noTrip => ?_⟩
  · have frame := v.raiseChan_frame .setpointStale c
    generalize v.raiseChan .setpointStale c = t at frame ⊢
    rw [← hv] at frame
    exact frame
  · rw [State.raiseChan_chanFlag_self, ← hv]
    rfl
  · rw [State.raiseChan_chanFlag_of_ne hk, ← hv]
    rfl
  · rw [← bank] at noTrip
    obtain ⟨mods, trips⟩ := State.raiseChan_quiet _ noTrip c
    obtain ⟨held, marked, count, partner, others⟩ := State.raiseStale_held noTrip (by rwa [st])
    refine ⟨by rw [mods, ← hv], by rw [trips, ← hv], held, marked, ?_, fun p _ hp closing => ?_, fun all d hd hp => ?_⟩
    · rw [count, sup, if_pos rfl]
      show min 15 _ = _
      omega
    · exact partner p (by rwa [role]) (by rwa [st])
    · rw [others (by rwa [bank]) d hd (by rwa [role]), sup, if_neg hd]

/-! ### SETPOINT_STALE at an arrival -/

/-- A judgement found by the channels that `found` names leaves this of a channel (R130, R134). -/
theorem State.Judged.sup_get {p m : State} (h : p.Judged m) (noTrip : p.bank.chanTripClass .setpointStale = false) (c : Chan) :
    let stale := p.staleFound c || (p.role c).partner.any p.staleFound
    let all := (p.bank.route 15).holdAll && decide (∃ d, p.staleFound d = true)
    ((p.st c = .run ∨ p.st c = .hold) → stale = true ∨ all = true → m.sup.get c = { p.judgedBase c with
      st := .hold
      causes :=
        { stale := (p.sup.get c).causes.stale || stale, ring := false
          routed := (p.sup.get c).causes.routed || ((p.bank.route 15).holdSelf && stale) || all } }) ∧
    ((p.st c ≠ .run ∧ p.st c ≠ .hold) ∨ (stale = false ∧ all = false) → m.sup.get c = p.judgedBase c) := by
  intro stale all
  have base : (p.judgedBase c).st = p.st c := rfl
  have held : m.sup.get c = (p.judgedBase c).addCauses
      { stale := stale, ring := false, routed := (p.bank.route 15).holdSelf && stale || all } := by
    rw [(h.held noTrip).2 c, p.bank.staleHold_eq]
    rfl
  refine ⟨fun closing reached => ?_, fun none_reached => ?_⟩
  · have some_cause : ({ stale := stale, ring := false, routed := (p.bank.route 15).holdSelf && stale || all } : Causes).isEmpty =
        false := by
      rcases reached with e | e <;> simp [Causes.isEmpty, e]
    rw [held, Supervisor.addCauses_closing (by rw [base]; exact (ChanState.closing_iff _).mpr closing) some_cause]
    simp [Causes.union, State.judgedBase, Bool.or_assoc]
  · rw [held]
    rcases none_reached with ⟨run, hold⟩ | ⟨noStale, noAll⟩
    · exact Supervisor.addCauses_of_not_closing (u := p.judgedBase c) (State.not_closing run hold) _
    · rw [noStale, noAll]
      exact Supervisor.addCauses_empty _ (by simp [Causes.isEmpty])

/-- Settles O38: an arrival is a judgement between two swaps of which none trips or holds. -/
theorem stalenessCountsAndHolds : Obligations.StalenessCountsAndHolds := by
  refine ⟨fun w n o s ready => ?_, fun c s hc hr seen stale missed after => setpointStaleAlone hc hr seen stale missed after⟩
  intro u swaps b judged after found stale all locked quiet
  obtain ⟨r, run⟩ := exec_syncArrival ready w n o
  refine ⟨_, run, ?_⟩
  have locked' : u.tb.lock = .locked → u.tb.pend ≠ none ∨ u.tb.lockError.natAbs ≤ u.tb.set.lockWindow := fun h =>
    (locked h).imp_right fun h => by omega
  obtain ⟨p, m, before, judgement, behind, bank, unswapped, swapped⟩ :=
    State.syncWithSwap_judged (v := { u with ring := r }) locked' (fun hp hf => quiet ⟨hp, hf⟩) o.swapFirst
  generalize State.syncWithSwap o.swapFirst { u with ring := r } = x at behind unswapped swapped ⊢
  have bank : p.bank = b := bank
  have judgedOf : ∀ c, p.judged c = judged c := fun c => (before.judged c).trans (State.judged_iff _ c)
  have supOf : ∀ c, judged c = true → p.sup.get c = u.sup.get c := fun c hj =>
    before.sup_of_judged ((State.judged_iff _ c).trans hj)
  have foundOf : p.staleFound = found := funext fun c => by
    rw [State.staleFound_eq, judgedOf, State.record, bank]
    cases hj : judged c with
    | false => simp [found, hj]
    | true => rw [supOf c hj]; simp [found, hj]
  have flags : ∀ c k, x.chanFlag c k = if k = .setpointStale ∧ found c = true then
      { isSet := true, count := min 65535 ((u.chanFlag c .setpointStale).count + 1) } else u.chanFlag c k := fun c k => by
    rw [behind.chanFlag, judgement.chanFlag, foundOf, before.chanFlag, before.chanFlag]
    rfl
  have stOf : ∀ c, p.st c = u.st c := before.st
  refine ⟨fun hn => ?_, fun c hf => ?_, fun c k h => ?_, fun noTrip => ⟨?_, fun hs => swapped hs (by rwa [bank]), fun c => ?_⟩,
    fun trips c hf used => ?_⟩
  · obtain ⟨same, alone⟩ := unswapped hn
    show x.router.dev = u.router.dev
    rw [alone, judgement.dev, same]
  · exact (flags c _).trans (if_pos ⟨rfl, hf⟩)
  · refine (flags c k).trans (if_neg ?_)
    rintro ⟨hk, hf⟩
    rcases h with h | h
    · rw [hf] at h; cases h
    · exact h hk
  · show x.router.trips = u.router.trips
    rw [behind.trips, (judgement.held (by rwa [bank])).1, before.trips]
  · have noTrip : p.bank.chanTripClass .setpointStale = false := by rwa [bank]
    have reaches : (u.st c = .run ∨ u.st c = .hold) → (p.role c).partner = (u.role c).partner := fun closing => by
      rw [before.role c (State.not_off_of_closing ((ChanState.closing_iff _).mpr closing))]
      rfl
    obtain ⟨holds, keeps⟩ := judgement.sup_get noTrip c
    rw [foundOf, bank, stOf] at holds keeps
    have st : ∀ c, x.st c = m.st c := behind.st
    have supEq : ¬swaps ∨ judged c = true → p.sup.get c = u.sup.get c := fun h => by
      rcases h with hn | hj
      · rw [(unswapped hn).1]
      · exact supOf c hj
    have baseOf : ¬swaps ∨ judged c = true → p.judgedBase c = after c := fun h => by
      rw [State.judgedBase, judgedOf, supEq h]
      rfl
    have alone : ¬swaps ∨ judged c = true → (judged c = true → m.st c ≠ .off) → x.sup.get c = m.sup.get c := fun h on => by
      rcases h with hn | hj
      · rw [(unswapped hn).2]
      · have lead : (p.role c).isFollower = false := by
          have := (judgedOf c).trans hj
          simp only [State.judged, Bool.and_eq_true, Bool.not_eq_true'] at this
          exact this.2
        exact behind.sup c (on hj) (by rwa [State.role_congr judgement.store])
    have closingOf : judged c = true → u.st c = .run ∨ u.st c = .hold := fun hj => (of_decide_eq_true hj).1
    refine ⟨fun closing reached => ?_, fun exact' => ⟨fun closing reached => ?_, fun still => ?_⟩⟩
    · rw [reaches closing] at holds
      have held := holds closing reached
      refine ⟨(st c).trans (by rw [State.st, held]), fun hs => ?_⟩
      show (x.sup.get c).causes.stale = true
      rw [behind.causes, held]
      simp only [stale] at hs
      simp [hs]
    · rw [reaches closing] at holds
      have held := holds closing reached
      show x.sup.get c = _
      rw [alone exact' fun _ => by rw [State.st, held]; nofun, held, baseOf exact', supEq exact']
    · have kept : m.sup.get c = p.judgedBase c := by
        by_cases closing : u.st c = .run ∨ u.st c = .hold
        · rw [reaches closing] at keeps
          exact keeps still
        · exact keeps (.inl ⟨fun e => closing (.inl e), fun e => closing (.inr e)⟩)
      show x.sup.get c = _
      rw [alone exact' fun hj => ?_, kept, baseOf exact']
      rw [State.st, kept]
      show p.st c ≠ .off
      rw [stOf]
      exact State.not_off_of_closing ((ChanState.closing_iff _).mpr (closingOf hj))
  · have hj : judged c = true := (Bool.and_eq_true_iff.mp hf).1
    have closing : (p.st c).closing = true := by
      rw [stOf]
      exact (ChanState.closing_iff _).mpr (of_decide_eq_true hj).1
    have on : u.st c ≠ .off := by
      rw [← stOf]
      exact State.not_off_of_closing closing
    obtain ⟨trip, sound⟩ := judgement.tripped (by rwa [bank]) c closing (by rwa [foundOf]) ((before.inUse c on).trans used)
    obtain ⟨causes, dark, drive⟩ := sound trip
    refine ⟨(behind.st c).trans trip, (behind.causes c).trans causes, ?_⟩
    show (x.mods.get c).dark ∧ (x.mods.get c).drive = false
    rw [behind.mods]
    exact ⟨dark, drive⟩

end Sys2Proof.Machine
end

