-- ==== Sys2Proof/Proofs/ValleyReports.lean ====
section
/-! PROOFS. The checks of a set of channel valleys: which kinds they report, and what a row of raises leaves. -/

namespace Sys2Proof.Machine

variable {s t : State} {c d : Chan} {f : Chan → Bool}

/-! ### A row of raises -/

/-- The kinds of a list raised on their channels, one after another. -/
def State.raiseEach (l : List (Chan × ChanKind)) (s : State) : State := l.foldl (fun t x => t.raiseChan x.2 x.1) s

theorem State.raiseEach_cons (x : Chan × ChanKind) (l : List (Chan × ChanKind)) (s : State) :
    s.raiseEach (x :: l) = (s.raiseChan x.2 x.1).raiseEach l := rfl

theorem State.raiseEach_append (l m : List (Chan × ChanKind)) (s : State) :
    s.raiseEach (l ++ m) = (s.raiseEach l).raiseEach m := List.foldl_append ..

/-- What each raise of a row keeps, the row keeps. -/
theorem State.raiseEach_keeps {q : State → Prop} {l : List (Chan × ChanKind)} (h : q s)
    (hq : ∀ t, ∀ x ∈ l, q t → q (t.raiseChan x.2 x.1)) : q (s.raiseEach l) := by
  induction l generalizing s with
  | nil => exact h
  | cons x l ih => exact ih (hq s x List.mem_cons_self h) fun t y hy => hq t y (List.mem_cons_of_mem x hy)

theorem State.raiseEach_raisedFrom (l : List (Chan × ChanKind)) (s : State) : s.RaisedFrom (s.raiseEach l) :=
  State.raiseEach_keeps (.refl s) fun _ x _ h => h.trans (.raiseChan x.2 x.1)

theorem State.raiseEach_store (l : List (Chan × ChanKind)) (s : State) : (s.raiseEach l).store = s.store := by
  rw [(s.raiseEach_raisedFrom l).frame]

theorem State.raiseEach_dev (l : List (Chan × ChanKind)) (s : State) : (s.raiseEach l).router.dev = s.router.dev :=
  State.raiseEach_keeps (q := fun t => t.router.dev = s.router.dev) rfl fun t x _ h => (t.raiseChan_dev x.2 x.1).trans h

theorem State.raiseEach_kept (l : List (Chan × ChanKind)) (s : State) : (s.raiseEach l).router.kept = s.router.kept :=
  State.raiseEach_keeps (q := fun t => t.router.kept = s.router.kept) rfl fun t x _ h => (t.raiseChan_kept x.2 x.1).trans h

/-- A row of raises keeps the stale counts and the active compares. -/
theorem State.raiseEach_mods (l : List (Chan × ChanKind)) (s : State) (c : Chan) :
    ((s.raiseEach l).mods.get c).stale = (s.mods.get c).stale ∧
      ((s.raiseEach l).mods.get c).active = (s.mods.get c).active := by
  refine State.raiseEach_keeps (q := fun t => (t.mods.get c).stale = (s.mods.get c).stale ∧
    (t.mods.get c).active = (s.mods.get c).active) ⟨rfl, rfl⟩ fun t x _ h => ?_
  rw [State.raiseChan_mods_get]
  obtain ⟨-, -, -, active, stale, -⟩ := (t.mods.get c).inhibit_dark
  split
  · exact ⟨stale.trans h.1, active.trans h.2⟩
  · exact h

/-- The fault lines are judged after every raise. -/
theorem State.raiseEach_lines {l : List (Chan × ChanKind)} (h : l ≠ []) (s : State) :
    (s.raiseEach l).router.lines = (s.raiseEach l).linesNow := by
  obtain rfl | ⟨l, x, rfl⟩ := l.eq_nil_or_concat
  · exact absurd rfl h
  · rw [List.concat_eq_append, State.raiseEach_append]
    exact State.raiseChan_lines _ x.2 x.1

/-- A row of different raises sets and counts the flag of each, once. -/
theorem State.raiseEach_chanFlag {l : List (Chan × ChanKind)} (hl : l.Nodup) (s : State) (c : Chan) (k : ChanKind) :
    (s.raiseEach l).chanFlag c k =
      if (c, k) ∈ l then { isSet := true, count := min 65535 ((s.chanFlag c k).count + 1) } else s.chanFlag c k := by
  induction l generalizing s with
  | nil => simp [State.raiseEach]
  | cons x l ih =>
    obtain ⟨fresh, hl⟩ := List.nodup_cons.mp hl
    rw [State.raiseEach_cons, ih hl]
    by_cases hx : (c, k) = x
    · subst hx
      rw [if_neg fresh, if_pos List.mem_cons_self, State.raiseChan_chanFlag_self]
    · rw [State.raiseChan_chanFlag_of_ne hx]
      simp [hx]

/-! ### What the check of a channel finds -/

/-- In RUN or HOLD without fresh compares (R92). -/
abbrev State.waits (s : State) (c : Chan) : Bool :=
  decide ((s.st c = .run ∨ s.st c = .hold) ∧ (s.mods.get c).pending = none)

/-- The check reports SAMPLE_MISSING (R92, R94). -/
abbrev State.sampleMissing (s : State) (c : Chan) : Bool :=
  (s.waits c || decide (s.st c = .charge ∨ s.st c = .stopping ∨ s.st c = .trip)) &&
    (s.lanes.get c).expected && !(s.lanes.get c).arrived

/-- The check reports LOOP_LATE (R70, R92). -/
abbrev State.loopLate (s : State) (c : Chan) : Bool := s.waits c && (s.lanes.get c).arrived &&
  (s.engine.queue.any (fun e => decide (e.chan = c) && e.current) ||
    s.engine.running.any fun r => decide (r.entry.chan = c) && r.entry.current)

/-- The check reports COMPARES_STALE (R93). -/
abbrev State.goesStale (s : State) (c : Chan) : Bool := s.waits c && decide ((s.mods.get c).stale = 3)

theorem Engine.unfinished_eq (e : Engine) (c : Chan) : e.unfinished c =
    (e.queue.any (fun x => decide (x.chan = c) && x.current) ||
      e.running.any fun r => decide (r.entry.chan = c) && r.entry.current) := by
  unfold Engine.unfinished
  cases e.running <;> rfl

theorem State.valleyCheck_waits (h : s.waits c = true) : s.valleyCheck c =
    staleCheck (s.mods.get c) (s.lanes.get c).missing ((s.lanes.get c).arrived && s.engine.unfinished c) := by
  obtain ⟨closing, pending⟩ := of_decide_eq_true h
  unfold State.valleyCheck
  rcases closing with e | e <;> simp only [e, pending]

theorem State.valleyCheck_loads {x : Compares} (h : s.st c = .run ∨ s.st c = .hold) (hx : (s.mods.get c).pending = some x) :
    s.valleyCheck c = { mod := (s.mods.get c).load s.tb.set.p (s.record c).minPulse x } := by
  unfold State.valleyCheck
  rcases h with e | e <;> simp only [e, hx]

theorem State.valleyCheck_rests (h : s.st c ≠ .run ∧ s.st c ≠ .hold) : (s.valleyCheck c).mod = s.mods.get c ∧
    (s.valleyCheck c).late = false ∧
    (s.valleyCheck c).reports =
      if decide (s.st c = .charge ∨ s.st c = .stopping ∨ s.st c = .trip) && (s.lanes.get c).missing then [.sampleMissing]
      else [] := by
  unfold State.valleyCheck
  cases e : s.st c with
  | run | hold => simp [e] at h
  | off | charge | stopping | trip => simp

theorem State.not_waits (h : s.st c ≠ .run ∧ s.st c ≠ .hold) : s.waits c = false := by simp [h]

/-- The three kinds of a channel valley's check, in their order (R92 to R94). -/
theorem State.valleyCheck_reports (s : State) (c : Chan) : (s.valleyCheck c).reports =
    (if s.sampleMissing c then [.sampleMissing] else []) ++ (if s.loopLate c then [.loopLate] else []) ++
      (if s.goesStale c then [.comparesStale] else []) := by
  by_cases closing : s.st c = .run ∨ s.st c = .hold
  · cases hx : (s.mods.get c).pending with
    | some x =>
      have rest : ¬(s.st c = .charge ∨ s.st c = .stopping ∨ s.st c = .trip) := by rcases closing with e | e <;> simp [e]
      simp [State.valleyCheck_loads closing hx, hx, rest]
    | none =>
      have waits : s.waits c = true := decide_eq_true ⟨closing, hx⟩
      rw [State.valleyCheck_waits waits, staleCheck, Engine.unfinished_eq]
      have stale : ((s.mods.get c).stale < 4 ∧ satSucc 4 (s.mods.get c).stale = 4) ↔ (s.mods.get c).stale = 3 := by
        simp only [satSucc]
        omega
      simp only [State.sampleMissing, State.loopLate, State.goesStale, waits, stale, Lane.missing, Bool.true_or, Bool.true_and,
        decide_eq_true_eq]
      rfl
  · rw [not_or] at closing
    rw [(State.valleyCheck_rests closing).2.2]
    simp [State.sampleMissing, State.loopLate, State.goesStale, State.not_waits closing, Lane.missing, and_assoc]

theorem State.valleyCheck_late (s : State) (c : Chan) : (s.valleyCheck c).late = s.loopLate c := by
  by_cases closing : s.st c = .run ∨ s.st c = .hold
  · cases hx : (s.mods.get c).pending with
    | some x => simp [State.valleyCheck_loads closing hx, hx]
    | none =>
      have waits : s.waits c = true := decide_eq_true ⟨closing, hx⟩
      rw [State.valleyCheck_waits waits, staleCheck, Engine.unfinished_eq]
      simp only [State.loopLate, waits, Bool.true_and]
  · rw [not_or] at closing
    rw [(State.valleyCheck_rests closing).2.1]
    simp [State.loopLate, State.not_waits closing]

theorem State.valleyCheck_stale (s : State) (c : Chan) : (s.valleyCheck c).mod.stale =
    if s.waits c then min 4 ((s.mods.get c).stale + 1)
    else if s.st c = .run ∨ s.st c = .hold then 0 else (s.mods.get c).stale := by
  by_cases closing : s.st c = .run ∨ s.st c = .hold
  · cases hx : (s.mods.get c).pending with
    | some x => simp [State.valleyCheck_loads closing hx, hx, closing, Modulator.load]
    | none =>
      have waits : s.waits c = true := decide_eq_true ⟨closing, hx⟩
      rw [State.valleyCheck_waits waits, waits]
      rfl
  · rw [if_neg closing]
    rw [not_or] at closing
    rw [(State.valleyCheck_rests closing).1, State.not_waits closing]
    rfl

/-! ### The checks as a row of raises -/

/-- The reports of the checks of the channels of `f`, in channel order (log 19). -/
def State.valleyReports (s : State) (f : Chan → Bool) : List (Chan × ChanKind) :=
  (List.finRange 8).flatMap fun c => if f c then (s.valleyCheck c).reports.map (Prod.mk c) else []

/-- The state on which the checks of the channels of `f` raise what they report. -/
def State.valleyChecked (s : State) (f : Chan → Bool) : State :=
  { s with mods := s.checkedMods f, engine := s.checkedEngine f }

theorem State.checkAll_eq (f : Chan → Bool) (s : State) :
    s.checkAll f = (s.valleyChecked f).raiseEach (s.valleyReports f) := by
  rw [State.raiseEach, State.valleyReports, List.foldl_flatMap]
  refine congrArg (fun g => (List.finRange 8).foldl g (s.valleyChecked f)) (funext fun t => funext fun c => ?_)
  split
  · rw [List.foldl_map]
    rfl
  · rfl

theorem State.mem_valleyReports {k : ChanKind} : (c, k) ∈ s.valleyReports f ↔ (f c &&
    ((decide (k = .sampleMissing) && s.sampleMissing c) || (decide (k = .loopLate) && s.loopLate c) ||
      (decide (k = .comparesStale) && s.goesStale c))) = true := by
  have own : ∀ d, (c, k) ∈ (if f d then (s.valleyCheck d).reports.map (Prod.mk d) else []) ↔
      d = c ∧ f c = true ∧ k ∈ (s.valleyCheck c).reports := fun d => by
    cases hf : f d with
    | false =>
      simp only [Bool.false_eq_true, if_false, List.not_mem_nil, false_iff]
      rintro ⟨rfl, h, -⟩
      rw [hf] at h
      cases h
    | true =>
      simp only [if_true, List.mem_map, Prod.mk.injEq]
      constructor
      · rintro ⟨x, hx, rfl, rfl⟩
        exact ⟨rfl, hf, hx⟩
      · rintro ⟨rfl, -, h⟩
        exact ⟨k, h, rfl, rfl⟩
  have optional : ∀ (x : Bool) (j : ChanKind), k ∈ (if x then [j] else []) ↔ k = j ∧ x = true := fun x j => by
    cases x <;> simp
  simp only [State.valleyReports, List.mem_flatMap, List.mem_finRange, true_and, own, exists_eq_left]
  rw [s.valleyCheck_reports c]
  generalize s.sampleMissing c = x, s.loopLate c = y, s.goesStale c = z
  simp only [List.mem_append, optional, Bool.and_eq_true, Bool.or_eq_true, decide_eq_true_eq]

theorem State.valleyReports_nodup (s : State) (f : Chan → Bool) : (s.valleyReports f).Nodup := by
  have reports : ∀ c, (s.valleyCheck c).reports.Nodup := fun c => by
    rw [s.valleyCheck_reports c]
    cases s.sampleMissing c <;> cases s.loopLate c <;> cases s.goesStale c <;> decide
  refine List.nodup_flatMap.mpr ⟨fun c _ => ?_, (List.nodup_finRange 8).imp fun {a b} hab x ha hb => hab ?_⟩
  · split
    · exact (reports c).map fun _ _ h => (Prod.mk.inj h).2
    · exact List.nodup_nil
  · have own : ∀ {d}, x ∈ (if f d then (s.valleyCheck d).reports.map (Prod.mk d) else []) → d = x.1 := fun {d} h => by
      split at h
      · obtain ⟨k, -, rfl⟩ := List.mem_map.mp h
        rfl
      · cases h
    exact (own ha).trans (own hb).symm

end Sys2Proof.Machine
end

