-- ==== Sys2Proof/Proofs/UnitMoves.lean ====
section
/-! PROOFS. The supervisor at a set of channel valleys, unit by unit: what one unit's move leaves of the others, and that each
unit moves once. -/

namespace Sys2Proof.Machine

variable {x y z : State} {c d e : Chan} {f : Chan → Bool}

/-! ### Units -/

theorem Bank.not_names_of_lone {b : Bank} (h : b.role c = .lone) (k : Fin 4) : ¬b.names k c := by
  intro hk
  have named : b.roleIn k c ≠ .lone := by
    by_cases hl : (b.pairEntry k).leader = c
    · rw [Bank.roleIn_leader hk.1 hl]
      nofun
    · rw [Bank.roleIn_follower hk.1 hl (hk.2.resolve_left hl)]
      nofun
  unfold Bank.role at h
  split at h
  · next h0 =>
    split at h
    · next h1 =>
      split at h
      · next h2 => exact match k with
          | 0 => named h0
          | 1 => named h1
          | 2 => named h2
          | 3 => named h
      · next hn => exact hn h
    · next hn => exact hn h
  · next hn => exact hn h

/-- A lone channel is no one's partner. -/
theorem Bank.partner_ne_of_lone {b : Bank} (h : b.role c = .lone) (d : Chan) : (b.role d).partner ≠ some c := by
  intro hd
  cases hr : b.role d with
  | lone => simp [hr, Role.partner] at hd
  | leader k p =>
    rw [hr] at hd
    obtain rfl : p = c := Option.some.inj hd
    obtain ⟨active, -, follower⟩ := Bank.pairEntry_of_leader hr
    exact Bank.not_names_of_lone h k ⟨active, .inr follower⟩
  | follower k p =>
    rw [hr] at hd
    obtain rfl : p = c := Option.some.inj hd
    obtain ⟨active, leader, -⟩ := Bank.pairEntry_of_follower hr
    exact Bank.not_names_of_lone h k ⟨active, .inl leader⟩

/-- The unit of a channel is well formed: it is lone, or the bank has no PAIR_CONFLICT. -/
abbrev State.UnitSound (x : State) (c : Chan) : Prop := x.role c = .lone ∨ x.bank.pairFault = none

/-- Two units with a channel in common are one. -/
theorem State.inUnit_apart (hc : x.UnitSound c) (hd : x.inUnit c d = false) (he : x.inUnit c e = true) :
    x.inUnit d e = false := by
  rw [Bool.eq_false_iff, Ne, x.inUnit_iff] at hd ⊢
  rw [not_or] at hd
  rw [x.inUnit_iff] at he
  rcases hc with lone | sound
  · have noPartner : (x.role c).partner = none := by rw [lone]; rfl
    obtain rfl : e = c := he.resolve_right (by rw [noPartner]; nofun)
    rintro (rfl | hp)
    · exact hd.1 rfl
    · exact Bank.partner_ne_of_lone lone d hp
  · rintro (rfl | hp)
    · exact he.elim hd.1 hd.2
    · have back := (Bank.partner_symm sound hp).1
      rcases he with rfl | he
      · exact hd.2 back
      · have own := (Bank.partner_symm sound he).1
        exact hd.1 (Option.some.inj (back.symm.trans own))

/-! ### One unit's move -/

/-- The supervisor's act at a valley writes supervisors, modulators and pair runtimes. -/
theorem State.superviseOne_frame (x : State) (d : Chan) : x.superviseOne d =
    { x with sup := (x.superviseOne d).sup, mods := (x.superviseOne d).mods, pairs := (x.superviseOne d).pairs } := by
  obtain ⟨-, -, h⟩ | ⟨-, -, -, h⟩ | ⟨-, -, -, h⟩ | ⟨-, h⟩ | ⟨-, -, h⟩ := x.superviseOne_cases d <;> rw [h]
  · rfl
  · rfl
  · exact State.enterRun_frame d _
  · rfl

theorem State.superviseOne_rest (h : x.st d ≠ .charge ∧ x.st d ≠ .stopping) : x.superviseOne d = x := by
  obtain ⟨hc, -⟩ | ⟨hc, -⟩ | ⟨hc, -⟩ | ⟨hs, -⟩ | ⟨-, -, e⟩ := x.superviseOne_cases d
  · exact absurd hc h.1
  · exact absurd hc h.1
  · exact absurd hc h.1
  · exact absurd hs h.2
  · exact e

theorem State.superviseOne_beside (h : x.inUnit d e = false) : (x.superviseOne d).sup.get e = x.sup.get e ∧
    (x.superviseOne d).mods.get e = x.mods.get e := by
  have unit : ∀ n, (x.setCharge d n).inUnit d e = false := fun _ => h
  obtain ⟨-, -, m⟩ | ⟨-, -, -, m⟩ | ⟨-, -, -, m⟩ | ⟨-, m⟩ | ⟨-, -, m⟩ := x.superviseOne_cases d <;> rw [m]
  · exact ⟨rfl, by rw [State.beginCharging_get, h]; rfl⟩
  · exact ⟨by rw [State.setCharge, State.unitSup_get, h]; rfl, rfl⟩
  · obtain ⟨sup, mods⟩ := State.enterRun_get (x.setCharge d (x.nextCharge d)) d e
    rw [sup, mods, unit]
    exact ⟨by rw [State.setCharge]; simp [h], rfl⟩
  · obtain ⟨sup, mods⟩ := State.enterOff_get x d e
    rw [sup, mods, h]
    exact ⟨rfl, rfl⟩
  · exact ⟨rfl, rfl⟩

/-- A pair runtime that is cleared stays cleared. -/
theorem State.superviseOne_cleared {k : Fin 4} (h : x.pairs.get k = {}) : (x.superviseOne d).pairs.get k = {} := by
  obtain ⟨-, -, m⟩ | ⟨-, -, -, m⟩ | ⟨-, -, -, m⟩ | ⟨-, m⟩ | ⟨-, -, m⟩ := x.superviseOne_cases d <;> rw [m]
  · exact h
  · exact h
  · rw [State.enterRun, State.clearPair_pairs_get]
    split
    · rfl
    · exact h
  · exact h
  · exact h

/-- `y` has the unit of `c` as `x` has it, and differs from `x` in supervisors, modulators and pair runtimes only. -/
structure State.SameUnit (c : Chan) (x y : State) : Prop where
  frame : y = { x with sup := y.sup, mods := y.mods, pairs := y.pairs }
  sup : ∀ d, x.inUnit c d = true → y.sup.get d = x.sup.get d
  mods : ∀ d, x.inUnit c d = true → y.mods.get d = x.mods.get d
  cleared : ∀ k, x.pairs.get k = {} → y.pairs.get k = {}

namespace State.SameUnit

theorem refl (c : Chan) (x : State) : x.SameUnit c x := ⟨rfl, fun _ _ => rfl, fun _ _ => rfl, fun _ => id⟩

theorem store (h : x.SameUnit c y) : y.store = x.store := by rw [h.frame]

theorem role (h : x.SameUnit c y) : ∀ d, y.role d = x.role d := State.role_congr h.store

theorem inUnit (h : x.SameUnit c y) (d e : Chan) : y.inUnit d e = x.inUnit d e := by
  rw [State.inUnit, h.role, State.inUnit]

theorem unitSound (h : x.SameUnit c y) (hc : x.UnitSound d) : y.UnitSound d := by
  rw [State.UnitSound, h.role, State.bank_congr h.store]
  exact hc

theorem trans (h : x.SameUnit c y) (h' : y.SameUnit c z) : x.SameUnit c z where
  frame := h'.frame.trans (by rw [h.frame])
  sup d hd := (h'.sup d ((h.inUnit c d).trans hd)).trans (h.sup d hd)
  mods d hd := (h'.mods d ((h.inUnit c d).trans hd)).trans (h.mods d hd)
  cleared k hk := h'.cleared k (h.cleared k hk)

/-- The act on a channel of another unit leaves this unit. -/
theorem superviseOne (hc : x.UnitSound c) (hd : x.inUnit c d = false) : x.SameUnit c (x.superviseOne d) where
  frame := x.superviseOne_frame d
  sup _ he := (State.superviseOne_beside (State.inUnit_apart hc hd he)).1
  mods _ he := (State.superviseOne_beside (State.inUnit_apart hc hd he)).2
  cleared _ := State.superviseOne_cleared

end State.SameUnit

/-! ### All units at a turning point -/

/-- The supervisor's act on one channel of `f`; a follower moves with its leader (R124). -/
def State.superviseIn (f : Chan → Bool) (x : State) (d : Chan) : State :=
  if f d && !(x.role d).isFollower then x.superviseOne d else x

theorem State.supervise_eq (f : Chan → Bool) (x : State) : x.supervise f = (List.finRange 8).foldl (State.superviseIn f) x := rfl

/-- A unit of which no channel is in CHARGE or STOPPING stays as it is (R124). -/
theorem State.supervise_still (hc : x.UnitSound c)
    (still : ∀ d, x.inUnit c d = true → x.st d ≠ .charge ∧ x.st d ≠ .stopping) : x.SameUnit c (x.supervise f) := by
  refine State.supervise_keeps (q := fun y => x.SameUnit c y) f (fun y d h => ?_) (.refl c x)
  refine h.trans ?_
  cases hd : x.inUnit c d with
  | true =>
    have st : y.st d = x.st d := congrArg Supervisor.st (h.sup d hd)
    rw [State.superviseOne_rest (by rw [st]; exact still d hd)]
    exact .refl c y
  | false => exact .superviseOne (h.unitSound hc) ((h.inUnit c d).trans hd)

/-- The unit of a channel that governs itself is that of one act, its own. -/
theorem State.superviseIn_other (hc : x.UnitSound c) (lead : (x.role c).isFollower = false) (hd : d ≠ c) :
    x.SameUnit c (x.superviseIn f d) := by
  unfold State.superviseIn
  split
  · next h =>
    refine .superviseOne hc ?_
    rw [Bool.eq_false_iff, Ne, x.inUnit_iff, not_or]
    refine ⟨hd, fun partner => ?_⟩
    simp only [Bool.and_eq_true, Bool.not_eq_true'] at h
    rcases hc with lone | sound
    · rw [lone] at partner
      cases partner
    · cases hr : x.role c with
      | lone => rw [hr] at partner; cases partner
      | follower => rw [hr] at lead; cases lead
      | leader k p =>
        rw [hr] at partner
        obtain rfl : p = d := Option.some.inj partner
        have follows : x.role p = .follower k c := (Bank.role_of_leader sound hr).1
        rw [follows] at h
        exact absurd h.2 (by simp [Role.isFollower])
  · exact .refl c x

theorem State.superviseIn_others {l : List Chan} (hl : c ∉ l) (hc : x.UnitSound c) (lead : (x.role c).isFollower = false) :
    x.SameUnit c (l.foldl (State.superviseIn f) x) := by
  induction l generalizing x with
  | nil => exact .refl c x
  | cons d l ih =>
    rw [List.mem_cons, not_or] at hl
    obtain ⟨hd, hl⟩ := hl
    have here := State.superviseIn_other (f := f) hc lead (Ne.symm hd)
    exact here.trans (ih hl (here.unitSound hc) (by rw [here.role]; exact lead))

/-- A unit whose channel is of `f` and governs itself moves by its own act, the units before and after it leaving it. -/
theorem State.supervise_unit (hf : f c = true) (hc : x.UnitSound c) (lead : (x.role c).isFollower = false) :
    ∃ y, x.SameUnit c y ∧ (y.superviseOne c).SameUnit c (x.supervise f) := by
  obtain ⟨l, m, split⟩ := List.append_of_mem (List.mem_finRange c)
  have nodup := List.nodup_finRange 8
  rw [split] at nodup
  have fresh := (List.nodup_middle.mp nodup)
  obtain ⟨notMem, -⟩ := List.nodup_cons.mp fresh
  rw [List.mem_append, not_or] at notMem
  have before := State.superviseIn_others (f := f) (x := x) notMem.1 hc lead
  refine ⟨l.foldl (State.superviseIn f) x, before, ?_⟩
  rw [State.supervise_eq, split, List.foldl_append, List.foldl_cons]
  generalize l.foldl (State.superviseIn f) x = y at before ⊢
  have lead' : (y.role c).isFollower = false := by rw [before.role]; exact lead
  have own : y.superviseIn f c = y.superviseOne c := by simp [State.superviseIn, hf, lead']
  have role : ∀ d, (y.superviseOne c).role d = y.role d := State.role_congr (State.superviseOne_store y c)
  have bank : (y.superviseOne c).bank = y.bank := State.bank_congr (State.superviseOne_store y c)
  rw [own]
  refine State.superviseIn_others notMem.2 ?_ (by rw [role]; exact lead')
  rw [State.UnitSound, role, bank]
  exact before.unitSound hc

end Sys2Proof.Machine
end

