-- ==== Sys2Proof/Proofs/ReportRows.lean ====
section
/-! PROOFS. What a row of raises does to one channel and its partner: who trips, what a trip record says, who holds, and that a
row without routes leaves everything. -/

namespace Sys2Proof.Machine

variable {s t : State} {c d : Chan} {k j : ChanKind} {l m n : List (Chan × ChanKind)}

theorem State.raiseEach_bank (l : List (Chan × ChanKind)) (s : State) : (s.raiseEach l).bank = s.bank :=
  State.bank_congr (s.raiseEach_store l)

theorem State.raiseEach_role (l : List (Chan × ChanKind)) (s : State) (c : Chan) : (s.raiseEach l).role c = s.role c :=
  State.role_congr (s.raiseEach_store l) c

/-! ### Trips -/

/-- A channel in TRIP stays there through raises. -/
theorem State.RaisedFrom.trip (h : s.RaisedFrom t) (hc : s.st c = .trip) : t.st c = .trip :=
  (h.idle c (.inr hc)).resolve_left (h.notOff c (by rw [hc]; nofun))

/-- One raise trips every channel in use that it reaches, unless that is in TRIP already (R136, R150). -/
theorem State.raiseChan_trips_reached {v : Via} (hv : s.tripReach ((s.bank.route k.code).chanTrip k c) d = some v)
    (used : (s.record d).inUse = true) : (s.raiseChan k c).st d = .trip := by
  by_cases trip : s.st d = .trip
  · exact (State.RaisedFrom.raiseChan k c).trip trip
  · exact congrArg Supervisor.st ((s.raiseChan_acted k c).tripped hv (State.tripTakes_iff.mpr ⟨trip, used⟩)).1

/-- A trip-class kind raised on a channel names that channel for a trip (R145, R147). -/
theorem Bank.chanTrip_own {b : Bank} (h : b.chanTripClass k = true) (c : Chan) :
    ∃ v, (b.route k.code).chanTrip k c c = some v := by
  refine Option.ne_none_iff_exists'.mp ?_
  rw [Ne, Route.chanTrip_eq_none_iff, not_not]
  simp only [Bank.chanTripClass, Bool.or_eq_true] at h
  simp only [Bool.or_eq_true, true_and]
  exact h

/-- A trip-class kind raised on a channel in use trips its unit (R136, R146). -/
theorem State.raiseChan_trips_unit (hc : s.UnitSound c) (used : (s.record c).inUse = true)
    (h : s.bank.chanTripClass k = true) (hd : s.inUnit c d = true) : (s.raiseChan k c).st d = .trip := by
  obtain ⟨v, own⟩ := Bank.chanTrip_own h c
  rcases (s.inUnit_iff c d).mp hd with rfl | partner
  · exact State.raiseChan_trips_reached (State.tripReach_named own) used
  · rcases hc with lone | sound
    · rw [lone] at partner
      cases partner
    · have back : (s.role d).partner = some c := (Bank.partner_symm sound partner).1
      have reached : s.tripReach ((s.bank.route k.code).chanTrip k c) d ≠ none := fun e => by
        rw [(State.tripReach_eq_none_iff.mp e).2 c back] at own
        cases own
      obtain ⟨w, hw⟩ := Option.ne_none_iff_exists'.mp reached
      exact State.raiseChan_trips_reached hw (Bank.inUse_of_partner sound partner).2

/-- A row of raises with a trip-class kind on a channel in use trips its unit. -/
theorem State.raiseEach_trips_unit (hl : (c, k) ∈ l) (hc : s.UnitSound c) (used : (s.record c).inUse = true)
    (h : s.bank.chanTripClass k = true) (hd : s.inUnit c d = true) : (s.raiseEach l).st d = .trip := by
  obtain ⟨m, n, rfl⟩ := List.append_of_mem hl
  rw [State.raiseEach_append, State.raiseEach_cons]
  have bank := s.raiseEach_bank m
  have role := s.raiseEach_role m
  refine (State.raiseEach_raisedFrom n _).trip (State.raiseChan_trips_unit ?_ ?_ ?_ ?_)
  · rwa [State.UnitSound, role, bank]
  · rwa [State.record, bank]
  · rwa [bank]
  · rwa [State.inUnit, role]

/-- Channel `c`, if in TRIP, stands there as a trip leaves it, with its record. -/
def State.Tripped (s : State) (c : Chan) : Prop := s.st c = .trip → (s.mods.get c).dark ∧
  (s.mods.get c).drive = false ∧ (s.mods.get c).pending = none ∧ (s.router.trips.get c).isSome = true

theorem State.raiseChan_tripped (h : s.Tripped c) : (s.raiseChan k d).Tripped c := by
  have acted := s.raiseChan_acted k d
  intro after
  cases hv : s.tripReach ((s.bank.route k.code).chanTrip k d) c with
  | some v =>
    by_cases trip : s.st c = .trip
    · obtain ⟨-, mods, trips⟩ := acted.counted (Option.isSome_iff_exists.mpr ⟨v, hv⟩) trip
      rw [mods, trips, Option.isSome_map]
      exact h trip
    · cases takes : s.tripTakes c with
      | true =>
        obtain ⟨-, dark, drive, pending, trips⟩ := acted.tripped hv takes
        exact ⟨dark, drive, pending, by rw [trips]; rfl⟩
      | false =>
        have held := (acted c).1
        rw [takes, Bool.and_false, if_neg Bool.false_ne_true] at held
        rw [State.st, held] at after
        exact absurd ((Supervisor.addCauses_trip_iff _ _).mp after) trip
  | none =>
    obtain ⟨mods, trips, sup⟩ := acted.unreached hv
    rw [mods, trips]
    rw [State.st, sup] at after
    exact h ((Supervisor.addCauses_trip_iff _ _).mp after)

theorem State.raiseEach_tripped (h : s.Tripped c) : (s.raiseEach l).Tripped c :=
  State.raiseEach_keeps (q := fun t => t.Tripped c) h fun _ _ _ => State.raiseChan_tripped

/-! ### Trip records -/

/-- No raise of the row names channel `c` for a trip. -/
abbrev Bank.Unnamed (b : Bank) (c : Chan) (l : List (Chan × ChanKind)) : Prop :=
  ∀ x ∈ l, (b.route x.2.code).chanTrip x.2 x.1 c = none

theorem Supervisor.addCauses_st (u : Supervisor) (x : Causes) : (u.addCauses x).st = u.st ∨
    (u.st.closing = true ∧ (u.addCauses x).st = .hold) := by
  unfold Supervisor.addCauses
  split_ifs with _ closing
  · exact .inl rfl
  · exact .inr ⟨closing, rfl⟩
  · exact .inl rfl

/-- A row that does not name a lone channel leaves its trip record and its state, but for a hold. -/
theorem State.raiseEach_unnamed (lone : s.role c = .lone) (h : s.bank.Unnamed c l) :
    (s.raiseEach l).router.trips.get c = s.router.trips.get c ∧
      ((s.raiseEach l).st c = s.st c ∨ ((s.st c).closing = true ∧ (s.raiseEach l).st c = .hold)) := by
  induction l generalizing s with
  | nil => exact ⟨rfl, .inl rfl⟩
  | cons x l ih =>
    have noPartner : (s.role c).partner = none := by rw [lone]; rfl
    have unreached := State.tripReach_eq_none_iff.mpr
      ⟨h x List.mem_cons_self, fun p hp => by rw [noPartner] at hp; cases hp⟩
    obtain ⟨-, trips, sup⟩ := (s.raiseChan_acted x.2 x.1).unreached unreached
    have bank : (s.raiseChan x.2 x.1).bank = s.bank := s.raiseEach_bank [x]
    obtain ⟨trips', st⟩ := @ih (s.raiseChan x.2 x.1) ((s.raiseEach_role [x] c).trans lone)
      fun y hy => by rw [bank]; exact h y (List.mem_cons_of_mem x hy)
    rw [State.raiseEach_cons]
    refine ⟨trips'.trans trips, ?_⟩
    have here : (s.raiseChan x.2 x.1).st c = s.st c ∨ ((s.st c).closing = true ∧ (s.raiseChan x.2 x.1).st c = .hold) := by
      rw [State.st, sup]
      exact Supervisor.addCauses_st _ _
    rcases here with e | ⟨closing, e⟩
    · rwa [e] at st
    · rw [e] at st
      exact .inr ⟨closing, st.elim id And.right⟩

/-- A trip record of kind `code` via SELF, of a channel that `s` finds in its state or held since, with secondary causes `l`. -/
def State.RecordOf (s : State) (c : Chan) (code : Nat) (l : List Secondary) (r : Option TripRecord) : Prop :=
  ∃ x, r = some x ∧ x.cause = code ∧ x.via = .self ∧ x.cycle = s.ring.lastCycle ∧
    (x.before = s.st c ∨ x.before = .hold) ∧ x.snapshot = (s.loop.get c).last.snapshot ∧ x.overflow = 0 ∧ x.secondary = l

/-- A row that first names a lone channel in RUN or HOLD by its own kind `k`, and names it no more. -/
theorem State.raiseEach_record (lone : s.role c = .lone) (closing : (s.st c).closing = true) (used : (s.record c).inUse = true)
    (hm : s.bank.Unnamed c m) (own : (s.bank.route k.code).chanTrip k c c = some .self) (hn : s.bank.Unnamed c n) :
    s.RecordOf c k.code [] ((s.raiseEach (m ++ (c, k) :: n)).router.trips.get c) := by
  rw [State.raiseEach_append, State.raiseEach_cons]
  obtain ⟨-, before⟩ := State.raiseEach_unnamed lone hm
  have bank := s.raiseEach_bank m
  have role := s.raiseEach_role m
  have frame := (s.raiseEach_raisedFrom m).frame
  generalize s.raiseEach m = y at *
  have ring : y.ring = s.ring := by rw [frame]
  have loop : y.loop = s.loop := by rw [frame]
  have notTrip : y.st c ≠ .trip := by
    rcases before with e | ⟨-, e⟩
    · rw [e]; exact ChanState.ne_trip ((ChanState.closing_iff _).mp closing)
    · rw [e]; nofun
  have takes : y.tripTakes c = true := State.tripTakes_iff.mpr ⟨notTrip, by rwa [State.record, bank]⟩
  have tripped := (y.raiseChan_acted k c).tripped (State.tripReach_named (by rwa [bank])) takes
  have bank' : (y.raiseChan k c).bank = y.bank := y.raiseEach_bank [(c, k)]
  have lone' : (y.raiseChan k c).role c = .lone := (y.raiseEach_role [(c, k)] c).trans ((role c).trans lone)
  rw [(State.raiseEach_unnamed lone' (by rw [bank', bank]; exact hn)).1, tripped.2.2.2.2]
  exact ⟨_, rfl, rfl, rfl, by rw [ring], before.imp_right And.right, by rw [loop], rfl, rfl⟩

/-- A later raise that names the channel in TRIP is a secondary cause (R152). -/
theorem State.raiseEach_record_again (lone : s.role c = .lone) (closing : (s.st c).closing = true)
    (used : (s.record c).inUse = true) (hm : s.bank.Unnamed c m) (own : (s.bank.route k.code).chanTrip k c c = some .self)
    (again : (s.bank.route j.code).chanTrip j c c = some .self) (hn : s.bank.Unnamed c n) :
    s.RecordOf c k.code [⟨j.code, s.ring.lastCycle⟩] ((s.raiseEach (m ++ (c, k) :: (c, j) :: n)).router.trips.get c) := by
  have first := State.raiseEach_record (n := []) lone closing used hm own (by simp)
  have bank := s.raiseEach_bank (m ++ [(c, k)])
  have role := s.raiseEach_role (m ++ [(c, k)]) c
  have frame := (s.raiseEach_raisedFrom (m ++ [(c, k)])).frame
  have tripClass : s.bank.chanTripClass k = true := by
    by_contra h
    rw [Bool.not_eq_true] at h
    rw [Route.chanTrip_none h] at own
    cases own
  have trip : (s.raiseEach (m ++ [(c, k)])).st c = .trip :=
    State.raiseEach_trips_unit (List.mem_append_right m List.mem_cons_self) (.inl lone) used tripClass
      ((s.inUnit_iff c c).mpr (.inl rfl))
  rw [← List.singleton_append (l := (c, j) :: n), ← List.append_assoc, State.raiseEach_append, State.raiseEach_cons]
  generalize s.raiseEach (m ++ [(c, k)]) = y at *
  have ring : y.ring = s.ring := by rw [frame]
  obtain ⟨-, -, counted⟩ := (y.raiseChan_acted j c).counted
    (by rw [State.tripReach_named (by rw [bank]; exact again)]; rfl) trip
  have bank' : (y.raiseChan j c).bank = s.bank := (y.raiseEach_bank [(c, j)]).trans bank
  have lone' : (y.raiseChan j c).role c = .lone := (y.raiseEach_role [(c, j)] c).trans (role.trans lone)
  obtain ⟨x, hx, cause, via, cycle, before, snapshot, overflow, secondary⟩ := first
  rw [(State.raiseEach_unnamed lone' (by rw [bank']; exact hn)).1, counted, hx, ring,
    Option.map_some, TripRecord.addSecondary_listed (by rw [secondary]; decide), secondary]
  exact ⟨_, rfl, cause, via, cycle, before, snapshot, overflow, rfl⟩

/-! ### Holds -/

/-- A raise of a kind that is not trip-class is its hold. -/
theorem State.raiseChan_holds {k : ChanKind} (noTrip : s.bank.chanTripClass k = false) (e : Chan) :
    (s.raiseChan k e).sup.get d = (s.sup.get d).addCauses (s.holdReach ((s.bank.route k.code).chanHold k e) d) :=
  ((s.raiseChan_acted k e).unreached (s.tripReach_none (Route.chanTrip_none noTrip e) d)).2.2

/-- A channel in RUN or HOLD. -/
abbrev Supervisor.Closing (u : Supervisor) : Prop := u.st.closing = true

theorem Supervisor.addCauses_keeps_closing {u : Supervisor} (h : u.Closing) (x : Causes) : (u.addCauses x).Closing := by
  rcases u.addCauses_st x with e | ⟨-, e⟩
  · rwa [Supervisor.Closing, e]
  · rw [Supervisor.Closing, e]; rfl

theorem Supervisor.addCauses_keeps_hold {u : Supervisor} (h : u.st = .hold ∧ u.causes.routed = true) (x : Causes) :
    (u.addCauses x).st = .hold ∧ (u.addCauses x).causes.routed = true := by
  unfold Supervisor.addCauses
  split_ifs
  · exact h
  · exact ⟨rfl, by simp [Causes.union, h.2]⟩
  · exact h

/-- A kind routed to hold its channel holds the channel's unit (R130, R145). -/
theorem State.raiseChan_holds_unit (hc : s.UnitSound c) (noTrip : s.bank.chanTripClass k = false)
    (h : (s.bank.route k.code).holdSelf = true) (hd : s.inUnit c d = true) (closing : (s.sup.get d).Closing) :
    (s.raiseChan k c).st d = .hold ∧ ((s.raiseChan k c).sup.get d).causes.routed = true := by
  have own : ((s.bank.route k.code).chanHold k c c).routed = true := Route.chanHold_routed (.inl ⟨rfl, .inr h⟩) (.inl h)
  have reached : (s.holdReach ((s.bank.route k.code).chanHold k c) d).routed = true := by
    rcases (s.inUnit_iff c d).mp hd with rfl | partner
    · exact State.holdReach_routed own
    · rcases hc with lone | sound
      · rw [lone] at partner
        cases partner
      · have back : (s.role d).partner = some c := (Bank.partner_symm sound partner).1
        simp [State.holdReach, back, Causes.union, own]
  have sup := State.raiseChan_holds (d := d) noTrip c
  rw [Supervisor.addCauses_closing closing (Causes.isEmpty_of_routed reached)] at sup
  exact ⟨congrArg Supervisor.st sup, by rw [sup]; exact Causes.union_routed _ reached⟩

/-- A row of kinds that are not trip-class holds the unit of a channel whose own kind is routed to hold it. -/
theorem State.raiseEach_holds_unit (hl : (c, k) ∈ l) (noTrip : ∀ x ∈ l, s.bank.chanTripClass x.2 = false) (hc : s.UnitSound c)
    (h : (s.bank.route k.code).holdSelf = true) (hd : s.inUnit c d = true) (closing : (s.sup.get d).Closing) :
    (s.raiseEach l).st d = .hold ∧ ((s.raiseEach l).sup.get d).causes.routed = true := by
  have here := noTrip _ hl
  obtain ⟨m, n, rfl⟩ := List.append_of_mem hl
  have before : (s.raiseEach m).bank = s.bank ∧ ((s.raiseEach m).sup.get d).Closing := by
    refine State.raiseEach_keeps (q := fun t => t.bank = s.bank ∧ (t.sup.get d).Closing) ⟨rfl, closing⟩ fun t x hx ht => ?_
    refine ⟨(t.raiseEach_bank [x]).trans ht.1, ?_⟩
    rw [State.raiseChan_holds (by rw [ht.1]; exact noTrip x (List.mem_append_left _ hx))]
    exact Supervisor.addCauses_keeps_closing ht.2 _
  have role := s.raiseEach_role m
  rw [State.raiseEach_append, State.raiseEach_cons]
  generalize s.raiseEach m = y at *
  obtain ⟨bank, closing'⟩ := before
  have held := State.raiseChan_holds_unit (s := y) (c := c) (k := k) (d := d) (by rwa [State.UnitSound, role, bank])
    (by rwa [bank]) (by rwa [bank]) (by rwa [State.inUnit, role]) closing'
  have after : ((y.raiseChan k c).raiseEach n).bank = s.bank ∧ (((y.raiseChan k c).raiseEach n).sup.get d).st = .hold ∧
      (((y.raiseChan k c).raiseEach n).sup.get d).causes.routed = true := by
    refine State.raiseEach_keeps (q := fun t => t.bank = s.bank ∧ (t.sup.get d).st = .hold ∧ (t.sup.get d).causes.routed = true)
      ⟨(y.raiseEach_bank [(c, k)]).trans bank, held⟩ fun t x hx ht => ?_
    refine ⟨(t.raiseEach_bank [x]).trans ht.1, ?_⟩
    rw [State.raiseChan_holds (by rw [ht.1]; exact noTrip x (List.mem_append_right _ (List.mem_cons_of_mem _ hx)))]
    exact Supervisor.addCauses_keeps_hold ht.2 _
  exact after.2

/-! ### Rows without routes -/

/-- A kind with no action of its own and a route that names no one. -/
structure Bank.Unrouted (b : Bank) (k : ChanKind) : Prop where
  fixed : k.fixedTrip = false ∧ k.fixedHold = false
  trips : (b.route k.code).tripSelf = false ∧ (b.route k.code).tripAll = false
  holds : (b.route k.code).holdSelf = false ∧ (b.route k.code).holdAll = false

/-- A row of such kinds leaves every supervisor, modulator and trip record. -/
theorem State.raiseEach_unrouted (h : ∀ x ∈ l, s.bank.Unrouted x.2) (d : Chan) :
    (s.raiseEach l).sup.get d = s.sup.get d ∧ (s.raiseEach l).mods.get d = s.mods.get d ∧
      (s.raiseEach l).router.trips.get d = s.router.trips.get d := by
  have kept : (s.raiseEach l).bank = s.bank ∧ (s.raiseEach l).sup.get d = s.sup.get d ∧
      (s.raiseEach l).mods.get d = s.mods.get d ∧ (s.raiseEach l).router.trips.get d = s.router.trips.get d := by
    refine State.raiseEach_keeps (q := fun t => t.bank = s.bank ∧ t.sup.get d = s.sup.get d ∧
      t.mods.get d = s.mods.get d ∧ t.router.trips.get d = s.router.trips.get d) ⟨rfl, rfl, rfl, rfl⟩ fun t x hx ht => ?_
    obtain ⟨bank, sup, mods, trips⟩ := ht
    obtain ⟨⟨fixedTrip, fixedHold⟩, ⟨tripSelf, tripAll⟩, holdSelf, holdAll⟩ := h x hx
    rw [← bank] at tripSelf tripAll holdSelf holdAll
    have noTrip : t.bank.chanTripClass x.2 = false := by rw [Bank.chanTripClass, fixedTrip, tripSelf, tripAll]; rfl
    have noHold : ∀ e, ((t.bank.route x.2.code).chanHold x.2 x.1 e).isEmpty = true := fun e => by
      simp [Route.chanHold, Causes.isEmpty, fixedHold, holdSelf, holdAll]
    obtain ⟨mods', trips', sup'⟩ := (t.raiseChan_acted x.2 x.1).unreached
      (t.tripReach_none (Route.chanTrip_none noTrip x.1) d)
    refine ⟨(t.raiseEach_bank [x]).trans bank, sup'.trans ?_, mods'.trans mods, trips'.trans trips⟩
    exact (Supervisor.addCauses_empty _ (State.holdReach_isEmpty_iff.mpr ⟨noHold d, fun p _ => noHold p⟩)).trans sup
  exact kept.2

end Sys2Proof.Machine
end

