-- ==== Sys2Proof/Proofs/ChannelValleys.lean ====
section
/-! PROOFS. The valleys of a set of channels: the checks as a row of raises, the supervisor unit by unit, and the strobes and
gate lines, which leave what both did. -/

namespace Sys2Proof.Machine

variable {s : State} {c d : Chan} {f : Chan → Bool}

/-! ### Strobes and gate lines leave the rest -/

/-- The state of a set of channel valleys before its strobes. -/
abbrev State.valleyMoved (s : State) (f : Chan → Bool) : State := (s.checkAll f).supervise f

theorem State.channelValleys_sup (s : State) (f : Chan → Bool) : (s.channelValleys f).sup = (s.valleyMoved f).sup := rfl

theorem State.channelValleys_router (s : State) (f : Chan → Bool) : (s.channelValleys f).router = (s.checkAll f).router :=
  (s.checkAll f).supervise_router f

theorem State.channelValleys_mods (s : State) (f : Chan → Bool) (c : Chan) :
    ((s.channelValleys f).mods.get c).drive = ((s.valleyMoved f).mods.get c).drive ∧
      ((s.channelValleys f).mods.get c).active = ((s.valleyMoved f).mods.get c).active ∧
      ((s.channelValleys f).mods.get c).pending = ((s.valleyMoved f).mods.get c).pending ∧
      ((s.channelValleys f).mods.get c).stale = ((s.valleyMoved f).mods.get c).stale := by
  have strobed : ∀ d, ((s.valleyMoved f).strobeAll f).mods.get d =
      if f d then { (s.valleyMoved f).mods.get d with deadTime := ((s.valleyMoved f).record d).deadTime }
      else (s.valleyMoved f).mods.get d := fun d => PerChan.get_ofFn ..
  rw [State.channelValleys, State.settleGates_get, strobed]
  split <;> exact ⟨rfl, rfl, rfl, rfl⟩

/-- A channel that does not drive leaves its valley with all gates off. -/
theorem State.channelValleys_dark (h : ((s.valleyMoved f).mods.get c).drive = false) :
    ((s.channelValleys f).mods.get c).dark := by
  have drive := (s.channelValleys_mods f c).1.trans h
  have off : ((s.valleyMoved f).strobeAll f).enabled c = false := State.not_enabled (.inl <| by
    rw [State.channelValleys, State.settleGates_get] at drive
    exact drive)
  rw [State.channelValleys, State.settleGates_mods_get, State.settledMod, off]
  exact Modulator.mapPhases_dark fun _ _ => Phase.settle_dark _ _ _

/-- The strobe records the state entered (R60). -/
theorem State.channelValleys_strobe (h : f c = true) :
    ((s.channelValleys f).lanes.get c).strobe.map (·.st) = some ((s.channelValleys f).st c) := by
  have lane : (s.channelValleys f).lanes.get c =
      if f c then ((s.valleyMoved f).lanes.get c).strobed ((s.valleyMoved f).strobeRec c)
      else (s.valleyMoved f).lanes.get c := PerChan.get_ofFn ..
  rw [lane, if_pos h]
  rfl

/-! ### What the valleys write -/

theorem State.eq_of_fields {s t : State} (pending : t.pending = s.pending) (free : t.free = s.free) (ring : t.ring = s.ring)
    (tb : t.tb = s.tb) (loop : t.loop = s.loop) (refs : t.refs = s.refs) (store : t.store = s.store) :
    t = { s with sup := t.sup, mods := t.mods, router := t.router, engine := t.engine, lanes := t.lanes, pos := t.pos,
                 pairs := t.pairs } := by
  rw [← pending, ← free, ← ring, ← tb, ← loop, ← refs, ← store]

theorem State.checkAll_engine (s : State) (f : Chan → Bool) : (s.checkAll f).engine = s.checkedEngine f := by
  rw [State.checkAll_eq, ((s.valleyChecked f).raiseEach_raisedFrom _).frame]
  rfl

/-- An entry after the valleys of the channels of `f`: late where its check says so, and current no more (R70). -/
theorem State.channelValleys_engine (s : State) (f : Chan → Bool) {marked : Entry → Entry}
    (h : ∀ e, marked e = { e with late := e.late || (f e.chan && e.current && s.loopLate e.chan),
                                  current := e.current && !f e.chan }) :
    (s.channelValleys f).engine = { queue := s.engine.queue.map marked
                                    running := s.engine.running.map fun r => { r with entry := marked r.entry } } := by
  have engine : (s.channelValleys f).engine = (s.checkedEngine f).strobed f := by
    rw [← s.checkAll_engine f, ← State.supervise_engine (s := s.checkAll f) f]
    rfl
  have entry : ∀ e : Entry, marked e = (fun x : Entry => if f x.chan then { x with current := false } else x)
      (if f e.chan && (s.valleyCheck e.chan).late && e.unfinished e.chan then { e with late := true } else e) := fun e => by
    rw [h, State.valleyCheck_late]
    simp only [Entry.unfinished, decide_true, Bool.true_and]
    cases hf : f e.chan with
    | false => simp [hf]
    | true => cases s.loopLate e.chan <;> cases e.current <;> simp [hf]
  obtain rfl : marked = _ := funext entry
  rw [engine, State.checkedEngine, Engine.strobed, Engine.mapEntries, Engine.mapEntries, List.map_map, Option.map_map]
  rfl

/-- The supervisor's act keeps every stale count. -/
theorem State.superviseOne_stale (s : State) (d c : Chan) :
    ((s.superviseOne d).mods.get c).stale = (s.mods.get c).stale := by
  obtain ⟨-, -, m⟩ | ⟨-, -, -, m⟩ | ⟨-, -, -, m⟩ | ⟨-, m⟩ | ⟨-, -, m⟩ := s.superviseOne_cases d <;> rw [m]
  · rw [State.beginCharging_get]
    split <;> rfl
  · rfl
  · rw [(State.enterRun_get _ d c).2]
    split <;> rfl
  · rw [(State.enterOff_get s d c).2]
    split <;> rfl

theorem State.channelValleys_stale (s : State) (f : Chan → Bool) (c : Chan) : ((s.channelValleys f).mods.get c).stale =
    if f c then (if s.waits c then min 4 ((s.mods.get c).stale + 1)
      else if s.st c = .run ∨ s.st c = .hold then 0 else (s.mods.get c).stale)
    else (s.mods.get c).stale := by
  have moved : ((s.valleyMoved f).mods.get c).stale = ((s.checkAll f).mods.get c).stale :=
    State.supervise_keeps (q := fun x => (x.mods.get c).stale = ((s.checkAll f).mods.get c).stale) f
      (fun x d h => (x.superviseOne_stale d c).trans h) rfl
  have checked : (s.valleyChecked f).mods.get c = if f c then (s.valleyCheck c).mod else s.mods.get c := PerChan.get_ofFn ..
  rw [(s.channelValleys_mods f c).2.2.2, moved, State.checkAll_eq, ((s.valleyChecked f).raiseEach_mods _ c).1, checked]
  split
  · exact s.valleyCheck_stale c
  · rfl

theorem State.channelValleys_chanFlag (s : State) (f : Chan → Bool) (c : Chan) (k : ChanKind) :
    (s.channelValleys f).chanFlag c k = if (c, k) ∈ s.valleyReports f then
      { isSet := true, count := min 65535 ((s.chanFlag c k).count + 1) } else s.chanFlag c k := by
  have flags : (s.channelValleys f).chanFlag c k = (s.checkAll f).chanFlag c k := by
    rw [State.chanFlag, s.channelValleys_router f, State.chanFlag]
  rw [flags, State.checkAll_eq, State.raiseEach_chanFlag (s.valleyReports_nodup f)]
  rfl

theorem State.channelValleys_lines (h : s.valleyReports f ≠ []) :
    (s.channelValleys f).router.lines = (s.channelValleys f).linesNow := by
  have lines := State.raiseEach_lines h (s.valleyChecked f)
  rw [← State.checkAll_eq] at lines
  have router := s.channelValleys_router f
  rw [State.linesNow_congr (s := s.checkAll f) (by rw [router]) (by rw [router]) (by simp), router]
  exact lines

theorem State.channelValleys_quiet (h : s.valleyReports f = []) : (s.channelValleys f).router = s.router := by
  rw [s.channelValleys_router, State.checkAll_eq, h]
  rfl

/-! ### Trips -/

theorem State.checkAll_role (s : State) (f : Chan → Bool) (c : Chan) : (s.checkAll f).role c = s.role c :=
  State.role_congr (s.checkAll_store f) c

theorem State.checkAll_inUnit (s : State) (f : Chan → Bool) (c d : Chan) : (s.checkAll f).inUnit c d = s.inUnit c d := by
  rw [State.inUnit, s.checkAll_role, State.inUnit]

theorem State.checkAll_unitSound (h : s.UnitSound c) : (s.checkAll f).UnitSound c := by
  rw [State.UnitSound, s.checkAll_role, State.bank_congr (s.checkAll_store f)]
  exact h

theorem State.self_inUnit (s : State) (c : Chan) : s.inUnit c c = true := (s.inUnit_iff c c).mpr (.inl rfl)

/-- A channel in use with a trip-class report trips with its unit before the supervisor acts, which leaves it (R124). -/
theorem State.channelValleys_trips {k : ChanKind} (hk : (c, k) ∈ s.valleyReports f) (h : s.bank.chanTripClass k = true)
    (hc : s.UnitSound c) (used : (s.record c).inUse = true) :
    (s.checkAll f).st c = .trip ∧ (s.checkAll f).SameUnit c (s.valleyMoved f) := by
  have trip : ∀ d, s.inUnit c d = true → (s.checkAll f).st d = .trip := fun d hd => by
    rw [State.checkAll_eq]
    exact State.raiseEach_trips_unit hk hc used h hd
  refine ⟨trip c (s.self_inUnit c), State.supervise_still (State.checkAll_unitSound hc) fun d hd => ?_⟩
  rw [s.checkAll_inUnit] at hd
  rw [trip d hd]
  exact ⟨nofun, nofun⟩

/-- A channel that trips at its valley stands as a trip leaves it. -/
theorem State.checkAll_tripped (h : s.st c ≠ .trip) : (s.checkAll f).Tripped c := by
  rw [State.checkAll_eq]
  exact State.raiseEach_tripped fun trip => absurd trip h

/-- A check without pending compares keeps the active ones. -/
theorem State.valleyCheck_active (h : s.st c = .run ∨ s.st c = .hold → (s.mods.get c).pending = none) :
    (s.valleyCheck c).mod.active = (s.mods.get c).active := by
  by_cases closing : s.st c = .run ∨ s.st c = .hold
  · rw [State.valleyCheck_waits (decide_eq_true ⟨closing, h closing⟩)]
    rfl
  · rw [not_or] at closing
    rw [(State.valleyCheck_rests closing).1]

theorem State.checkAll_active (h : s.st c = .run ∨ s.st c = .hold → (s.mods.get c).pending = none) :
    ((s.checkAll f).mods.get c).active = (s.mods.get c).active := by
  have checked : (s.valleyChecked f).mods.get c = if f c then (s.valleyCheck c).mod else s.mods.get c := PerChan.get_ofFn ..
  rw [State.checkAll_eq, ((s.valleyChecked f).raiseEach_mods _ c).2, checked]
  split
  · exact State.valleyCheck_active h
  · rfl

/-- SAMPLE_MISSING and LOOP_LATE are not reported together: the burst has come, or not (R92). -/
theorem State.not_missing_and_late (h : s.sampleMissing c = true) : s.loopLate c = false := by
  simp only [State.sampleMissing, Bool.and_eq_true, Bool.not_eq_true'] at h
  simp [h.2]

/-- The reports of channel `c` among those of the channels of `f`, which name no other row for it. -/
theorem State.valleyReports_split (h : f c = true) : ∃ m n, s.valleyReports f =
    m ++ ((s.valleyCheck c).reports.map (Prod.mk c) ++ n) ∧ ∀ x ∈ m ++ n, x.1 ≠ c := by
  obtain ⟨a, b, split⟩ := List.append_of_mem (List.mem_finRange c)
  have nodup := List.nodup_finRange 8
  rw [split] at nodup
  obtain ⟨fresh, -⟩ := List.nodup_cons.mp (List.nodup_middle.mp nodup)
  refine ⟨a.flatMap fun d => if f d then (s.valleyCheck d).reports.map (Prod.mk d) else [],
    b.flatMap fun d => if f d then (s.valleyCheck d).reports.map (Prod.mk d) else [], ?_, fun x hx => ?_⟩
  · rw [State.valleyReports, split, List.flatMap_append, List.flatMap_cons, if_pos h]
  · rw [← List.flatMap_append] at hx
    obtain ⟨d, hd, hx⟩ := List.mem_flatMap.mp hx
    split at hx
    · obtain ⟨k, -, rfl⟩ := List.mem_map.mp hx
      exact fun e => fresh (e ▸ hd)
    · cases hx

/-- The kinds that a channel valley reports. -/
theorem State.valleyReports_kind {x : Chan × ChanKind} (h : x ∈ s.valleyReports f) : f x.1 = true ∧
    ((x.2 = .sampleMissing ∧ s.sampleMissing x.1 = true) ∨ (x.2 = .loopLate ∧ s.loopLate x.1 = true) ∨
      (x.2 = .comparesStale ∧ s.goesStale x.1 = true)) := by
  have mem := State.mem_valleyReports.mp h
  revert mem
  generalize s.sampleMissing x.1 = missing, s.loopLate x.1 = late, s.goesStale x.1 = stale
  simp only [Bool.and_eq_true, Bool.or_eq_true, decide_eq_true_eq, or_assoc]
  exact id

/-- A report routed to trip its lone channel, with COMPARES_STALE behind it or not. -/
theorem State.raiseEach_record_stale {k : ChanKind} {m n : List (Chan × ChanKind)} (lone : s.role c = .lone)
    (closing : (s.st c).closing = true) (used : (s.record c).inUse = true) (hm : s.bank.Unnamed c m)
    (self : (s.bank.route k.code).tripSelf = true) (other : k.code ≠ 3) (hn : s.bank.Unnamed c n) (stale : Bool) :
    s.RecordOf c k.code (if stale && decide (k.code ≠ 3) then [⟨3, s.ring.lastCycle⟩] else [])
      ((s.raiseEach (m ++ ([(c, k)] ++ ((if stale then [ChanKind.comparesStale] else []).map (Prod.mk c) ++ n)))).router.trips.get
        c) := by
  have names : (s.bank.route k.code).chanTrip k c c = some .self := Route.chanTrip_self (Bool.or_eq_true_iff.mpr (.inr self))
  cases stale with
  | true =>
    rw [if_pos (by simpa using other)]
    exact State.raiseEach_record_again lone closing used hm names (Route.chanTrip_self rfl) hn
  | false => exact State.raiseEach_record lone closing used hm names hn

/-- The trip record that the checks of the channels of `f` leave a lone channel in RUN or HOLD that trips, where no valley
report trips all: it names the channel's first report that trips, COMPARES_STALE behind another being a secondary cause. -/
theorem State.channelValleys_record (hf : f c = true) (lone : s.role c = .lone) (hc : s.st c = .run ∨ s.st c = .hold)
    (used : (s.record c).inUse = true)
    (noAll : (s.bank.route 3).tripAll = false ∧ (s.bank.route 5).tripAll = false ∧ (s.bank.route 7).tripAll = false)
    (trips : (s.goesStale c || (s.sampleMissing c && s.bank.chanTripClass .sampleMissing) ||
      (s.loopLate c && s.bank.chanTripClass .loopLate)) = true) {first : Nat}
    (hfirst : first = if s.sampleMissing c && (s.bank.route 5).tripSelf then 5
      else if s.loopLate c && (s.bank.route 7).tripSelf then 7 else 3) :
    s.RecordOf c first (if s.goesStale c && decide (first ≠ 3) then [⟨3, s.ring.lastCycle⟩] else [])
      ((s.channelValleys f).router.trips.get c) := by
  obtain ⟨all3, all5, all7⟩ := noAll
  obtain ⟨m, n, split, others⟩ := State.valleyReports_split (s := s) hf
  have route : ∀ x ∈ s.valleyReports f, (s.bank.route x.2.code).tripAll = false := fun x hx => by
    obtain ⟨-, ⟨e, -⟩ | ⟨e, -⟩ | ⟨e, -⟩⟩ := State.valleyReports_kind hx <;> rw [e] <;> assumption
  have unnamed : ∀ l, (∀ x ∈ l, x ∈ m ++ n) → (s.valleyChecked f).bank.Unnamed c l := fun l hl x hx => by
    refine (Route.chanTrip_eq_none_iff _ _).mpr ?_
    have mem : x ∈ s.valleyReports f := by
      rw [split]
      rcases List.mem_append.mp (hl x hx) with h | h <;> simp [h]
    rintro (⟨e, -⟩ | all)
    · exact others x (hl x hx) e.symm
    · rw [show (s.valleyChecked f).bank = s.bank from rfl, route x mem] at all
      cases all
  have closing : ((s.valleyChecked f).st c).closing = true := (ChanState.closing_iff _).mpr hc
  have unnamedM := unnamed m fun x hx => List.mem_append_left n hx
  have unnamedN := unnamed n fun x hx => List.mem_append_right m hx
  have router : (s.channelValleys f).router = ((s.valleyChecked f).raiseEach (s.valleyReports f)).router := by
    rw [s.channelValleys_router, State.checkAll_eq]
  rw [router, split, s.valleyCheck_reports c, List.map_append, List.append_assoc]
  by_cases missing : s.sampleMissing c = true ∧ (s.bank.route 5).tripSelf = true
  · rw [missing.1, missing.2, Bool.and_self, if_pos rfl] at hfirst
    rw [hfirst, missing.1, State.not_missing_and_late missing.1]
    exact State.raiseEach_record_stale (s := s.valleyChecked f) (k := .sampleMissing) lone closing used unnamedM missing.2
      (by decide) unnamedN _
  rw [← Bool.and_eq_true, Bool.not_eq_true] at missing
  rw [missing, if_neg Bool.false_ne_true] at hfirst
  by_cases late : s.loopLate c = true ∧ (s.bank.route 7).tripSelf = true
  · have notMissing : s.sampleMissing c = false := Bool.eq_false_iff.mpr fun h => by
      rw [State.not_missing_and_late h] at late
      cases late.1
    rw [late.1, late.2, Bool.and_self, if_pos rfl] at hfirst
    rw [hfirst, late.1, notMissing]
    exact State.raiseEach_record_stale (s := s.valleyChecked f) (k := .loopLate) lone closing used unnamedM late.2
      (by decide) unnamedN _
  rw [← Bool.and_eq_true, Bool.not_eq_true] at late
  rw [late, if_neg Bool.false_ne_true] at hfirst
  have stale : s.goesStale c = true := by
    have class5 : s.bank.chanTripClass .sampleMissing = (s.bank.route 5).tripSelf := by
      rw [Bank.chanTripClass, show ChanKind.sampleMissing.code = 5 from rfl, all5, Bool.or_false]; rfl
    have class7 : s.bank.chanTripClass .loopLate = (s.bank.route 7).tripSelf := by
      rw [Bank.chanTripClass, show ChanKind.loopLate.code = 7 from rfl, all7, Bool.or_false]; rfl
    rwa [class5, class7, missing, late, Bool.or_false, Bool.or_false] at trips
  rw [hfirst, stale, if_neg (by decide), if_pos rfl, ← List.append_assoc]
  refine State.raiseEach_record (s := s.valleyChecked f) lone closing used (fun x hx => ?_) (Route.chanTrip_self rfl) unnamedN
  rcases List.mem_append.mp hx with hm | own
  · exact unnamedM x hm
  · obtain ⟨k, hk, rfl⟩ := List.mem_map.mp own
    refine (Route.chanTrip_eq_none_iff _ _).mpr ?_
    rw [show (s.valleyChecked f).bank = s.bank from rfl]
    rcases List.mem_append.mp hk with h | h
    · obtain ⟨reported, e⟩ := List.mem_ite_nil_right.mp h
      obtain rfl := List.mem_singleton.mp e
      rw [reported, Bool.true_and] at missing
      simp [show ChanKind.sampleMissing.code = 5 from rfl, all5, missing, ChanKind.fixedTrip]
    · obtain ⟨reported, e⟩ := List.mem_ite_nil_right.mp h
      obtain rfl := List.mem_singleton.mp e
      rw [reported, Bool.true_and] at late
      simp [show ChanKind.loopLate.code = 7 from rfl, all7, late, ChanKind.fixedTrip]

end Sys2Proof.Machine
end

