-- ==== Sys2Proof/Proofs/ValleyMoves.lean ====
section
/-! PROOFS. The unit of a channel at its valley where no report trips it: what a routed hold leaves, and how a unit without routes
moves. -/

namespace Sys2Proof.Machine

variable {s : State} {c d : Chan} {f : Chan → Bool}

/-! ### Holds -/

/-- Where no report of the valley is trip-class, a report routed to hold its channel holds the unit. -/
theorem State.channelValleys_holds {k : ChanKind} (hk : (c, k) ∈ s.valleyReports f)
    (noTrip : ∀ x ∈ s.valleyReports f, s.bank.chanTripClass x.2 = false) (hc : s.UnitSound c)
    (h : (s.bank.route k.code).holdSelf = true) (closing : ∀ e, s.inUnit c e = true → s.st e = .run ∨ s.st e = .hold)
    (hd : s.inUnit c d = true) :
    (s.channelValleys f).st d = .hold ∧ ((s.channelValleys f).sup.get d).causes.routed = true := by
  have held : ∀ e, s.inUnit c e = true →
      (s.checkAll f).st e = .hold ∧ ((s.checkAll f).sup.get e).causes.routed = true := fun e he => by
    rw [State.checkAll_eq]
    exact State.raiseEach_holds_unit (s := s.valleyChecked f) hk noTrip hc h he ((ChanState.closing_iff _).mpr (closing e he))
  have still := State.supervise_still (f := f) (State.checkAll_unitSound (f := f) hc) fun e he => by
    rw [(held e ((s.checkAll_inUnit f c e).symm.trans he)).1]
    exact ⟨nofun, nofun⟩
  have sup := still.sup d ((s.checkAll_inUnit f c d).trans hd)
  rw [State.st, s.channelValleys_sup, sup]
  exact held d hd

/-! ### Units that no report trips or holds -/

/-- A unit whose channels all have their valley, in one state and gate state, at a valley whose reports have no routes. -/
structure State.QuietUnit (s : State) (f : Chan → Bool) (c : Chan) : Prop where
  sound : s.UnitSound c
  leads : (s.role c).isFollower = false
  valley : ∀ d, s.inUnit c d = true → f d = true
  st : ∀ d, s.inUnit c d = true → s.st d = s.st c
  drive : ∀ d, s.inUnit c d = true → (s.mods.get d).drive = (s.mods.get c).drive
  unrouted : ∀ x ∈ s.valleyReports f, s.bank.Unrouted x.2

/-- A lone channel of `f`, or a leader of `f` with its follower in the same state, is such a unit. -/
theorem State.QuietUnit.of_pair (hf : f c = true) (pair : s.role c = .lone ∨ (s.bank.pairFault = none ∧ ∃ k p,
      s.role c = .leader k p ∧ f p = true ∧ s.st p = s.st c ∧ (s.mods.get p).drive = (s.mods.get c).drive))
    (unrouted : ∀ x ∈ s.valleyReports f, s.bank.Unrouted x.2) : s.QuietUnit f c := by
  rcases pair with lone | ⟨sound, k, p, leader, hp, st, drive⟩
  · have only : ∀ d, s.inUnit c d = true → d = c := fun d hd =>
      ((s.inUnit_iff c d).mp hd).resolve_right (by rw [lone]; nofun)
    exact ⟨.inl lone, by rw [lone]; rfl, fun d hd => by rw [only d hd]; exact hf, fun d hd => by rw [only d hd],
      fun d hd => by rw [only d hd], unrouted⟩
  · have both : ∀ d, s.inUnit c d = true → d = c ∨ d = p := fun d hd =>
      ((s.inUnit_iff c d).mp hd).imp_right fun partner => by
        rw [leader] at partner
        exact (Option.some.inj partner).symm
    refine ⟨.inr sound, by rw [leader]; rfl, fun d hd => ?_, fun d hd => ?_, fun d hd => ?_, unrouted⟩
    · rcases both d hd with rfl | rfl <;> assumption
    · rcases both d hd with rfl | rfl
      · rfl
      · exact st
    · rcases both d hd with rfl | rfl
      · rfl
      · exact drive

namespace State.QuietUnit

/-- The checks of such a unit write its modulators alone. -/
theorem checkAll (h : s.QuietUnit f c) (hd : s.inUnit c d = true) : (s.checkAll f).sup.get d = s.sup.get d ∧
    (s.checkAll f).mods.get d = (s.valleyCheck d).mod ∧ (s.checkAll f).router.trips.get d = s.router.trips.get d := by
  have checked : (s.valleyChecked f).mods.get d = if f d then (s.valleyCheck d).mod else s.mods.get d := PerChan.get_ofFn ..
  rw [if_pos (h.valley d hd)] at checked
  obtain ⟨sup, mods, trips⟩ := State.raiseEach_unrouted (s := s.valleyChecked f) h.unrouted d
  rw [State.checkAll_eq]
  exact ⟨sup, mods.trans checked, trips⟩

/-- The unit in RUN, HOLD, OFF or TRIP: the supervisor leaves it. -/
theorem still (h : s.QuietUnit f c) (hc : s.st c ≠ .charge ∧ s.st c ≠ .stopping) (hd : s.inUnit c d = true) :
    (s.valleyMoved f).sup.get d = s.sup.get d ∧ (s.valleyMoved f).mods.get d = (s.valleyCheck d).mod := by
  have still := State.supervise_still (f := f) (State.checkAll_unitSound (f := f) h.sound) fun e he => by
    have he' := (s.checkAll_inUnit f c e).symm.trans he
    have st : (s.checkAll f).st e = s.st c := (congrArg Supervisor.st (h.checkAll he').1).trans (h.st e he')
    rw [st]
    exact hc
  have here := (s.checkAll_inUnit f c d).trans hd
  obtain ⟨sup, mods, -⟩ := h.checkAll hd
  exact ⟨(still.sup d here).trans sup, (still.mods d here).trans mods⟩

/-- The unit in CHARGE or STOPPING moves by its own act on the state the valley finds. -/
theorem moves (h : s.QuietUnit f c) (hc : s.st c = .charge ∨ s.st c = .stopping) : ∃ y : State,
    (∀ d, s.inUnit c d = true → y.sup.get d = s.sup.get d ∧ y.mods.get d = s.mods.get d) ∧
      y.store = s.store ∧ y.tb = s.tb ∧
      (∀ d, s.inUnit c d = true → (s.valleyMoved f).sup.get d = (y.superviseOne c).sup.get d ∧
        (s.valleyMoved f).mods.get d = (y.superviseOne c).mods.get d) ∧
      ∀ k, (y.superviseOne c).pairs.get k = {} → (s.valleyMoved f).pairs.get k = {} := by
  have resting : s.st c ≠ .run ∧ s.st c ≠ .hold := by rcases hc with e | e <;> rw [e] <;> exact ⟨nofun, nofun⟩
  obtain ⟨y, before, after⟩ := State.supervise_unit (x := s.checkAll f) (h.valley c (s.self_inUnit c))
    (State.checkAll_unitSound h.sound) (by rw [s.checkAll_role]; exact h.leads)
  have store : y.store = s.store := before.store.trans (s.checkAll_store f)
  have tb : y.tb = s.tb := by rw [before.frame]; exact s.checkAll_tb f
  refine ⟨y, fun d hd => ?_, store, tb, fun d hd => ?_, after.cleared⟩
  · have here := (s.checkAll_inUnit f c d).trans hd
    obtain ⟨sup, mods, -⟩ := h.checkAll hd
    refine ⟨(before.sup d here).trans sup, (before.mods d here).trans (mods.trans ?_)⟩
    exact (State.valleyCheck_rests (by rw [h.st d hd]; exact resting)).1
  · have here : (y.superviseOne c).inUnit c d = true := by
      rw [State.inUnit, State.role_congr ((y.superviseOne_store c).trans store)]
      exact hd
    exact ⟨after.sup d here, after.mods d here⟩

end State.QuietUnit

/-- What the supervisor's act on channel `c` leaves of a channel of its unit. -/
theorem State.superviseOne_begins (h : s.st c = .charge) (hd : (s.mods.get c).drive = false) (he : s.inUnit c d = true) :
    (s.superviseOne c).sup.get d = s.sup.get d ∧ (s.superviseOne c).mods.get d = (s.mods.get d).charging := by
  rw [s.superviseOne_beginCharging h hd]
  exact ⟨rfl, by rw [State.beginCharging_get, if_pos he]⟩

theorem State.superviseOne_counts (h : s.st c = .charge) (hd : (s.mods.get c).drive = true)
    (hn : s.nextCharge c < (s.record c).chargePeriods) (he : s.inUnit c d = true) :
    (s.superviseOne c).sup.get d = { s.sup.get d with chargeCount := s.nextCharge c } ∧
      (s.superviseOne c).mods.get d = s.mods.get d := by
  rw [s.superviseOne_countCharge h hd, State.countCharge, if_neg (not_le.mpr hn)]
  exact ⟨by rw [State.setCharge, State.unitSup_get, if_pos he], rfl⟩

theorem State.superviseOne_enters (h : s.st c = .charge) (hd : (s.mods.get c).drive = true)
    (hn : (s.record c).chargePeriods ≤ s.nextCharge c) :
    (∀ d, s.inUnit c d = true →
      (s.superviseOne c).sup.get d = { s.sup.get d with st := .run, chargeCount := s.nextCharge c } ∧
        (s.superviseOne c).mods.get d = { s.mods.get d with active := centred s.tb.set.p, drive := true }) ∧
      ∀ k, (s.role c).slot = some k → (s.superviseOne c).pairs.get k = {} := by
  have unit : ∀ d, (s.setCharge c (s.nextCharge c)).inUnit c d = s.inUnit c d := fun _ => rfl
  rw [s.superviseOne_countCharge h hd, State.countCharge, if_pos hn]
  refine ⟨fun d he => ?_, fun k hk => ?_⟩
  · obtain ⟨sup, mods⟩ := State.enterRun_get (s.setCharge c (s.nextCharge c)) c d
    rw [sup, mods, if_pos ((unit d).trans he), if_pos ((unit d).trans he), State.setCharge, State.unitSup_get, if_pos he]
    exact ⟨rfl, rfl⟩
  · rw [State.enterRun, State.clearPair_pairs_get]
    exact if_pos hk

theorem State.superviseOne_ends (h : s.st c = .stopping) (he : s.inUnit c d = true) :
    (s.superviseOne c).sup.get d = { s.sup.get d with st := .off } ∧
      (s.superviseOne c).mods.get d = (s.mods.get d).inhibit := by
  obtain ⟨sup, mods⟩ := State.enterOff_get s c d
  rw [s.superviseOne_enterOff h, sup, mods, if_pos he, if_pos he]
  exact ⟨rfl, rfl⟩

/-! ### Units after their valley -/

namespace State.QuietUnit

/-- The valley of a unit in RUN or HOLD loads its compares (R91). -/
theorem loads (h : s.QuietUnit f c) (hc : s.st c = .run ∨ s.st c = .hold) (hd : s.inUnit c d = true) :
    (s.channelValleys f).sup.get d = s.sup.get d ∧
      (∀ x, (s.mods.get d).pending = some x →
        ((s.channelValleys f).mods.get d).active = x.minPulsed s.tb.set.p (s.record d).minPulse ∧
          ((s.channelValleys f).mods.get d).pending = none) ∧
      ((s.mods.get d).pending = none → ((s.channelValleys f).mods.get d).active = (s.mods.get d).active) := by
  have passing : s.st c ≠ .charge ∧ s.st c ≠ .stopping := by rcases hc with e | e <;> rw [e] <;> exact ⟨nofun, nofun⟩
  obtain ⟨sup, mods⟩ := h.still passing hd
  obtain ⟨-, active, pending, -⟩ := s.channelValleys_mods f d
  rw [mods] at active pending
  refine ⟨sup, fun x hx => ?_, fun hx => active.trans (State.valleyCheck_active fun _ => hx)⟩
  rw [State.valleyCheck_loads (by rw [h.st d hd]; exact hc) hx] at active pending
  exact ⟨active, pending⟩

/-- The unit in OFF or TRIP stays. -/
theorem stays (h : s.QuietUnit f c) (hc : s.st c = .off ∨ s.st c = .trip) (hd : s.inUnit c d = true) :
    (s.channelValleys f).sup.get d = s.sup.get d ∧
      ((s.channelValleys f).mods.get d).drive = (s.mods.get d).drive ∧
      ((s.channelValleys f).mods.get d).active = (s.mods.get d).active := by
  have passing : s.st c ≠ .charge ∧ s.st c ≠ .stopping := by rcases hc with e | e <;> rw [e] <;> exact ⟨nofun, nofun⟩
  have resting : s.st d ≠ .run ∧ s.st d ≠ .hold := by
    rw [h.st d hd]
    rcases hc with e | e <;> rw [e] <;> exact ⟨nofun, nofun⟩
  obtain ⟨sup, mods⟩ := h.still passing hd
  obtain ⟨drive, active, -⟩ := s.channelValleys_mods f d
  rw [mods, (State.valleyCheck_rests resting).1] at drive active
  exact ⟨sup, drive, active⟩

/-- The first valley in CHARGE drives 0, 0, 0 (R127). -/
theorem begins (h : s.QuietUnit f c) (hc : s.st c = .charge) (dark : (s.mods.get c).drive = false) (hd : s.inUnit c d = true) :
    (s.channelValleys f).sup.get d = s.sup.get d ∧ ((s.channelValleys f).mods.get d).drive = true ∧
      ((s.channelValleys f).mods.get d).active = ⟨0, 0, 0⟩ := by
  obtain ⟨y, found, store, -, moved, -⟩ := h.moves (.inl hc)
  obtain ⟨sup, mods⟩ := moved d hd
  obtain ⟨ySup, -⟩ := found d hd
  obtain ⟨ownSup, ownMods⟩ := found c (s.self_inUnit c)
  obtain ⟨sup', mods'⟩ := State.superviseOne_begins (s := y) (c := c) (d := d) ((congrArg Supervisor.st ownSup).trans hc)
    (by rw [ownMods]; exact dark) (by rw [State.inUnit, State.role_congr store]; exact hd)
  obtain ⟨drive, active, -⟩ := s.channelValleys_mods f d
  rw [mods, mods'] at drive active
  exact ⟨sup.trans (sup'.trans ySup), drive, active⟩

/-- A later valley in CHARGE counts (R127). -/
theorem counts (h : s.QuietUnit f c) (hc : s.st c = .charge) (drives : (s.mods.get c).drive = true)
    (hn : s.nextCharge c < (s.record c).chargePeriods) (hd : s.inUnit c d = true) :
    (s.channelValleys f).sup.get d = { s.sup.get d with chargeCount := s.nextCharge c } ∧
      ((s.channelValleys f).mods.get d).active = (s.mods.get d).active ∧
      ((s.channelValleys f).mods.get d).drive = true := by
  obtain ⟨y, found, store, -, moved, -⟩ := h.moves (.inl hc)
  obtain ⟨sup, mods⟩ := moved d hd
  obtain ⟨ySup, yMods⟩ := found d hd
  obtain ⟨ownSup, ownMods⟩ := found c (s.self_inUnit c)
  have next : y.nextCharge c = s.nextCharge c := by rw [State.nextCharge, ownSup]
  obtain ⟨sup', mods'⟩ := State.superviseOne_counts (s := y) (c := c) (d := d) ((congrArg Supervisor.st ownSup).trans hc)
    (by rw [ownMods]; exact drives) (by rw [next, State.record_congr store]; exact hn)
    (by rw [State.inUnit, State.role_congr store]; exact hd)
  obtain ⟨drive, active, -⟩ := s.channelValleys_mods f d
  rw [mods, mods', yMods] at drive active
  rw [ySup, next] at sup'
  exact ⟨sup.trans sup', active, drive.trans ((h.drive d hd).trans drives)⟩

/-- The valley at which the count reaches charge_periods enters RUN on half duty, with the pair runtime cleared (R127). -/
theorem enters (h : s.QuietUnit f c) (hc : s.st c = .charge) (drives : (s.mods.get c).drive = true)
    (hn : (s.record c).chargePeriods ≤ s.nextCharge c) :
    (∀ k, (s.role c).slot = some k → (s.channelValleys f).pairs.get k = {}) ∧ ∀ d, s.inUnit c d = true →
      (s.channelValleys f).sup.get d = { s.sup.get d with st := .run, chargeCount := s.nextCharge c } ∧
        ((s.channelValleys f).mods.get d).active = centred s.tb.set.p ∧
        ((s.channelValleys f).mods.get d).drive = true := by
  obtain ⟨y, found, store, tb, moved, cleared⟩ := h.moves (.inl hc)
  obtain ⟨ownSup, ownMods⟩ := found c (s.self_inUnit c)
  have next : y.nextCharge c = s.nextCharge c := by rw [State.nextCharge, ownSup]
  obtain ⟨entered, slot⟩ := State.superviseOne_enters (s := y) (c := c) ((congrArg Supervisor.st ownSup).trans hc)
    (by rw [ownMods]; exact drives) (by rw [next, State.record_congr store]; exact hn)
  refine ⟨fun k hk => cleared k (slot k (by rw [State.role_congr store]; exact hk)), fun d hd => ?_⟩
  obtain ⟨sup, mods⟩ := moved d hd
  obtain ⟨ySup, -⟩ := found d hd
  obtain ⟨sup', mods'⟩ := entered d (by rw [State.inUnit, State.role_congr store]; exact hd)
  obtain ⟨drive, active, -⟩ := s.channelValleys_mods f d
  rw [mods, mods', tb] at active
  rw [mods, mods'] at drive
  rw [ySup, next] at sup'
  exact ⟨sup.trans sup', active, drive⟩

/-- The valley in STOPPING ends it in OFF (R129). -/
theorem ends (h : s.QuietUnit f c) (hc : s.st c = .stopping) (hd : s.inUnit c d = true) :
    (s.channelValleys f).sup.get d = { s.sup.get d with st := .off } ∧
      ((s.channelValleys f).mods.get d).drive = false ∧ ((s.channelValleys f).mods.get d).pending = none ∧
      ((s.channelValleys f).mods.get d).dark := by
  obtain ⟨y, found, store, -, moved, -⟩ := h.moves (.inr hc)
  obtain ⟨sup, mods⟩ := moved d hd
  obtain ⟨ySup, -⟩ := found d hd
  obtain ⟨ownSup, -⟩ := found c (s.self_inUnit c)
  obtain ⟨sup', mods'⟩ := State.superviseOne_ends (s := y) (c := c) (d := d) ((congrArg Supervisor.st ownSup).trans hc)
    (by rw [State.inUnit, State.role_congr store]; exact hd)
  obtain ⟨drive, -, pending, -⟩ := s.channelValleys_mods f d
  obtain ⟨-, off, none, -⟩ := (y.mods.get d).inhibit_dark
  have movedOff : ((s.valleyMoved f).mods.get d).drive = false := by rw [mods, mods']; exact off
  rw [mods, mods'] at pending
  rw [ySup] at sup'
  exact ⟨sup.trans sup', drive.trans movedOff, pending.trans none, State.channelValleys_dark movedOff⟩

end State.QuietUnit

/-! ### The obligation -/

/-- A channel in RUN or HOLD that reports waits for its compares (R92). -/
theorem State.waits_of_reported {k : ChanKind} (hk : (c, k) ∈ s.valleyReports f) (hc : s.st c = .run ∨ s.st c = .hold) :
    s.waits c = true := by
  obtain ⟨-, ⟨-, h⟩ | ⟨-, h⟩ | ⟨-, h⟩⟩ := State.valleyReports_kind hk
  · have closing : decide (s.st c = .charge ∨ s.st c = .stopping ∨ s.st c = .trip) = false :=
      decide_eq_false (by rcases hc with e | e <;> rw [e] <;> decide)
    rw [State.sampleMissing, closing, Bool.or_false] at h
    exact (Bool.and_eq_true_iff.mp (Bool.and_eq_true_iff.mp h).1).1
  · exact (Bool.and_eq_true_iff.mp (Bool.and_eq_true_iff.mp h).1).1
  · exact (Bool.and_eq_true_iff.mp h).1

/-- The kind of a report that a bank routes to no one. -/
theorem Bank.Unrouted.of_report {b : Bank} {k : ChanKind} (hk : k = .sampleMissing ∨ k = .loopLate)
    (h : ∀ n ∈ [5, 7], (b.route n).tripSelf = false ∧ (b.route n).tripAll = false ∧ (b.route n).holdSelf = false ∧
      (b.route n).holdAll = false) : b.Unrouted k := by
  have code : k.code ∈ [5, 7] := by rcases hk with rfl | rfl <;> decide
  obtain ⟨tripSelf, tripAll, holdSelf, holdAll⟩ := h k.code code
  exact ⟨by rcases hk with rfl | rfl <;> exact ⟨rfl, rfl⟩, ⟨tripSelf, tripAll⟩, holdSelf, holdAll⟩

/-- Settles O42: the checks are a row of raises on the state the valleys find, then each unit moves by its own act, and strobes and
gate lines leave what both did. -/
theorem channelValleysReportAndMoveUnits : Obligations.ChannelValleysReportAndMoveUnits := by
  unfold Obligations.ChannelValleysReportAndMoveUnits
  intro f s t waits missing mine late stale reports marked trips unit
  have reported : ∀ c k, reports k c = true ↔ (c, k) ∈ s.valleyReports f := fun c k => State.mem_valleyReports.symm
  have unit_iff : ∀ c d, unit c d ↔ s.inUnit c d = true := fun c d => (s.inUnit_iff c d).symm
  have router : t.router = (s.checkAll f).router := s.channelValleys_router f
  refine ⟨⟨State.eq_of_fields (by simp [t]) (by simp [t]) (by simp [t]) (by simp [t]) (by simp [t]) (by simp [t]) (by simp [t]),
    s.channelValleys_engine f fun _ => rfl, s.channelValleys_stale f, fun c k h => ?_, fun c k h => ?_, ?_, ?_, ?_,
    fun ⟨c, k, h⟩ => State.channelValleys_lines (List.ne_nil_of_mem ((reported c k).mp h)), fun h => ?_⟩,
    fun c hf sound used ht => ?_, fun c hf sound noTrip closing held d hd => ?_, fun c hf noStale routes pair => ?_⟩
  · rw [s.channelValleys_chanFlag, if_pos ((reported c k).mp h)]
  · rw [s.channelValleys_chanFlag, if_neg fun m => by rw [(reported c k).mpr m] at h; cases h]
  · rw [router, State.checkAll_eq, State.raiseEach_dev]
    rfl
  · rw [router, State.checkAll_eq, State.raiseEach_kept]
    rfl
  · rw [router, State.checkAll_eq, ((s.valleyChecked f).raiseEach_raisedFrom _).devKept]
    rfl
  · refine State.channelValleys_quiet (List.eq_nil_iff_forall_not_mem.mpr fun x hx => ?_)
    exact Bool.false_ne_true ((h x.1 x.2).symm.trans ((reported x.1 x.2).mpr hx))
  · obtain ⟨k, hk, tripClass⟩ : ∃ k, reports k c = true ∧ s.bank.chanTripClass k = true := by
      have found := ht
      simp only [trips, Bool.or_eq_true, Bool.and_eq_true] at found
      rcases found with (h | ⟨h, tc⟩) | ⟨h, tc⟩
      · exact ⟨.comparesStale, by simp [reports, hf, h], rfl⟩
      · exact ⟨.sampleMissing, by simp [reports, hf, h], tc⟩
      · exact ⟨.loopLate, by simp [reports, hf, h], tc⟩
    have mem := (reported c k).mp hk
    obtain ⟨trip, still⟩ := State.channelValleys_trips mem tripClass sound used
    have own := (s.checkAll f).self_inUnit c
    have st : t.st c = .trip := (congrArg Supervisor.st (still.sup c own)).trans trip
    obtain ⟨drive, active, pending, -⟩ := s.channelValleys_mods f c
    rw [still.mods c own] at drive active pending
    refine ⟨st, by rw [State.channelValleys_strobe hf, st], fun notTrip => ?_, fun closing => ?_, fun lone closing a3 a5 a7 => ?_⟩
    · obtain ⟨-, off, none, record⟩ := State.checkAll_tripped (f := f) notTrip trip
      refine ⟨State.channelValleys_dark (by rw [still.mods c own]; exact off), drive.trans off, pending.trans none, ?_⟩
      rw [router]
      exact record
    · exact active.trans (State.checkAll_active fun _ => (of_decide_eq_true (State.waits_of_reported mem closing)).2)
    · exact State.channelValleys_record hf lone closing used ⟨a3, a5, a7⟩ ht rfl
  · have noClass : ∀ x ∈ s.valleyReports f, s.bank.chanTripClass x.2 = false := fun x hx => by
      obtain ⟨hfx, kind⟩ := State.valleyReports_kind hx
      have quiet := noTrip x.1 hfx
      simp only [trips, Bool.or_eq_false_iff] at quiet
      obtain ⟨⟨notStale, notMissing⟩, notLate⟩ := quiet
      rcases kind with ⟨e, h⟩ | ⟨e, h⟩ | ⟨e, h⟩
      · rw [show missing x.1 = true from h, Bool.true_and] at notMissing
        rw [e, notMissing]
      · rw [show late x.1 = true from h, Bool.true_and] at notLate
        rw [e, notLate]
      · cases h.symm.trans notStale
    have hd' := (unit_iff c d).mp hd
    rcases held with ⟨h, route⟩ | ⟨h, route⟩
    · exact State.channelValleys_holds (k := .sampleMissing) ((reported c _).mp (by simp [reports, hf, h])) noClass sound route
        (fun e he => closing e ((unit_iff c e).mpr he)) hd'
    · exact State.channelValleys_holds (k := .loopLate) ((reported c _).mp (by simp [reports, hf, h])) noClass sound route
        (fun e he => closing e ((unit_iff c e).mpr he)) hd'
  · have unrouted : ∀ x ∈ s.valleyReports f, s.bank.Unrouted x.2 := fun x hx => by
      obtain ⟨hfx, kind⟩ := State.valleyReports_kind hx
      rcases kind with ⟨e, h⟩ | ⟨e, h⟩ | ⟨-, h⟩
      · refine .of_report (.inl e) (routes.resolve_left fun none => ?_)
        cases h.symm.trans (none x.1 hfx).1
      · refine .of_report (.inr e) (routes.resolve_left fun none => ?_)
        cases h.symm.trans (none x.1 hfx).2
      · cases h.symm.trans (noStale x.1 hfx)
    have quiet : s.QuietUnit f c := .of_pair hf pair unrouted
    refine ⟨fun charge drives reached => (quiet.enters charge drives reached).1, fun d hd => ?_⟩
    have hd := (unit_iff c d).mp hd
    refine ⟨State.channelValleys_strobe (quiet.valley d hd), by rw [router]; exact (quiet.checkAll hd).2.2, fun h => quiet.loads h hd,
      fun h dark => quiet.begins h dark hd, fun h drives less => quiet.counts h drives less hd,
      fun h drives reached => (quiet.enters h drives reached).2 d hd, fun h => quiet.ends h hd, fun h => quiet.stays h hd⟩

end Sys2Proof.Machine
end
